-- ==== Sys2Proof/Word.lean ====
section
/-! DEFINITION. Word.lean: the machine word and the register width of a configuration (00_scope.md R2, D1).

A register of the hardware is XLEN bits wide, XLEN being 32 or 64. The model keeps every register in a 64-bit container
(notes/assumptions/2.md): with XLEN = 32 the upper 32 bits of the container are zero. The functions that cut and extend values
to XLEN are in Machine/Bits.lean. -/

namespace Sys2Proof

/-- The container of an XLEN-bit value (notes/assumptions/2.md). -/
abbrev Word := BitVec 64

/-- One byte of memory. -/
abbrev Byte := BitVec 8

/-- The parameter XLEN of 00_scope.md R2. -/
inductive XLen where
  | rv32
  | rv64
deriving DecidableEq, Repr

/-- XLEN as a number of bits. -/
def XLen.bits : XLen → Nat
  | .rv32 => 32
  | .rv64 => 64

end Sys2Proof
end

