-- ==== Sys2Proof/Config.lean ====
section
/-! DEFINITION. Config.lean: the parameters of the model (00_scope.md R2) and its free values.

A configuration is plain data and stands in State as the field `cfg`, so that a statement about every state is a statement about
every configuration (notes/assumptions/1.md). `Config.wf` (WellFormed.lean) says which configurations the spec allows. -/

namespace Sys2Proof

/-- The four privilege levels, 60_exceptions.md R210. -/
inductive Mode where
  | u
  | s
  | h
  | m
deriving DecidableEq, Repr

/-- The parameter `MODES`: the four supported combinations of 00_scope.md R2. -/
inductive ModeSet where
  | m
  | mu
  | msu
  | mhsu
deriving DecidableEq, Repr

/-- The parameter `GATEWAY_KIND[s]` of 00_scope.md R2. -/
inductive GatewayKind where
  | level
  | edge
  | message
deriving DecidableEq, Repr

/-- What an access that the spec refuses does (D25, 20_memory.md R84): `stop`, the model gives it no meaning; `accessFault`, it
raises the access-fault exception, code 1, 5 or 7 (notes/assumptions/15.md). -/
inductive BadAccessPolicy where
  | stop
  | accessFault
deriving DecidableEq, Repr

/-- What the machine does where the spec refuses something whose value it leaves unspecified: `refuse`, the model gives it no meaning,
as the spec decides (D7, D27, D29); `free`, it completes and leaves a free value (the model's, notes/assumptions/11.md to 14.md). -/
inductive OpenPolicy where
  | refuse
  | free
deriving DecidableEq, Repr

/-- A region of the physical address space. -/
structure Region where
  base : Nat
  size : Nat
deriving DecidableEq, Repr

/-- The parameters of 00_scope.md R2, one field each. -/
structure Config where
  /-- `XLEN`. -/
  xlen : XLen
  /-- `MODES`. -/
  modes : ModeSet
  /-- `N_EXT`; it needs U in `MODES`. -/
  nExt : Bool
  /-- `NHARTS`. -/
  nharts : Nat
  /-- `MEDELEG_MASK`, and the masks of the lower exception delegation registers. -/
  medelegMask : Word
  hedelegMask : Word
  sedelegMask : Word
  /-- `MIDELEG_MASK`, and the masks of the lower interrupt delegation registers. -/
  midelegMask : Word
  hidelegMask : Word
  sidelegMask : Word
  /-- `LOCAL_IRQ_BITS`, as a mask of bit positions; only positions 12 and above count. -/
  localIrq : Word
  /-- `NSRC`. -/
  nsrc : Nat
  /-- `NTGT`. -/
  ntgt : Nat
  /-- `MAX_PRI`. -/
  maxPri : Nat
  /-- The sources with `PRIO_VARIABLE[s]` false, each with its `PRIO_FIXED[s]`; every other source is variable. -/
  prioFixed : List (Nat × Nat)
  /-- The targets with `THRESHOLD_HARDWIRED_ZERO[t]`. -/
  thrZero : List Nat
  /-- `GATEWAY_KIND[s]`; a source not listed is level-triggered. -/
  gatewayKind : List (Nat × GatewayKind)
  /-- `EDGE_QUEUE_DEPTH[s]`; `none` is unbounded, a source not listed has depth 1. -/
  edgeDepth : List (Nat × Option Nat)
  /-- `TARGET_MAP`: target number, hart, mode. -/
  targetMap : List (Nat × (Nat × Mode))
  /-- `PLIC_BASE`. -/
  plicBase : Nat
  /-- `MSIP_ADDR[h]`, in the order of the harts. -/
  msipAddr : List Nat
  /-- `MTIMECMP_ADDR[h]`, in the order of the harts. -/
  mtimecmpAddr : List Nat
  /-- `MTIME_ADDR`, if `mtime` is memory-mapped (D17). -/
  mtimeAddr : Option Nat
  /-- `RESET_PC`. -/
  resetPc : Word
  /-- `CLAIM_USES_THRESHOLD`. -/
  claimUsesThreshold : Bool
  /-- `PLIC_PERM` beyond its default: a mode, a hart and a target whose page they may access (notes/assumptions/31.md). -/
  plicGrants : List (Mode × (Nat × Nat))
  /-- `RAM`. -/
  ram : List Region
  /-- The program text, a part of `RAM` (20_memory.md R100). -/
  text : List Region
  /-- What a refused access does (notes/assumptions/15.md). -/
  badAccess : BadAccessPolicy
  /-- Whether a store to the PLIC pending array is ignored (D44, notes/assumptions/16.md). -/
  ignorePendingWrite : Bool
  /-- What Write Register does with a priority or threshold above `MAX_PRI` (D27, 60_exceptions.md R234; notes/assumptions/14.md). -/
  highPriority : OpenPolicy
  /-- What a CSR write of an unsupported mode to an xPP field, or of an unsupported code to `xcause`, does (D29, 10_state.md R27, R48;
  notes/assumptions/11.md, 12.md). -/
  unsupportedWrite : OpenPolicy
  /-- What an instruction does whose `pc + 4` overflows 2^XLEN (D7, 10_state.md R22; notes/assumptions/13.md). -/
  pcOverflow : OpenPolicy
  /-- `ISA_STRING`; no rule reads it. -/
  isaString : String
deriving DecidableEq, Repr

/-- A free value (93_implementation_defined.md, "any value"): the n-th draw. It has no body, so nothing can be proved of its
value (notes/assumptions/10.md). -/
opaque Config.freeWord : Nat → Word

/-- The configuration of the machine `State.reset` (DESIGN CHOICE, notes/assumptions/1.md and 7.md): the common setting of
95_test_vectors.md section 3, with all four modes, the N extension and the two harts of the PLIC diagram. -/
def Config.default : Config where
  xlen := .rv32
  modes := .mhsu
  nExt := true
  nharts := 2
  medelegMask := 0xFFF#64
  hedelegMask := 0xFFF#64
  sedelegMask := 0xFFF#64
  midelegMask := 0xFFF#64
  hidelegMask := 0xFFF#64
  sidelegMask := 0xFFF#64
  localIrq := 0#64
  nsrc := 31
  ntgt := 8
  maxPri := 7
  prioFixed := []
  thrZero := []
  gatewayKind := [(7, .edge)]
  edgeDepth := []
  targetMap := [(0, (0, .m)), (1, (0, .h)), (2, (0, .s)), (3, (0, .u)), (4, (1, .m)), (5, (1, .h)), (6, (1, .s)), (7, (1, .u))]
  plicBase := 0x40000000
  msipAddr := [0x44000000, 0x44000004]
  mtimecmpAddr := [0x44000100, 0x44000108]
  mtimeAddr := some 0x44000200
  resetPc := 0x80000000#64
  claimUsesThreshold := false
  plicGrants := []
  ram := [⟨0x80000000, 0x2000⟩]
  text := [⟨0x80000000, 0x1000⟩]
  badAccess := .accessFault
  ignorePendingWrite := false
  highPriority := .refuse
  unsupportedWrite := .refuse
  pcOverflow := .refuse
  isaString := ""

end Sys2Proof
end

