-- ==== Sys2Proof/Syntax.lean ====
section
/-! DEFINITION. Syntax.lean: the instructions, one constructor per row of spec/opcode_table.json (30_encoding.md R116). -/

namespace Sys2Proof

/-- An integer register number, a 5-bit field (30_encoding.md R111). -/
abbrev Reg := BitVec 5

/-- A CSR number, a 12-bit field (10_state.md R54). -/
abbrev CsrNum := BitVec 12

/-- The instructions. Operands stand in the order of the assembler's (30_encoding.md R120), less the punctuation; immediates are
the fields of the word before extension (R112). -/
inductive Instr where
  /-- ECALL, 42_environment.md R160. -/
  | ecall
  /-- EBREAK, 42_environment.md R161. -/
  | ebreak
  /-- URET, 40_trap_return.md R131. -/
  | uret
  /-- SRET, 40_trap_return.md R132. -/
  | sret
  /-- HRET, 40_trap_return.md R133. -/
  | hret
  /-- MRET, 40_trap_return.md R134. -/
  | mret
  /-- CSRRW rd, csr, rs1: 41_csr_access.md R143. -/
  | csrrw (rd : Reg) (csr : CsrNum) (rs1 : Reg)
  /-- CSRRS rd, csr, rs1: 41_csr_access.md R144. -/
  | csrrs (rd : Reg) (csr : CsrNum) (rs1 : Reg)
  /-- CSRRC rd, csr, rs1: 41_csr_access.md R145. -/
  | csrrc (rd : Reg) (csr : CsrNum) (rs1 : Reg)
  /-- CSRRWI rd, csr, zimm: 41_csr_access.md R146. -/
  | csrrwi (rd : Reg) (csr : CsrNum) (zimm : BitVec 5)
  /-- CSRRSI rd, csr, zimm: 41_csr_access.md R147. -/
  | csrrsi (rd : Reg) (csr : CsrNum) (zimm : BitVec 5)
  /-- CSRRCI rd, csr, zimm: 41_csr_access.md R148. -/
  | csrrci (rd : Reg) (csr : CsrNum) (zimm : BitVec 5)
  /-- LUI rd, imm20: 43_support_subset.md R167. -/
  | lui (rd : Reg) (imm : BitVec 20)
  /-- ADDI rd, rs1, imm12: 43_support_subset.md R168. -/
  | addi (rd : Reg) (rs1 : Reg) (imm : BitVec 12)
  /-- SLLI rd, rs1, shamt: 43_support_subset.md R169. -/
  | slli (rd : Reg) (rs1 : Reg) (shamt : BitVec 6)
  /-- LW rd, imm12(rs1): 43_support_subset.md R170. -/
  | lw (rd : Reg) (imm : BitVec 12) (rs1 : Reg)
  /-- SW rs2, imm12(rs1): 43_support_subset.md R171. -/
  | sw (rs2 : Reg) (imm : BitVec 12) (rs1 : Reg)
  /-- BLT rs1, rs2, label: 43_support_subset.md R172; the offset has 13 bits and is even. -/
  | blt (rs1 : Reg) (rs2 : Reg) (off : BitVec 13)
deriving DecidableEq, Repr

end Sys2Proof
end

