-- ==== Sys2Proof/Decode.lean ====
section
/-! DEFINITION. Decode.lean: the decoder, total on any bytes and rejecting by name, and the encoder (30_encoding.md). -/

namespace Sys2Proof

/-- Why a sequence of bytes is no instruction of this spec. The machine takes Illegal instruction on each (30_encoding.md R117). -/
inductive DecodeError where
  /-- Not four bytes (R110: every instruction is 4 bytes). -/
  | length
  /-- Bits 1:0 are not 11: the compressed extension, which this spec does not have (R110, R119). -/
  | compressed
  /-- A 32-bit word that matches no row of the opcode table (R117). -/
  | unallocated
deriving DecidableEq, Repr

/-! ### The fields of a word, 30_encoding.md R111 and R112 -/

def rdField (w : BitVec 32) : Reg := w.extractLsb' 7 5
def rs1Field (w : BitVec 32) : Reg := w.extractLsb' 15 5
def rs2Field (w : BitVec 32) : Reg := w.extractLsb' 20 5
def csrField (w : BitVec 32) : CsrNum := w.extractLsb' 20 12
/-- The 12-bit immediate of the I format. -/
def immI (w : BitVec 32) : BitVec 12 := w.extractLsb' 20 12
/-- The 12-bit immediate of the S format: ins[31:25] ++ ins[11:7]. -/
def immS (w : BitVec 32) : BitVec 12 := w.extractLsb' 25 7 ++ w.extractLsb' 7 5
/-- The 13-bit offset of the B format: ins[31] ++ ins[7] ++ ins[30:25] ++ ins[11:8] ++ 0. -/
def immB (w : BitVec 32) : BitVec 13 :=
  w.extractLsb' 31 1 ++ w.extractLsb' 7 1 ++ w.extractLsb' 25 6 ++ w.extractLsb' 8 4 ++ 0#1
/-- The 20-bit field of the U format. -/
def immU (w : BitVec 32) : BitVec 20 := w.extractLsb' 12 20
/-- The shift amount: ins[25:20]; with XLEN = 32 the mask of the row makes its top bit 0. -/
def shamtField (w : BitVec 32) : BitVec 6 := w.extractLsb' 20 6

/-- One row of the opcode table: a word is the row's instruction when `w &&& mask = pattern` (30_encoding.md R116). -/
structure OpcodeRow where
  pattern : BitVec 32
  mask : BitVec 32
  build : BitVec 32 → Instr

/-- The mask of SLLI, the only one that depends on XLEN (30_encoding.md R115, R123). -/
def slliMask : XLen → BitVec 32
  | .rv32 => 0xFE00707F#32
  | .rv64 => 0xFC00707F#32

/-- The rows of 30_encoding.md R114. -/
def systemRows : List OpcodeRow :=
  [ ⟨0x00000073#32, 0xFFFFFFFF#32, fun _ => .ecall⟩,
    ⟨0x00100073#32, 0xFFFFFFFF#32, fun _ => .ebreak⟩,
    ⟨0x00200073#32, 0xFFFFFFFF#32, fun _ => .uret⟩,
    ⟨0x10200073#32, 0xFFFFFFFF#32, fun _ => .sret⟩,
    ⟨0x20200073#32, 0xFFFFFFFF#32, fun _ => .hret⟩,
    ⟨0x30200073#32, 0xFFFFFFFF#32, fun _ => .mret⟩,
    ⟨0x00001073#32, 0x0000707F#32, fun w => .csrrw (rdField w) (csrField w) (rs1Field w)⟩,
    ⟨0x00002073#32, 0x0000707F#32, fun w => .csrrs (rdField w) (csrField w) (rs1Field w)⟩,
    ⟨0x00003073#32, 0x0000707F#32, fun w => .csrrc (rdField w) (csrField w) (rs1Field w)⟩,
    ⟨0x00005073#32, 0x0000707F#32, fun w => .csrrwi (rdField w) (csrField w) (rs1Field w)⟩,
    ⟨0x00006073#32, 0x0000707F#32, fun w => .csrrsi (rdField w) (csrField w) (rs1Field w)⟩,
    ⟨0x00007073#32, 0x0000707F#32, fun w => .csrrci (rdField w) (csrField w) (rs1Field w)⟩ ]

/-- The rows of 30_encoding.md R115. -/
def supportRows (xl : XLen) : List OpcodeRow :=
  [ ⟨0x00000037#32, 0x0000007F#32, fun w => .lui (rdField w) (immU w)⟩,
    ⟨0x00000013#32, 0x0000707F#32, fun w => .addi (rdField w) (rs1Field w) (immI w)⟩,
    ⟨0x00001013#32, slliMask xl, fun w => .slli (rdField w) (rs1Field w) (shamtField w)⟩,
    ⟨0x00002003#32, 0x0000707F#32, fun w => .lw (rdField w) (immI w) (rs1Field w)⟩,
    ⟨0x00002023#32, 0x0000707F#32, fun w => .sw (rs2Field w) (immS w) (rs1Field w)⟩,
    ⟨0x00004063#32, 0x0000707F#32, fun w => .blt (rs1Field w) (rs2Field w) (immB w)⟩ ]

/-- The opcode table, 18 rows (30_encoding.md R116). -/
def opcodeRows (xl : XLen) : List OpcodeRow := systemRows ++ supportRows xl

/-- Whether a word is the instruction of a row (30_encoding.md R116). -/
def OpcodeRow.matches (r : OpcodeRow) (w : BitVec 32) : Bool := w &&& r.mask == r.pattern

/-- The instruction of a 32-bit word (30_encoding.md R110, R116, R117, R123). -/
def decode (xl : XLen) (w : BitVec 32) : Except DecodeError Instr :=
  if w.extractLsb' 0 2 = 3#2 then
    match (opcodeRows xl).find? (fun r => r.matches w) with
    | some r => .ok (r.build w)
    | none => .error .unallocated
  else .error .compressed

/-- The word that four bytes store, the byte at the lowest address first (20_memory.md R82, 30_encoding.md R110). -/
def wordOfBytes (b0 b1 b2 b3 : Byte) : BitVec 32 := b3 ++ b2 ++ b1 ++ b0

/-- The four bytes of a word, the lowest address first (20_memory.md R82). -/
def bytesOfWord (w : BitVec 32) : List Byte :=
  [w.extractLsb' 0 8, w.extractLsb' 8 8, w.extractLsb' 16 8, w.extractLsb' 24 8]

/-- The instruction that a sequence of bytes stores, the lowest address first. -/
def decodeBytes (xl : XLen) : List Byte → Except DecodeError Instr
  | [b0, b1, b2, b3] => decode xl (wordOfBytes b0 b1 b2 b3)
  | _ => .error .length

/-! ### The encoder, from the same tables -/

/-- The I formats: a 12-bit field, rs1, funct3, rd, opcode (30_encoding.md R111). -/
def encodeI (imm : BitVec 12) (rs1 : Reg) (funct3 : BitVec 3) (rd : Reg) (opcode : BitVec 7) : BitVec 32 :=
  imm ++ rs1 ++ funct3 ++ rd ++ opcode

/-- The S format: imm[11:5], rs2, rs1, funct3, imm[4:0], opcode (30_encoding.md R111). -/
def encodeS (imm : BitVec 12) (rs2 rs1 : Reg) (funct3 : BitVec 3) (opcode : BitVec 7) : BitVec 32 :=
  imm.extractLsb' 5 7 ++ rs2 ++ rs1 ++ funct3 ++ imm.extractLsb' 0 5 ++ opcode

/-- The B format: imm[12] ++ imm[10:5], rs2, rs1, funct3, imm[4:1] ++ imm[11], opcode (30_encoding.md R111). -/
def encodeB (off : BitVec 13) (rs2 rs1 : Reg) (funct3 : BitVec 3) (opcode : BitVec 7) : BitVec 32 :=
  off.extractLsb' 12 1 ++ off.extractLsb' 5 6 ++ rs2 ++ rs1 ++ funct3 ++ off.extractLsb' 1 4 ++ off.extractLsb' 11 1 ++ opcode

/-- The U format: imm[31:12], rd, opcode (30_encoding.md R111). -/
def encodeU (imm : BitVec 20) (rd : Reg) (opcode : BitVec 7) : BitVec 32 := imm ++ rd ++ opcode

/-- The word of an instruction (30_encoding.md R111 to R115). -/
def encode : Instr → BitVec 32
  | .ecall => 0x00000073#32
  | .ebreak => 0x00100073#32
  | .uret => 0x00200073#32
  | .sret => 0x10200073#32
  | .hret => 0x20200073#32
  | .mret => 0x30200073#32
  | .csrrw rd csr rs1 => encodeI csr rs1 0b001#3 rd 0b1110011#7
  | .csrrs rd csr rs1 => encodeI csr rs1 0b010#3 rd 0b1110011#7
  | .csrrc rd csr rs1 => encodeI csr rs1 0b011#3 rd 0b1110011#7
  | .csrrwi rd csr zimm => encodeI csr zimm 0b101#3 rd 0b1110011#7
  | .csrrsi rd csr zimm => encodeI csr zimm 0b110#3 rd 0b1110011#7
  | .csrrci rd csr zimm => encodeI csr zimm 0b111#3 rd 0b1110011#7
  | .lui rd imm => encodeU imm rd 0b0110111#7
  | .addi rd rs1 imm => encodeI imm rs1 0b000#3 rd 0b0010011#7
  | .slli rd rs1 shamt => encodeI (0#6 ++ shamt) rs1 0b001#3 rd 0b0010011#7
  | .lw rd imm rs1 => encodeI imm rs1 0b010#3 rd 0b0000011#7
  | .sw rs2 imm rs1 => encodeS imm rs2 rs1 0b010#3 0b0100011#7
  | .blt rs1 rs2 off => encodeB off rs2 rs1 0b100#3 0b1100011#7

/-- The instruction the decoder reads from a table row's word: bits at `nbits` and above are 0, the bytes are laid out
little-endian (20_memory.md R82), and XLEN is that of the machine after reset (notes/assumptions/33.md). -/
def decodeTableWord (nbits w : Nat) : Option Instr :=
  (decodeBytes Config.default.xlen (bytesOfWord (BitVec.ofNat 32 (w % 2 ^ nbits)))).toOption

end Sys2Proof
end

