-- ==== Sys2Proof/Machine/Bits.lean ====
section
/-! DEFINITION. Machine/Bits.lean: cutting, extending and comparing XLEN-bit values held in 64-bit containers, and single bits of
a word (00_scope.md R4, R5). -/

namespace Sys2Proof.Machine

/-- A value modulo 2^XLEN. -/
def trunc (xl : XLen) (v : Word) : Word := (v.setWidth xl.bits).setWidth 64

/-- `sext_XLEN`: the sign extension of a field to XLEN bits (00_scope.md R5). -/
def sext (xl : XLen) {n : Nat} (v : BitVec n) : Word := trunc xl (v.signExtend 64)

/-- The signed value of an XLEN-bit word (00_scope.md R4). -/
def signedVal (xl : XLen) (v : Word) : Int := (v.setWidth xl.bits).toInt

/-- The value of a container is an XLEN-bit value. -/
abbrev fits (xl : XLen) (v : Word) : Prop := trunc xl v = v

/-- Addition modulo 2^XLEN. -/
def addX (xl : XLen) (a b : Word) : Word := trunc xl (a + b)

/-- A word with its low two bits cleared. -/
def align4 (v : Word) : Word := v &&& ~~~3#64

/-- A word with one bit set to a value. -/
def setBit (w : Word) (n : Nat) (b : Bool) : Word :=
  if b then w ||| (1#64 <<< n) else w &&& ~~~(1#64 <<< n)

/-- The bits of `old` outside a mask and the bits of `new` inside it: a masked register write. -/
def merge (mask old new : Word) : Word := (old &&& ~~~mask) ||| (new &&& mask)

/-- The highest bit of an XLEN-bit word: the Interrupt bit of `xcause` (10_state.md R48). -/
def topBit (xl : XLen) : Word := 1#64 <<< (xl.bits - 1)

/-- All bits of an XLEN-bit word. -/
def allOnes (xl : XLen) : Word := trunc xl (BitVec.allOnes 64)

/-- The low 32 bits of a 64-bit counter. -/
def loHalf (v : BitVec 64) : BitVec 32 := v.extractLsb' 0 32

/-- The high 32 bits of a 64-bit counter. -/
def hiHalf (v : BitVec 64) : BitVec 32 := v.extractLsb' 32 32

end Sys2Proof.Machine
end

