-- ==== Sys2Proof/Machine/Modes.lean ====
section
/-! DEFINITION. Machine/Modes.lean: the privilege modes, which of them a configuration has, and the masks of implemented bits that
follow (10_state.md R21 to R31, R40 to R46; 60_exceptions.md R190). -/

namespace Sys2Proof.Machine

/-- The two-bit number of a mode, U = 0, S = 1, H = 2, M = 3 (10_state.md R21). -/
def modeNum : Mode → Nat
  | .u => 0
  | .s => 1
  | .h => 2
  | .m => 3

/-- The two-bit encoding of a mode (10_state.md R21). -/
def modeBits (x : Mode) : BitVec 2 := BitVec.ofNat 2 (modeNum x)

/-- The mode of a two-bit encoding (10_state.md R21). -/
def modeOfBits (b : BitVec 2) : Mode :=
  if b = 0#2 then .u else if b = 1#2 then .s else if b = 2#2 then .h else .m

/-- The order U < S < H < M (10_state.md R21). -/
def modeLe (x y : Mode) : Bool := decide (modeNum x ≤ modeNum y)

/-- The strict order of the modes. -/
def modeLt (x y : Mode) : Bool := decide (modeNum x < modeNum y)

/-- The more privileged of two modes. -/
def modeMax (x y : Mode) : Mode := if modeLe x y then y else x

/-- Whether a mode is in `MODES`: {M}, {M,U}, {M,S,U} or {M,H,S,U} (00_scope.md R2). -/
def hasMode (c : Config) : Mode → Bool
  | .m => true
  | .u => c.modes != .m
  | .s => c.modes == .msu || c.modes == .mhsu
  | .h => c.modes == .mhsu

/-- Whether the extension N is present; it needs U (10_state.md R29). -/
def hasN (c : Config) : Bool := c.nExt && hasMode c .u

/-- Whether a mode can handle traps (60_exceptions.md R190, 40_trap_return.md R135). -/
def canHandle (c : Config) : Mode → Bool
  | .m => true
  | .h => hasMode c .h
  | .s => hasMode c .s
  | .u => hasN c

/-- The handler modes `HM`, descending (60_exceptions.md R190). -/
def handlerModes (c : Config) : List Mode := [.m, .h, .s, .u].filter (canHandle c)

/-- Whether some mode below x can handle traps. -/
def handlerBelow (c : Config) (x : Mode) : Bool := (handlerModes c).any (fun z => modeLt z x)

/-- The supported modes up to x, the values that the field xPP may hold (10_state.md R27). -/
def supportedUpTo (c : Config) (x : Mode) : List Mode := [.u, .s, .h, .m].filter (fun z => hasMode c z && modeLe z x)

/-! ### Implemented bits of mip, mie and the delegation registers -/

/-- The three bits of a mode in `mip` and `mie`: software, timer, external (10_state.md R32). -/
def levelBits (x : Mode) : Word := 0x111#64 <<< modeNum x

/-- The bits 11:0 of `mip` and `mie` whose privilege level is supported (10_state.md R40). -/
def levelMask (c : Config) : Word :=
  (if hasMode c .u then levelBits .u else 0#64) ||| (if hasMode c .s then levelBits .s else 0#64) |||
  (if hasMode c .h then levelBits .h else 0#64) ||| levelBits .m

/-- `LOCAL_IRQ_BITS`: positions 12 and above (10_state.md R41). -/
def localMask (c : Config) : Word := trunc c.xlen c.localIrq &&& ~~~0xFFF#64

/-- The implemented bits of `mip` and `mie` (10_state.md R40, R41). -/
def irqMask (c : Config) : Word := levelMask c ||| localMask c

/-- The reserved bits of `mip` and `mie`, whose value when read is free (10_state.md R41). -/
def irqReserved (c : Config) : Word := trunc c.xlen (~~~(0xFFF#64 ||| localMask c))

/-- The bits of `mip` that a write through its own address changes: USIP, SSIP, HSIP, UTIP, STIP, HTIP of supported levels
(10_state.md R33). -/
def mipWriteMask (c : Config) : Word := 0x077#64 &&& levelMask c

/-- `WR(x)` of 10_state.md R43. -/
def viewWriteMask (c : Config) : Mode → Word
  | .m => mipWriteMask c
  | .h => 0x007#64
  | .s => 0x003#64
  | .u => 0x001#64

/-- The bits an exception delegation register of mode x can hold: the implementation's mask, less the reserved codes 12 and above
(10_state.md R44, R46). -/
def edelegMask (c : Config) : Mode → Word
  | .m => c.medelegMask &&& 0xFFF#64
  | .h => c.hedelegMask &&& 0xFFF#64
  | .s => c.sedelegMask &&& 0xFFF#64
  | .u => 0#64

/-- The bits an interrupt delegation register of mode x can hold: the implementation's mask over the layout of `mip`
(10_state.md R45, R46). -/
def idelegMask (c : Config) : Mode → Word
  | .m => c.midelegMask &&& (0xFFF#64 ||| localMask c)
  | .h => c.hidelegMask &&& (0xFFF#64 ||| localMask c)
  | .s => c.sidelegMask &&& (0xFFF#64 ||| localMask c)
  | .u => 0#64

end Sys2Proof.Machine
end

