-- ==== Sys2Proof/Machine/Flags.lean ====
section
/-! DEFINITION. Machine/Flags.lean: the fields of `mstatus`, which are the only status bits the hardware has (10_state.md R24 to
R31, R64), and the interrupt-enable and privilege stack of R26. -/

namespace Sys2Proof.Machine

/-! ### Positions, 10_state.md R24 -/

/-- The bit of `xIE`. -/
def ieBit (x : Mode) : Nat := modeNum x

/-- The bit of `xPIE`. -/
def pieBit (x : Mode) : Nat := 4 + modeNum x

/-- The bits of `xPP`; U has none. -/
def ppMask : Mode → Word
  | .m => 0x1800#64
  | .h => 0x0600#64
  | .s => 0x0100#64
  | .u => 0#64

/-- VM, PUM and MPRV: the fields whose non-zero values are outside the spec (10_state.md R31). -/
def translationMask : Word := 0x1F060000#64

/-- VM, PUM, MPRV, XS and FS: the stored bits that no rule reads (10_state.md R31). -/
def storedMask : Word := 0x1F07E000#64

/-- The reserved (WPRI) fields: bits 23:19 and XLEN-2:29. -/
def mstatusReserved : XLen → Word
  | .rv32 => 0x60F80000#64
  | .rv64 => 0x7FFFFFFFE0F80000#64

/-! ### Which fields a configuration implements, 10_state.md R28 to R30 -/

/-- The writable `IE`, `PIE` and `PP` bits of one mode. -/
def fieldMask (c : Config) : Mode → Word
  | .u => if hasN c then 0x0011#64 else 0#64
  | .s => if hasMode c .s then 0x0122#64 else 0#64
  | .h => if hasMode c .h then 0x0644#64 else 0#64
  | .m => if c.modes = .m then 0x0088#64 else 0x1888#64

/-- The stack fields of the modes up to x: what `xstatus` shows (10_state.md R53). -/
def stackMask (c : Config) : Mode → Word
  | .u => fieldMask c .u
  | .s => fieldMask c .u ||| fieldMask c .s
  | .h => fieldMask c .u ||| fieldMask c .s ||| fieldMask c .h
  | .m => fieldMask c .u ||| fieldMask c .s ||| fieldMask c .h ||| fieldMask c .m

/-- The bits that a CSR write of `mstatus`, or of the view of mode x, changes (41_csr_access.md R142). -/
def statusWriteMask (c : Config) : Mode → Word
  | .m => stackMask c .m ||| storedMask
  | x => stackMask c x

/-- The bits of `mstatus` that hold state. -/
def mstatusImpl (c : Config) : Word := stackMask c .m ||| storedMask ||| topBit c.xlen

/-- The bits hard-wired to one: MPP when only M exists (10_state.md R28). -/
def mstatusOnes (c : Config) : Word := if c.modes = .m then 0x1800#64 else 0#64

/-- `mstatus` with every hard-wired bit at its hard-wired value (10_state.md R28, R29, R30). -/
def fixMstatus (c : Config) (w : Word) : Word := (w &&& mstatusImpl c) ||| mstatusOnes c

/-! ### The fields -/

/-- `IE(x)` of a status word. -/
def getIE (w : Word) (x : Mode) : Bool := w.getLsbD (ieBit x)

/-- `PIE(x)` of a status word. -/
def getPIE (w : Word) (x : Mode) : Bool := w.getLsbD (pieBit x)

/-- `PP(x)` of a status word; `PP(U)` is the constant U (10_state.md R27). -/
def getPP (w : Word) : Mode → Mode
  | .m => modeOfBits (w.extractLsb' 11 2)
  | .h => modeOfBits (w.extractLsb' 9 2)
  | .s => if w.getLsbD 8 then .s else .u
  | .u => .u

/-- `IE(x) <- b`. -/
def setIE (w : Word) (x : Mode) (b : Bool) : Word := setBit w (ieBit x) b

/-- `PIE(x) <- b`. -/
def setPIE (w : Word) (x : Mode) (b : Bool) : Word := setBit w (pieBit x) b

/-- The bits of `xPP` that hold mode y. -/
def ppBits (x y : Mode) : Word :=
  match x with
  | .m => (modeBits y).setWidth 64 <<< 11
  | .h => (modeBits y).setWidth 64 <<< 9
  | .s => if y = .u then 0#64 else 0x100#64
  | .u => 0#64

/-- `PP(x) <- y`; U has no such field (10_state.md R27). -/
def setPP (w : Word) (x y : Mode) : Word := merge (ppMask x) w (ppBits x y)

/-- The field xPP of a status word, if the mode x exists, holds a supported mode up to x (10_state.md R27). -/
def ppLegal (c : Config) (w : Word) (x : Mode) : Bool := !hasMode c x || (supportedUpTo c x).contains (getPP w x)

/-! ### The stack on trap entry and on return -/

/-- `mstatus` after a trap from mode y into mode x: PIE(x) is the old IE(y), IE(x) is 0, PP(x) is y (60_exceptions.md R200). -/
def pushStack (c : Config) (w : Word) (y x : Mode) : Word :=
  fixMstatus c (setPP (setIE (setPIE w x (getIE w y)) x false) x y)

/-- The mode that xRET writes into xPP: U, or M if U is not supported (40_trap_return.md R130). -/
def bottomMode (c : Config) : Mode := if hasMode c .u then .u else .m

/-- `mstatus` after xRET to y = PP(x): IE(y) is the old PIE(x), then PIE(x) is 1 and PP(x) is the bottom mode
(40_trap_return.md R130). -/
def popStack (c : Config) (w : Word) (x : Mode) : Word :=
  fixMstatus c (setPP (setPIE (setIE w (getPP w x) (getPIE w x)) x true) x (bottomMode c))

end Sys2Proof.Machine
end

