-- ==== Sys2Proof/Machine/Store.lean ====
section
/-! DEFINITION. Machine/Store.lean: sparse data by number, as a list of (number, value) pairs in one canonical form: numbers strictly
rising, and no entry equal to what an unlisted number reads as. RAM and the PLIC's register arrays are kept so. -/

namespace Sys2Proof.Machine

/-- The value at a number; `d` is what an unlisted number reads as. -/
def storeGet {α : Type} (d : α) : List (Nat × α) → Nat → α
  | [], _ => d
  | (k, v) :: rest, a => if k = a then v else storeGet d rest a

/-- The list with the value at a number replaced; storing `d` removes the entry. -/
def storePut {α : Type} [DecidableEq α] (d : α) : List (Nat × α) → Nat → α → List (Nat × α)
  | [], a, v => if v = d then [] else [(a, v)]
  | (k, w) :: rest, a, v =>
    if a < k then (if v = d then (k, w) :: rest else (a, v) :: (k, w) :: rest)
    else if a = k then (if v = d then rest else (a, v) :: rest)
    else (k, w) :: storePut d rest a v

/-- The canonical form: numbers strictly rising, no entry equal to the default. -/
abbrev StoreWf {α : Type} [DecidableEq α] (d : α) (m : List (Nat × α)) : Prop :=
  m.Pairwise (fun p q => p.1 < q.1) ∧ ∀ p ∈ m, p.2 ≠ d

end Sys2Proof.Machine
end

