-- ==== Sys2Proof/Machine/State.lean ====
section
/-! DEFINITION. Machine/State.lean: the state of the machine, as plain data, the reasons a step can stop, and the state after reset
(10_state.md). -/

namespace Sys2Proof.Machine

/-! ### The state of a hart -/

/-- The trap registers that each mode has under its own letter: `xepc`, `xcause`, `xtvec`, `xscratch`, `xbadaddr`
(10_state.md R48 to R52). -/
structure TrapRegs where
  /-- `mepc`, `hepc`, `sepc`, `uepc` (R50). -/
  epc : Word
  /-- `mcause`, `hcause`, `scause`, `ucause` (R48, R49). -/
  cause : Word
  /-- `mtvec`, `htvec`, `stvec`, `utvec` (R51). -/
  tvec : Word
  /-- `mscratch`, `hscratch`, `sscratch`, `uscratch` (R52). -/
  scratch : Word
  /-- `mbadaddr`, `hbadaddr`, `sbadaddr`, `ubadaddr` (R52). -/
  badaddr : Word
deriving DecidableEq, Repr

/-- A load from a claim register whose response is outstanding (20_memory.md R96): its target and its destination register. -/
structure Waiting where
  target : Nat
  rd : BitVec 5
deriving DecidableEq, Repr

/-- The state of one hart (10_state.md R20). -/
structure Hart where
  /-- `x[0]` to `x[31]` (R23). -/
  x : Vector Word 32
  /-- The program counter (R22). -/
  pc : Word
  /-- The current privilege mode (R21). -/
  priv : Mode
  /-- `mstatus` (R24). -/
  mstatus : Word
  /-- `mip` (R32). -/
  mip : Word
  /-- `mie` (R42). -/
  mie : Word
  /-- `medeleg`, `hedeleg`, `sedeleg` (R44, R47). -/
  medeleg : Word
  hedeleg : Word
  sedeleg : Word
  /-- `mideleg`, `hideleg`, `sideleg` (R45, R47). -/
  mideleg : Word
  hideleg : Word
  sideleg : Word
  /-- `mepc`, `mcause`, `mtvec`, `mscratch`, `mbadaddr`. -/
  mTrap : TrapRegs
  /-- `hepc`, `hcause`, `htvec`, `hscratch`, `hbadaddr`. -/
  hTrap : TrapRegs
  /-- `sepc`, `scause`, `stvec`, `sscratch`, `sbadaddr`. -/
  sTrap : TrapRegs
  /-- `uepc`, `ucause`, `utvec`, `uscratch`, `ubadaddr`, with the extension N (R55). -/
  uTrap : TrapRegs
  /-- The counters `cycle` and `instret` (R56), at the value of their last read (notes/assumptions/19.md). -/
  cycle : BitVec 64
  instret : BitVec 64
  /-- `mtimecmp[h]` (R57). -/
  mtimecmp : BitVec 64
  /-- The claim load that holds the hart, if there is one (20_memory.md R96). -/
  waiting : Option Waiting
deriving DecidableEq, Repr

/-! ### The state of the PLIC -/

/-- The state of one gateway (10_state.md R60). -/
structure Gateway where
  /-- `inflight[s]`: a request was forwarded and its completion has not been received. -/
  inflight : Bool
  /-- `level[s]`: the input of a level-triggered gateway. -/
  level : Bool
  /-- `queued[s]`: events received and not yet forwarded. -/
  queued : Nat
deriving DecidableEq, Repr

/-- A gateway with no input, nothing queued and nothing in flight. -/
def Gateway.idle : Gateway := ⟨false, false, 0⟩

/-- A register write request to the PLIC core (10_state.md R61, 60_exceptions.md R234). -/
inductive PlicWrite where
  /-- `prio[s] <- v`. -/
  | prio (s : Nat) (v : Nat)
  /-- Word w of the enables of target t `<- v`. -/
  | enable (t : Nat) (w : Nat) (v : BitVec 32)
  /-- `thr[t] <- v`. -/
  | threshold (t : Nat) (v : Nat)
deriving DecidableEq, Repr

/-- A claim response on its way to the hart that sent the claim (10_state.md R61). -/
structure ClaimResponse where
  hart : Nat
  target : Nat
  id : Nat
deriving DecidableEq, Repr

/-- The state of the PLIC: the core, the gateways and the messages in flight (10_state.md R59, R60, R61). -/
structure Plic where
  /-- `prio[s]` of the variable sources; unlisted is 0. -/
  prio : List (Nat × Nat)
  /-- `IP[s]`, bit s. -/
  ip : BitVec 1024
  /-- `IE[t][s]`, bit s of target t; unlisted is 0. -/
  ie : List (Nat × BitVec 1024)
  /-- `thr[t]`; unlisted is 0. -/
  thr : List (Nat × Nat)
  /-- The gateways; unlisted is idle. -/
  gateways : List (Nat × Gateway)
  /-- `reqQ`: interrupt requests from gateways to the core. -/
  reqQ : List Nat
  /-- `wrQ`: register writes to the core, each with the hart that sent it. -/
  wrQ : List (Nat × PlicWrite)
  /-- `claimQ`: claims, each with the hart that sent it and its target. -/
  claimQ : List (Nat × Nat)
  /-- `respQ`: claim responses. -/
  respQ : List ClaimResponse
  /-- `complQ`: completions, each a target and a source id. -/
  complQ : List (Nat × Nat)
deriving DecidableEq, Repr

/-! ### The schedule -/

/-- One step of one agent (00_scope.md R3). A state's schedule says which agents step next and what the environment does
(notes/assumptions/3.md). -/
inductive Event where
  /-- Hart h executes its next instruction, or finishes its outstanding claim load. -/
  | run (h : Nat)
  /-- Hart h takes interrupt i, if it is takeable (60_exceptions.md R198). -/
  | interrupt (h i : Nat)
  /-- The timer advances (60_exceptions.md R221). -/
  | tick
  /-- The comparator of hart h sets MTIP (60_exceptions.md R222). -/
  | compare (h : Nat)
  /-- The environment drives the input of level gateway s (60_exceptions.md R231). -/
  | line (s : Nat) (b : Bool)
  /-- An edge or a message arrives at gateway s (60_exceptions.md R231). -/
  | edge (s : Nat)
  /-- The platform drives the local interrupt bit i of hart h (10_state.md R41). -/
  | localIrq (h i : Nat) (b : Bool)
  /-- Gateway s forwards a request (60_exceptions.md R231). -/
  | forward (s : Nat)
  /-- The core accepts a request of gateway s (60_exceptions.md R232). -/
  | accept (s : Nat)
  /-- The core performs the oldest register write of hart h (60_exceptions.md R234). -/
  | plicWrite (h : Nat)
  /-- The core processes the claim of hart h (60_exceptions.md R233). -/
  | plicClaim (h : Nat)
  /-- Gateway s receives a completion from target t (60_exceptions.md R239). -/
  | complete (t s : Nat)
  /-- The notification of target t arrives (60_exceptions.md R237). -/
  | notify (t : Nat)
deriving DecidableEq, Repr

/-! ### Memory -/

/-- RAM: bytes by physical address, in the canonical form of Machine/Store.lean. -/
abbrev Memory := List Host.Cell

/-- What a byte of RAM that nothing has written reads as (DESIGN CHOICE, notes/assumptions/9.md). -/
def blankByte : Byte := 0#8

/-- Which harts have read and written a byte of RAM (20_memory.md R97; the model's own, notes/assumptions/26.md). -/
structure RamUse where
  readers : List Nat
  writers : List Nat
deriving DecidableEq, Repr

/-- A byte no hart has accessed. -/
def RamUse.none : RamUse := ⟨[], []⟩

/-! ### Synchronous exceptions -/

/-- The synchronous exceptions of Table 3.6 (60_exceptions.md R181). -/
inductive Exn where
  | fetchMisaligned
  | fetchFault
  | illegal
  | breakpoint
  | loadMisaligned
  | loadFault
  | storeMisaligned
  | storeFault
  /-- Environment call from a mode. -/
  | envCall (y : Mode)
deriving DecidableEq, Repr

/-! ### The state of the machine -/

/-- The whole machine. `hart` is the current hart, whose number is `hid`; `parked` are the other harts with their numbers
(notes/assumptions/4.md). -/
structure State where
  /-- The parameters, which no step changes (00_scope.md R2). -/
  cfg : Config
  /-- The number of the current hart. -/
  hid : Nat
  /-- The current hart. -/
  hart : Hart
  /-- Every other hart, with its number. -/
  parked : List (Nat × Hart)
  /-- RAM (20_memory.md R97). -/
  mem : Memory
  /-- The record of RAM accesses that R97 needs (notes/assumptions/26.md). -/
  ramUse : List (Nat × RamUse)
  /-- `mtime` (10_state.md R57). -/
  mtime : BitVec 64
  /-- The PLIC. -/
  plic : Plic
  /-- The events to come (notes/assumptions/3.md). -/
  sched : List Event
  /-- How many free values were drawn (notes/assumptions/10.md). -/
  draws : Nat
deriving DecidableEq, Repr

/-! ### The reasons a step can stop -/

/-- Why a data or fetch access is one the spec gives no meaning (20_memory.md R81, R84, R88, R89, R92, R93). -/
inductive AccessError where
  /-- A reserved or unlisted PLIC address (R92). -/
  | plicReserved
  /-- A PLIC access that is no aligned 32-bit word (R84). -/
  | plicWidth
  /-- A PLIC access without permission (R93). -/
  | plicDenied
  /-- A store to the pending array (R92, R251). -/
  | pendingWrite
  /-- An MSIP access from below M (R89). -/
  | msipDenied
  /-- A timer access from below M (R88). -/
  | timerDenied
  /-- An MSIP or timer access of a width or offset that R85 and R89 do not give. -/
  | deviceWidth
  /-- A store to `mtime`, which is read-only to software (D17). -/
  | timeReadOnly
  /-- An address in no region (R81). -/
  | unmapped
deriving DecidableEq, Repr

/-- The machine stops: the step reached something the spec's machine does not have. -/
inductive Fault where
  /-- LW or SW at an address in no region (R81), under the policy `stop`. Safe: the spec gives the access no meaning. -/
  | unmapped (a : Nat)
  /-- An instruction fetch outside the program text (R81, R100), under the policy `stop`. Safe. -/
  | fetchUnmapped (a : Nat)
  /-- Two harts touch one byte of RAM, one of them storing (R97). Safe: the spec gives such a program no meaning. -/
  | ramRace (a : Nat)
deriving DecidableEq, Repr

/-- The model gives the step no meaning. -/
inductive Refusal where
  /-- An instruction whose meaning is not written; raised by no arm of this model. -/
  | notModelled (mnemonic : String)
  /-- LW or SW at a device address that the spec refuses, under the policy `stop`. Safe. -/
  | device (e : AccessError) (a : Nat)
  /-- SW into the program text (R100). Safe. -/
  | storeToText (a : Nat)
  /-- A CSR write that makes VM, PUM or MPRV of `mstatus` non-zero (R31). Safe. -/
  | translationBits
  /-- A CSR write that puts an unsupported mode into an xPP field (10_state.md R27), where the configuration refuses it. Safe: R27
  refuses it. -/
  | unsupportedMode
  /-- A CSR write of an Exception Code to `xcause` that the implementation cannot produce (10_state.md R48), where the configuration
  refuses it. Safe: R48 refuses it. -/
  | unsupportedCode
  /-- A register write that sets a priority or threshold above `MAX_PRI` (60_exceptions.md R234), where the configuration refuses it:
  raised by the PLIC core's step, and by a PLIC register load that waits for the hart's own writes. Safe: R234 refuses it. -/
  | highPriority (v : Nat)
  /-- An instruction, or the finish of a claim load, whose `pc + 4` overflows 2^XLEN (10_state.md R22), where the configuration refuses
  it. Safe: R22 refuses it. -/
  | pcOverflow
  /-- The timer event at `mtime` = 2^64 - 1: the premise of R221 is that this does not happen. Safe. -/
  | mtimeOverflow
deriving DecidableEq, Repr

/-- The three outcomes of a step of this machine. -/
abbrev Outcome := Host.Outcome State Fault Refusal

/-! ### Reset -/

/-- Trap registers after reset: unspecified by R63, zero here (DESIGN CHOICE, notes/assumptions/5.md). -/
def TrapRegs.reset : TrapRegs := ⟨0#64, 0#64, 0#64, 0#64, 0#64⟩

/-- A hart after reset (10_state.md R63): M-mode, at `RESET_PC`, interrupts off, hard-wired bits at their values; what R63
leaves unspecified is zero (DESIGN CHOICE, notes/assumptions/5.md). -/
def Hart.reset (c : Config) : Hart where
  x := Vector.replicate 32 0#64
  pc := c.resetPc
  priv := .m
  mstatus := fixMstatus c 0#64
  mip := 0#64
  mie := 0#64
  medeleg := 0#64
  hedeleg := 0#64
  sedeleg := 0#64
  mideleg := 0#64
  hideleg := 0#64
  sideleg := 0#64
  mTrap := TrapRegs.reset
  hTrap := TrapRegs.reset
  sTrap := TrapRegs.reset
  uTrap := TrapRegs.reset
  cycle := 0#64
  instret := 0#64
  mtimecmp := 0#64
  waiting := none

/-- The PLIC after reset (10_state.md R63): nothing pending, in flight or queued. -/
def Plic.reset : Plic where
  prio := []
  ip := 0#1024
  ie := []
  thr := []
  gateways := []
  reqQ := []
  wrQ := []
  claimQ := []
  respQ := []
  complQ := []

/-- The machine of any configuration after reset: every hart at `RESET_PC` in M-mode (10_state.md R63, 70_reset_and_hazards.md
R302), hart 0 the current one. -/
def State.resetWith (c : Config) : State where
  cfg := c
  hid := 0
  hart := Hart.reset c
  parked := (List.range (c.nharts - 1)).map (fun k => (k + 1, Hart.reset c))
  mem := []
  ramUse := []
  mtime := 0#64
  plic := Plic.reset
  sched := []
  draws := 0

/-- The machine right after reset, with the default configuration (notes/assumptions/1.md). -/
def State.reset : State := State.resetWith Config.default

end Sys2Proof.Machine
end

