-- ==== Sys2Proof/Machine/Ops.lean ====
section
/-! DEFINITION. Machine/Ops.lean: the named operations over registers, RAM and the trap state that every instruction is written with:
taking a trap (60_exceptions.md R200) and returning from one (40_trap_return.md R130) among them. -/

namespace Sys2Proof.Machine

/-! ### Registers, 10_state.md R22 and R23 -/

/-- A read of an integer register: `x[0]` reads 0. -/
def getReg (x : Vector Word 32) (r : BitVec 5) : Word := if r = 0#5 then 0#64 else x[r.toNat]'r.isLt

/-- A write of an integer register: a write to `x[0]` is discarded. -/
def putReg (x : Vector Word 32) (r : BitVec 5) (v : Word) : Vector Word 32 :=
  if r = 0#5 then x else x.set r.toNat v r.isLt

/-- `x[r]` of the current hart. -/
def State.getX (s : State) (r : BitVec 5) : Word := getReg s.hart.x r

/-- `x[r] <- v` in the current hart. -/
def State.setX (s : State) (r : BitVec 5) (v : Word) : State :=
  { s with hart := { s.hart with x := putReg s.hart.x r v } }

/-- `pc <- v` in the current hart. -/
def State.setPc (s : State) (v : Word) : State := { s with hart := { s.hart with pc := v } }

/-- A new current hart state. -/
def State.setHart (s : State) (h : Hart) : State := { s with hart := h }

/-- One free value was used. -/
def State.drawn (s : State) : State := { s with draws := s.draws + 1 }

/-- The next free XLEN-bit value (notes/assumptions/10.md). -/
def State.free (s : State) : Word := trunc s.cfg.xlen (Config.freeWord s.draws)

/-- Whether `pc + 4` stays below 2^XLEN (10_state.md R22). -/
def pcFits (xl : XLen) (pc : Word) : Bool := decide (pc.toNat + 4 < 2 ^ xl.bits)

/-- `pc <- pc + 4`. Where the sum overflows 2^XLEN the spec states no value; there the new `pc` is a free multiple of 4, which a
step reaches only under the policy `free` (10_state.md R22, D7; notes/assumptions/13.md). -/
def State.advance (s : State) : State :=
  if pcFits s.cfg.xlen s.hart.pc then s.setPc (s.hart.pc + 4#64) else (s.setPc (align4 s.free)).drawn

/-- Whether the default advance has a meaning: `pc + 4` does not overflow, or the configuration gives an overflow a free value
(10_state.md R22, D7). -/
def State.canAdvance (s : State) : Bool := pcFits s.cfg.xlen s.hart.pc || s.cfg.pcOverflow == .free

/-- The end of every instruction that sets no pc of its own: the default advance. A `pc + 4` that overflows 2^XLEN is refused, as
the configuration says (10_state.md R22, D7; notes/assumptions/13.md). -/
def State.complete (s : State) : Outcome := if s.canAdvance then .next s.advance else .refused .pcOverflow

/-! ### Harts -/

/-- The state of hart h, if there is such a hart. -/
def State.hartAt (s : State) (h : Nat) : Option Hart := if h = s.hid then some s.hart else s.parked.lookup h

/-- The machine with hart h changed by f; nothing changes if there is no hart h. -/
def State.modHart (s : State) (h : Nat) (f : Hart → Hart) : State :=
  if h = s.hid then { s with hart := f s.hart }
  else { s with parked := s.parked.map (fun p => if p.1 = h then (p.1, f p.2) else p) }

/-- The machine with hart h the current one; the hart that was current takes its place among the others. Nothing changes if
there is no other hart h. -/
def State.switchTo (s : State) (h : Nat) : State :=
  if h = s.hid then s
  else
    match s.parked.lookup h with
    | none => s
    | some k => { s with hid := h, hart := k, parked := s.parked.map (fun p => if p.1 = h then (s.hid, s.hart) else p) }

/-! ### Trap registers and status, by mode -/

/-- The registers `xepc`, `xcause`, `xtvec`, `xscratch`, `xbadaddr` of mode x. -/
def Hart.trapRegs (h : Hart) : Mode → TrapRegs
  | .m => h.mTrap
  | .h => h.hTrap
  | .s => h.sTrap
  | .u => h.uTrap

/-- The hart with the trap registers of mode x replaced. -/
def Hart.setTrapRegs (h : Hart) (x : Mode) (r : TrapRegs) : Hart :=
  match x with
  | .m => { h with mTrap := r }
  | .h => { h with hTrap := r }
  | .s => { h with sTrap := r }
  | .u => { h with uTrap := r }

/-- `medeleg`, `hedeleg`, `sedeleg`; nothing is delegated below U (10_state.md R44, R47). -/
def Hart.edeleg (h : Hart) : Mode → Word
  | .m => h.medeleg
  | .h => h.hedeleg
  | .s => h.sedeleg
  | .u => 0#64

/-- The hart with the exception delegation register of mode x replaced. -/
def Hart.setEdeleg (h : Hart) (x : Mode) (v : Word) : Hart :=
  match x with
  | .m => { h with medeleg := v }
  | .h => { h with hedeleg := v }
  | .s => { h with sedeleg := v }
  | .u => h

/-- `mideleg`, `hideleg`, `sideleg` (10_state.md R45, R47). -/
def Hart.ideleg (h : Hart) : Mode → Word
  | .m => h.mideleg
  | .h => h.hideleg
  | .s => h.sideleg
  | .u => 0#64

/-- The hart with the interrupt delegation register of mode x replaced. -/
def Hart.setIdeleg (h : Hart) (x : Mode) (v : Word) : Hart :=
  match x with
  | .m => { h with mideleg := v }
  | .h => { h with hideleg := v }
  | .s => { h with sideleg := v }
  | .u => h

/-- `mstatus` as every rule reads it, hard-wired bits at their values (10_state.md R28 to R30). -/
def Hart.status (h : Hart) (c : Config) : Word := fixMstatus c h.mstatus

/-- The pending bits as every rule reads them: those of unsupported levels are zero (10_state.md R40). -/
def Hart.pending (h : Hart) (c : Config) : Word := h.mip &&& irqMask c

/-- The enable bits as every rule reads them (10_state.md R40). -/
def Hart.enabled (h : Hart) (c : Config) : Word := h.mie &&& irqMask c

/-! ### Delegation, 60_exceptions.md R191 -/

/-- The mode that a chain of delegation registers `d` hands cause `code` to, from x down the handler modes below x. -/
def delegChain (d : Mode → Word) (code : Nat) : Mode → List Mode → Mode
  | x, [] => x
  | x, z :: zs => if (d x).getLsbD code then delegChain d code z zs else x

/-- `DelegTarget(intr, code)`. -/
def delegTarget (c : Config) (h : Hart) (intr : Bool) (code : Nat) : Mode :=
  delegChain (if intr then h.ideleg else h.edeleg) code .m (handlerModes c).tail

/-- `IntTarget(i)`. -/
def intTarget (c : Config) (h : Hart) (i : Nat) : Mode := delegTarget c h true i

/-- `ExcTarget(e, y)`: never below the mode the exception was raised in. -/
def excTarget (c : Config) (h : Hart) (code : Nat) (y : Mode) : Mode := modeMax (delegTarget c h false code) y

/-! ### Taking a trap, 60_exceptions.md R200 -/

/-- The exception codes of 60_exceptions.md R181. -/
def excCode : Exn → Nat
  | .fetchMisaligned => 0
  | .fetchFault => 1
  | .illegal => 2
  | .breakpoint => 3
  | .loadMisaligned => 4
  | .loadFault => 5
  | .storeMisaligned => 6
  | .storeFault => 7
  | .envCall y => 8 + modeNum y

/-- The value written to `xcause`: Interrupt ++ Exception Code (60_exceptions.md R182). -/
def causeWord (xl : XLen) (intr : Bool) (code : Nat) : Word :=
  (if intr then topBit xl else 0#64) ||| BitVec.ofNat 64 code

/-- The mode that handles a trap (60_exceptions.md R200). -/
def trapTarget (s : State) (intr : Bool) (code : Nat) : Mode :=
  if intr then intTarget s.cfg s.hart code else excTarget s.cfg s.hart code s.hart.priv

/-- The trap registers of the handling mode after a trap: `xcause` and `xepc` as R200 says, and `xbadaddr` the faulting address
where there is one; otherwise its value is unspecified and drawn (60_exceptions.md R203, notes/assumptions/20.md). -/
def trapRecord (s : State) (intr : Bool) (code : Nat) (epc : Word) (bad : Option Word) (r : TrapRegs) : TrapRegs :=
  { r with
    epc := align4 epc
    cause := causeWord s.cfg.xlen intr code
    badaddr := bad.getD s.free }

/-- `Trap(intr, code, epc, bad)` of 60_exceptions.md R200. -/
def trapEntry (intr : Bool) (code : Nat) (epc : Word) (bad : Option Word) (s : State) : State :=
  let x := trapTarget s intr code
  let r := s.hart.trapRegs x
  { s with
    hart :=
      { s.hart.setTrapRegs x (trapRecord s intr code epc bad r) with
        mstatus := pushStack s.cfg (s.hart.status s.cfg) s.hart.priv x
        priv := x
        pc := align4 r.tvec }
    draws := if bad.isSome then s.draws else s.draws + 1 }

/-- `raise E(info)`: the instruction changes nothing and the exception is taken at its own address (00_scope.md R5,
60_exceptions.md R184, R201). -/
def raise (e : Exn) (bad : Option Word) (s : State) : Outcome :=
  .next (trapEntry false (excCode e) s.hart.pc bad s)

/-- Illegal instruction (30_encoding.md R117). -/
def raiseIllegal (s : State) : Outcome := raise .illegal none s

/-! ### Returning from a trap, 40_trap_return.md R130 -/

/-- `legal(x, priv)`: mode x can handle traps and the hart's mode is at least x (40_trap_return.md R135). -/
def xretLegal (c : Config) (priv x : Mode) : Bool := canHandle c x && modeLe x priv

/-- The state after a legal xRET. -/
def xretState (x : Mode) (s : State) : State :=
  { s with
    hart :=
      { s.hart with
        mstatus := popStack s.cfg (s.hart.status s.cfg) x
        priv := getPP (s.hart.status s.cfg) x
        pc := align4 (s.hart.trapRegs x).epc } }

/-- `XRET(x)`. -/
def xret (x : Mode) (s : State) : Outcome :=
  if xretLegal s.cfg s.hart.priv x then .next (xretState x s) else raiseIllegal s

/-! ### RAM, 20_memory.md R82, R97 and R100 -/

/-- One byte of RAM. -/
def readByte (m : Memory) (a : Nat) : Byte := storeGet blankByte m a

/-- RAM with one byte written. -/
def writeByte (m : Memory) (a : Nat) (b : Byte) : Memory := storePut blankByte m a b

/-- The canonical form of RAM. -/
abbrev Memory.wf (m : Memory) : Prop := StoreWf blankByte m

/-- n bytes of RAM as a number, the lowest address least significant (20_memory.md R82). -/
def readBytes (m : Memory) (a : Nat) : Nat → Nat
  | 0 => 0
  | n + 1 => (readByte m a).toNat + 256 * readBytes m (a + 1) n

/-- RAM with the low n bytes of a number stored, the least significant at the lowest address (20_memory.md R82). -/
def writeBytes (m : Memory) (a : Nat) : Nat → Nat → Memory
  | 0, _ => m
  | n + 1, v => writeBytes (writeByte m a (BitVec.ofNat 8 v)) (a + 1) n (v / 256)

/-- Whether a region of a list holds a byte. -/
def inRegion (rs : List Region) (a : Nat) : Bool := rs.any (fun r => decide (r.base ≤ a ∧ a < r.base + r.size))

/-- Whether the n bytes at an address lie in the regions of a list, each byte in one of them. R81 says "inside `RAM`" and not
whether an access may span two regions that abut: taking it byte by byte is the model's (DESIGN CHOICE, notes/assumptions/43.md). -/
def inRegions (rs : List Region) (a : Nat) : Nat → Bool
  | 0 => true
  | n + 1 => inRegion rs a && inRegions rs (a + 1) n

/-- Whether one of the n bytes at an address lies in a region of a list. -/
def meetsRegions (rs : List Region) (a n : Nat) : Bool := rs.any (fun r => decide (a < r.base + r.size ∧ r.base < a + n))

/-- Whether hart h may touch a byte without a race: no other hart has written it, nor read it if this access stores
(20_memory.md R97). -/
def useAllows (u : RamUse) (h : Nat) (isStore : Bool) : Bool :=
  u.writers.all (fun k => k == h) && (!isStore || u.readers.all (fun k => k == h))

/-- A byte's record after hart h touched it. -/
def useAfter (u : RamUse) (h : Nat) (isStore : Bool) : RamUse :=
  if isStore then { u with writers := if u.writers.contains h then u.writers else h :: u.writers }
  else { u with readers := if u.readers.contains h then u.readers else h :: u.readers }

/-- Whether hart h may touch the n bytes at an address without a race (20_memory.md R97). -/
def raceFree (m : List (Nat × RamUse)) (h : Nat) (isStore : Bool) (a : Nat) : Nat → Bool
  | 0 => true
  | n + 1 => useAllows (storeGet RamUse.none m a) h isStore && raceFree m h isStore (a + 1) n

/-- The record after hart h touched the n bytes at an address. -/
def noteUse (m : List (Nat × RamUse)) (h : Nat) (isStore : Bool) (a : Nat) : Nat → List (Nat × RamUse)
  | 0 => m
  | n + 1 => noteUse (storePut RamUse.none m a (useAfter (storeGet RamUse.none m a) h isStore)) h isStore (a + 1) n

end Sys2Proof.Machine
end

