-- ==== Sys2Proof/Machine/Interrupts.lean ====
section
/-! DEFINITION. Machine/Interrupts.lean: which interrupts a mode sees and which are takeable (10_state.md R43; 60_exceptions.md R187
to R196), and the timer comparator (R222). -/

namespace Sys2Proof.Machine

/-- The bits delegated along the handler modes from `cur` down to x, `acc` being those that reached `cur`. -/
def visChain (d : Mode → Word) (x : Mode) : Mode → Word → List Mode → Word
  | cur, acc, [] => if cur = x then acc else 0#64
  | cur, acc, z :: zs => if cur = x then acc else visChain d x z (acc &&& d cur) zs

/-- `VIS(x)`: the interrupts delegated to x or further down (10_state.md R43). -/
def visMask (c : Config) (h : Hart) (x : Mode) : Word :=
  visChain h.ideleg x .m (allOnes c.xlen) (handlerModes c).tail

/-- The exceptions delegated to x, by the same chain of the exception registers (10_state.md R47, 41_csr_access.md R142). -/
def visMaskExc (c : Config) (h : Hart) (x : Mode) : Word :=
  visChain h.edeleg x .m (allOnes c.xlen) (handlerModes c).tail

/-- An interrupt with target t is globally enabled: `priv < t`, or `priv = t` and `IE(t)` (60_exceptions.md R195). -/
def globallyEnabled (c : Config) (h : Hart) (t : Mode) : Bool :=
  modeLt h.priv t || (h.priv == t && getIE (h.status c) t)

/-- `Takeable(i)` (60_exceptions.md R195). -/
def takeable (c : Config) (h : Hart) (i : Nat) : Bool :=
  (h.pending c).getLsbD i && (h.enabled c).getLsbD i && globallyEnabled c h (intTarget c h i)

/-- The hart with bit i of `mip` driven to a value. -/
def Hart.driveMip (h : Hart) (i : Nat) (b : Bool) : Hart := { h with mip := setBit h.mip i b }

/-- The comparator's set step is enabled: `mtime >= mtimecmp`, unsigned, and MTIP is 0 (60_exceptions.md R222). -/
def compareEnabled (s : State) (h : Hart) : Bool := h.mtimecmp.ule s.mtime && !h.mip.getLsbD 7

/-- The hart with `mtimecmp` written, which clears MTIP (60_exceptions.md R222, 20_memory.md R88). -/
def Hart.setTimecmp (h : Hart) (v : BitVec 64) : Hart := { h.driveMip 7 false with mtimecmp := v }

end Sys2Proof.Machine
end

