-- ==== Sys2Proof/Machine/Csr.lean ====
section
/-! DEFINITION. Machine/Csr.lean: the CSR space: numbers, existence, checks, read values and write effects (10_state.md R54, R55;
41_csr_access.md R140 to R142). -/

namespace Sys2Proof.Machine

/-- The CSRs of 10_state.md R55, those that each mode has under its own letter by mode. -/
inductive Csr where
  | status (x : Mode)
  | edeleg (x : Mode)
  | ideleg (x : Mode)
  | ie (x : Mode)
  | tvec (x : Mode)
  | scratch (x : Mode)
  | epc (x : Mode)
  | cause (x : Mode)
  | badaddr (x : Mode)
  | ip (x : Mode)
  | cycle
  | time
  | instret
  | cycleh
  | timeh
  | instreth
  | fflags
  | frm
  | fcsr
deriving DecidableEq, Repr

/-- The CSR numbers of 10_state.md R55. -/
def csrTable : List (Nat × Csr) :=
  [ (0x000, .status .u), (0x004, .ie .u), (0x005, .tvec .u), (0x040, .scratch .u), (0x041, .epc .u), (0x042, .cause .u),
    (0x043, .badaddr .u), (0x044, .ip .u),
    (0x001, .fflags), (0x002, .frm), (0x003, .fcsr),
    (0xC00, .cycle), (0xC01, .time), (0xC02, .instret), (0xC80, .cycleh), (0xC81, .timeh), (0xC82, .instreth),
    (0x100, .status .s), (0x102, .edeleg .s), (0x103, .ideleg .s), (0x104, .ie .s), (0x105, .tvec .s), (0x140, .scratch .s),
    (0x141, .epc .s), (0x142, .cause .s), (0x143, .badaddr .s), (0x144, .ip .s),
    (0x200, .status .h), (0x202, .edeleg .h), (0x203, .ideleg .h), (0x204, .ie .h), (0x205, .tvec .h), (0x240, .scratch .h),
    (0x241, .epc .h), (0x242, .cause .h), (0x243, .badaddr .h), (0x244, .ip .h),
    (0x300, .status .m), (0x302, .edeleg .m), (0x303, .ideleg .m), (0x304, .ie .m), (0x305, .tvec .m), (0x340, .scratch .m),
    (0x341, .epc .m), (0x342, .cause .m), (0x343, .badaddr .m), (0x344, .ip .m) ]

/-- The CSR of a number, if the number names one. -/
def csrOfNum (a : BitVec 12) : Option Csr := csrTable.lookup a.toNat

/-- Which CSRs exist in a configuration (41_csr_access.md R142). -/
def csrExists (c : Config) : Csr → Bool
  | .status x => canHandle c x
  | .edeleg x => canHandle c x && handlerBelow c x
  | .ideleg x => canHandle c x && handlerBelow c x
  | .ie x => canHandle c x
  | .tvec x => canHandle c x
  | .scratch x => canHandle c x
  | .epc x => canHandle c x
  | .cause x => canHandle c x
  | .badaddr x => canHandle c x
  | .ip x => canHandle c x
  | .cycle => true
  | .time => true
  | .instret => true
  | .cycleh => c.xlen == .rv32
  | .timeh => c.xlen == .rv32
  | .instreth => c.xlen == .rv32
  | .fflags => false
  | .frm => false
  | .fcsr => false

/-- The range reserved for the debug system, 0xFA0 to 0xFBF (10_state.md R54). -/
def debugCsr (a : BitVec 12) : Bool := decide (0xFA0 ≤ a.toNat ∧ a.toNat ≤ 0xFBF)

/-- The lowest mode that may access a CSR number: bits 9:8 (10_state.md R54). -/
def csrMode (a : BitVec 12) : Mode := modeOfBits (a.extractLsb' 8 2)

/-- A read-only CSR number: bits 11:10 are 11 (10_state.md R54). -/
def csrReadOnly (a : BitVec 12) : Bool := a.extractLsb' 10 2 == 3#2

/-- The checks of 41_csr_access.md R140, and for a write that of R141: the CSR accessed, or none where the access raises
Illegal instruction. -/
def csrAccess (c : Config) (priv : Mode) (a : BitVec 12) (write : Bool) : Option Csr :=
  if debugCsr a || modeLt priv (csrMode a) || (write && csrReadOnly a) then none
  else
    match csrOfNum a with
    | none => none
    | some r => if csrExists c r then some r else none

/-! ### Read values -/

/-- The value a read returns (41_csr_access.md R142). Reserved bits of `mstatus`, `mip` and `mie`, and the counters `cycle` and
`instret`, are free (notes/assumptions/18.md, 19.md). -/
def csrValue (s : State) : Csr → Word
  | .status .m => s.hart.status s.cfg ||| (Config.freeWord s.draws &&& mstatusReserved s.cfg.xlen)
  | .status x => s.hart.status s.cfg &&& stackMask s.cfg x
  | .ip .m => s.hart.pending s.cfg ||| (Config.freeWord s.draws &&& irqReserved s.cfg)
  | .ip x => s.hart.pending s.cfg &&& visMask s.cfg s.hart x
  | .ie .m => s.hart.enabled s.cfg ||| (Config.freeWord s.draws &&& irqReserved s.cfg)
  | .ie x => s.hart.enabled s.cfg &&& visMask s.cfg s.hart x
  | .edeleg x => s.hart.edeleg x
  | .ideleg x => s.hart.ideleg x
  | .tvec x => align4 (s.hart.trapRegs x).tvec
  | .scratch x => (s.hart.trapRegs x).scratch
  | .epc x => align4 (s.hart.trapRegs x).epc
  | .cause x => (s.hart.trapRegs x).cause
  | .badaddr x => (s.hart.trapRegs x).badaddr
  | .cycle => trunc s.cfg.xlen (Config.freeWord s.draws)
  | .instret => trunc s.cfg.xlen (Config.freeWord s.draws)
  | .time => trunc s.cfg.xlen s.mtime
  | .cycleh => (hiHalf (Config.freeWord s.draws)).setWidth 64
  | .instreth => (hiHalf (Config.freeWord s.draws)).setWidth 64
  | .timeh => (hiHalf s.mtime).setWidth 64
  | .fflags => 0#64
  | .frm => 0#64
  | .fcsr => 0#64

/-- The part of a read value that is state: the value without the reserved bits of `mstatus`, `mip` and `mie`. A set or a clear
of bits is computed from it: what it would write to a reserved bit has no effect (10_state.md R31, R41). -/
def csrHeld (s : State) : Csr → Word
  | .status .m => s.hart.status s.cfg
  | .ip .m => s.hart.pending s.cfg
  | .ie .m => s.hart.enabled s.cfg
  | r => csrValue s r

/-- The state after a read: only the count of draws, and the counter that was drawn, change. -/
def csrAfterRead (s : State) : Csr → State
  | .status .m => s.drawn
  | .ip .m => s.drawn
  | .ie .m => s.drawn
  | .cycle => (s.setHart { s.hart with cycle := Config.freeWord s.draws }).drawn
  | .cycleh => (s.setHart { s.hart with cycle := Config.freeWord s.draws }).drawn
  | .instret => (s.setHart { s.hart with instret := Config.freeWord s.draws }).drawn
  | .instreth => (s.setHart { s.hart with instret := Config.freeWord s.draws }).drawn
  | _ => s

/-! ### Write effects -/

/-- A free supported mode for the field xPP (10_state.md R27, notes/assumptions/11.md). -/
def freeMode (c : Config) (x : Mode) (w : Word) : Mode :=
  ((supportedUpTo c x)[w.toNat % (supportedUpTo c x).length]?).getD .m

/-- The field xPP of a status word, replaced by a free supported mode if it holds an unsupported value (10_state.md R27,
notes/assumptions/11.md). `n` is the number of the draw. -/
def settlePP (c : Config) (x : Mode) (n : Nat) (w : Word) : Word :=
  if ppLegal c w x then w else fixMstatus c (setPP w x (freeMode c x (Config.freeWord n)))

/-- The status word after a write of v to the bits of a mask. -/
def statusWord (c : Config) (mask old v : Word) (n : Nat) : Word :=
  settlePP c .h (n + 1) (settlePP c .m n (fixMstatus c (merge mask old v)))

/-- A write of `mstatus` or of one of its views (41_csr_access.md R142). -/
def writeStatus (s : State) (mask v : Word) : State :=
  { s with
    hart := { s.hart with mstatus := statusWord s.cfg mask (s.hart.status s.cfg) v s.draws }
    draws := s.draws + 2 }

/-- An Exception Code that `xcause` can hold: a code of Table 3.6 that the configuration can produce (10_state.md R48,
60_exceptions.md R181, R182; notes/assumptions/12.md). -/
def causeLegal (c : Config) (v : Word) : Bool :=
  let code := (v &&& ~~~topBit c.xlen).toNat
  if v &&& topBit c.xlen = 0#64 then
    decide (code < 8) || (decide (code < 12) && hasMode c (modeOfBits (BitVec.ofNat 2 code)))
  else (irqMask c).getLsbD code

/-- The value that `xcause` holds after a write: a legal one as written, otherwise the Interrupt bit as written and a free
Exception Code (10_state.md R48, notes/assumptions/12.md). -/
def causeAfterWrite (c : Config) (v : Word) (n : Nat) : Word :=
  if causeLegal c v then v else merge (topBit c.xlen) (trunc c.xlen (Config.freeWord n)) v

/-- The state with a trap register record of mode x replaced. -/
def State.setTrapRegs (s : State) (x : Mode) (r : TrapRegs) : State := s.setHart (s.hart.setTrapRegs x r)

/-- Whether v, written to the status register of mode x, puts an unsupported mode into an xPP field that the write reaches: MPP
through `mstatus`, HPP through `mstatus` and `hstatus` (10_state.md R27). -/
def unsupportedPP (c : Config) (h : Hart) (x : Mode) (v : Word) : Bool :=
  [.m, .h].any (fun z => modeLe z x && !ppLegal c (fixMstatus c (merge (statusWriteMask c x) (h.status c) v)) z)

/-- The refusal of a write of v to a CSR, if there is one (41_csr_access.md R141, R142): `mstatus` with VM, PUM or MPRV non-zero
(10_state.md R31, notes/assumptions/17.md); an unsupported mode in xPP (R27, notes/assumptions/11.md) and an unsupported code in
`xcause` (R48, notes/assumptions/12.md), where the configuration refuses them (D29). -/
def csrRefusal (c : Config) (h : Hart) (r : Csr) (v : Word) : Option Refusal :=
  match r with
  | .status x =>
    if x = .m ∧ v &&& translationMask ≠ 0#64 then some .translationBits
    else if c.unsupportedWrite = .refuse ∧ unsupportedPP c h x v = true then some .unsupportedMode
    else none
  | .cause _ => if c.unsupportedWrite = .refuse ∧ causeLegal c v = false then some .unsupportedCode else none
  | _ => none

/-- The write effect of a CSR, where the write is not refused (41_csr_access.md R142). The read-only CSRs and those that do not exist
are not written. -/
def csrPut (s : State) (r : Csr) (v : Word) : State :=
  match r with
  | .status x => writeStatus s (statusWriteMask s.cfg x) v
  | .ip .m => s.setHart { s.hart with mip := merge (viewWriteMask s.cfg .m) s.hart.mip v }
  | .ip x => s.setHart { s.hart with mip := merge (viewWriteMask s.cfg x &&& levelMask s.cfg &&& visMask s.cfg s.hart x) s.hart.mip v }
  | .ie .m => s.setHart { s.hart with mie := merge (irqMask s.cfg) s.hart.mie v }
  | .ie x => s.setHart { s.hart with mie := merge (irqMask s.cfg &&& visMask s.cfg s.hart x) s.hart.mie v }
  | .edeleg x => s.setHart (s.hart.setEdeleg x (v &&& edelegMask s.cfg x &&& visMaskExc s.cfg s.hart x))
  | .ideleg x => s.setHart (s.hart.setIdeleg x (v &&& idelegMask s.cfg x &&& visMask s.cfg s.hart x))
  | .tvec x => s.setTrapRegs x { s.hart.trapRegs x with tvec := align4 v }
  | .epc x => s.setTrapRegs x { s.hart.trapRegs x with epc := align4 v }
  | .scratch x => s.setTrapRegs x { s.hart.trapRegs x with scratch := v }
  | .badaddr x => s.setTrapRegs x { s.hart.trapRegs x with badaddr := v }
  | .cause x =>
    (s.setTrapRegs x { s.hart.trapRegs x with cause := causeAfterWrite s.cfg v s.draws }).drawn
  | .cycle => s
  | .time => s
  | .instret => s
  | .cycleh => s
  | .timeh => s
  | .instreth => s
  | .fflags => s
  | .frm => s
  | .fcsr => s

/-- `CSRWrite(a, v)` after its checks: the refusal, or the write effect (41_csr_access.md R141). -/
def csrWrite (s : State) (r : Csr) (v : Word) : Except Refusal State :=
  match csrRefusal s.cfg s.hart r v with
  | some e => .error e
  | none => .ok (csrPut s r v)

/-! ### The instructions' common shape, 41_csr_access.md R143 to R148 -/

/-- A CSR instruction: the checks, the read if there is one, the write of `f old` if there is one (`csrHeld` is the part of `old`
that a write can keep), rd and the pc. -/
def csrInstr (rd : BitVec 5) (a : BitVec 12) (reads writes : Bool) (f : Word → Word) (s : State) : Outcome :=
  match csrAccess s.cfg s.hart.priv a writes with
  | none => raiseIllegal s
  | some r =>
    let old := csrValue s r
    let s1 := if reads then csrAfterRead s r else s
    if writes then
      match csrWrite s1 r (f (csrHeld s r)) with
      | .error e => .refused e
      | .ok s2 => (s2.setX rd old).complete
    else (s1.setX rd old).complete

/-- CSRRW and CSRRWI: write t; the CSR is read only if rd is not x0 (41_csr_access.md R143). -/
def csrSwap (rd : BitVec 5) (a : BitVec 12) (t : Word) (s : State) : Outcome :=
  csrInstr rd a (rd != 0#5) true (fun _ => t) s

/-- CSRRS and CSRRSI: read, then write `old | t` unless the source field is 0 (41_csr_access.md R144). -/
def csrSet (rd : BitVec 5) (a : BitVec 12) (src : BitVec 5) (t : Word) (s : State) : Outcome :=
  csrInstr rd a true (src != 0#5) (fun old => old ||| t) s

/-- CSRRC and CSRRCI: read, then write `old & ~t` unless the source field is 0 (41_csr_access.md R145). -/
def csrClear (rd : BitVec 5) (a : BitVec 12) (src : BitVec 5) (t : Word) (s : State) : Outcome :=
  csrInstr rd a true (src != 0#5) (fun old => old &&& ~~~t) s

end Sys2Proof.Machine
end

