-- ==== Sys2Proof/Machine/Operands.lean ====
section
/-! DEFINITION. Machine/Operands.lean: every operand form: register sources, extended immediates, the addresses of loads and stores,
branch targets and shift amounts (30_encoding.md R111, R112). -/

namespace Sys2Proof.Machine

/-- The I and S immediate: `sext_XLEN` of 12 bits. -/
def imm12 (s : State) (imm : BitVec 12) : Word := sext s.cfg.xlen imm

/-- The U immediate: `sext_XLEN` of the 20 bits followed by twelve zeros. -/
def immUpper (s : State) (imm : BitVec 20) : Word := sext s.cfg.xlen (imm ++ 0#12)

/-- The 5-bit unsigned immediate of the CSR instructions: `zext_XLEN`. -/
def zimmWord (z : BitVec 5) : Word := z.setWidth 64

/-- The address of a load or store: `(x[rs1] + sext_XLEN(imm)) mod 2^XLEN` (43_support_subset.md R170, R171). -/
def dataAddr (s : State) (rs1 : BitVec 5) (imm : BitVec 12) : Word := addX s.cfg.xlen (s.getX rs1) (imm12 s imm)

/-- The target of a branch: `(pc + sext_XLEN(off)) mod 2^XLEN` (43_support_subset.md R172). -/
def branchTarget (s : State) (off : BitVec 13) : Word := addX s.cfg.xlen s.hart.pc (sext s.cfg.xlen off)

/-- Whether an address is a multiple of n. -/
def aligned (a : Word) (n : Nat) : Bool := a.toNat % n == 0

end Sys2Proof.Machine
end

