-- ==== Sys2Proof/Machine/CsrAccess.lean ====
section
/-! DEFINITION. Machine/CsrAccess.lean: CSRRW, CSRRS, CSRRC and their immediate forms (41_csr_access.md). -/

namespace Sys2Proof.Machine

/-- CSRRW rd, csr, rs1 (R143). -/
def execCsrrw (rd : BitVec 5) (csr : BitVec 12) (rs1 : BitVec 5) (s : State) : Outcome := csrSwap rd csr (s.getX rs1) s

/-- CSRRS rd, csr, rs1: no write if rs1 is x0 (R144). -/
def execCsrrs (rd : BitVec 5) (csr : BitVec 12) (rs1 : BitVec 5) (s : State) : Outcome := csrSet rd csr rs1 (s.getX rs1) s

/-- CSRRC rd, csr, rs1: no write if rs1 is x0 (R145). -/
def execCsrrc (rd : BitVec 5) (csr : BitVec 12) (rs1 : BitVec 5) (s : State) : Outcome := csrClear rd csr rs1 (s.getX rs1) s

/-- CSRRWI rd, csr, zimm (R146). -/
def execCsrrwi (rd : BitVec 5) (csr : BitVec 12) (zimm : BitVec 5) (s : State) : Outcome := csrSwap rd csr (zimmWord zimm) s

/-- CSRRSI rd, csr, zimm: no write if zimm is 0 (R147). -/
def execCsrrsi (rd : BitVec 5) (csr : BitVec 12) (zimm : BitVec 5) (s : State) : Outcome := csrSet rd csr zimm (zimmWord zimm) s

/-- CSRRCI rd, csr, zimm: no write if zimm is 0 (R148). -/
def execCsrrci (rd : BitVec 5) (csr : BitVec 12) (zimm : BitVec 5) (s : State) : Outcome := csrClear rd csr zimm (zimmWord zimm) s

end Sys2Proof.Machine
end

