-- ==== Sys2Proof/Machine/Environment.lean ====
section
/-! DEFINITION. Machine/Environment.lean: ECALL and EBREAK (42_environment.md). -/

namespace Sys2Proof.Machine

/-- ECALL: Environment call from the current mode, code 8 + priv, at its own address (R160). -/
def execEcall (s : State) : Outcome := raise (.envCall s.hart.priv) none s

/-- EBREAK: Breakpoint, code 3, at its own address (R161). -/
def execEbreak (s : State) : Outcome := raise .breakpoint none s

end Sys2Proof.Machine
end

