-- ==== Sys2Proof/Machine/Plic.lean ====
section
/-! DEFINITION. Machine/Plic.lean: the PLIC core, its gateways and its notifications (60_exceptions.md R230 to R244). -/

namespace Sys2Proof.Machine

/-! ### The core state, 10_state.md R59 -/

/-- `prio[s]`: the constant of a fixed source, else the stored priority. -/
def prioOf (c : Config) (p : Plic) (s : Nat) : Nat := (c.prioFixed.lookup s).getD (storeGet 0 p.prio s)

/-- `thr[t]`: 0 where it is hard-wired. -/
def thrOf (c : Config) (p : Plic) (t : Nat) : Nat := if c.thrZero.contains t then 0 else storeGet 0 p.thr t

/-- The enables of target t, bit s for source s. -/
def enablesOf (p : Plic) (t : Nat) : BitVec 1024 := storeGet 0#1024 p.ie t

/-- `IP[s]`. -/
def pendingOf (p : Plic) (s : Nat) : Bool := p.ip.getLsbD s

/-- `IE[t][s]`. -/
def enableOf (p : Plic) (t s : Nat) : Bool := (enablesOf p t).getLsbD s

/-- The gateway of source s. -/
def gatewayOf (p : Plic) (s : Nat) : Gateway := storeGet Gateway.idle p.gateways s

/-- The PLIC with the gateway of source s replaced. -/
def Plic.setGateway (p : Plic) (s : Nat) (g : Gateway) : Plic := { p with gateways := storePut Gateway.idle p.gateways s g }

/-- Whether s is a source id, 1 to `NSRC`. -/
def isSource (c : Config) (s : Nat) : Bool := decide (1 ≤ s ∧ s ≤ c.nsrc)

/-- The bits of the sources 1 to `NSRC` in a 1024-bit array (20_memory.md R91). -/
def sourceMask (c : Config) : BitVec 1024 := (BitVec.ofNat 1024 (2 ^ (c.nsrc + 1) - 1)) &&& ~~~1#1024

/-- `IP[s] <- b`. -/
def Plic.setPending (p : Plic) (s : Nat) (b : Bool) : Plic :=
  { p with ip := if b then p.ip ||| (1#1024 <<< s) else p.ip &&& ~~~(1#1024 <<< s) }

/-! ### Priority, 60_exceptions.md R235 and R236 -/

/-- `active(t, s)`: pending, enabled for t, of a priority above 0, and above the threshold if `CLAIM_USES_THRESHOLD`. -/
def active (c : Config) (p : Plic) (t s : Nat) : Bool :=
  pendingOf p s && enableOf p t s && decide (0 < prioOf c p s) &&
  (!c.claimUsesThreshold || decide (thrOf c p t < prioOf c p s))

/-- The better of the best source so far and source s: s wins only with a strictly larger priority. -/
def better (c : Config) (p : Plic) (t b s : Nat) : Nat :=
  if active c p t s && (b == 0 || decide (prioOf c p b < prioOf c p s)) then s else b

/-- The best active source among 1 to n, 0 if there is none. -/
def bestUpTo (c : Config) (p : Plic) (t : Nat) : Nat → Nat
  | 0 => 0
  | n + 1 => better c p t (bestUpTo c p t n) (n + 1)

/-- `best(t)`. -/
def best (c : Config) (p : Plic) (t : Nat) : Nat := bestUpTo c p t c.nsrc

/-- Source s raises the external-interrupt-pending bit of target t: pending, enabled, and above the threshold. -/
def raises (c : Config) (p : Plic) (t s : Nat) : Bool :=
  pendingOf p s && enableOf p t s && decide (thrOf c p t < prioOf c p s)

/-- `EIP[t]`, a combinational function of the core state. -/
def eip (c : Config) (p : Plic) (t : Nat) : Bool := (List.range c.nsrc).any (fun k => raises c p t (k + 1))

/-! ### Write Register, 60_exceptions.md R234 -/

/-- A free priority or threshold, 0 to `MAX_PRI` (notes/assumptions/14.md). -/
def freePri (c : Config) (n : Nat) : Nat := (Config.freeWord n).toNat % (c.maxPri + 1)

/-- The priority or threshold that a written value leaves: the value, or a free legal one if it is above `MAX_PRI` and the
configuration does not refuse the write (60_exceptions.md R234, D27; notes/assumptions/14.md). -/
def legalPri (c : Config) (v n : Nat) : Nat := if v ≤ c.maxPri then v else freePri c n

/-- A 1024-bit array with word w replaced. -/
def setWord32 (a : BitVec 1024) (w : Nat) (v : BitVec 32) : BitVec 1024 :=
  (a &&& ~~~((BitVec.allOnes 32).setWidth 1024 <<< (32 * w))) ||| (v.setWidth 1024 <<< (32 * w))

/-- Word w of a 1024-bit array. -/
def getWord32 (a : BitVec 1024) (w : Nat) : BitVec 32 := a.extractLsb' (32 * w) 32

/-- The core after a register write, `n` being the number of the draw. Fixed priorities and hard-wired thresholds do not change;
the enables of source 0 and of sources above `NSRC` stay 0 (60_exceptions.md R234, R252, R253). -/
def applyWrite (c : Config) (n : Nat) (p : Plic) : PlicWrite → Plic
  | .prio s v => if (c.prioFixed.lookup s).isSome then p else { p with prio := storePut 0 p.prio s (legalPri c v n) }
  | .enable t w v => { p with ie := storePut 0#1024 p.ie t (setWord32 (enablesOf p t) w v &&& sourceMask c) }
  | .threshold t v => if c.thrZero.contains t then p else { p with thr := storePut 0 p.thr t (legalPri c v n) }

/-- The value that makes a register write one that R234 refuses: a priority or threshold above `MAX_PRI`, written to a register that
is neither fixed nor hard-wired, where the configuration refuses it (D27, notes/assumptions/14.md). -/
def refusedValue (c : Config) : PlicWrite → Option Nat
  | .prio s v => if c.highPriority = .refuse ∧ c.prioFixed.lookup s = none ∧ c.maxPri < v then some v else none
  | .enable _ _ _ => none
  | .threshold t v => if c.highPriority = .refuse ∧ c.thrZero.contains t = false ∧ c.maxPri < v then some v else none

/-- Removes the first entry that satisfies a test. -/
def removeFirst {α : Type} (f : α → Bool) : List α → List α
  | [] => []
  | a :: rest => if f a then rest else a :: removeFirst f rest

/-- The core performs the oldest register write of hart h, if there is one (60_exceptions.md R234, 20_memory.md R96). -/
def doWrite (s : State) (h : Nat) : State :=
  match s.plic.wrQ.find? (fun e => e.1 == h) with
  | none => s
  | some e =>
    { s with
      plic := applyWrite s.cfg s.draws { s.plic with wrQ := removeFirst (fun d => d.1 == h) s.plic.wrQ } e.2
      draws := s.draws + 1 }

/-- The Write Register step for hart h: its oldest register write, unless R234 refuses that write (60_exceptions.md R234). -/
def writeRegister (s : State) (h : Nat) : Outcome :=
  match (s.plic.wrQ.find? (fun e => e.1 == h)).bind (fun e => refusedValue s.cfg e.2) with
  | some v => .refused (.highPriority v)
  | none => .next (doWrite s h)

/-- The core performs every register write of hart h that is queued, in the order sent: `n` steps at most. -/
def drainWrites (h : Nat) : Nat → State → State
  | 0, s => s
  | n + 1, s => drainWrites h n (doWrite s h)

/-- The state in which the register writes of the current hart have all been performed: a register read is ordered after them
(D19, notes/assumptions/23.md). -/
def afterOwnWrites (s : State) : State := drainWrites s.hid s.plic.wrQ.length s

/-- The value of the oldest queued register write of the current hart that R234 refuses, if there is one. -/
def ownRefusedValue (s : State) : Option Nat :=
  s.plic.wrQ.findSome? (fun e => if e.1 = s.hid then refusedValue s.cfg e.2 else none)

/-! ### Process Claim and Accept Request, 60_exceptions.md R232 and R233 -/

/-- The core after it answered a claim of hart h for target t: the response is queued and the claimed source's IP is clear. -/
def answerClaim (c : Config) (p : Plic) (h t : Nat) : Plic :=
  let id := best c p t
  let q := { p with respQ := p.respQ ++ [⟨h, t, id⟩] }
  if id = 0 then q else q.setPending id false

/-- Process Claim for the claim of hart h, enabled when it is queued and no register write of h is (60_exceptions.md R233,
20_memory.md R96). -/
def doClaim (s : State) (h : Nat) : State :=
  if s.plic.wrQ.any (fun e => e.1 == h) then s
  else
    match s.plic.claimQ.find? (fun e => e.1 == h) with
    | none => s
    | some e =>
      { s with plic := answerClaim s.cfg { s.plic with claimQ := removeFirst (fun d => d.1 == h) s.plic.claimQ } h e.2 }

/-- Accept Request for source s, enabled when a request of s is queued and IP[s] is clear (60_exceptions.md R232). -/
def doAccept (s : State) (src : Nat) : State :=
  if s.plic.reqQ.contains src && !pendingOf s.plic src then
    { s with plic := { s.plic with reqQ := removeFirst (fun k => k == src) s.plic.reqQ }.setPending src true }
  else s

/-! ### Gateways, 60_exceptions.md R231 and R239 -/

/-- `GATEWAY_KIND[s]`. -/
def kindOf (c : Config) (s : Nat) : GatewayKind := (c.gatewayKind.lookup s).getD .level

/-- `EDGE_QUEUE_DEPTH[s]`; none is unbounded. -/
def depthOf (c : Config) (s : Nat) : Option Nat := (c.edgeDepth.lookup s).getD (some 1)

/-- The count of queued events after one more: an event at a full gateway is lost (60_exceptions.md R231, D22). -/
def queueOne (depth : Option Nat) (n : Nat) : Nat :=
  match depth with
  | none => n + 1
  | some d => min (n + 1) d

/-- The environment drives the input of a level gateway. -/
def doLine (s : State) (src : Nat) (b : Bool) : State :=
  if isSource s.cfg src && kindOf s.cfg src == .level then
    { s with plic := s.plic.setGateway src { gatewayOf s.plic src with level := b } }
  else s

/-- An event arrives at an edge or message gateway. -/
def doEdge (s : State) (src : Nat) : State :=
  if isSource s.cfg src && kindOf s.cfg src != .level then
    { s with
      plic := s.plic.setGateway src
        { gatewayOf s.plic src with queued := queueOne (depthOf s.cfg src) (gatewayOf s.plic src).queued } }
  else s

/-- Whether a gateway may forward a request: nothing in flight, and its level asserted or an event queued. -/
def canForward (c : Config) (p : Plic) (src : Nat) : Bool :=
  isSource c src && !(gatewayOf p src).inflight &&
  (if kindOf c src = .level then (gatewayOf p src).level else decide (0 < (gatewayOf p src).queued))

/-- The gateway of a source after it forwarded a request. -/
def gatewayForwarded (c : Config) (p : Plic) (src : Nat) : Gateway :=
  { gatewayOf p src with
    inflight := true
    queued := if kindOf c src = .level then (gatewayOf p src).queued else (gatewayOf p src).queued - 1 }

/-- The forward step of a gateway. -/
def doForward (s : State) (src : Nat) : State :=
  if canForward s.cfg s.plic src then
    { s with plic := { s.plic with reqQ := s.plic.reqQ ++ [src] }.setGateway src (gatewayForwarded s.cfg s.plic src) }
  else s

/-- The PLIC after a completion (t, s) reached the gateway: it may forward again only if s is enabled for t and in flight
(60_exceptions.md R239). -/
def completed (c : Config) (p : Plic) (t src : Nat) : Plic :=
  if isSource c src && enableOf p t src && (gatewayOf p src).inflight then
    p.setGateway src { gatewayOf p src with inflight := false }
  else p

/-- The completion step: a queued completion (t, s) is removed and takes effect. -/
def doComplete (s : State) (t src : Nat) : State :=
  if s.plic.complQ.contains (t, src) then
    { s with plic := completed s.cfg { s.plic with complQ := removeFirst (fun e => e == (t, src)) s.plic.complQ } t src }
  else s

/-! ### Notification, 60_exceptions.md R237 -/

/-- The bit `xEIP` of `mip`. -/
def eipBit (x : Mode) : Nat := 8 + modeNum x

/-- The notify step of target t: the mapped `mip` bit takes the value of `EIP[t]`. -/
def doNotify (s : State) (t : Nat) : State :=
  match s.cfg.targetMap.lookup t with
  | none => s
  | some (h, x) => s.modHart h (fun k => k.driveMip (eipBit x) (eip s.cfg s.plic t))

end Sys2Proof.Machine
end

