-- ==== Sys2Proof/Machine/Devices.lean ====
section
/-! DEFINITION. Machine/Devices.lean: `MemRead` and `MemWrite` routed by address: the PLIC registers, MSIP, the timer registers and RAM
(20_memory.md R80 to R97; 60_exceptions.md R250 to R255). -/

namespace Sys2Proof.Machine

/-! ### Routing, 20_memory.md R81 -/

/-- The widths of an access. LW and SW make word accesses; the others are here for the rules that speak of them (R84, R85). -/
inductive Width where
  | byte
  | half
  | word
  | double
deriving DecidableEq, Repr

/-- The number of bytes of an access. -/
def widthBytes : Width → Nat
  | .byte => 1
  | .half => 2
  | .word => 4
  | .double => 8

/-- What stands at an address. -/
inductive Place where
  /-- The PLIC window, at an offset. -/
  | plic (off : Nat)
  /-- The MSIP register of hart h, at an offset. -/
  | msip (h off : Nat)
  /-- `mtimecmp[h]`, at an offset. -/
  | timecmp (h off : Nat)
  /-- `mtime`, at an offset. -/
  | mtime (off : Nat)
  /-- RAM. -/
  | ram
  /-- Nothing. -/
  | nowhere
deriving DecidableEq, Repr

/-- The first of a list of registers of a size that holds an address: its number, counted from i, and the offset in it. -/
def findReg (size a : Nat) : List Nat → Nat → Option (Nat × Nat)
  | [], _ => none
  | b :: bs, i => if b ≤ a ∧ a < b + size then some (i, a - b) else findReg size a bs (i + 1)

/-- The size of the PLIC window (20_memory.md R90). -/
def plicWindow : Nat := 0x4000000

/-- The routing of the n bytes at an address (20_memory.md R81). -/
def route (c : Config) (a n : Nat) : Place :=
  if c.plicBase ≤ a ∧ a < c.plicBase + plicWindow then .plic (a - c.plicBase)
  else
    match findReg 4 a c.msipAddr 0 with
    | some (h, off) => .msip h off
    | none =>
      match findReg 8 a c.mtimecmpAddr 0 with
      | some (h, off) => .timecmp h off
      | none =>
        match findReg 8 a c.mtimeAddr.toList 0 with
        | some (_, off) => .mtime off
        | none => if inRegions c.ram a n then .ram else .nowhere

/-! ### The PLIC register map, 20_memory.md R90 -/

/-- The PLIC registers. -/
inductive PlicReg where
  /-- `prio[s]`. -/
  | prio (s : Nat)
  /-- Word w of the pending array. -/
  | pendingWord (w : Nat)
  /-- Word w of the enables of target t. -/
  | enableWord (t w : Nat)
  /-- `thr[t]`. -/
  | threshold (t : Nat)
  /-- The claim/complete register of target t. -/
  | claim (t : Nat)
  /-- A reserved or unlisted offset (R92). -/
  | reserved
deriving DecidableEq, Repr

/-- The register at an aligned offset of the PLIC window (20_memory.md R90, R92). -/
def plicReg (c : Config) (off : Nat) : PlicReg :=
  if off < 0x1000 then (if isSource c (off / 4) then .prio (off / 4) else .reserved)
  else if off < 0x1080 then .pendingWord ((off - 0x1000) / 4)
  else if off < 0x2000 then .reserved
  else if off < 0x1F0000 then
    (if (off - 0x2000) / 0x80 < c.ntgt then .enableWord ((off - 0x2000) / 0x80) ((off - 0x2000) % 0x80 / 4) else .reserved)
  else if off < 0x200000 then .reserved
  else if c.ntgt ≤ (off - 0x200000) / 0x1000 then .reserved
  else if (off - 0x200000) % 0x1000 = 0 then .threshold ((off - 0x200000) / 0x1000)
  else if (off - 0x200000) % 0x1000 = 4 then .claim ((off - 0x200000) / 0x1000)
  else .reserved

/-- `PLIC_PERM`: M-mode everywhere; a lower mode only on the page of its own target, or of a target granted to it
(20_memory.md R93, notes/assumptions/31.md). -/
def plicPerm (c : Config) (priv : Mode) (h off : Nat) : Bool :=
  priv == .m ||
  (decide (0x200000 ≤ off) &&
    (c.targetMap.lookup ((off - 0x200000) / 0x1000) == some (h, priv) ||
      c.plicGrants.contains (priv, (h, (off - 0x200000) / 0x1000))))

/-- The width and permission checks of a PLIC access (20_memory.md R84, R93). -/
def plicCheck (s : State) (w : Width) (off : Nat) : Option AccessError :=
  if w ≠ .word ∨ off % 4 ≠ 0 then some .plicWidth
  else if plicPerm s.cfg s.hart.priv s.hid off then none
  else some .plicDenied

/-! ### Reads -/

/-- The outcome of `MemRead`. -/
inductive ReadResult where
  /-- A value, and the state after the read. -/
  | value (v : Word) (s : State)
  /-- A claim for target t was sent; the load waits for its response (20_memory.md R96). -/
  | claim (t : Nat) (s : State)
  /-- The spec refuses the access. -/
  | bad (e : AccessError)
  /-- A register write that the read waits for is one that the spec refuses (60_exceptions.md R234). -/
  | highPriority (v : Nat)
  /-- Two harts touch one byte of RAM, one of them storing (20_memory.md R97). -/
  | race

/-- A read of a register of the PLIC core, after the hart's own writes (60_exceptions.md section 11, D19). -/
def coreRead (s : State) (f : Plic → BitVec 32) : ReadResult :=
  match ownRefusedValue s with
  | some v => .highPriority v
  | none => .value ((f (afterOwnWrites s).plic).setWidth 64) (afterOwnWrites s)

/-- A read of a PLIC register (60_exceptions.md R250 to R254). -/
def plicRead (s : State) (off : Nat) : ReadResult :=
  match plicReg s.cfg off with
  | .prio src => coreRead s (fun p => BitVec.ofNat 32 (prioOf s.cfg p src))
  | .pendingWord w => coreRead s (fun p => getWord32 p.ip w)
  | .enableWord t w => coreRead s (fun p => getWord32 (enablesOf p t) w)
  | .threshold t => coreRead s (fun p => BitVec.ofNat 32 (thrOf s.cfg p t))
  | .claim t => .claim t { s with plic := { s.plic with claimQ := s.plic.claimQ ++ [(s.hid, t)] } }
  | .reserved => .bad .plicReserved

/-- A read of a 64-bit timer register at an offset: a 32-bit half, or with XLEN = 64 the whole (20_memory.md R85). -/
def timerRead (s : State) (w : Width) (off : Nat) (v : BitVec 64) : ReadResult :=
  if w = .word ∧ off = 0 then .value ((loHalf v).setWidth 64) s
  else if w = .word ∧ off = 4 then .value ((hiHalf v).setWidth 64) s
  else if w = .double ∧ off = 0 ∧ s.cfg.xlen = .rv64 then .value v s
  else .bad .deviceWidth

/-- `MemRead(addr, n)` (00_scope.md R5, 20_memory.md R81). -/
def memRead (s : State) (w : Width) (a : Nat) : ReadResult :=
  match route s.cfg a (widthBytes w) with
  | .plic off =>
    match plicCheck s w off with
    | some e => .bad e
    | none => plicRead s off
  | .msip h off =>
    if s.hart.priv ≠ .m then .bad .msipDenied
    else if w ≠ .word ∨ off ≠ 0 then .bad .deviceWidth
    else .value (if ((s.hartAt h).any (fun k => k.mip.getLsbD 3)) then 1#64 else 0#64) s
  | .timecmp h off =>
    if s.hart.priv ≠ .m then .bad .timerDenied
    else timerRead s w off ((s.hartAt h).elim 0#64 (fun k => k.mtimecmp))
  | .mtime off => if s.hart.priv ≠ .m then .bad .timerDenied else timerRead s w off s.mtime
  | .ram =>
    if raceFree s.ramUse s.hid false a (widthBytes w) then
      .value (BitVec.ofNat 64 (readBytes s.mem a (widthBytes w)))
        { s with ramUse := noteUse s.ramUse s.hid false a (widthBytes w) }
    else .race
  | .nowhere => .bad .unmapped

/-! ### Writes -/

/-- The outcome of `MemWrite`. -/
inductive WriteResult where
  /-- The state after the write. -/
  | done (s : State)
  /-- The spec refuses the access. -/
  | bad (e : AccessError)
  /-- A store into the program text (20_memory.md R100). -/
  | text
  /-- Two harts touch one byte of RAM, one of them storing (20_memory.md R97). -/
  | race

/-- The machine with a register write sent to the PLIC core (20_memory.md R96). -/
def postWrite (s : State) (q : PlicWrite) : State := { s with plic := { s.plic with wrQ := s.plic.wrQ ++ [(s.hid, q)] } }

/-- A write of a PLIC register: a posted message, or a completion (60_exceptions.md R250 to R255). -/
def plicStore (s : State) (off : Nat) (v : BitVec 32) : WriteResult :=
  match plicReg s.cfg off with
  | .prio src => .done (postWrite s (.prio src v.toNat))
  | .pendingWord _ => if s.cfg.ignorePendingWrite then .done s else .bad .pendingWrite
  | .enableWord t w => .done (postWrite s (.enable t w v))
  | .threshold t => .done (postWrite s (.threshold t v.toNat))
  | .claim t => .done { s with plic := { s.plic with complQ := s.plic.complQ ++ [(t, v.toNat)] } }
  | .reserved => .bad .plicReserved

/-- A write of `mtimecmp[h]` at an offset: a 32-bit half, or with XLEN = 64 the whole (20_memory.md R85, R88). DESIGN CHOICE: h may be
any hart, not only the one that writes (notes/assumptions/45.md). -/
def timecmpWrite (s : State) (w : Width) (h off : Nat) (v : Word) : WriteResult :=
  if w = .word ∧ off = 0 then
    .done (s.modHart h (fun k => k.setTimecmp (hiHalf k.mtimecmp ++ loHalf v)))
  else if w = .word ∧ off = 4 then
    .done (s.modHart h (fun k => k.setTimecmp (loHalf v ++ loHalf k.mtimecmp)))
  else if w = .double ∧ off = 0 ∧ s.cfg.xlen = .rv64 then .done (s.modHart h (fun k => k.setTimecmp v))
  else .bad .deviceWidth

/-- `MemWrite(addr, n, v)` (00_scope.md R5, 20_memory.md R81). -/
def memWrite (s : State) (w : Width) (a : Nat) (v : Word) : WriteResult :=
  match route s.cfg a (widthBytes w) with
  | .plic off =>
    match plicCheck s w off with
    | some e => .bad e
    | none => plicStore s off (loHalf v)
  | .msip h off =>
    if s.hart.priv ≠ .m then .bad .msipDenied
    else if w ≠ .word ∨ off ≠ 0 then .bad .deviceWidth
    else .done (s.modHart h (fun k => k.driveMip 3 (v.getLsbD 0)))
  | .timecmp h off => if s.hart.priv ≠ .m then .bad .timerDenied else timecmpWrite s w h off v
  | .mtime _ => if s.hart.priv ≠ .m then .bad .timerDenied else .bad .timeReadOnly
  | .ram =>
    if meetsRegions s.cfg.text a (widthBytes w) then .text
    else if raceFree s.ramUse s.hid true a (widthBytes w) then
      .done
        { s with
          mem := writeBytes s.mem a (widthBytes w) v.toNat
          ramUse := noteUse s.ramUse s.hid true a (widthBytes w) }
    else .race
  | .nowhere => .bad .unmapped

/-! ### What a refused access does, notes/assumptions/15.md -/

/-- The stop of a refused access under the policy `stop`. -/
def stopAccess (e : AccessError) (a : Word) : Outcome :=
  match e with
  | .unmapped => .fault (.unmapped a.toNat)
  | .plicReserved => .refused (.device .plicReserved a.toNat)
  | .plicWidth => .refused (.device .plicWidth a.toNat)
  | .plicDenied => .refused (.device .plicDenied a.toNat)
  | .pendingWrite => .refused (.device .pendingWrite a.toNat)
  | .msipDenied => .refused (.device .msipDenied a.toNat)
  | .timerDenied => .refused (.device .timerDenied a.toNat)
  | .deviceWidth => .refused (.device .deviceWidth a.toNat)
  | .timeReadOnly => .refused (.device .timeReadOnly a.toNat)

/-- A refused access: the access-fault exception `x` at the address, or a stop, as the configuration says (D25). -/
def refuseAccess (s : State) (x : Exn) (e : AccessError) (a : Word) : Outcome :=
  match s.cfg.badAccess with
  | .accessFault => raise x (some a) s
  | .stop => stopAccess e a

/-! ### Loads and stores -/

/-- The extension of a loaded value to XLEN bits, by the width of the load (43_support_subset.md R170). -/
def loadExtend (xl : XLen) (w : Width) (v : Word) : Word :=
  match w with
  | .byte => sext xl (v.setWidth 8)
  | .half => sext xl (v.setWidth 16)
  | .word => sext xl (v.setWidth 32)
  | .double => trunc xl v

/-- A load: alignment, `MemRead`, rd and the pc (43_support_subset.md R170, 20_memory.md R83). -/
def loadTo (w : Width) (rd : BitVec 5) (a : Word) (s : State) : Outcome :=
  if aligned a (widthBytes w) then
    match memRead s w a.toNat with
    | .value v s1 => (s1.setX rd (loadExtend s.cfg.xlen w v)).complete
    | .claim t s1 => .next (s1.setHart { s1.hart with waiting := some ⟨t, rd⟩ })
    | .bad e => refuseAccess s .loadFault e a
    | .highPriority v => .refused (.highPriority v)
    | .race => .fault (.ramRace a.toNat)
  else raise .loadMisaligned (some a) s

/-- A store: alignment, `MemWrite`, the pc (43_support_subset.md R171, 20_memory.md R83). -/
def storeFrom (w : Width) (v : Word) (a : Word) (s : State) : Outcome :=
  if aligned a (widthBytes w) then
    match memWrite s w a.toNat v with
    | .done s1 => s1.complete
    | .bad e => refuseAccess s .storeFault e a
    | .text => .refused (.storeToText a.toNat)
    | .race => .fault (.ramRace a.toNat)
  else raise .storeMisaligned (some a) s

end Sys2Proof.Machine
end

