-- ==== Sys2Proof/Machine/Support.lean ====
section
/-! DEFINITION. Machine/Support.lean: the support subset LUI, ADDI, SLLI, LW, SW, BLT (43_support_subset.md). -/

namespace Sys2Proof.Machine

/-- LUI rd, imm20 (R167). -/
def execLui (rd : BitVec 5) (imm : BitVec 20) (s : State) : Outcome := (s.setX rd (immUpper s imm)).complete

/-- ADDI rd, rs1, imm12: the sum modulo 2^XLEN (R168). -/
def execAddi (rd rs1 : BitVec 5) (imm : BitVec 12) (s : State) : Outcome :=
  (s.setX rd (addX s.cfg.xlen (s.getX rs1) (imm12 s imm))).complete

/-- SLLI rd, rs1, shamt: the shift modulo 2^XLEN. With XLEN = 32 a shift amount above 31 is Illegal instruction (R169). -/
def execSlli (rd rs1 : BitVec 5) (shamt : BitVec 6) (s : State) : Outcome :=
  if shamt.toNat < s.cfg.xlen.bits then (s.setX rd (trunc s.cfg.xlen (s.getX rs1 <<< shamt.toNat))).complete
  else raiseIllegal s

/-- LW rd, imm12(rs1) (R170). -/
def execLw (rd : BitVec 5) (imm : BitVec 12) (rs1 : BitVec 5) (s : State) : Outcome := loadTo .word rd (dataAddr s rs1 imm) s

/-- SW rs2, imm12(rs1) (R171). -/
def execSw (rs2 : BitVec 5) (imm : BitVec 12) (rs1 : BitVec 5) (s : State) : Outcome :=
  storeFrom .word (s.getX rs2) (dataAddr s rs1 imm) s

/-- BLT rs1, rs2, label: a signed comparison; a taken branch to an address that is no multiple of 4 raises Instruction address
misaligned at the branch (R172). -/
def execBlt (rs1 rs2 : BitVec 5) (off : BitVec 13) (s : State) : Outcome :=
  if signedVal s.cfg.xlen (s.getX rs1) < signedVal s.cfg.xlen (s.getX rs2) then
    (if aligned (branchTarget s off) 4 then .next (s.setPc (branchTarget s off))
     else raise .fetchMisaligned (some (branchTarget s off)) s)
  else s.complete

end Sys2Proof.Machine
end

