-- ==== Sys2Proof/Machine/TrapReturn.lean ====
section
/-! DEFINITION. Machine/TrapReturn.lean: URET, SRET, HRET, MRET (40_trap_return.md). -/

namespace Sys2Proof.Machine

/-- URET: `XRET(U)`, only with the extension N (R131). -/
def execUret (s : State) : Outcome := xret .u s

/-- SRET: `XRET(S)` (R132). -/
def execSret (s : State) : Outcome := xret .s s

/-- HRET: `XRET(H)` (R133). -/
def execHret (s : State) : Outcome := xret .h s

/-- MRET: `XRET(M)` (R134). -/
def execMret (s : State) : Outcome := xret .m s

end Sys2Proof.Machine
end

