-- ==== Sys2Proof/Machine/Agents.lean ====
section
/-! DEFINITION. Machine/Agents.lean: one step of each agent (00_scope.md R3): a hart's fetch and execution, its interrupts, the timer, the
comparator, the environment, the gateways, the PLIC core and the notifications. -/

namespace Sys2Proof.Machine

/-! ### A hart executes, 60_exceptions.md R198 and R199 -/

/-- What a fetch at the program counter gives. -/
inductive Fetched where
  /-- Four bytes of the program text, the lowest address first. -/
  | bytes (bs : List Byte)
  /-- The address is no multiple of 4 (10_state.md R22). -/
  | misaligned
  /-- The address is outside the program text (20_memory.md R100). -/
  | unmapped
deriving DecidableEq, Repr

/-- The four bytes of memory at an address. -/
def fourBytes (m : Memory) (a : Nat) : List Byte := [readByte m a, readByte m (a + 1), readByte m (a + 2), readByte m (a + 3)]

/-- The fetch at the program counter of the current hart. -/
def fetch (s : State) : Fetched :=
  if aligned s.hart.pc 4 then
    (if inRegions s.cfg.text s.hart.pc.toNat 4 then .bytes (fourBytes s.mem s.hart.pc.toNat) else .unmapped)
  else .misaligned

/-- A fetch outside the program text: the access-fault exception, or a stop (notes/assumptions/15.md and 27.md). -/
def refuseFetch (s : State) : Outcome :=
  match s.cfg.badAccess with
  | .accessFault => raise .fetchFault (some s.hart.pc) s
  | .stop => .fault (.fetchUnmapped s.hart.pc.toNat)

/-- The current hart fetches, decodes and executes one instruction; the checks are made in the order of 60_exceptions.md R199. -/
def execNext (s : State) : Outcome :=
  match fetch s with
  | .misaligned => raise .fetchMisaligned (some s.hart.pc) s
  | .unmapped => refuseFetch s
  | .bytes bs =>
    match decodeBytes s.cfg.xlen bs with
    | .error _ => raiseIllegal s
    | .ok i => exec i s

/-! ### A hart finishes a claim load, 20_memory.md R96 -/

/-- A response is meant for a hart's claim of a target. -/
def answers (h t : Nat) (r : ClaimResponse) : Bool := r.hart == h && r.target == t

/-- The current hart, held by a claim load, dequeues the response if it has come: the id goes to rd and the pc advances.
While it has not come, nothing changes. -/
def finishClaim (s : State) (w : Waiting) : Outcome :=
  match s.plic.respQ.find? (answers s.hid w.target) with
  | none => .next s
  | some r =>
    let s1 := { s with plic := { s.plic with respQ := removeFirst (answers s.hid w.target) s.plic.respQ } }
    ((s1.setHart { s1.hart with waiting := none }).setX w.rd (sext s.cfg.xlen (BitVec.ofNat 32 r.id))).complete

/-- The current hart takes its step. -/
def runHart (s : State) : Outcome :=
  match s.hart.waiting with
  | some w => finishClaim s w
  | none => execNext s

/-! ### The other steps -/

/-- The current hart takes interrupt i if it is takeable and no load is outstanding (60_exceptions.md R198, R199;
notes/assumptions/32.md). -/
def takeInterrupt (s : State) (i : Nat) : State :=
  if s.hart.waiting.isNone && takeable s.cfg s.hart i then trapEntry true i s.hart.pc none s else s

/-- The timer advances; at 2^64 - 1 the premise of 60_exceptions.md R221 is left. -/
def doTick (s : State) : Outcome :=
  if s.mtime = BitVec.allOnes 64 then .refused .mtimeOverflow else .next { s with mtime := s.mtime + 1#64 }

/-- The comparator of hart h sets MTIP (60_exceptions.md R222). -/
def doCompare (s : State) (h : Nat) : State :=
  s.modHart h (fun k => if compareEnabled s k then k.driveMip 7 true else k)

/-- The platform drives the local interrupt bit i of hart h, if i is in `LOCAL_IRQ_BITS` (10_state.md R41). -/
def doLocalIrq (s : State) (h i : Nat) (b : Bool) : State :=
  if (localMask s.cfg).getLsbD i then s.modHart h (fun k => k.driveMip i b) else s

/-- Whether there is a hart h. -/
def hasHart (s : State) (h : Nat) : Bool := (s.hartAt h).isSome

/-- One step of the agent an event names. A disabled event changes nothing. -/
def runEvent (e : Event) (s : State) : Outcome :=
  match e with
  | .run h => if hasHart s h then runHart (s.switchTo h) else .next s
  | .interrupt h i => if hasHart s h then .next (takeInterrupt (s.switchTo h) i) else .next s
  | .tick => doTick s
  | .compare h => .next (doCompare s h)
  | .line src b => .next (doLine s src b)
  | .edge src => .next (doEdge s src)
  | .localIrq h i b => .next (doLocalIrq s h i b)
  | .forward src => .next (doForward s src)
  | .accept src => .next (doAccept s src)
  | .plicWrite h => writeRegister s h
  | .plicClaim h => .next (doClaim s h)
  | .complete t src => .next (doComplete s t src)
  | .notify t => .next (doNotify s t)

/-- What happens when the schedule is empty: the current hart runs; while it is held by a claim load whose response has not
come, the PLIC core works on that hart's messages (notes/assumptions/3.md). -/
def defaultEvent (s : State) : Event :=
  match s.hart.waiting with
  | none => .run s.hid
  | some w =>
    if s.plic.respQ.any (answers s.hid w.target) then .run s.hid
    else if s.plic.wrQ.any (fun e => e.1 == s.hid) then .plicWrite s.hid
    else .plicClaim s.hid

/-- The event of the next step. -/
def nextEvent (s : State) : Event := (s.sched.head?).getD (defaultEvent s)

/-- The machine with the event of the next step taken off its schedule. -/
def popEvent (s : State) : State := { s with sched := s.sched.tail }

end Sys2Proof.Machine
end

