-- ==== Sys2Proof/Machine/Step.lean ====
section
/-! DEFINITION. Machine/Step.lean: one step of the machine, and how a word is placed where the next step fetches. -/

namespace Sys2Proof.Machine

/-- One step: the agent that the schedule names moves (00_scope.md R3). -/
def step (s : State) : Host.Outcome State Fault Refusal := runEvent (nextEvent s) (popEvent s)

/-- The machine with an instruction word stored where its next step fetches: in the program text at the pc of the current hart.
The bits of the word at `nbits` and above are 0. If events are scheduled, the current hart's step is put before them, and an
outstanding claim load is dropped, so that the very next step runs the word (notes/assumptions/8.md). -/
def State.withFetchWord (s : State) (nbits w : Nat) : State :=
  { s with
    mem := writeBytes s.mem s.hart.pc.toNat 4 (w % 2 ^ nbits)
    hart := { s.hart with waiting := none }
    sched := if s.sched.isEmpty then [] else .run s.hid :: s.sched }

end Sys2Proof.Machine
end

