-- ==== Sys2Proof/WellFormed.lean ====
section
/-! DEFINITION. WellFormed.lean: which instructions and which configurations the spec allows. -/

namespace Sys2Proof

/-! ### Instructions -/

/-- With XLEN = 32 a shift amount is at most 31 (43_support_subset.md R169). -/
def shamtOk (xl : XLen) (shamt : BitVec 6) : Bool := decide (shamt.toNat < xl.bits)

/-- A branch offset is even (30_encoding.md R112). -/
def offsetOk (off : BitVec 13) : Bool := !off.getLsbD 0

/-- The operands of an instruction are ones its encoding admits. The other operands are bounded by their types. -/
def Instr.wf (xl : XLen) : Instr → Bool
  | .ecall => true
  | .ebreak => true
  | .uret => true
  | .sret => true
  | .hret => true
  | .mret => true
  | .csrrw _ _ _ => true
  | .csrrs _ _ _ => true
  | .csrrc _ _ _ => true
  | .csrrwi _ _ _ => true
  | .csrrsi _ _ _ => true
  | .csrrci _ _ _ => true
  | .lui _ _ => true
  | .addi _ _ _ => true
  | .slli _ _ shamt => shamtOk xl shamt
  | .lw _ _ _ => true
  | .sw _ _ _ => true
  | .blt _ _ off => offsetOk off

/-! ### Configurations, 00_scope.md R2 -/

/-- Whether two regions share no address. -/
def Region.disjoint (a b : Region) : Bool := decide (a.base + a.size ≤ b.base ∨ b.base + b.size ≤ a.base)

/-- Whether a region lies inside another. -/
def Region.inside (a b : Region) : Bool := decide (b.base ≤ a.base ∧ a.base + a.size ≤ b.base + b.size)

/-- "needs U in `MODES`". -/
def Config.nExtOk (c : Config) : Bool := !c.nExt || Machine.hasMode c .u

/-- `NHARTS` is positive, and each hart has its MSIP and timer-compare registers. -/
def Config.hartsOk (c : Config) : Bool :=
  decide (0 < c.nharts) && c.msipAddr.length == c.nharts && c.mtimecmpAddr.length == c.nharts

/-- The delegation masks have bits only where the registers have meaning (10_state.md R44, R45, R46). -/
def Config.masksOk (c : Config) : Bool :=
  [c.medelegMask, c.hedelegMask, c.sedelegMask].all (fun w => w &&& 0xFFF#64 == w) &&
  [c.midelegMask, c.hidelegMask, c.sidelegMask].all (fun w => w &&& (0xFFF#64 ||| c.localIrq) == w)

/-- `LOCAL_IRQ_BITS` are positions 12 to XLEN-1 (10_state.md R32, R41). -/
def Config.localIrqOk (c : Config) : Bool :=
  c.localIrq &&& 0xFFF#64 == 0#64 && decide (c.localIrq.toNat < 2 ^ c.xlen.bits)

/-- The PLIC sizes and priorities (00_scope.md R2, C2). R2 gives `MAX_PRI` no upper bound: that it fits a 32-bit register is the
model's (DESIGN CHOICE, notes/assumptions/41.md). -/
def Config.plicOk (c : Config) : Bool :=
  decide (1 ≤ c.nsrc ∧ c.nsrc ≤ 1023) && decide (1 ≤ c.ntgt ∧ c.ntgt ≤ 15808) && decide (1 ≤ c.maxPri ∧ c.maxPri < 2 ^ 32) &&
  c.prioFixed.all (fun p => decide (p.2 ≤ c.maxPri)) &&
  c.edgeDepth.all (fun p => p.2 != some 0)

/-- `TARGET_MAP` is an injective map from targets to (hart, mode) pairs that exist (D23). -/
def Config.targetMapOk (c : Config) : Bool :=
  c.targetMap.all (fun p => decide (p.1 < c.ntgt) && decide (p.2.1 < c.nharts) && Machine.hasMode c p.2.2) &&
  decide (c.targetMap.map (fun p => p.1)).Nodup && decide (c.targetMap.map (fun p => p.2)).Nodup

/-- The device regions: the PLIC window, the MSIP and timer-compare registers, and `mtime` where it is mapped. -/
def Config.deviceRegions (c : Config) : List Region :=
  ⟨c.plicBase, 0x4000000⟩ :: (c.msipAddr.map (fun a => ⟨a, 4⟩) ++ c.mtimecmpAddr.map (fun a => ⟨a, 8⟩) ++
    (match c.mtimeAddr with
     | some a => [⟨a, 8⟩]
     | none => []))

/-- The regions are pairwise disjoint and lie in the address space (20_memory.md R80, R87). That the devices stand at multiples of 4
is the model's (DESIGN CHOICE, notes/assumptions/42.md). -/
def Config.regionsOk (c : Config) : Bool :=
  decide ((c.deviceRegions ++ c.ram).Pairwise (fun a b => a.disjoint b = true)) &&
  (c.deviceRegions ++ c.ram).all (fun r => decide (r.base + r.size ≤ 2 ^ c.xlen.bits)) &&
  c.deviceRegions.all (fun r => r.base % 4 == 0)

/-- The program text lies in `RAM` (20_memory.md R100). -/
def Config.textOk (c : Config) : Bool := c.text.all (fun t => c.ram.any (fun r => t.inside r))

/-- The instruction at `RESET_PC` lies in no device region (20_memory.md R87), and `RESET_PC` is an XLEN-bit address. R22 lets a
misaligned pc raise code 0: that `RESET_PC` is a multiple of 4 is the model's (DESIGN CHOICE, notes/assumptions/42.md). -/
def Config.resetPcOk (c : Config) : Bool :=
  c.resetPc.toNat % 4 == 0 && decide (c.resetPc.toNat < 2 ^ c.xlen.bits) &&
  c.deviceRegions.all (fun r => Region.disjoint ⟨c.resetPc.toNat, 4⟩ r)

/-- The configurations that 00_scope.md R2 allows. -/
def Config.wf (c : Config) : Bool :=
  c.nExtOk && c.hartsOk && c.masksOk && c.localIrqOk && c.plicOk && c.targetMapOk && c.regionsOk && c.textOk && c.resetPcOk

end Sys2Proof
end

