-- ==== Sys2Proof/Safety.lean ====
section
/-! DEFINITION. Safety.lean: the terms that statements use: what a run is, when it is safe, and the invariants of the machine. -/

namespace Sys2Proof

/-- A run of finitely many steps from one state to another, none of which stops. -/
inductive Reaches : Machine.State → Machine.State → Prop where
  | refl (s : Machine.State) : Reaches s s
  | step {s t r : Machine.State} (h : Machine.step s = .next t) (rest : Reaches t r) : Reaches s r

/-- A step goes on: it is no fault and no refusal. -/
def Continues (o : Machine.Outcome) : Prop := ∃ t, o = .next t

/-- A run is safe when every state it reaches can take a step. -/
def SafeFrom (s : Machine.State) : Prop := ∀ t, Reaches s t → Continues (Machine.step t)

/-- A property holds of every hart of the machine. -/
def EveryHart (s : Machine.State) (P : Machine.Hart → Prop) : Prop := P s.hart ∧ ∀ p ∈ s.parked, P p.2

/-- A property of states that every step keeps. -/
def KeptByStep (P : Machine.State → Prop) : Prop := ∀ s t, P s → Machine.step s = .next t → P t

/-! ### Invariants of a hart -/

/-- The current mode is supported, and every xPP field holds a supported mode up to x (10_state.md R21, R27). -/
def ModesLegal (c : Config) (h : Machine.Hart) : Prop :=
  Machine.hasMode c h.priv = true ∧ ∀ x : Mode, x ≠ .u → Machine.ppLegal c (h.status c) x = true

/-- The program counter is a multiple of 4 (10_state.md R22). -/
def PcAligned (h : Machine.Hart) : Prop := h.pc.toNat % 4 = 0

/-- Every hard-wired bit is at its hard-wired value in storage: `mstatus` (10_state.md R28 to R30), VM, PUM and MPRV of it at 0 (R31),
`mip` and `mie` (R40). -/
def HardwiredBits (c : Config) (h : Machine.Hart) : Prop :=
  Machine.fixMstatus c h.mstatus = h.mstatus ∧ h.mstatus &&& Machine.translationMask = 0#64 ∧ h.mip &&& Machine.irqMask c = h.mip ∧ h.mie &&& Machine.irqMask c = h.mie

/-- Every delegation register holds only bits that the implementation supports (10_state.md R46). -/
def DelegationMasked (c : Config) (h : Machine.Hart) : Prop :=
  ∀ x : Mode, h.edeleg x &&& Machine.edelegMask c x = h.edeleg x ∧ h.ideleg x &&& Machine.idelegMask c x = h.ideleg x

/-- The low two bits of every `xepc` and `xtvec` are 0 (10_state.md R50, R51). -/
def VectorsAligned (h : Machine.Hart) : Prop :=
  ∀ x : Mode, Machine.align4 (h.trapRegs x).epc = (h.trapRegs x).epc ∧ Machine.align4 (h.trapRegs x).tvec = (h.trapRegs x).tvec

/-- The integer registers, the pc, the trap registers and the delegation registers hold XLEN-bit values (10_state.md R22, R23,
R44 to R52). -/
def RegistersFit (c : Config) (h : Machine.Hart) : Prop :=
  (∀ r : BitVec 5, Machine.fits c.xlen (Machine.getReg h.x r)) ∧ Machine.fits c.xlen h.pc ∧
  ∀ x : Mode, Machine.fits c.xlen (h.edeleg x) ∧ Machine.fits c.xlen (h.ideleg x) ∧ Machine.fits c.xlen (h.trapRegs x).epc ∧ Machine.fits c.xlen (h.trapRegs x).cause ∧
    Machine.fits c.xlen (h.trapRegs x).tvec ∧ Machine.fits c.xlen (h.trapRegs x).scratch ∧ Machine.fits c.xlen (h.trapRegs x).badaddr

/-! ### Invariants of the machine -/

/-- Every hart's mode and xPP fields are legal. -/
def AllModesLegal (s : Machine.State) : Prop := EveryHart s (ModesLegal s.cfg)

/-- Every hart's pc is aligned. -/
def AllPcsAligned (s : Machine.State) : Prop := EveryHart s PcAligned

/-- Every hart's hard-wired bits are at their values, in a configuration the spec allows. -/
def AllHardwiredBits (s : Machine.State) : Prop := s.cfg.wf = true ∧ EveryHart s (HardwiredBits s.cfg)

/-- Every hart's delegation registers are within their masks. -/
def AllDelegationMasked (s : Machine.State) : Prop := EveryHart s (DelegationMasked s.cfg)

/-- Every hart's `xepc` and `xtvec` are aligned. -/
def AllVectorsAligned (s : Machine.State) : Prop := EveryHart s VectorsAligned

/-- Every hart's registers hold XLEN-bit values. -/
def AllRegistersFit (s : Machine.State) : Prop := EveryHart s (RegistersFit s.cfg)

/-- RAM, its access record and the PLIC's sparse register arrays are each in their canonical form. -/
def StoresCanonical (s : Machine.State) : Prop :=
  Machine.Memory.wf s.mem ∧ Machine.StoreWf Machine.RamUse.none s.ramUse ∧ Machine.StoreWf 0 s.plic.prio ∧
  Machine.StoreWf 0#1024 s.plic.ie ∧ Machine.StoreWf 0 s.plic.thr ∧ Machine.StoreWf Machine.Gateway.idle s.plic.gateways

/-- No two harts have one number (60_exceptions.md R228). -/
def HartsDistinct (s : Machine.State) : Prop := (s.hid :: s.parked.map (fun p => p.1)).Nodup

/-- Every stored priority and threshold is at most `MAX_PRI`; the pending and enable arrays, and the requests on their way to
the core, concern only the sources 1 to `NSRC` (10_state.md R59, 20_memory.md R91). -/
def PlicInRange (s : Machine.State) : Prop :=
  (∀ p ∈ s.plic.prio, p.2 ≤ s.cfg.maxPri) ∧ (∀ p ∈ s.plic.thr, p.2 ≤ s.cfg.maxPri) ∧
  (∀ p ∈ s.plic.ie, ∀ k, p.2.getLsbD k = true → Machine.isSource s.cfg k = true) ∧
  (∀ k, Machine.pendingOf s.plic k = true → Machine.isSource s.cfg k = true) ∧
  (∀ k ∈ s.plic.reqQ, Machine.isSource s.cfg k = true)

/-! ### What a step leaves unchanged -/

/-- Hart k may load the byte of RAM at an address (`store` false) or store to it (`store` true) without racing with an earlier access
of another hart (20_memory.md R97; the record is the model's, notes/assumptions/26.md). -/
def MayTouch (s : Machine.State) (k : Nat) (store : Bool) (b : Nat) : Prop :=
  Machine.useAllows (Machine.storeGet Machine.RamUse.none s.ramUse b) k store = true

/-- From s to t the current hart's access to n bytes of RAM was recorded: another hart may no longer store to these bytes, nor load
them if the access was a store; who else may touch what is as before. -/
def RecordedAccess (s t : Machine.State) (store : Bool) (a n : Nat) : Prop :=
  ∀ (b k : Nat) (w : Bool), MayTouch t k w b ↔ MayTouch s k w b ∧ (a ≤ b → b < a + n → store = true ∨ w = true → k = s.hid)

/-- Nothing outside the current hart changes: the parameters, the other harts, every byte of RAM, the record of accesses to RAM, the
timer, the PLIC and the schedule. -/
structure OutsideUnchanged (s t : Machine.State) : Prop where
  cfg : t.cfg = s.cfg
  hid : t.hid = s.hid
  parked : t.parked = s.parked
  mem : ∀ a, Machine.readByte t.mem a = Machine.readByte s.mem a
  ramUse : t.ramUse = s.ramUse
  mtime : t.mtime = s.mtime
  plic : t.plic = s.plic
  sched : t.sched = s.sched

/-- In the current hart nothing but the integer registers and the pc differs. -/
def OnlyRegistersAndPc (s t : Machine.State) : Prop := t.hart = { s.hart with x := t.hart.x, pc := t.hart.pc }

/-- `x[rd]` holds v, except that `x[0]` reads as before, and every other integer register is unchanged (10_state.md R23). -/
def RegisterWritten (s t : Machine.State) (rd : BitVec 5) (v : Word) : Prop :=
  ∀ q : BitVec 5, t.getX q = if q = rd ∧ q ≠ 0#5 then v else s.getX q

/-- No integer register changes. -/
def RegistersKept (s t : Machine.State) : Prop := ∀ q : BitVec 5, t.getX q = s.getX q

/-- The default advance has a meaning: `pc + 4` does not overflow 2^XLEN, or the configuration gives an overflow a free value, where
the spec refuses it (10_state.md R22, D7; notes/assumptions/13.md). -/
abbrev CanAdvance (s : Machine.State) : Prop := s.cfg.pcOverflow = .free ∨ s.hart.pc.toNat + 4 < 2 ^ s.cfg.xlen.bits

/-- The pc moved to the next instruction, where its address is below 2^XLEN (10_state.md R22); past that the spec states no value
(notes/assumptions/13.md). -/
def PcAdvanced (s t : Machine.State) : Prop :=
  s.hart.pc.toNat + 4 < 2 ^ s.cfg.xlen.bits → t.hart.pc.toNat = s.hart.pc.toNat + 4

/-- The step is one plain instruction that writes v to rd: registers, pc and frame. -/
structure WroteRegister (s t : Machine.State) (rd : BitVec 5) (v : Word) : Prop where
  registers : RegisterWritten s t rd v
  pc : PcAdvanced s t
  hart : OnlyRegistersAndPc s t
  outside : OutsideUnchanged s t

/-! ### Traps and returns -/

/-- From s to t the current hart took a trap at its pc: what 60_exceptions.md R200 writes, and nothing else. -/
structure TookTrap (s t : Machine.State) (intr : Bool) (code : Nat) (bad : Option Word) : Prop where
  /-- The handling mode (R191). -/
  mode : t.hart.priv = Machine.trapTarget s intr code
  /-- `xcause` is Interrupt ++ code (R182). -/
  cause : (t.hart.trapRegs t.hart.priv).cause.toNat = (if intr then 2 ^ (s.cfg.xlen.bits - 1) else 0) + code
  /-- `xepc` is the address of the instruction, its low two bits 0 (R201, 10_state.md R50). -/
  epc : (t.hart.trapRegs t.hart.priv).epc = Machine.align4 s.hart.pc
  /-- `xbadaddr` is the faulting address, where one is given (R203). -/
  badaddr : ∀ b, bad = some b → (t.hart.trapRegs t.hart.priv).badaddr = b
  /-- The pc is `xtvec` (R207). -/
  vector : t.hart.pc = Machine.align4 (s.hart.trapRegs t.hart.priv).tvec
  /-- `xtvec` and `xscratch` keep their values. -/
  kept : (t.hart.trapRegs t.hart.priv).tvec = (s.hart.trapRegs t.hart.priv).tvec ∧
    (t.hart.trapRegs t.hart.priv).scratch = (s.hart.trapRegs t.hart.priv).scratch
  /-- The trap registers of every other mode keep their values (R202). -/
  others : ∀ z : Mode, z ≠ t.hart.priv → t.hart.trapRegs z = s.hart.trapRegs z
  /-- xPIE is the old yIE. -/
  pie : Machine.getPIE (t.hart.status t.cfg) t.hart.priv = Machine.getIE (s.hart.status s.cfg) s.hart.priv
  /-- xIE is 0. -/
  ie : Machine.getIE (t.hart.status t.cfg) t.hart.priv = false
  /-- xPP is y. -/
  pp : Machine.getPP (t.hart.status t.cfg) t.hart.priv = s.hart.priv
  /-- Every other bit of `mstatus` keeps its value. -/
  status : ∀ i, i ≠ Machine.ieBit t.hart.priv → i ≠ Machine.pieBit t.hart.priv →
    (Machine.ppMask t.hart.priv).getLsbD i = false → (t.hart.status t.cfg).getLsbD i = (s.hart.status s.cfg).getLsbD i
  /-- Every other register of the hart keeps its value. -/
  hart : t.hart =
    { s.hart with
      pc := t.hart.pc
      priv := t.hart.priv
      mstatus := t.hart.mstatus
      mTrap := t.hart.mTrap
      hTrap := t.hart.hTrap
      sTrap := t.hart.sTrap
      uTrap := t.hart.uTrap }
  outside : OutsideUnchanged s t

/-- From s to t the current hart returned from a trap into mode x: what 40_trap_return.md R130 writes, and nothing else. -/
structure Returned (s t : Machine.State) (x : Mode) : Prop where
  /-- The mode is xPP. -/
  mode : t.hart.priv = Machine.getPP (s.hart.status s.cfg) x
  /-- The pc is `xepc`, its low two bits 0. -/
  pc : t.hart.pc = Machine.align4 (s.hart.trapRegs x).epc
  /-- yIE is the old xPIE, unless it is hard-wired to 0 (10_state.md R29). -/
  ie : Machine.getIE (t.hart.status t.cfg) t.hart.priv =
    (Machine.getPIE (s.hart.status s.cfg) x && (t.hart.priv != .u || Machine.hasN s.cfg))
  /-- xPIE is 1. -/
  pie : Machine.getPIE (t.hart.status t.cfg) x = true
  /-- xPP is U, or M if U is not supported. -/
  pp : x ≠ .u → Machine.getPP (t.hart.status t.cfg) x = if Machine.hasMode s.cfg .u then .u else .m
  /-- Every other bit of `mstatus` keeps its value. -/
  status : ∀ i, i ≠ Machine.ieBit t.hart.priv → i ≠ Machine.pieBit x → (Machine.ppMask x).getLsbD i = false →
    (t.hart.status t.cfg).getLsbD i = (s.hart.status s.cfg).getLsbD i
  /-- Every other register of the hart keeps its value. -/
  hart : t.hart = { s.hart with pc := t.hart.pc, priv := t.hart.priv, mstatus := t.hart.mstatus }
  outside : OutsideUnchanged s t

/-- A data access that the spec refuses, with outcome o: under the policy `accessFault` the access-fault exception at the address,
under the policy `stop` the stop that names the reason (D25, notes/assumptions/15.md). -/
def RefusesAccess (s : Machine.State) (o : Machine.Outcome) (code : Nat) (e : Machine.AccessError) (a : Word) : Prop :=
  (s.cfg.badAccess = .accessFault → ∃ t, o = .next t ∧ TookTrap s t false code (some a)) ∧
  (s.cfg.badAccess = .stop → o = Machine.stopAccess e a)

/-! ### CSR accesses -/

/-- The CSR number of a CSR instruction, and whether the instruction writes the CSR (41_csr_access.md R143 to R148). -/
def Instr.csrUse : Instr → Option (CsrNum × Bool)
  | .ecall => none
  | .ebreak => none
  | .uret => none
  | .sret => none
  | .hret => none
  | .mret => none
  | .csrrw _ csr _ => some (csr, true)
  | .csrrs _ csr rs1 => some (csr, rs1 != 0#5)
  | .csrrc _ csr rs1 => some (csr, rs1 != 0#5)
  | .csrrwi _ csr _ => some (csr, true)
  | .csrrsi _ csr zimm => some (csr, zimm != 0#5)
  | .csrrci _ csr zimm => some (csr, zimm != 0#5)
  | .lui _ _ => none
  | .addi _ _ _ => none
  | .slli _ _ _ => none
  | .lw _ _ _ => none
  | .sw _ _ _ => none
  | .blt _ _ _ => none

/-- The modes that can take a trap, by `MODES` and `N_EXT`: those whose trap CSRs exist (60_exceptions.md R190, 41_csr_access.md R142). -/
def HandlesTraps (c : Config) : Mode → Prop
  | .m => True
  | .h => c.modes = .mhsu
  | .s => c.modes = .msu ∨ c.modes = .mhsu
  | .u => c.nExt = true ∧ c.modes ≠ .m

/-- The modes whose delegation registers exist: those that can take a trap and have one below them that can (41_csr_access.md R142). -/
def DelegatesFurther (c : Config) : Mode → Prop
  | .m => c.modes = .msu ∨ c.modes = .mhsu ∨ (c.modes = .mu ∧ c.nExt = true)
  | .h => c.modes = .mhsu
  | .s => (c.modes = .msu ∨ c.modes = .mhsu) ∧ c.nExt = true
  | .u => False

/-- The mode that an instruction returns from, if it is a trap return. -/
def Instr.returnMode : Instr → Option Mode
  | .ecall => none
  | .ebreak => none
  | .uret => some .u
  | .sret => some .s
  | .hret => some .h
  | .mret => some .m
  | .csrrw _ _ _ => none
  | .csrrs _ _ _ => none
  | .csrrc _ _ _ => none
  | .csrrwi _ _ _ => none
  | .csrrsi _ _ _ => none
  | .csrrci _ _ _ => none
  | .lui _ _ => none
  | .addi _ _ _ => none
  | .slli _ _ _ => none
  | .lw _ _ _ => none
  | .sw _ _ _ => none
  | .blt _ _ _ => none

/-- A write of v to a status register of mode x: the bits of the view outside the xPP fields are v's, every other bit keeps its
value; an xPP field holds what was written if that is a supported mode up to x. Where it is not, R27 refuses the write; the
configuration that lets it complete leaves some supported mode up to x (41_csr_access.md R142; notes/assumptions/11.md). -/
def StatusWrote (c : Config) (h k : Machine.Hart) (x : Mode) (v : Word) : Prop :=
  (∀ i, i < 9 ∨ 12 < i →
    (k.status c).getLsbD i = if (Machine.statusWriteMask c x).getLsbD i then v.getLsbD i else (h.status c).getLsbD i) ∧
  (∀ z, Machine.ppLegal c (Machine.fixMstatus c (Machine.merge (Machine.statusWriteMask c x) (h.status c) v)) z = true →
    Machine.getPP (k.status c) z =
      Machine.getPP (Machine.fixMstatus c (Machine.merge (Machine.statusWriteMask c x) (h.status c) v)) z) ∧
  (∀ z, z ≠ .u → Machine.ppLegal c (k.status c) z = true) ∧
  k = { h with mstatus := k.mstatus }

/-- What a write of v to a CSR does to a hart, from h to k, and that it does nothing else (41_csr_access.md R142). -/
def CsrWrote (c : Config) (h k : Machine.Hart) (v : Word) : Machine.Csr → Prop
  | .status x => StatusWrote c h k x v
  | .ip x =>
    (∀ i, k.mip.getLsbD i =
      if (Machine.viewWriteMask c x).getLsbD i && (Machine.levelMask c).getLsbD i && (Machine.visMask c h x).getLsbD i
      then v.getLsbD i else h.mip.getLsbD i) ∧
    k = { h with mip := k.mip }
  | .ie x =>
    (∀ i, k.mie.getLsbD i =
      if (Machine.irqMask c).getLsbD i && (Machine.visMask c h x).getLsbD i then v.getLsbD i else h.mie.getLsbD i) ∧
    k = { h with mie := k.mie }
  | .edeleg x => k = h.setEdeleg x (v &&& Machine.edelegMask c x &&& Machine.visMaskExc c h x)
  | .ideleg x => k = h.setIdeleg x (v &&& Machine.idelegMask c x &&& Machine.visMask c h x)
  | .tvec x => k = h.setTrapRegs x { h.trapRegs x with tvec := Machine.align4 v }
  | .epc x => k = h.setTrapRegs x { h.trapRegs x with epc := Machine.align4 v }
  | .scratch x => k = h.setTrapRegs x { h.trapRegs x with scratch := v }
  | .badaddr x => k = h.setTrapRegs x { h.trapRegs x with badaddr := v }
  | .cause x =>
    (Machine.causeLegal c v = true → (k.trapRegs x).cause = v) ∧
    ((k.trapRegs x).cause &&& Machine.topBit c.xlen = v &&& Machine.topBit c.xlen) ∧
    k = h.setTrapRegs x { h.trapRegs x with cause := (k.trapRegs x).cause }
  | .cycle => False
  | .time => False
  | .instret => False
  | .cycleh => False
  | .timeh => False
  | .instreth => False
  | .fflags => False
  | .frm => False
  | .fcsr => False

end Sys2Proof
end

