-- ==== Sys2Proof/Certificates/Slice0/Obligations.lean ====
section
/-! DEFINITION. Certificates/Slice0/Obligations.lean: the statements for the provers, one definition each. -/

section
open Sys2Proof Sys2Proof.Machine

/-! ### Encoding -/

/-- Decoding the bytes of an encoded well-formed instruction gives the instruction back, for every instruction, operand and XLEN
(30_encoding.md). -/
def Obligations.DecodeInvertsEncode : Prop :=
  ∀ (xl : XLen) (i : Instr), i.wf xl = true → decodeBytes xl (bytesOfWord (encode i)) = .ok i

/-- A word that decodes to an instruction is that instruction's encoding, and the instruction is well formed (30_encoding.md). -/
def Obligations.EncodeInvertsDecode : Prop :=
  ∀ (xl : XLen) (w : BitVec 32) (i : Instr), decode xl w = .ok i → encode i = w ∧ i.wf xl = true

/-- The opcode table has 18 rows, no word matches two of them, and a word decodes to an instruction exactly when it ends in 11 and
a row that it matches builds that instruction (30_encoding.md section 3). -/
def Obligations.OpcodeRowsDisjoint : Prop :=
  ∀ xl : XLen, (opcodeRows xl).length = 18 ∧
    (opcodeRows xl).Pairwise (fun r q => ∀ w : BitVec 32, ¬ (r.matches w = true ∧ q.matches w = true)) ∧
    ∀ (w : BitVec 32) (i : Instr),
      decode xl w = .ok i ↔ w.extractLsb' 0 2 = 3#2 ∧ ∃ r ∈ opcodeRows xl, r.matches w = true ∧ r.build w = i

/-- Words written out in the spec's examples decode to the instructions they stand for, one at least of every family. -/
def Obligations.SampleWordsDecode : Prop :=
  ∀ xl : XLen,
    decode xl 0x00000073#32 = .ok .ecall ∧ decode xl 0x00100073#32 = .ok .ebreak ∧
    decode xl 0x00200073#32 = .ok .uret ∧ decode xl 0x10200073#32 = .ok .sret ∧
    decode xl 0x20200073#32 = .ok .hret ∧ decode xl 0x30200073#32 = .ok .mret ∧
    decode xl 0x30529073#32 = .ok (.csrrw 0#5 0x305#12 5#5) ∧ decode xl 0x3042A073#32 = .ok (.csrrs 0#5 0x304#12 5#5) ∧
    decode xl 0x3442B073#32 = .ok (.csrrc 0#5 0x344#12 5#5) ∧ decode xl 0x34005073#32 = .ok (.csrrwi 0#5 0x340#12 0#5) ∧
    decode xl 0x30046073#32 = .ok (.csrrsi 0#5 0x300#12 8#5) ∧ decode xl 0x14417073#32 = .ok (.csrrci 0#5 0x144#12 2#5) ∧
    decode xl 0x402002B7#32 = .ok (.lui 5#5 0x40200#20) ∧ decode xl 0x00100313#32 = .ok (.addi 6#5 0#5 1#12) ∧
    decode xl 0x00229293#32 = .ok (.slli 5#5 5#5 2#6) ∧ decode xl 0x0042A503#32 = .ok (.lw 10#5 4#12 5#5) ∧
    decode xl 0x00A2A223#32 = .ok (.sw 10#5 4#12 5#5) ∧ decode xl 0x0002C463#32 = .ok (.blt 5#5 0#5 8#13)

/-! ### A step -/

/-- A step in which hart h is to run executes the instruction that its program counter fetches, with hart h the current one; with
an empty schedule that hart is the current one already. Making hart h the current one leaves the state of every hart as it was. (The
schedule and the current hart are the model's form, notes/assumptions/3.md and 4.md.) -/
def Obligations.StepRunsDecoded : Prop :=
  (∀ (s : State) (h : Nat) (rest : List Event) (i : Instr),
    s.sched = .run h :: rest → hasHart s h = true → ((popEvent s).switchTo h).hart.waiting = none →
    ((popEvent s).switchTo h).hart.pc.toNat % 4 = 0 →
    inRegions s.cfg.text ((popEvent s).switchTo h).hart.pc.toNat 4 = true →
    decodeBytes s.cfg.xlen (fourBytes s.mem ((popEvent s).switchTo h).hart.pc.toNat) = .ok i →
    i.wf s.cfg.xlen = true ∧ step s = exec i ((popEvent s).switchTo h)) ∧
  (∀ (s : State) (i : Instr),
    s.sched = [] → s.hart.waiting = none → s.hart.pc.toNat % 4 = 0 → inRegions s.cfg.text s.hart.pc.toNat 4 = true →
    decodeBytes s.cfg.xlen (fourBytes s.mem s.hart.pc.toNat) = .ok i → step s = exec i s) ∧
  (∀ (s : State) (h : Nat), HartsDistinct s → hasHart s h = true →
    (s.switchTo h).hid = h ∧ HartsDistinct (s.switchTo h) ∧ ∀ k, (s.switchTo h).hartAt k = s.hartAt k)

/-- Every well-formed instruction, placed after reset where the next step fetches, is what that step executes (the placing stands
for the load of a program, notes/assumptions/8.md). -/
def Obligations.PlacedWordRuns : Prop :=
  ∀ i : Instr, i.wf Config.default.xlen = true →
    decodeTableWord 32 (encode i).toNat = some i ∧
    step (State.reset.withFetchWord 32 (encode i).toNat) = exec i (State.reset.withFetchWord 32 (encode i).toNat)

/-- A fetched word that does not end in 11, or that matches no row of the opcode table, raises Illegal instruction, code 2
(30_encoding.md section 4). A fetch from an address that is no multiple of 4 raises Instruction address misaligned, code 0, with that
address in `xbadaddr` (10_state.md section 1). A fetch outside the program text raises code 1 or stops, as the configuration says
(the model's choice, notes/assumptions/15.md and 27.md). -/
def Obligations.FetchTraps : Prop :=
  (∀ (s : State) (w : BitVec 32),
      s.sched = [] → s.hart.waiting = none → s.hart.pc.toNat % 4 = 0 → inRegions s.cfg.text s.hart.pc.toNat 4 = true →
      fourBytes s.mem s.hart.pc.toNat = bytesOfWord w → hasMode s.cfg s.hart.priv = true →
      (w.extractLsb' 0 2 ≠ 3#2 ∨ ∀ r ∈ opcodeRows s.cfg.xlen, r.matches w = false) →
      ∃ t, step s = .next t ∧ TookTrap s t false 2 none) ∧
  (∀ s : State, s.sched = [] → s.hart.waiting = none → hasMode s.cfg s.hart.priv = true →
      (s.hart.pc.toNat % 4 ≠ 0 → ∃ t, step s = .next t ∧ TookTrap s t false 0 (some s.hart.pc)) ∧
      (s.hart.pc.toNat % 4 = 0 → inRegions s.cfg.text s.hart.pc.toNat 4 = false →
        (s.cfg.badAccess = .accessFault → ∃ t, step s = .next t ∧ TookTrap s t false 1 (some s.hart.pc)) ∧
        (s.cfg.badAccess = .stop → step s = .fault (.fetchUnmapped s.hart.pc.toNat))))

/-! ### Registers and the support subset -/

/-- `x[0]` reads zero and discards writes; every other register reads what was last written to it, and a write of one register
leaves every other alone. The end of an instruction that sets no pc of its own is the advance of the pc, and a refusal where
`pc + 4` overflows 2^XLEN (10_state.md section 1; the refusal is the spec's decision D7). In the configuration that gives an
overflow a free value the pc is there some multiple of 4 below 2^XLEN, and nothing else changes (the model's choice,
notes/assumptions/13.md). -/
def Obligations.RegistersAndPc : Prop :=
  (∀ (s : State) (r q : BitVec 5) (v : Word),
      s.getX 0#5 = 0#64 ∧ (s.setX r v).getX q = (if q = r ∧ q ≠ 0#5 then v else s.getX q)) ∧
  (∀ s : State, (CanAdvance s → s.complete = .next s.advance) ∧ (¬ CanAdvance s → s.complete = .refused .pcOverflow)) ∧
  (∀ s : State, 2 ^ s.cfg.xlen.bits ≤ s.hart.pc.toNat + 4 →
      s.advance.hart.pc.toNat % 4 = 0 ∧ s.advance.hart.pc.toNat < 2 ^ s.cfg.xlen.bits ∧
      s.advance.hart = { s.hart with pc := s.advance.hart.pc } ∧ OutsideUnchanged s s.advance)

/-- LUI completes: rd is the 20 bits followed by twelve zeros, sign-extended to XLEN; the pc advances; nothing else changes
(43_support_subset.md). Where `pc + 4` overflows it is refused (10_state.md section 1). -/
def Obligations.LuiResult : Prop :=
  ∀ (s : State) (rd : BitVec 5) (imm : BitVec 20),
    (CanAdvance s → ∃ (t : State) (v : Word),
      exec (.lui rd imm) s = .next t ∧ (v.toNat : Int) = (imm ++ 0#12 : BitVec 32).toInt % 2 ^ s.cfg.xlen.bits ∧
      WroteRegister s t rd v) ∧
    (¬ CanAdvance s → exec (.lui rd imm) s = .refused .pcOverflow)

/-- ADDI completes: rd is the sum of rs1 and the signed immediate modulo 2^XLEN; the pc advances; nothing else changes
(43_support_subset.md). Where `pc + 4` overflows it is refused (10_state.md section 1). -/
def Obligations.AddiResult : Prop :=
  ∀ (s : State) (rd rs1 : BitVec 5) (imm : BitVec 12),
    (CanAdvance s → ∃ (t : State) (v : Word),
      exec (.addi rd rs1 imm) s = .next t ∧
      (v.toNat : Int) = ((s.getX rs1).toNat + imm.toInt) % 2 ^ s.cfg.xlen.bits ∧ WroteRegister s t rd v) ∧
    (¬ CanAdvance s → exec (.addi rd rs1 imm) s = .refused .pcOverflow)

/-- SLLI completes for a shift amount below XLEN: rd is rs1 shifted left modulo 2^XLEN; the pc advances; nothing else changes. With
XLEN = 32 a shift amount above 31 raises Illegal instruction (43_support_subset.md). Where `pc + 4` overflows a legal shift is
refused (10_state.md section 1). -/
def Obligations.SlliResult : Prop :=
  ∀ (s : State) (rd rs1 : BitVec 5) (shamt : BitVec 6),
    (shamt.toNat < s.cfg.xlen.bits → CanAdvance s → ∃ (t : State) (v : Word),
      exec (.slli rd rs1 shamt) s = .next t ∧
      v.toNat = (s.getX rs1).toNat * 2 ^ shamt.toNat % 2 ^ s.cfg.xlen.bits ∧ WroteRegister s t rd v) ∧
    (shamt.toNat < s.cfg.xlen.bits → ¬ CanAdvance s → exec (.slli rd rs1 shamt) s = .refused .pcOverflow) ∧
    (s.cfg.xlen.bits ≤ shamt.toNat → hasMode s.cfg s.hart.priv = true →
      ∃ t, exec (.slli rd rs1 shamt) s = .next t ∧ TookTrap s t false 2 none)

/-- BLT completes: not taken, the pc advances; taken, which is when rs1 is less than rs2 as signed numbers, the pc is the target.
Nothing else changes. A taken branch to an address that is no multiple of 4 raises Instruction address misaligned at the branch
with that address in `xbadaddr` (43_support_subset.md). Where `pc + 4` overflows a branch that is not taken is refused (10_state.md
section 1). -/
def Obligations.BltResult : Prop :=
  ∀ (s : State) (rs1 rs2 : BitVec 5) (off : BitVec 13),
    (signedVal s.cfg.xlen (s.getX rs2) ≤ signedVal s.cfg.xlen (s.getX rs1) → CanAdvance s → ∃ t,
      exec (.blt rs1 rs2 off) s = .next t ∧ RegistersKept s t ∧ PcAdvanced s t ∧ OnlyRegistersAndPc s t ∧
      OutsideUnchanged s t) ∧
    (signedVal s.cfg.xlen (s.getX rs2) ≤ signedVal s.cfg.xlen (s.getX rs1) → ¬ CanAdvance s →
      exec (.blt rs1 rs2 off) s = .refused .pcOverflow) ∧
    (signedVal s.cfg.xlen (s.getX rs1) < signedVal s.cfg.xlen (s.getX rs2) → (branchTarget s off).toNat % 4 = 0 → ∃ t,
      exec (.blt rs1 rs2 off) s = .next t ∧ RegistersKept s t ∧ t.hart.pc = branchTarget s off ∧ OnlyRegistersAndPc s t ∧
      OutsideUnchanged s t) ∧
    (signedVal s.cfg.xlen (s.getX rs1) < signedVal s.cfg.xlen (s.getX rs2) → (branchTarget s off).toNat % 4 ≠ 0 →
      hasMode s.cfg s.hart.priv = true → ∃ t,
        exec (.blt rs1 rs2 off) s = .next t ∧ TookTrap s t false 0 (some (branchTarget s off)))

/-! ### Loads and stores -/

/-- Addresses and what stands at them. The address of a load or store is the base plus the signed immediate, and the target of a
branch the pc plus the signed offset, both modulo 2^XLEN (43_support_subset.md). In a configuration the spec allows, an address is
routed to the PLIC window, the MSIP, timer-compare and timer registers, RAM, or nothing (20_memory.md sections 1 and 4; where the
devices stand is the configuration's, notes/assumptions/7.md). An access is inside RAM when each of its bytes lies in a RAM region
(byte by byte is the model's choice, notes/assumptions/43.md). In the PLIC window every register stands at its offset, and the other
offsets are reserved (20_memory.md section 4). -/
def Obligations.AddressMap : Prop :=
  (∀ (s : State) (rs1 : BitVec 5) (imm : BitVec 12) (off : BitVec 13),
    ((dataAddr s rs1 imm).toNat : Int) = ((s.getX rs1).toNat + imm.toInt) % 2 ^ s.cfg.xlen.bits ∧
    ((branchTarget s off).toNat : Int) = (s.hart.pc.toNat + off.toInt) % 2 ^ s.cfg.xlen.bits) ∧
  (∀ (c : Config) (a n : Nat), c.wf = true → 0 < n →
      (∀ off, off < 0x4000000 → a = c.plicBase + off → route c a n = .plic off) ∧
      (∀ h b off, c.msipAddr[h]? = some b → off < 4 → a = b + off → route c a n = .msip h off) ∧
      (∀ h b off, c.mtimecmpAddr[h]? = some b → off < 8 → a = b + off → route c a n = .timecmp h off) ∧
      (∀ b off, c.mtimeAddr = some b → off < 8 → a = b + off → route c a n = .mtime off) ∧
      (inRegions c.ram a n = true → route c a n = .ram) ∧
      (inRegions c.ram a n = false → (∀ r ∈ c.deviceRegions, a < r.base ∨ r.base + r.size ≤ a) → route c a n = .nowhere)) ∧
  (∀ (rs : List Region) (a n : Nat), inRegions rs a n = true ↔ ∀ b, a ≤ b → b < a + n → ∃ r ∈ rs, r.base ≤ b ∧ b < r.base + r.size) ∧
  (∀ (c : Config) (off : Nat), c.plicOk = true → off < 0x4000000 → off % 4 = 0 →
      (∀ s, 1 ≤ s → s ≤ c.nsrc → off = 4 * s → plicReg c off = .prio s) ∧
      (∀ w, w < 32 → off = 0x1000 + 4 * w → plicReg c off = .pendingWord w) ∧
      (∀ t w, t < c.ntgt → w < 32 → off = 0x2000 + 0x80 * t + 4 * w → plicReg c off = .enableWord t w) ∧
      (∀ t, t < c.ntgt → off = 0x200000 + 0x1000 * t → plicReg c off = .threshold t) ∧
      (∀ t, t < c.ntgt → off = 0x200004 + 0x1000 * t → plicReg c off = .claim t) ∧
      ((off = 0 ∨ (4 * c.nsrc < off ∧ off < 0x1000) ∨ (0x1080 ≤ off ∧ off < 0x2000) ∨
        (0x2000 + 0x80 * c.ntgt ≤ off ∧ off < 0x200000) ∨ 0x200000 + 0x1000 * c.ntgt ≤ off ∨
        (0x200000 ≤ off ∧ 8 ≤ off % 0x1000)) → plicReg c off = .reserved))

/-- A 4-byte load from RAM completes: rd is the four bytes, the lowest address least significant, sign-extended to XLEN; the pc
advances; nothing else changes, in memory or elsewhere, but that the load is recorded: from then on no other hart may store to the
four bytes (43_support_subset.md; 20_memory.md sections 2 and 6; the record is the model's, notes/assumptions/26.md). Where `pc + 4`
overflows it is refused (10_state.md section 1). -/
def Obligations.LoadFromRam : Prop :=
  ∀ (s : State) (rd rs1 : BitVec 5) (imm : BitVec 12),
    (dataAddr s rs1 imm).toNat % 4 = 0 → route s.cfg (dataAddr s rs1 imm).toNat 4 = .ram →
    raceFree s.ramUse s.hid false (dataAddr s rs1 imm).toNat 4 = true →
    (¬ CanAdvance s → exec (.lw rd imm rs1) s = .refused .pcOverflow) ∧
    (CanAdvance s → ∃ (t : State) (v : Word), exec (.lw rd imm rs1) s = .next t ∧
      (v.toNat : Int) =
        (wordOfBytes (readByte s.mem (dataAddr s rs1 imm).toNat) (readByte s.mem ((dataAddr s rs1 imm).toNat + 1))
          (readByte s.mem ((dataAddr s rs1 imm).toNat + 2)) (readByte s.mem ((dataAddr s rs1 imm).toNat + 3))).toInt %
        2 ^ s.cfg.xlen.bits ∧
      WroteRegister s { t with ramUse := s.ramUse } rd v ∧
      (StoreWf RamUse.none s.ramUse → RecordedAccess s t false (dataAddr s rs1 imm).toNat 4))

/-- A 4-byte store to RAM outside the program text completes: the four bytes at the address are the low 32 bits of rs2, the least
significant at the lowest address; every other byte, every register and everything else is unchanged, but that the store is
recorded: from then on no other hart may load or store the four bytes; the pc advances (43_support_subset.md; 20_memory.md
sections 2 and 6; the record is the model's, notes/assumptions/26.md). Where `pc + 4` overflows it is refused (10_state.md section
1). -/
def Obligations.StoreToRam : Prop :=
  ∀ (s : State) (rs2 rs1 : BitVec 5) (imm : BitVec 12),
    Memory.wf s.mem → (dataAddr s rs1 imm).toNat % 4 = 0 → route s.cfg (dataAddr s rs1 imm).toNat 4 = .ram →
    meetsRegions s.cfg.text (dataAddr s rs1 imm).toNat 4 = false →
    raceFree s.ramUse s.hid true (dataAddr s rs1 imm).toNat 4 = true →
    (¬ CanAdvance s → exec (.sw rs2 imm rs1) s = .refused .pcOverflow) ∧
    (CanAdvance s → ∃ t : State, exec (.sw rs2 imm rs1) s = .next t ∧
      (∀ k, k < 4 → readByte t.mem ((dataAddr s rs1 imm).toNat + k) = (s.getX rs2).extractLsb' (8 * k) 8) ∧
      (∀ b, b < (dataAddr s rs1 imm).toNat ∨ (dataAddr s rs1 imm).toNat + 4 ≤ b → readByte t.mem b = readByte s.mem b) ∧
      RegistersKept s t ∧ PcAdvanced s t ∧ OnlyRegistersAndPc s t ∧
      t.cfg = s.cfg ∧ t.hid = s.hid ∧ t.parked = s.parked ∧ t.mtime = s.mtime ∧ t.plic = s.plic ∧ t.sched = s.sched ∧
      (StoreWf RamUse.none s.ramUse → RecordedAccess s t true (dataAddr s rs1 imm).toNat 4))

/-- A misaligned LW raises Load address misaligned, code 4, and a misaligned SW Store address misaligned, code 6, with the address
in `xbadaddr`, and nothing is loaded or stored (43_support_subset.md; 20_memory.md section 3). -/
def Obligations.MisalignedDataTraps : Prop :=
  ∀ (s : State) (r rs1 : BitVec 5) (imm : BitVec 12),
    (dataAddr s rs1 imm).toNat % 4 ≠ 0 → hasMode s.cfg s.hart.priv = true →
    (∃ t, exec (.lw r imm rs1) s = .next t ∧ TookTrap s t false 4 (some (dataAddr s rs1 imm))) ∧
    (∃ t, exec (.sw r imm rs1) s = .next t ∧ TookTrap s t false 6 (some (dataAddr s rs1 imm)))

/-- The aligned accesses outside the PLIC that the spec gives no meaning: an address in no region is refused; a store into the program
text and an access that races with another hart stop, which is when the hart may not touch one of the four bytes; after reset every
hart may touch every byte; below M-mode every access to an MSIP or timer register is refused, and a
store to `mtime` in M-mode too (20_memory.md sections 1, 4 and 6; the form of each stop is the model's, notes/assumptions/15.md,
22.md, 26.md and 27.md). -/
def Obligations.RefusedAccesses : Prop :=
  (∀ (s : State) (r rs1 : BitVec 5) (imm : BitVec 12),
      (dataAddr s rs1 imm).toNat % 4 = 0 → hasMode s.cfg s.hart.priv = true →
      (route s.cfg (dataAddr s rs1 imm).toNat 4 = .nowhere →
        RefusesAccess s (exec (.lw r imm rs1) s) 5 .unmapped (dataAddr s rs1 imm) ∧
        RefusesAccess s (exec (.sw r imm rs1) s) 7 .unmapped (dataAddr s rs1 imm)) ∧
      (route s.cfg (dataAddr s rs1 imm).toNat 4 = .ram →
        (raceFree s.ramUse s.hid false (dataAddr s rs1 imm).toNat 4 = false →
          exec (.lw r imm rs1) s = .fault (.ramRace (dataAddr s rs1 imm).toNat)) ∧
        (meetsRegions s.cfg.text (dataAddr s rs1 imm).toNat 4 = true →
          exec (.sw r imm rs1) s = .refused (.storeToText (dataAddr s rs1 imm).toNat)) ∧
        (meetsRegions s.cfg.text (dataAddr s rs1 imm).toNat 4 = false →
          raceFree s.ramUse s.hid true (dataAddr s rs1 imm).toNat 4 = false →
          exec (.sw r imm rs1) s = .fault (.ramRace (dataAddr s rs1 imm).toNat)))) ∧
  (∀ (s : State) (r rs1 : BitVec 5) (imm : BitVec 12) (h off : Nat),
      (dataAddr s rs1 imm).toNat % 4 = 0 → hasMode s.cfg s.hart.priv = true →
      (s.hart.priv ≠ .m →
        (route s.cfg (dataAddr s rs1 imm).toNat 4 = .msip h off →
          RefusesAccess s (exec (.lw r imm rs1) s) 5 .msipDenied (dataAddr s rs1 imm) ∧
          RefusesAccess s (exec (.sw r imm rs1) s) 7 .msipDenied (dataAddr s rs1 imm)) ∧
        (route s.cfg (dataAddr s rs1 imm).toNat 4 = .timecmp h off ∨ route s.cfg (dataAddr s rs1 imm).toNat 4 = .mtime off →
          RefusesAccess s (exec (.lw r imm rs1) s) 5 .timerDenied (dataAddr s rs1 imm) ∧
          RefusesAccess s (exec (.sw r imm rs1) s) 7 .timerDenied (dataAddr s rs1 imm))) ∧
      (s.hart.priv = .m → route s.cfg (dataAddr s rs1 imm).toNat 4 = .mtime off →
        RefusesAccess s (exec (.sw r imm rs1) s) 7 .timeReadOnly (dataAddr s rs1 imm))) ∧
  (∀ (s : State) (store : Bool) (a n : Nat),
      raceFree s.ramUse s.hid store a n = false ↔ ∃ b, a ≤ b ∧ b < a + n ∧ ¬ MayTouch s s.hid store b) ∧
  (∀ (c : Config) (k b : Nat) (store : Bool), MayTouch (State.resetWith c) k store b)

/-! ### The device registers -/

/-- A permitted load from a priority, pending, enable or threshold register completes: rd is the register, read after the hart's
own earlier writes, and nothing else of the hart or outside the PLIC changes. Those writes are performed as the core performs them,
oldest first, and leave the queue; the messages of other harts stay in it in their order; with none of its own queued the load
changes nothing of the PLIC. Where one of them is a write that R234 refuses, the load is refused (60_exceptions.md section 11; the
order of the reads is the spec's decision D19, notes/assumptions/23.md; the refusal is D27, notes/assumptions/14.md). Where `pc + 4`
overflows it is refused too (10_state.md section 1). -/
def Obligations.LoadPlicRegister : Prop :=
  ∀ (s : State) (rd rs1 : BitVec 5) (imm : BitVec 12) (off : Nat),
    (dataAddr s rs1 imm).toNat % 4 = 0 → route s.cfg (dataAddr s rs1 imm).toNat 4 = .plic off → off % 4 = 0 →
    plicPerm s.cfg s.hart.priv s.hid off = true → plicReg s.cfg off ≠ .reserved → (∀ g, plicReg s.cfg off ≠ .claim g) →
    ((∃ e ∈ s.plic.wrQ, e.1 = s.hid ∧ refusedValue s.cfg e.2 ≠ none) →
      ∃ v, s.cfg.maxPri < v ∧ exec (.lw rd imm rs1) s = .refused (.highPriority v)) ∧
    ((∀ e ∈ s.plic.wrQ, e.1 = s.hid → refusedValue s.cfg e.2 = none) → ¬ CanAdvance s →
      exec (.lw rd imm rs1) s = .refused .pcOverflow) ∧
    ((∀ e ∈ s.plic.wrQ, e.1 = s.hid → refusedValue s.cfg e.2 = none) → CanAdvance s → ∃ (t : State) (v : BitVec 32),
      exec (.lw rd imm rs1) s = .next t ∧ RegisterWritten s t rd (sext s.cfg.xlen v) ∧ PcAdvanced s t ∧ OnlyRegistersAndPc s t ∧
      t.plic = { s.plic with prio := t.plic.prio, ie := t.plic.ie, thr := t.plic.thr, wrQ := t.plic.wrQ } ∧
      t.plic.wrQ = s.plic.wrQ.filter (fun e => e.1 != s.hid) ∧
      ((∀ e ∈ s.plic.wrQ, e.1 ≠ s.hid) → t.plic = s.plic) ∧
      t.plic = (afterOwnWrites s).plic ∧
      (∀ u, step { s with sched := [.plicWrite s.hid] } = .next u → t.plic = (afterOwnWrites u).plic) ∧
      t.cfg = s.cfg ∧ t.hid = s.hid ∧ t.parked = s.parked ∧ t.mem = s.mem ∧ t.ramUse = s.ramUse ∧ t.mtime = s.mtime ∧
      t.sched = s.sched ∧
      (∀ src, plicReg s.cfg off = .prio src → v.toNat = prioOf s.cfg t.plic src % 2 ^ 32) ∧
      (∀ w, plicReg s.cfg off = .pendingWord w → ∀ b, b < 32 → v.getLsbD b = pendingOf t.plic (32 * w + b)) ∧
      (∀ g w, plicReg s.cfg off = .enableWord g w → ∀ b, b < 32 → v.getLsbD b = enableOf t.plic g (32 * w + b)) ∧
      (∀ g, plicReg s.cfg off = .threshold g → v.toNat = thrOf s.cfg t.plic g % 2 ^ 32))

/-- A permitted store to a priority, enable, threshold or claim/complete register completes: it posts one message, a register write
of the hart or a completion, and changes nothing else but the pc. A store to the pending array is refused, or ignored where the
configuration says so (60_exceptions.md section 11; notes/assumptions/16.md). Where `pc + 4` overflows a store that would complete is
refused (10_state.md section 1). -/
def Obligations.StorePlicRegister : Prop :=
  ∀ (s : State) (rs2 rs1 : BitVec 5) (imm : BitVec 12) (off : Nat),
    (dataAddr s rs1 imm).toNat % 4 = 0 → route s.cfg (dataAddr s rs1 imm).toNat 4 = .plic off → off % 4 = 0 →
    plicPerm s.cfg s.hart.priv s.hid off = true → hasMode s.cfg s.hart.priv = true →
    (∀ p : Plic,
      ((∃ src, plicReg s.cfg off = .prio src ∧
          p = { s.plic with wrQ := s.plic.wrQ ++ [(s.hid, .prio src ((s.getX rs2).toNat % 2 ^ 32))] }) ∨
        (∃ g w, plicReg s.cfg off = .enableWord g w ∧
          p = { s.plic with wrQ := s.plic.wrQ ++ [(s.hid, .enable g w ((s.getX rs2).setWidth 32))] }) ∨
        (∃ g, plicReg s.cfg off = .threshold g ∧
          p = { s.plic with wrQ := s.plic.wrQ ++ [(s.hid, .threshold g ((s.getX rs2).toNat % 2 ^ 32))] }) ∨
        (∃ g, plicReg s.cfg off = .claim g ∧
          p = { s.plic with complQ := s.plic.complQ ++ [(g, (s.getX rs2).toNat % 2 ^ 32)] }) ∨
        (∃ w, plicReg s.cfg off = .pendingWord w ∧ s.cfg.ignorePendingWrite = true ∧ p = s.plic)) →
      (¬ CanAdvance s → exec (.sw rs2 imm rs1) s = .refused .pcOverflow) ∧
      (CanAdvance s → ∃ t : State, exec (.sw rs2 imm rs1) s = .next t ∧ t.plic = p ∧ RegistersKept s t ∧ PcAdvanced s t ∧
        OnlyRegistersAndPc s t ∧ OutsideUnchanged s { t with plic := s.plic })) ∧
    (∀ w, plicReg s.cfg off = .pendingWord w → s.cfg.ignorePendingWrite = false →
      RefusesAccess s (exec (.sw rs2 imm rs1) s) 7 .pendingWrite (dataAddr s rs1 imm))

/-- A load from a claim register sends a claim for its target and holds the hart: the pc stays, and nothing else changes. While the
response has not come the hart's step changes nothing; once it has come the hart's step removes it, writes the id to rd, advances
the pc and lets the hart go on, or is refused where `pc + 4` overflows (60_exceptions.md sections 10 and 11; 20_memory.md section 6;
10_state.md section 1; the field that holds the hart is the model's, notes/assumptions/24.md). -/
def Obligations.ClaimLoadWaits : Prop :=
  (∀ (s : State) (rd rs1 : BitVec 5) (imm : BitVec 12) (off g : Nat),
    (dataAddr s rs1 imm).toNat % 4 = 0 → route s.cfg (dataAddr s rs1 imm).toNat 4 = .plic off → off % 4 = 0 →
    plicPerm s.cfg s.hart.priv s.hid off = true → plicReg s.cfg off = .claim g → ∃ t : State,
      exec (.lw rd imm rs1) s = .next t ∧ t.hart = { s.hart with waiting := some ⟨g, rd⟩ } ∧
      t.plic = { s.plic with claimQ := s.plic.claimQ ++ [(s.hid, g)] } ∧ OutsideUnchanged s { t with plic := s.plic }) ∧
  (∀ (s : State) (w : Waiting) (rest : List Event), s.sched = .run s.hid :: rest → s.hart.waiting = some w →
    (∀ r ∈ s.plic.respQ, ¬ (r.hart = s.hid ∧ r.target = w.target)) → step s = .next (popEvent s)) ∧
  (∀ (s : State) (w : Waiting) (rest : List Event) (pre post : List ClaimResponse) (id : Nat),
    s.sched = .run s.hid :: rest → s.hart.waiting = some w → id < 2 ^ 31 →
    s.plic.respQ = pre ++ ⟨s.hid, w.target, id⟩ :: post → (∀ r ∈ pre, ¬ (r.hart = s.hid ∧ r.target = w.target)) →
    (¬ CanAdvance s → step s = .refused .pcOverflow) ∧
    (CanAdvance s → ∃ t : State, step s = .next t ∧ RegisterWritten s t w.rd (BitVec.ofNat 64 id) ∧ PcAdvanced s t ∧
      t.hart = { s.hart with x := t.hart.x, pc := t.hart.pc, waiting := none } ∧
      t.plic = { s.plic with respQ := pre ++ post } ∧ OutsideUnchanged (popEvent s) { t with plic := s.plic }))

/-- The claim protocol from end to end: a hart with no message of its own under way, whose `pc + 4` does not overflow, loads its target's claim register, the PLIC
core answers, and the hart goes on with the id of the highest-priority active interrupt in rd, that interrupt's pending bit
cleared, the pc advanced and nothing else changed (60_exceptions.md section 10; the order of the three steps is the default
schedule, notes/assumptions/3.md). -/
def Obligations.ClaimProtocol : Prop :=
  ∀ (s : State) (rd rs1 : BitVec 5) (imm : BitVec 12) (off g : Nat),
    s.cfg.plicOk = true → s.sched = [] → (dataAddr s rs1 imm).toNat % 4 = 0 →
    route s.cfg (dataAddr s rs1 imm).toNat 4 = .plic off → off % 4 = 0 → plicPerm s.cfg s.hart.priv s.hid off = true →
    plicReg s.cfg off = .claim g →
    (∀ e ∈ s.plic.wrQ, e.1 ≠ s.hid) → (∀ e ∈ s.plic.claimQ, e.1 ≠ s.hid) →
    (∀ r ∈ s.plic.respQ, ¬ (r.hart = s.hid ∧ r.target = g)) → s.hart.waiting = none → CanAdvance s →
    ∃ t1 t2 t3 : State,
      exec (.lw rd imm rs1) s = .next t1 ∧ step t1 = .next t2 ∧ step t2 = .next t3 ∧
      RegisterWritten s t3 rd (BitVec.ofNat 64 (best s.cfg s.plic g)) ∧ PcAdvanced s t3 ∧ OnlyRegistersAndPc s t3 ∧
      t3.plic = { s.plic with ip := t3.plic.ip } ∧
      (∀ k, pendingOf t3.plic k = if k = best s.cfg s.plic g ∧ best s.cfg s.plic g ≠ 0 then false else pendingOf s.plic k) ∧
      OutsideUnchanged s { t3 with plic := s.plic }

/-- Who may reach a PLIC register: M-mode every one; a lower mode none below offset 0x200000, and of the target pages its own
target's, those that the platform grants it, and no other. A load or store without permission, or to a reserved or unlisted offset,
is refused (20_memory.md section 4; the form of the refusal and the grants are the model's, notes/assumptions/15.md and 31.md). -/
def Obligations.PlicAccessControl : Prop :=
  (∀ (c : Config) (y : Mode) (h off : Nat),
    plicPerm c .m h off = true ∧ (y ≠ .m → off < 0x200000 → plicPerm c y h off = false) ∧
    (∀ g, 0x200000 + 0x1000 * g ≤ off → off < 0x200000 + 0x1000 * (g + 1) →
      (c.targetMap.lookup g = some (h, y) ∨ (y, (h, g)) ∈ c.plicGrants → plicPerm c y h off = true) ∧
      (y ≠ .m → c.targetMap.lookup g ≠ some (h, y) → (y, (h, g)) ∉ c.plicGrants → plicPerm c y h off = false))) ∧
  (∀ (s : State) (r rs1 : BitVec 5) (imm : BitVec 12) (off : Nat),
    (dataAddr s rs1 imm).toNat % 4 = 0 → route s.cfg (dataAddr s rs1 imm).toNat 4 = .plic off → off % 4 = 0 →
    hasMode s.cfg s.hart.priv = true →
    (plicPerm s.cfg s.hart.priv s.hid off = false →
      RefusesAccess s (exec (.lw r imm rs1) s) 5 .plicDenied (dataAddr s rs1 imm) ∧
      RefusesAccess s (exec (.sw r imm rs1) s) 7 .plicDenied (dataAddr s rs1 imm)) ∧
    (plicPerm s.cfg s.hart.priv s.hid off = true → plicReg s.cfg off = .reserved →
      RefusesAccess s (exec (.lw r imm rs1) s) 5 .plicReserved (dataAddr s rs1 imm) ∧
      RefusesAccess s (exec (.sw r imm rs1) s) 7 .plicReserved (dataAddr s rs1 imm)))

/-- In M-mode a load from the MSIP register of hart h gives its MSIP bit zero-extended, and a store sets the bit to bit 0 of rs2,
whichever hart h is; no other bit or hart changes (20_memory.md section 4; the register's width is the spec's decision D18). Where
`pc + 4` overflows both are refused (10_state.md section 1). -/
def Obligations.SoftwareInterruptRegister : Prop :=
  ∀ (s : State) (r rs1 : BitVec 5) (imm : BitVec 12) (h : Nat) (g : Hart),
    (dataAddr s rs1 imm).toNat % 4 = 0 → route s.cfg (dataAddr s rs1 imm).toNat 4 = .msip h 0 → s.hart.priv = .m →
    s.hartAt h = some g →
    (¬ CanAdvance s → exec (.lw r imm rs1) s = .refused .pcOverflow ∧ exec (.sw r imm rs1) s = .refused .pcOverflow) ∧
    (CanAdvance s → ∃ t : State, exec (.lw r imm rs1) s = .next t ∧ WroteRegister s t r (if g.mip.getLsbD 3 then 1#64 else 0#64)) ∧
    (CanAdvance s → ∃ t : State, exec (.sw r imm rs1) s = .next t ∧ RegistersKept s t ∧ PcAdvanced s t ∧
      (∀ k q, s.hartAt k = some q → ∃ q', t.hartAt k = some q' ∧
        (∀ i, q'.mip.getLsbD i = if k = h ∧ i = 3 then (s.getX r).getLsbD 0 else q.mip.getLsbD i) ∧
        q' = { q with mip := q'.mip, pc := q'.pc } ∧ (k ≠ s.hid → q'.pc = q.pc)) ∧
      t.cfg = s.cfg ∧ t.hid = s.hid ∧ t.mem = s.mem ∧ t.ramUse = s.ramUse ∧ t.mtime = s.mtime ∧ t.plic = s.plic ∧ t.sched = s.sched)

/-- In M-mode a 4-byte load from the low or the high half of `mtimecmp[h]` or of `mtime` gives that half, sign-extended to XLEN, and
a store to a half of `mtimecmp[h]` replaces that half and clears MTIP of hart h; no other bit, register or hart changes
(20_memory.md sections 3 and 4; the place of `mtime` is the model's, notes/assumptions/22.md, and so is that h may be a hart other
than the one that executes, notes/assumptions/45.md). Where `pc + 4` overflows they are refused (10_state.md section 1). -/
def Obligations.TimerRegisters : Prop :=
  ∀ (s : State) (r rs1 : BitVec 5) (imm : BitVec 12) (off : Nat),
    (dataAddr s rs1 imm).toNat % 4 = 0 → s.hart.priv = .m → (off = 0 ∨ off = 4) →
    (∀ h g, route s.cfg (dataAddr s rs1 imm).toNat 4 = .timecmp h off → s.hartAt h = some g →
      (¬ CanAdvance s → exec (.lw r imm rs1) s = .refused .pcOverflow ∧ exec (.sw r imm rs1) s = .refused .pcOverflow) ∧
      (CanAdvance s → ∃ t : State, exec (.lw r imm rs1) s = .next t ∧
        WroteRegister s t r (sext s.cfg.xlen (g.mtimecmp.extractLsb' (8 * off) 32))) ∧
      (CanAdvance s → ∃ t : State, exec (.sw r imm rs1) s = .next t ∧ RegistersKept s t ∧ PcAdvanced s t ∧
        (∀ k q, s.hartAt k = some q → ∃ q', t.hartAt k = some q' ∧
          (∀ i, q'.mip.getLsbD i = if k = h ∧ i = 7 then false else q.mip.getLsbD i) ∧
          (k = h → q'.mtimecmp.extractLsb' (8 * off) 32 = (s.getX r).setWidth 32 ∧
            q'.mtimecmp.extractLsb' (32 - 8 * off) 32 = q.mtimecmp.extractLsb' (32 - 8 * off) 32) ∧
          (k ≠ h → q'.mtimecmp = q.mtimecmp) ∧
          q' = { q with mip := q'.mip, mtimecmp := q'.mtimecmp, pc := q'.pc } ∧ (k ≠ s.hid → q'.pc = q.pc)) ∧
        t.cfg = s.cfg ∧ t.hid = s.hid ∧ t.mem = s.mem ∧ t.ramUse = s.ramUse ∧ t.mtime = s.mtime ∧ t.plic = s.plic ∧
        t.sched = s.sched)) ∧
    (route s.cfg (dataAddr s rs1 imm).toNat 4 = .mtime off →
      (¬ CanAdvance s → exec (.lw r imm rs1) s = .refused .pcOverflow) ∧
      (CanAdvance s → ∃ t : State, exec (.lw r imm rs1) s = .next t ∧
        WroteRegister s t r (sext s.cfg.xlen (s.mtime.extractLsb' (8 * off) 32))))

/-! ### Environment calls and trap returns -/

/-- ECALL takes Environment call, code 8 plus the number of the mode, and EBREAK Breakpoint, code 3, each at its own address
(42_environment.md). -/
def Obligations.EnvironmentTraps : Prop :=
  ∀ s : State, hasMode s.cfg s.hart.priv = true →
    (∃ t, exec .ecall s = .next t ∧ TookTrap s t false (8 + modeNum s.hart.priv) none) ∧
    (∃ t, exec .ebreak s = .next t ∧ TookTrap s t false 3 none)

/-- URET, SRET, HRET and MRET complete in a mode at least as privileged as x, where mode x can handle traps and its xPP field holds
a legal mode: they return from the trap into mode x. Elsewhere they raise Illegal instruction (40_trap_return.md). -/
def Obligations.TrapReturns : Prop :=
  ∀ (s : State) (i : Instr) (x : Mode), i.returnMode = some x →
    (canHandle s.cfg x = true → modeLe x s.hart.priv = true → ppLegal s.cfg (s.hart.status s.cfg) x = true →
      ∃ t, exec i s = .next t ∧ Returned s t x) ∧
    (canHandle s.cfg x = false ∨ modeLe x s.hart.priv = false → hasMode s.cfg s.hart.priv = true →
      ∃ t, exec i s = .next t ∧ TookTrap s t false 2 none)

/-! ### CSR accesses -/

/-- CSRRW and CSRRWI complete on a CSR that the checks let them write, with a value that is not refused: the CSR takes rs1 or the
zero-extended immediate as its row of R142 says, rd takes the old value, the pc advances, and nothing else changes
(41_csr_access.md). A value that is refused (CsrChecks says which) and a `pc + 4` that overflows are refused (10_state.md sections 1, 2
and 5; the spec's decisions D7, D29 and D30). In a configuration that lets a write of an unsupported mode or code complete, it leaves
some supported mode or a free code (the model's choice, notes/assumptions/11.md and 12.md); reserved bits read as free values
(notes/assumptions/18.md). -/
def Obligations.CsrWriteResult : Prop :=
  ∀ (s : State) (i : Instr) (rd src : BitVec 5) (a : BitVec 12) (r : Csr) (v : Word),
    (i = .csrrw rd a src ∧ v = s.getX src) ∨ (i = .csrrwi rd a src ∧ v = src.setWidth 64) →
    csrAccess s.cfg s.hart.priv a true = some r →
    (∀ e, csrRefusal s.cfg s.hart r v = some e → exec i s = .refused e) ∧
    (csrRefusal s.cfg s.hart r v = none → ¬ CanAdvance s → exec i s = .refused .pcOverflow) ∧
    (csrRefusal s.cfg s.hart r v = none → CanAdvance s →
      ∃ t : State, exec i s = .next t ∧ RegisterWritten s t rd (csrValue s r) ∧ PcAdvanced s t ∧ OutsideUnchanged s t ∧
        ∃ k, CsrWrote s.cfg s.hart k v r ∧ t.hart = { k with x := t.hart.x, pc := t.hart.pc })

/-- CSRRS and CSRRSI, CSRRC and CSRRCI with a source field other than 0 complete on a CSR that the checks let them write, where the
value written is not refused: the CSR takes its old value with the source's bits set, or cleared, as its row of R142 says, rd takes
the old value, the pc advances, and nothing else changes (41_csr_access.md). A value that is refused (CsrChecks says which) and a
`pc + 4` that overflows are refused (10_state.md sections 1, 2 and 5; the spec's decisions D7, D29 and D30). In a configuration that
lets a write of an unsupported mode or code complete, it leaves some supported mode or a free code (the model's choice,
notes/assumptions/11.md and 12.md); reserved bits read as free values (notes/assumptions/18.md). -/
def Obligations.CsrSetClearResult : Prop :=
  ∀ (s : State) (i : Instr) (rd src : BitVec 5) (a : BitVec 12) (r : Csr) (m v : Word),
    src ≠ 0#5 → csrAccess s.cfg s.hart.priv a true = some r →
    ((i = .csrrs rd a src ∧ m = s.getX src) ∨ (i = .csrrsi rd a src ∧ m = src.setWidth 64)) ∧ v = csrValue s r ||| m ∨
    ((i = .csrrc rd a src ∧ m = s.getX src) ∨ (i = .csrrci rd a src ∧ m = src.setWidth 64)) ∧ v = csrValue s r &&& ~~~m →
    (∀ e, csrRefusal s.cfg s.hart r v = some e → exec i s = .refused e) ∧
    (csrRefusal s.cfg s.hart r v = none → ¬ CanAdvance s → exec i s = .refused .pcOverflow) ∧
    (csrRefusal s.cfg s.hart r v = none → CanAdvance s →
      ∃ t : State, exec i s = .next t ∧ RegisterWritten s t rd (csrValue s r) ∧ PcAdvanced s t ∧ OutsideUnchanged s t ∧
        ∃ k, CsrWrote s.cfg s.hart k v r ∧ t.hart = { k with x := t.hart.x, pc := t.hart.pc })

/-- CSRRS, CSRRSI, CSRRC and CSRRCI with source field 0 only read: they complete on every CSR that the checks let the mode read,
the read-only ones too; rd takes the value and the pc advances. Besides these only the counters `cycle` and `instret` may differ,
whose values are free (41_csr_access.md; notes/assumptions/19.md). Where `pc + 4` overflows they are refused (10_state.md section
1). -/
def Obligations.CsrReadResult : Prop :=
  ∀ (s : State) (i : Instr) (rd : BitVec 5) (a : BitVec 12) (r : Csr),
    i = .csrrs rd a 0#5 ∨ i = .csrrsi rd a 0#5 ∨ i = .csrrc rd a 0#5 ∨ i = .csrrci rd a 0#5 →
    csrAccess s.cfg s.hart.priv a false = some r →
    (¬ CanAdvance s → exec i s = .refused .pcOverflow) ∧
    (CanAdvance s →
      ∃ t : State, exec i s = .next t ∧ RegisterWritten s t rd (csrValue s r) ∧ PcAdvanced s t ∧ OutsideUnchanged s t ∧
        t.hart = { s.hart with x := t.hart.x, pc := t.hart.pc, cycle := t.hart.cycle, instret := t.hart.instret })

/-- A CSR instruction raises Illegal instruction exactly on a number of the debug range, on one whose bits 9:8 name a higher mode,
on a write of one whose bits 11:10 are 11, and on one that names no CSR that exists in the configuration (41_csr_access.md
section 1). Every CSR has the number of R55, those of a mode under its own letter with the mode in bits 9:8, and exists where its row
of R142 says. The writes that are refused by name are these: one that would make VM, PUM or MPRV of `mstatus` non-zero (10_state.md
section 2; the spec's decision D30, notes/assumptions/17.md); one through `mstatus` or `hstatus` of an unsupported mode to MPP, or of
11 to HPP (10_state.md section 2; D29, notes/assumptions/11.md); and one to `xcause` of a code that the implementation cannot produce
(10_state.md section 5; D29, notes/assumptions/12.md), the last two unless the configuration lets them complete. The codes that it
can produce are those below 8 and the environment calls of the supported modes, and for interrupts those of the supported modes and
of `LOCAL_IRQ_BITS` (the model's reading, notes/assumptions/12.md). -/
def Obligations.CsrChecks : Prop :=
  (∀ (s : State) (i : Instr) (a : BitVec 12) (w : Bool), i.csrUse = some (a, w) →
      (csrAccess s.cfg s.hart.priv a w = none ↔
        (0xFA0 ≤ a.toNat ∧ a.toNat ≤ 0xFBF) ∨ modeNum s.hart.priv < a.toNat / 256 % 4 ∨ (w = true ∧ a.toNat / 1024 = 3) ∨
        ∀ r, csrOfNum a = some r → csrExists s.cfg r = false) ∧
      (csrAccess s.cfg s.hart.priv a w = none → hasMode s.cfg s.hart.priv = true →
        ∃ t, exec i s = .next t ∧ TookTrap s t false 2 none)) ∧
  (∀ (c : Config) (h : Hart) (r : Csr) (v : Word),
      (csrRefusal c h r v = some .translationBits ↔ r = .status .m ∧ v &&& translationMask ≠ 0#64) ∧
      (csrRefusal c h r v = some .unsupportedMode ↔
        c.unsupportedWrite = .refuse ∧ ¬ (r = .status .m ∧ v &&& translationMask ≠ 0#64) ∧
        ((r = .status .m ∧ c.modes ≠ .m ∧ hasMode c (modeOfBits (v.extractLsb' 11 2)) = false) ∨
          ((r = .status .m ∨ r = .status .h) ∧ c.modes = .mhsu ∧ v.extractLsb' 9 2 = 3#2))) ∧
      (csrRefusal c h r v = some .unsupportedCode ↔
        c.unsupportedWrite = .refuse ∧ (∃ x, r = .cause x) ∧ causeLegal c v = false) ∧
      (∀ e, csrRefusal c h r v = some e → e = .translationBits ∨ e = .unsupportedMode ∨ e = .unsupportedCode)) ∧
  (∀ (c : Config) (intr : Bool) (code : Nat), code < 2 ^ (c.xlen.bits - 1) →
      (causeLegal c (BitVec.ofNat 64 ((if intr then 2 ^ (c.xlen.bits - 1) else 0) + code)) = true ↔
        if intr then
          (localMask c).getLsbD code = true ∨
            ∃ y, hasMode c y = true ∧ (code = modeNum y ∨ code = 4 + modeNum y ∨ code = 8 + modeNum y)
        else code < 8 ∨ ∃ y, hasMode c y = true ∧ code = 8 + modeNum y)) ∧
  (∀ (a : BitVec 12) (x : Mode),
      (csrOfNum a = some (.status x) ↔ a.toNat = 0x100 * modeNum x) ∧
      (csrOfNum a = some (.edeleg x) ↔ a.toNat = 0x100 * modeNum x + 0x002 ∧ x ≠ .u) ∧
      (csrOfNum a = some (.ideleg x) ↔ a.toNat = 0x100 * modeNum x + 0x003 ∧ x ≠ .u) ∧
      (csrOfNum a = some (.ie x) ↔ a.toNat = 0x100 * modeNum x + 0x004) ∧
      (csrOfNum a = some (.tvec x) ↔ a.toNat = 0x100 * modeNum x + 0x005) ∧
      (csrOfNum a = some (.scratch x) ↔ a.toNat = 0x100 * modeNum x + 0x040) ∧
      (csrOfNum a = some (.epc x) ↔ a.toNat = 0x100 * modeNum x + 0x041) ∧
      (csrOfNum a = some (.cause x) ↔ a.toNat = 0x100 * modeNum x + 0x042) ∧
      (csrOfNum a = some (.badaddr x) ↔ a.toNat = 0x100 * modeNum x + 0x043) ∧
      (csrOfNum a = some (.ip x) ↔ a.toNat = 0x100 * modeNum x + 0x044) ∧
      (csrOfNum a = some .fflags ↔ a.toNat = 0x001) ∧ (csrOfNum a = some .frm ↔ a.toNat = 0x002) ∧
      (csrOfNum a = some .fcsr ↔ a.toNat = 0x003) ∧ (csrOfNum a = some .cycle ↔ a.toNat = 0xC00) ∧
      (csrOfNum a = some .time ↔ a.toNat = 0xC01) ∧ (csrOfNum a = some .instret ↔ a.toNat = 0xC02) ∧
      (csrOfNum a = some .cycleh ↔ a.toNat = 0xC80) ∧ (csrOfNum a = some .timeh ↔ a.toNat = 0xC81) ∧
      (csrOfNum a = some .instreth ↔ a.toNat = 0xC82)) ∧
  (∀ (c : Config) (x : Mode) (r : Csr),
      (r ∈ [.status x, .ie x, .ip x, .tvec x, .scratch x, .epc x, .cause x, .badaddr x] →
        (csrExists c r = true ↔ HandlesTraps c x)) ∧
      (r ∈ [.edeleg x, .ideleg x] → (csrExists c r = true ↔ DelegatesFurther c x)) ∧
      (r ∈ [.cycle, .time, .instret] → csrExists c r = true) ∧
      (r ∈ [.cycleh, .timeh, .instreth] → (csrExists c r = true ↔ c.xlen = .rv32)) ∧
      (r ∈ [.fflags, .frm, .fcsr] → csrExists c r = false))

/-- What a read returns: `mstatus`, `mip` and `mie` their implemented bits, the views `xip` and `xie` of them the bits visible to x,
the status views the fields of the modes up to x, `time` and `timeh` the halves of `mtime`, `xepc` and `xtvec` their registers with the
low two bits 0, and `xcause`, `xscratch`, `xbadaddr` and the delegation registers their registers. Visible to M are all XLEN bits;
to the next handler mode z below x those visible to x and set in `xideleg` (41_csr_access.md section 1; 10_state.md sections 3 and 5). -/
def Obligations.CsrReadValues : Prop :=
  (∀ (s : State) (x : Mode) (i : Nat),
      (i < 12 → (csrValue s (.ip .m)).getLsbD i = (s.hart.mip.getLsbD i && (levelMask s.cfg).getLsbD i)) ∧
      (i < 12 → (csrValue s (.ie .m)).getLsbD i = (s.hart.mie.getLsbD i && (levelMask s.cfg).getLsbD i)) ∧
      (x ≠ .m → (csrValue s (.ip x)).getLsbD i =
        (s.hart.mip.getLsbD i && (irqMask s.cfg).getLsbD i && (visMask s.cfg s.hart x).getLsbD i)) ∧
      (x ≠ .m → (csrValue s (.ie x)).getLsbD i =
        (s.hart.mie.getLsbD i && (irqMask s.cfg).getLsbD i && (visMask s.cfg s.hart x).getLsbD i)) ∧
      ((localMask s.cfg).getLsbD i = true →
        (csrValue s (.ip .m)).getLsbD i = s.hart.mip.getLsbD i ∧ (csrValue s (.ie .m)).getLsbD i = s.hart.mie.getLsbD i) ∧
      (i < 19 ∨ (24 ≤ i ∧ i ≤ 28) ∨ i = s.cfg.xlen.bits - 1 →
        (csrValue s (.status .m)).getLsbD i = (s.hart.status s.cfg).getLsbD i) ∧
      (x ≠ .m → (csrValue s (.status x)).getLsbD i = ((s.hart.status s.cfg).getLsbD i && (stackMask s.cfg x).getLsbD i)) ∧
      (csrValue s .time).toNat = s.mtime.toNat % 2 ^ s.cfg.xlen.bits ∧ (csrValue s .timeh).toNat = s.mtime.toNat / 2 ^ 32 ∧
      (csrValue s (.epc x)).toNat = (s.hart.trapRegs x).epc.toNat / 4 * 4 ∧
      (csrValue s (.tvec x)).toNat = (s.hart.trapRegs x).tvec.toNat / 4 * 4 ∧
      csrValue s (.cause x) = (s.hart.trapRegs x).cause ∧ csrValue s (.scratch x) = (s.hart.trapRegs x).scratch ∧
      csrValue s (.badaddr x) = (s.hart.trapRegs x).badaddr ∧
      csrValue s (.edeleg .m) = s.hart.medeleg ∧ csrValue s (.ideleg .m) = s.hart.mideleg ∧
      csrValue s (.edeleg .h) = s.hart.hedeleg ∧ csrValue s (.ideleg .h) = s.hart.hideleg ∧
      csrValue s (.edeleg .s) = s.hart.sedeleg ∧ csrValue s (.ideleg .s) = s.hart.sideleg) ∧
  (∀ (c : Config) (h : Hart), visMask c h .m = allOnes c.xlen ∧
      ∀ (x z : Mode) (pre post : List Mode), handlerModes c = pre ++ x :: z :: post → visMask c h z = visMask c h x &&& h.ideleg x)

/-- The supported delegation bits are found by writing one to every bit of `medeleg` or `mideleg` and reading back: the value read
is the implementation's mask (10_state.md section 4). The two instructions must not stand at the end of the address space, where
`pc + 4` overflows (10_state.md section 1). -/
def Obligations.DelegationDiscovery : Prop :=
  ∀ (s : State) (rd src : BitVec 5), s.cfg.wf = true → s.hart.priv = .m → handlerBelow s.cfg .m = true → rd ≠ 0#5 →
    s.getX src = allOnes s.cfg.xlen → s.cfg.pcOverflow = .free ∨ s.hart.pc.toNat + 8 < 2 ^ s.cfg.xlen.bits →
    (∃ t u, exec (.csrrw 0#5 0x302#12 src) s = .next t ∧ exec (.csrrs rd 0x302#12 0#5) t = .next u ∧
      u.getX rd = s.cfg.medelegMask) ∧
    (∃ t u, exec (.csrrw 0#5 0x303#12 src) s = .next t ∧ exec (.csrrs rd 0x303#12 0#5) t = .next u ∧
      u.getX rd = s.cfg.midelegMask)

/-- No delegation bit is hard-wired to one: a write of 0 to a delegation register, by any mode that may write it, leaves it 0, where
`pc + 4` does not overflow;
and with `medeleg` and `mideleg` 0 every trap goes to M-mode. -/
def Obligations.NoDelegationBitHardwired : Prop :=
  (∀ (s : State) (a : BitVec 12) (r : Csr) (x : Mode), r = .edeleg x ∨ r = .ideleg x →
      csrAccess s.cfg s.hart.priv a true = some r → CanAdvance s →
      ∃ t, exec (.csrrw 0#5 a 0#5) s = .next t ∧ csrValue t r = 0#64) ∧
  (∀ (c : Config) (h : Hart) (intr : Bool) (code : Nat), h.medeleg = 0#64 → h.mideleg = 0#64 →
      delegTarget c h intr code = .m)

/-! ### Traps, interrupts and modes -/

/-- Trap entry: the handling mode's `xcause`, `xepc`, `xbadaddr`, its fields of `mstatus`, the mode and the pc are as R200 says, and
nothing else changes: no integer register, no pending bit, no register of another mode. An exception may be taken in any supported
mode, an interrupt only into a mode at least as privileged as the current one, which is when R195 lets it be taken. -/
def Obligations.TrapEntryEffect : Prop :=
  ∀ (s : State) (intr : Bool) (code : Nat) (bad : Option Word),
    hasMode s.cfg s.hart.priv = true → code < s.cfg.xlen.bits →
    (intr = true → modeLe s.hart.priv (intTarget s.cfg s.hart code) = true) →
    modeLe s.hart.priv (trapTarget s intr code) = true ∧ TookTrap s (trapEntry intr code s.hart.pc bad s) intr code bad

/-- Where a trap is handled: from M down the handler modes of the configuration, one mode lower for every delegation bit that is
set, stopping at the first that is not; an exception never below the mode it was raised in (60_exceptions.md section 3; the last is
the spec's decision D12). -/
def Obligations.DelegationTarget : Prop :=
  ∀ (c : Config) (h : Hart) (intr : Bool) (code : Nat) (y : Mode),
    (∀ d : Mode → Word, d = (if intr then h.ideleg else h.edeleg) →
      delegTarget c h intr code =
        match c.modes, c.nExt with
        | .m, _ => .m
        | .mu, false => .m
        | .mu, true => if (d .m).getLsbD code then .u else .m
        | .msu, false => if (d .m).getLsbD code then .s else .m
        | .msu, true => if (d .m).getLsbD code then (if (d .s).getLsbD code then .u else .s) else .m
        | .mhsu, false => if (d .m).getLsbD code then (if (d .h).getLsbD code then .s else .h) else .m
        | .mhsu, true =>
          if (d .m).getLsbD code then
            (if (d .h).getLsbD code then (if (d .s).getLsbD code then .u else .s) else .h)
          else .m) ∧
    intTarget c h code = delegTarget c h true code ∧
    modeNum (excTarget c h code y) = max (modeNum (delegTarget c h false code)) (modeNum y)

/-- When an interrupt is takeable: it is pending and enabled, and the current mode is below its target, or is its target and has its
enable bit set. An interrupt of an unsupported level is never takeable, nor is one delegated to a mode below the current one
(60_exceptions.md section 4; that an interrupt of a mode below M is taken below that mode whatever its enable bit is the spec's own
derivation: "The case `priv` < t for t < M (an S-mode interrupt while in U-mode is enabled whatever `SIE` holds)"). -/
def Obligations.TakeableRule : Prop :=
  ∀ (c : Config) (h : Hart) (i : Nat),
    (takeable c h i = true ↔
      h.mip.getLsbD i = true ∧ h.mie.getLsbD i = true ∧ (irqMask c).getLsbD i = true ∧
      (modeNum h.priv < modeNum (intTarget c h i) ∨
        (h.priv = intTarget c h i ∧ getIE (h.status c) (intTarget c h i) = true))) ∧
    (∀ x : Mode, hasMode c x = false → takeable c h (modeNum x) = false ∧ takeable c h (4 + modeNum x) = false ∧
      takeable c h (8 + modeNum x) = false) ∧
    (modeNum (intTarget c h i) < modeNum h.priv → takeable c h i = false)

/-- The step in which hart h takes interrupt i: if the interrupt is takeable and no load of the hart is outstanding the hart takes
it, `xepc` being the address of the instruction it would have executed next; otherwise nothing changes but the schedule and which
hart is the current one (60_exceptions.md section 4; the outstanding load is notes/assumptions/32.md). -/
def Obligations.InterruptStep : Prop :=
  ∀ (s : State) (h i : Nat) (rest : List Event), s.sched = .interrupt h i :: rest → hasHart s h = true →
    (takeable s.cfg ((popEvent s).switchTo h).hart i = true → ((popEvent s).switchTo h).hart.waiting = none →
      hasMode s.cfg ((popEvent s).switchTo h).hart.priv = true → s.cfg.localIrqOk = true →
      ∃ t, step s = .next t ∧ TookTrap ((popEvent s).switchTo h) t true i none) ∧
    (takeable s.cfg ((popEvent s).switchTo h).hart i = false ∨ ((popEvent s).switchTo h).hart.waiting ≠ none →
      step s = .next ((popEvent s).switchTo h))

/-- A hart's mode changes only by a trap into a more privileged mode, at that mode's vector, or by a return into a less privileged
one, at the address that the returning mode saved; and only in a step of that hart. After reset every hart is in M-mode. -/
def Obligations.ModeChangesOnlyByTrapOrReturn : Prop :=
  (∀ (s t : State) (k : Nat) (g g' : Hart), HartsDistinct s → AllModesLegal s → step s = .next t →
    s.hartAt k = some g → t.hartAt k = some g' → g'.priv ≠ g.priv →
    (nextEvent s = .run k ∨ ∃ i, nextEvent s = .interrupt k i) ∧
    ((modeLt g.priv g'.priv = true ∧ g'.pc = align4 (g.trapRegs g'.priv).tvec ∧
        (g'.trapRegs g'.priv).epc = align4 g.pc ∧ getPP (g'.status s.cfg) g'.priv = g.priv) ∨
      (modeLt g'.priv g.priv = true ∧ ∃ x, canHandle s.cfg x = true ∧ modeLe x g.priv = true ∧ modeLe g'.priv x = true ∧
        getPP (g.status s.cfg) x = g'.priv ∧ g'.pc = align4 (g.trapRegs x).epc))) ∧
  (∀ (c : Config) (k : Nat) (g : Hart), (State.resetWith c).hartAt k = some g → g.priv = .m)

/-- A mode below M cannot change M's state: whatever instruction it executes, unless it traps into M, every M-mode register, the
delegation registers of M and the M fields of `mstatus` are as before (60_exceptions.md sections 5 and 7). -/
def Obligations.LowerModesKeepMachineState : Prop :=
  ∀ (s t : State) (i : Instr), ModesLegal s.cfg s.hart → s.hart.priv ≠ .m → exec i s = .next t → t.hart.priv ≠ .m →
    t.hart.mTrap = s.hart.mTrap ∧ t.hart.medeleg = s.hart.medeleg ∧ t.hart.mideleg = s.hart.mideleg ∧
    (∀ b, b = 3 ∨ b = 7 ∨ b = 11 ∨ b = 12 → (t.hart.status t.cfg).getLsbD b = (s.hart.status s.cfg).getLsbD b)

/-- No instruction but SW reaches another hart or memory; none changes the timer, the parameters or the schedule; and none but SW
changes MSIP, MTIP, the external pending bits or any bit above 11 of `mip`. None but LW and SW reaches the PLIC, and none but an LW
or SW of RAM changes the record of accesses to RAM (10_state.md section 3; 20_memory.md section 4; the record is the model's,
notes/assumptions/26.md, and so is that an SW may write the `mtimecmp` of another hart, notes/assumptions/45.md). -/
def Obligations.OnlyStoresReachOut : Prop :=
  ∀ (s t : State) (i : Instr), exec i s = .next t →
    t.cfg = s.cfg ∧ t.hid = s.hid ∧ t.mtime = s.mtime ∧ t.sched = s.sched ∧
    ((∃ rs2 imm rs1, i = .sw rs2 imm rs1) ∨
      (t.parked = s.parked ∧ (∀ a, readByte t.mem a = readByte s.mem a) ∧ t.hart.mtimecmp = s.hart.mtimecmp ∧
        ∀ b, b = 3 ∨ b = 7 ∨ 8 ≤ b → t.hart.mip.getLsbD b = s.hart.mip.getLsbD b)) ∧
    ((∃ rs2 imm rs1, i = .sw rs2 imm rs1) ∨ (∃ rd imm rs1, i = .lw rd imm rs1) ∨ t.plic = s.plic) ∧
    ((∃ r imm rs1, (i = .lw r imm rs1 ∨ i = .sw r imm rs1) ∧ route s.cfg (dataAddr s rs1 imm).toNat 4 = .ram) ∨
      t.ramUse = s.ramUse)

/-- MTIP of a hart is set only by its comparator, when `mtime` has reached `mtimecmp`, and cleared only by a write of its `mtimecmp`:
in a step in which a hart in M-mode executes an SW whose address is routed to that register (60_exceptions.md section 8; that only
M-mode reaches the timer-compare registers is the spec's decision D17, 20_memory.md section 4, notes/assumptions/22.md; that the hart
which stores may be another than the register's is the model's choice, notes/assumptions/45.md). -/
def Obligations.TimerPendingChanges : Prop :=
  ∀ (s t : State) (k : Nat) (g g' : Hart), HartsDistinct s → step s = .next t → s.hartAt k = some g → t.hartAt k = some g' →
    (g.mip.getLsbD 7 = false → g'.mip.getLsbD 7 = true → nextEvent s = .compare k ∧ g.mtimecmp.toNat ≤ s.mtime.toNat) ∧
    (g.mip.getLsbD 7 = true → g'.mip.getLsbD 7 = false →
      ∃ h q rs2 imm rs1 off, nextEvent s = .run h ∧ s.hartAt h = some q ∧ q.priv = .m ∧ q.waiting = none ∧
        decodeBytes s.cfg.xlen (fourBytes s.mem q.pc.toNat) = .ok (.sw rs2 imm rs1) ∧
        route s.cfg (dataAddr ((popEvent s).switchTo h) rs1 imm).toNat 4 = .timecmp k off)

/-- The timer's own step adds 1 to `mtime`, below 2^64 - 1; the comparator's step of hart h sets MTIP exactly when `mtime` is at
least `mtimecmp` and MTIP is clear, and changes nothing else (60_exceptions.md section 8; the stop at 2^64 - 1 is
notes/assumptions/29.md). -/
def Obligations.TimerSteps : Prop :=
  ∀ (s : State) (rest : List Event),
    (s.sched = .tick :: rest → s.mtime.toNat < 2 ^ 64 - 1 →
      ∃ t, step s = .next t ∧ t = { s with sched := rest, mtime := t.mtime } ∧ t.mtime.toNat = s.mtime.toNat + 1) ∧
    (s.sched = .tick :: rest → s.mtime.toNat = 2 ^ 64 - 1 → step s = .refused .mtimeOverflow) ∧
    (∀ h g, s.sched = .compare h :: rest → s.hartAt h = some g → ∃ t, step s = .next t ∧
      t.cfg = s.cfg ∧ t.hid = s.hid ∧ t.mem = s.mem ∧ t.ramUse = s.ramUse ∧ t.mtime = s.mtime ∧ t.plic = s.plic ∧ t.sched = rest ∧
      ∀ k q, s.hartAt k = some q → ∃ q', t.hartAt k = some q' ∧ q' = { q with mip := q'.mip } ∧
        ∀ b, q'.mip.getLsbD b =
          if k = h ∧ b = 7 ∧ g.mtimecmp.toNat ≤ s.mtime.toNat then true else q.mip.getLsbD b)

/-- No step changes the parameters or makes `mtime` smaller, and no step adds, removes or renumbers a hart (60_exceptions.md
section 8; 00_scope.md section 2). -/
def Obligations.StepKeepsThePlatform : Prop :=
  ∀ s t : State, step s = .next t →
    t.cfg = s.cfg ∧ s.mtime.toNat ≤ t.mtime.toNat ∧
    (HartsDistinct s → HartsDistinct t ∧ ∀ k, (s.hartAt k).isSome = (t.hartAt k).isSome)

/-! ### The PLIC -/

/-- The interrupt that a claim gets: 0 if no source is active for the target; else the active source of the largest priority, and
among those of equal priority the smallest. A source is active when it is pending, enabled for the target and of a priority above
0, and above the threshold if `CLAIM_USES_THRESHOLD` (60_exceptions.md section 10; the meaning of active is the spec's decision
D20). -/
def Obligations.BestInterrupt : Prop :=
  ∀ (c : Config) (p : Plic) (g : Nat) (act : Nat → Prop),
    (∀ s, act s ↔ 1 ≤ s ∧ s ≤ c.nsrc ∧ pendingOf p s = true ∧ enableOf p g s = true ∧ 0 < prioOf c p s ∧
      (c.claimUsesThreshold = true → thrOf c p g < prioOf c p s)) →
    (best c p g = 0 ↔ ∀ s, ¬ act s) ∧
    (best c p g ≠ 0 → act (best c p g) ∧
      ∀ s, act s → prioOf c p s < prioOf c p (best c p g) ∨ (prioOf c p s = prioOf c p (best c p g) ∧ best c p g ≤ s))

/-- The external-interrupt-pending output of a target: on exactly when some source is pending, enabled for it and of a priority above
its threshold; so a threshold of `MAX_PRI` masks every interrupt. -/
def Obligations.ExternalPending : Prop :=
  ∀ (s : State) (g : Nat),
    (eip s.cfg s.plic g = true ↔ ∃ k, 1 ≤ k ∧ k ≤ s.cfg.nsrc ∧ pendingOf s.plic k = true ∧ enableOf s.plic g k = true ∧
      thrOf s.cfg s.plic g < prioOf s.cfg s.plic k) ∧
    (s.cfg.plicOk = true → PlicInRange s → thrOf s.cfg s.plic g = s.cfg.maxPri → eip s.cfg s.plic g = false)

/-- Process Claim for the oldest claim of hart h, none of whose register writes is queued: the claim is removed, the id of the best
interrupt for its target is the response, that interrupt's pending bit is cleared, and no target can claim it again; nothing else
changes. While a register write of hart h is queued its claims wait, and so does a hart with no claim: nothing changes but the
schedule (60_exceptions.md section 10; the order behind the hart's writes is 20_memory.md section 6 and the spec's decision D19). -/
def Obligations.ClaimStep : Prop :=
  (∀ (s : State) (h g : Nat) (rest : List Event) (pre post : List (Nat × Nat)),
    s.cfg.plicOk = true → s.sched = .plicClaim h :: rest → (∀ e ∈ s.plic.wrQ, e.1 ≠ h) →
    s.plic.claimQ = pre ++ (h, g) :: post → (∀ e ∈ pre, e.1 ≠ h) → ∃ t : State, step s = .next t ∧
      t = { s with sched := rest, plic := t.plic } ∧
      t.plic = { s.plic with ip := t.plic.ip, claimQ := pre ++ post, respQ := s.plic.respQ ++ [⟨h, g, best s.cfg s.plic g⟩] } ∧
      (∀ k, pendingOf t.plic k = if k = best s.cfg s.plic g ∧ best s.cfg s.plic g ≠ 0 then false else pendingOf s.plic k) ∧
      (best s.cfg s.plic g ≠ 0 → ∀ g', best t.cfg t.plic g' ≠ best s.cfg s.plic g)) ∧
  (∀ (s : State) (h : Nat) (rest : List Event), s.sched = .plicClaim h :: rest →
    (∃ e ∈ s.plic.wrQ, e.1 = h) ∨ (∀ e ∈ s.plic.claimQ, e.1 ≠ h) → step s = .next (popEvent s))

/-- Write Register for the oldest register write of hart h: a variable priority or a threshold that is not hard-wired takes the
value, if it is at most `MAX_PRI`; a word of enables takes its 32 bits, source 0 and the sources above `NSRC` staying 0; fixed
priorities, hard-wired thresholds and every other register of the core keep their values. A priority or threshold above `MAX_PRI`
that would be written is refused where the configuration says so, and leaves some value up to `MAX_PRI` where it does not
(60_exceptions.md sections 10 and 11; the refusal is the spec's decision D27, the other reading the model's, notes/assumptions/14.md). -/
def Obligations.RegisterWriteStep : Prop :=
  ∀ (s : State) (h : Nat) (rest : List Event) (pre post : List (Nat × PlicWrite)) (q : PlicWrite),
    StoresCanonical s → s.cfg.plicOk = true → s.sched = .plicWrite h :: rest → s.plic.wrQ = pre ++ (h, q) :: post →
    (∀ e ∈ pre, e.1 ≠ h) →
    (∀ v, refusedValue s.cfg q = some v ↔
      s.cfg.highPriority = .refuse ∧ s.cfg.maxPri < v ∧
      ((∃ k, q = .prio k v ∧ s.cfg.prioFixed.lookup k = none) ∨ (∃ g, q = .threshold g v ∧ s.cfg.thrZero.contains g = false))) ∧
    (∀ v, refusedValue s.cfg q = some v → step s = .refused (.highPriority v)) ∧
    (refusedValue s.cfg q = none → ∃ t : State, step s = .next t ∧
      t = { s with sched := rest, plic := t.plic, draws := t.draws } ∧
      t.plic = { s.plic with prio := t.plic.prio, ie := t.plic.ie, thr := t.plic.thr, wrQ := pre ++ post } ∧
      (∀ k, (∀ v, q ≠ .prio k v) → prioOf s.cfg t.plic k = prioOf s.cfg s.plic k) ∧
      (∀ g, (∀ v, q ≠ .threshold g v) → thrOf s.cfg t.plic g = thrOf s.cfg s.plic g) ∧
      (∀ g k, (∀ w v, q = .enable g w v → k / 32 ≠ w) → isSource s.cfg k = true → enableOf t.plic g k = enableOf s.plic g k) ∧
      (∀ k v, q = .prio k v → s.cfg.prioFixed.lookup k = none →
        (v ≤ s.cfg.maxPri → prioOf s.cfg t.plic k = v) ∧ prioOf s.cfg t.plic k ≤ s.cfg.maxPri) ∧
      (∀ k v y, q = .prio k v → s.cfg.prioFixed.lookup k = some y → prioOf s.cfg t.plic k = y) ∧
      (∀ g v, q = .threshold g v → s.cfg.thrZero.contains g = false →
        (v ≤ s.cfg.maxPri → thrOf s.cfg t.plic g = v) ∧ thrOf s.cfg t.plic g ≤ s.cfg.maxPri) ∧
      (∀ g v, q = .threshold g v → s.cfg.thrZero.contains g = true → thrOf s.cfg t.plic g = 0) ∧
      (∀ g w v b, q = .enable g w v → w < 32 → b < 32 →
        enableOf t.plic g (32 * w + b) = (v.getLsbD b && isSource s.cfg (32 * w + b))))

/-- The gateways. The environment sets the level of a level-triggered gateway, or adds an event to another, up to its depth; a
gateway with nothing in flight whose level is on, or that has an event queued, forwards one request, marks it in flight and takes
one event off; it forwards nothing while a request is in flight. Nothing else changes (60_exceptions.md section 10; the depth is
the spec's decision D22). -/
def Obligations.GatewaySteps : Prop :=
  ∀ (s : State) (k : Nat) (rest : List Event), StoresCanonical s → isSource s.cfg k = true →
      (∀ b, s.sched = .line k b :: rest → kindOf s.cfg k = .level → ∃ t : State, step s = .next t ∧
        t = { s with sched := rest, plic := { s.plic with gateways := t.plic.gateways } } ∧
        ∀ j, gatewayOf t.plic j = if j = k then { gatewayOf s.plic k with level := b } else gatewayOf s.plic j) ∧
      (s.sched = .edge k :: rest → kindOf s.cfg k ≠ .level → ∃ t : State, step s = .next t ∧
        t = { s with sched := rest, plic := { s.plic with gateways := t.plic.gateways } } ∧
        ∀ j, gatewayOf t.plic j =
          if j = k then
            { gatewayOf s.plic k with
              queued :=
                match depthOf s.cfg k with
                | none => (gatewayOf s.plic k).queued + 1
                | some d => min ((gatewayOf s.plic k).queued + 1) d }
          else gatewayOf s.plic j) ∧
      (s.sched = .forward k :: rest → (gatewayOf s.plic k).inflight = false →
        (kindOf s.cfg k = .level ∧ (gatewayOf s.plic k).level = true ∨ kindOf s.cfg k ≠ .level ∧ 0 < (gatewayOf s.plic k).queued) →
        ∃ t : State, step s = .next t ∧
          t = { s with sched := rest, plic := { s.plic with gateways := t.plic.gateways, reqQ := s.plic.reqQ ++ [k] } } ∧
          ∀ j, gatewayOf t.plic j =
            if j = k then
              { inflight := true
                level := (gatewayOf s.plic k).level
                queued :=
                  if kindOf s.cfg k = .level then (gatewayOf s.plic k).queued else (gatewayOf s.plic k).queued - 1 }
            else gatewayOf s.plic j) ∧
      (s.sched = .forward k :: rest →
        ((gatewayOf s.plic k).inflight = true ∨ (kindOf s.cfg k = .level ∧ (gatewayOf s.plic k).level = false) ∨
          (kindOf s.cfg k ≠ .level ∧ (gatewayOf s.plic k).queued = 0)) →
        step s = .next (popEvent s))

/-- Accept Request for source k: with the source's pending bit clear its oldest request is removed from the queue and the bit is
set, and nothing else changes; while the bit is set the request stays queued. -/
def Obligations.AcceptStep : Prop :=
  ∀ (s : State) (k : Nat) (rest : List Event) (pre post : List Nat),
    k < 1024 → s.sched = .accept k :: rest → s.plic.reqQ = pre ++ k :: post → k ∉ pre →
    (pendingOf s.plic k = false → ∃ t : State, step s = .next t ∧ t = { s with sched := rest, plic := t.plic } ∧
      t.plic = { s.plic with ip := t.plic.ip, reqQ := pre ++ post } ∧
      ∀ j, pendingOf t.plic j = if j = k then true else pendingOf s.plic j) ∧
    (pendingOf s.plic k = true → step s = .next (popEvent s))

/-- A completion of source k from target g reaches the gateway: it is removed from the queue, and the gateway may forward again if k
is enabled for g and in flight; otherwise, and for an id that is no source, it has no other effect. Nothing else changes
(60_exceptions.md section 10). -/
def Obligations.CompletionStep : Prop :=
  ∀ (s : State) (g k : Nat) (rest : List Event) (pre post : List (Nat × Nat)), StoresCanonical s →
    s.sched = .complete g k :: rest → s.plic.complQ = pre ++ (g, k) :: post → (g, k) ∉ pre → ∃ t : State, step s = .next t ∧
      t = { s with sched := rest, plic := { s.plic with gateways := t.plic.gateways, complQ := pre ++ post } } ∧
      ∀ j, gatewayOf t.plic j =
        if j = k ∧ 1 ≤ k ∧ k ≤ s.cfg.nsrc ∧ enableOf s.plic g k = true then { gatewayOf s.plic k with inflight := false }
        else gatewayOf s.plic j

/-- The notification of target g, mapped to mode x of hart h, makes bit xEIP of that hart's `mip` equal to the target's output, and
changes nothing else (60_exceptions.md section 10). The platform drives bit i of a hart's `mip`, i in `LOCAL_IRQ_BITS`, to any value,
and changes nothing else; a bit of `mip` above 11 changes in no other step (10_state.md section 3). -/
def Obligations.NotifyAndLocalInterruptSteps : Prop :=
  (∀ (s : State) (g h : Nat) (x : Mode) (rest : List Event),
    s.sched = .notify g :: rest → s.cfg.targetMap.lookup g = some (h, x) → ∃ t : State, step s = .next t ∧
      t.cfg = s.cfg ∧ t.hid = s.hid ∧ t.mem = s.mem ∧ t.ramUse = s.ramUse ∧ t.mtime = s.mtime ∧ t.plic = s.plic ∧ t.sched = rest ∧
      ∀ k q, s.hartAt k = some q → ∃ q', t.hartAt k = some q' ∧ q' = { q with mip := q'.mip } ∧
        ∀ b, q'.mip.getLsbD b = if k = h ∧ b = 8 + modeNum x then eip s.cfg s.plic g else q.mip.getLsbD b) ∧
  (∀ (s : State) (h i : Nat) (v : Bool) (rest : List Event), s.sched = .localIrq h i v :: rest →
    ((localMask s.cfg).getLsbD i = true → ∃ t : State, step s = .next t ∧
      t.cfg = s.cfg ∧ t.hid = s.hid ∧ t.mem = s.mem ∧ t.ramUse = s.ramUse ∧ t.mtime = s.mtime ∧ t.plic = s.plic ∧ t.sched = rest ∧
      ∀ k q, s.hartAt k = some q → ∃ q', t.hartAt k = some q' ∧ q' = { q with mip := q'.mip } ∧
        ∀ b, q'.mip.getLsbD b = if k = h ∧ b = i then v else q.mip.getLsbD b) ∧
    ((localMask s.cfg).getLsbD i = false → step s = .next (popEvent s))) ∧
  (∀ (s t : State) (k i : Nat) (g g' : Hart), HartsDistinct s → step s = .next t → s.hartAt k = some g → t.hartAt k = some g' →
    12 ≤ i → g'.mip.getLsbD i ≠ g.mip.getLsbD i →
    (localMask s.cfg).getLsbD i = true ∧ nextEvent s = .localIrq k i (g'.mip.getLsbD i))

/-! ### Reset -/

/-- The machine after reset: every hart is in M-mode at `RESET_PC` with MIE, VM, PUM, MPRV and the external pending bits 0; the PLIC
has nothing pending, in flight or queued; and no interrupt is takeable (10_state.md section 8; 70_reset_and_hazards.md section 1).
These values are the spec's decision D15 (PRESUMED, notes/assumptions/6.md); that the input level of every gateway is low is a zero
that the model chose where R63 gives none (DESIGN CHOICE, notes/assumptions/5.md). -/
def Obligations.ResetState : Prop :=
  ∀ c : Config, 0 < c.nharts →
    (∀ k, ((State.resetWith c).hartAt k).isSome = decide (k < c.nharts)) ∧
    (∀ k g, (State.resetWith c).hartAt k = some g →
      g.priv = .m ∧ g.pc = c.resetPc ∧ getIE (g.status c) .m = false ∧ g.status c &&& translationMask = 0#64 ∧
      g.mip &&& 0xF00#64 = 0#64 ∧ ∀ i, takeable c g i = false) ∧
    (∀ k, pendingOf (State.resetWith c).plic k = false ∧ gatewayOf (State.resetWith c).plic k = Gateway.idle) ∧
    (State.resetWith c).plic.reqQ = [] ∧ (State.resetWith c).plic.wrQ = [] ∧ (State.resetWith c).plic.claimQ = [] ∧
    (State.resetWith c).plic.respQ = [] ∧ (State.resetWith c).plic.complQ = []

/-- The machine after reset, in every configuration the spec allows, meets every invariant stated below (what it says of `mip`, `mie`,
the xPP fields, `xepc`, `xtvec`, the delegation registers, priorities and thresholds rests on the zeros that the model chose, a
DESIGN CHOICE where R63 says unspecified, notes/assumptions/5.md; that `RESET_PC` is a multiple of 4 is notes/assumptions/42.md). -/
def Obligations.ResetMeetsInvariants : Prop :=
  ∀ c : Config, c.wf = true →
    AllModesLegal (State.resetWith c) ∧ AllPcsAligned (State.resetWith c) ∧ AllHardwiredBits (State.resetWith c) ∧
    AllDelegationMasked (State.resetWith c) ∧ AllVectorsAligned (State.resetWith c) ∧ AllRegistersFit (State.resetWith c) ∧
    StoresCanonical (State.resetWith c) ∧ PlicInRange (State.resetWith c) ∧ HartsDistinct (State.resetWith c)

/-! ### Invariants that every step keeps -/

/-- Every step keeps every hart in a supported mode, with a supported mode up to x in every xPP field (10_state.md sections 1, 2). -/
def Obligations.ModesStayLegal : Prop := KeptByStep AllModesLegal

/-- Every step keeps every hart's pc a multiple of 4 (10_state.md section 1). -/
def Obligations.PcsStayAligned : Prop := KeptByStep AllPcsAligned

/-- Every step keeps every hard-wired bit of `mstatus`, `mip` and `mie` at its value, and VM, PUM and MPRV at 0 (10_state.md sections 2
and 3; 20_memory.md section 5; that a write of VM, PUM or MPRV is refused is the spec's decision D30, notes/assumptions/17.md). -/
def Obligations.HardwiredBitsStay : Prop := KeptByStep AllHardwiredBits

/-- Every step keeps the delegation registers within their masks and the low two bits of every `xepc` and `xtvec` 0 (10_state.md
sections 4 and 5). -/
def Obligations.TrapSetupStaysLegal : Prop := KeptByStep (fun s => AllDelegationMasked s ∧ AllVectorsAligned s)

/-- Every step keeps every integer register, pc, delegation register and trap register an XLEN-bit value (10_state.md). -/
def Obligations.RegistersStayInWidth : Prop := KeptByStep AllRegistersFit

/-- Every step keeps RAM, the record of accesses to it and the PLIC's register arrays in their canonical form. The form, and what an
entry that is not listed reads as, are the model's choice, no rule of the spec (DESIGN CHOICE, notes/assumptions/44.md; for RAM
9.md, for the record 26.md). -/
def Obligations.StoresStayCanonical : Prop := KeptByStep StoresCanonical

/-- Every step keeps the priorities and thresholds at most `MAX_PRI`, and the pending bits, enables and requests within the sources 1
to `NSRC` (10_state.md section 7; 20_memory.md section 4). -/
def Obligations.PlicStaysInRange : Prop := KeptByStep PlicInRange

end
end

