-- ==== Sys2Proof/Laws/Bits.lean ====
section
/-! SUPPORT. Laws/Bits.lean: what cutting, extending, setting a bit and a masked write do. -/

namespace Sys2Proof.Machine

/-- Cutting to XLEN bits is the value modulo 2^XLEN. -/
theorem trunc_toNat (xl : XLen) (v : Word) : (trunc xl v).toNat = v.toNat % 2 ^ xl.bits := by
  cases xl <;> simp [trunc, XLen.bits] <;> omega

@[simp] theorem trunc_trunc (xl : XLen) (v : Word) : trunc xl (trunc xl v) = trunc xl v := by
  apply BitVec.eq_of_toNat_eq
  simp [trunc_toNat]

theorem trunc_fits (xl : XLen) (v : Word) : fits xl (trunc xl v) := trunc_trunc xl v

/-- A value is an XLEN-bit value exactly when it is below 2^XLEN. -/
theorem fits_iff (xl : XLen) (v : Word) : fits xl v ↔ v.toNat < 2 ^ xl.bits := by
  constructor
  · intro h
    rw [← h, trunc_toNat]
    exact Nat.mod_lt _ (by positivity)
  · intro h
    apply BitVec.eq_of_toNat_eq
    rw [trunc_toNat, Nat.mod_eq_of_lt h]

/-- The bits of a word cut to XLEN bits. -/
theorem trunc_getLsbD (xl : XLen) (v : Word) (i : Nat) :
    (trunc xl v).getLsbD i = (decide (i < xl.bits) && v.getLsbD i) := by
  unfold trunc
  rw [BitVec.getLsbD_setWidth, BitVec.getLsbD_setWidth]
  by_cases h : i < 64
  · simp [h]
  · simp [h, BitVec.getLsbD_of_ge v i (Nat.le_of_not_lt h)]

/-- The bits of a word with one bit set. -/
theorem setBit_getLsbD (w : Word) (n : Nat) (b : Bool) (i : Nat) (hn : n < 64) :
    (setBit w n b).getLsbD i = if i = n then b else w.getLsbD i := by
  have key : (1#64 <<< n).getLsbD i = decide (i = n) := by
    rw [← BitVec.twoPow_eq, BitVec.getLsbD_twoPow]
    by_cases h : i = n
    · subst h; simp [hn]
    · simp [h, Ne.symm h]
  unfold setBit
  by_cases hi : i < 64
  · cases b
    · simp only [Bool.false_eq_true, if_false, BitVec.getLsbD_and, BitVec.getLsbD_not, key, hi]
      by_cases h : i = n <;> simp [h]
    · simp only [if_true, BitVec.getLsbD_or, key]
      by_cases h : i = n <;> simp [h]
  · have hne : i ≠ n := by omega
    rw [if_neg hne, BitVec.getLsbD_of_ge _ _ (Nat.le_of_not_lt hi), BitVec.getLsbD_of_ge _ _ (Nat.le_of_not_lt hi)]

/-- The bits of a masked write: those of the mask are new, the others old. -/
theorem merge_getLsbD (mask old new : Word) (i : Nat) :
    (merge mask old new).getLsbD i = if mask.getLsbD i then new.getLsbD i else old.getLsbD i := by
  unfold merge
  by_cases h : i < 64
  · simp only [BitVec.getLsbD_or, BitVec.getLsbD_and, BitVec.getLsbD_not, h]
    cases mask.getLsbD i <;> simp
  · simp only [BitVec.getLsbD_of_ge _ _ (Nat.le_of_not_lt h)]
    simp

/-- Clearing the low two bits is shifting them out and zeros in. -/
theorem align4_shift (v : Word) : align4 v = (v >>> 2) <<< 2 := by
  have three : ∀ i : Fin 64, (3#64).getLsbD i = decide (i.val < 2) := by decide
  apply BitVec.eq_of_getLsbD_eq
  intro i hi
  simp only [align4, BitVec.getLsbD_and, BitVec.getLsbD_not, BitVec.getLsbD_shiftLeft, BitVec.getLsbD_ushiftRight, hi, three ⟨i, hi⟩]
  by_cases h : i < 2
  · simp [h]
  · have : 2 + (i - 2) = i := by omega
    simp [h, this]

/-- The value of a word with its low two bits cleared. -/
theorem align4_toNat (v : Word) : (align4 v).toNat = v.toNat / 4 * 4 := by
  rw [align4_shift, BitVec.toNat_shiftLeft, BitVec.toNat_ushiftRight, Nat.shiftRight_eq_div_pow, Nat.shiftLeft_eq]
  have := v.isLt
  omega

theorem align4_mod (v : Word) : (align4 v).toNat % 4 = 0 := by rw [align4_toNat]; omega

@[simp] theorem align4_align4 (v : Word) : align4 (align4 v) = align4 v := by
  apply BitVec.eq_of_toNat_eq; simp only [align4_toNat]; omega

/-- A multiple of 4 is unchanged by clearing its low two bits. -/
theorem align4_of_mod {v : Word} (h : v.toNat % 4 = 0) : align4 v = v := by
  apply BitVec.eq_of_toNat_eq; rw [align4_toNat]; omega

/-- A value with bits cleared is an XLEN-bit value if the value was. -/
theorem and_fits {xl : XLen} {v : Word} (h : fits xl v) (w : Word) : fits xl (v &&& w) := by
  rw [fits_iff] at h ⊢
  rw [BitVec.toNat_and]
  exact Nat.lt_of_le_of_lt Nat.and_le_left h

/-- The union of two XLEN-bit values is one. -/
theorem or_fits {xl : XLen} {v w : Word} (h : fits xl v) (g : fits xl w) : fits xl (v ||| w) := by
  rw [fits_iff] at h g ⊢
  rw [BitVec.toNat_or]
  exact Nat.or_lt_two_pow h g

/-- `align4` keeps an XLEN-bit value one. -/
theorem align4_fits {xl : XLen} {v : Word} (h : fits xl v) : fits xl (align4 v) := by
  rw [fits_iff] at h ⊢; rw [align4_toNat]; omega

/-- The sign extension of a field to XLEN bits, as a number. -/
theorem sext_toNat (xl : XLen) {n : Nat} (v : BitVec n) (hn : n ≤ 32) :
    ((sext xl v).toNat : Int) = v.toInt % 2 ^ xl.bits := by
  have h1 : (v.signExtend 64).toInt = v.toInt := BitVec.toInt_signExtend_of_le (by omega)
  have h2 : ((v.signExtend 64).toNat : Int) = v.toInt % 2 ^ 64 := by
    rw [← h1, BitVec.toInt_eq_toNat_cond]
    have := (v.signExtend 64).isLt
    split <;> omega
  unfold sext
  rw [trunc_toNat, Int.natCast_mod, h2]
  cases xl <;> simp [XLen.bits]

end Sys2Proof.Machine
end

