-- ==== Sys2Proof/Laws/Modes.lean ====
section
/-! SUPPORT. Laws/Modes.lean: the handler modes of each configuration, and the bits of the interrupt masks. -/

namespace Sys2Proof.Machine

/-- The handler modes, written out for every configuration. -/
theorem handlerModes_eq (c : Config) :
    handlerModes c =
      match c.modes, c.nExt with
      | .m, _ => [.m]
      | .mu, false => [.m]
      | .mu, true => [.m, .u]
      | .msu, false => [.m, .s]
      | .msu, true => [.m, .s, .u]
      | .mhsu, false => [.m, .h, .s]
      | .mhsu, true => [.m, .h, .s, .u] := by
  rcases hm : c.modes <;> rcases hn : c.nExt <;>
    simp [handlerModes, List.filter_cons, canHandle, hasN, hasMode, hm, hn]

/-- The low twelve bits. -/
theorem low12_getLsbD (i : Nat) : (0xFFF#64).getLsbD i = decide (i < 12) := by
  have e : 0xFFF#64 = (BitVec.allOnes 12).setWidth 64 := by decide
  rw [e, BitVec.getLsbD_setWidth, BitVec.getLsbD_allOnes]
  by_cases h : i < 12 <;> simp [h]; omega

/-- The mask of supported levels, written out for every configuration. -/
theorem levelMask_eq (c : Config) :
    levelMask c =
      match c.modes with
      | .m => 0x888#64
      | .mu => 0x999#64
      | .msu => 0xBBB#64
      | .mhsu => 0xFFF#64 := by
  rcases hm : c.modes <;> simp [levelMask, hasMode, hm, levelBits, modeNum]

/-- No level has a bit above bit 11. -/
theorem levelMask_high (c : Config) (i : Nat) (h : 12 ≤ i) : (levelMask c).getLsbD i = false := by
  have e : levelMask c &&& 0xFFF#64 = levelMask c := by
    rw [levelMask_eq]; cases c.modes <;> rfl
  rw [← e, BitVec.getLsbD_and, low12_getLsbD]; simp; omega

/-- The platform-local bits are those of `LOCAL_IRQ_BITS` from bit 12 to bit XLEN-1. -/
theorem localMask_getLsbD (c : Config) (i : Nat) :
    (localMask c).getLsbD i = (c.localIrq.getLsbD i && decide (12 ≤ i ∧ i < c.xlen.bits)) := by
  unfold localMask
  rw [BitVec.getLsbD_and, trunc_getLsbD, BitVec.getLsbD_not, low12_getLsbD]
  by_cases h64 : i < 64
  · by_cases h12 : i < 12
    · simp [h12, h64]
    · by_cases hx : i < c.xlen.bits <;> simp [h12, hx, h64, Nat.le_of_not_lt]
  · have : c.localIrq.getLsbD i = false := BitVec.getLsbD_of_ge _ _ (by omega)
    simp [this]

/-- The implemented interrupt bits: those of the supported levels, and the platform-local ones. -/
theorem irqMask_getLsbD (c : Config) (i : Nat) :
    (irqMask c).getLsbD i = ((levelMask c).getLsbD i || (localMask c).getLsbD i) := by
  simp [irqMask]

/-- The three bits of a supported level are implemented. -/
theorem irqMask_level (c : Config) (x : Mode) (h : hasMode c x = true) :
    (irqMask c).getLsbD (modeNum x) = true ∧ (irqMask c).getLsbD (4 + modeNum x) = true ∧
      (irqMask c).getLsbD (8 + modeNum x) = true := by
  rw [irqMask_getLsbD, irqMask_getLsbD, irqMask_getLsbD, levelMask_eq]
  rcases hm : c.modes <;> cases x <;> simp [hasMode, hm] at h <;> simp [modeNum]

/-- The three bits of an unsupported level are not. -/
theorem irqMask_no_level (c : Config) (x : Mode) (h : hasMode c x = false) :
    (irqMask c).getLsbD (modeNum x) = false ∧ (irqMask c).getLsbD (4 + modeNum x) = false ∧
      (irqMask c).getLsbD (8 + modeNum x) = false := by
  rw [irqMask_getLsbD, irqMask_getLsbD, irqMask_getLsbD, levelMask_eq, localMask_getLsbD, localMask_getLsbD, localMask_getLsbD]
  rcases hm : c.modes <;> cases x <;> simp [hasMode, hm] at h <;> simp [modeNum]

end Sys2Proof.Machine
end

