-- ==== Sys2Proof/Laws/Memory.lean ====
section
/-! SUPPORT. Laws/Memory.lean: what reading and writing sparse data and RAM do, and that every operation keeps the canonical form. -/

namespace Sys2Proof.Machine

section
variable {α : Type} [DecidableEq α] (d : α)

/-- Writing one number leaves every other number alone. -/
theorem storeGet_storePut_other (m : List (Nat × α)) (a b : Nat) (v : α) (h : b ≠ a) :
    storeGet d (storePut d m a v) b = storeGet d m b := by
  induction m with
  | nil => unfold storePut; split <;> simp [storeGet, Ne.symm h]
  | cons p rest ih =>
    obtain ⟨k, w⟩ := p
    unfold storePut
    split
    · split
      · rfl
      · simp [storeGet, Ne.symm h]
    · split
      · next ha => subst ha; split <;> simp [storeGet, Ne.symm h]
      · simp [storeGet, ih]

/-- An entry of the list after a write is an old entry or the one written. -/
theorem mem_storePut {m : List (Nat × α)} {a : Nat} {v : α} {p : Nat × α} (h : p ∈ storePut d m a v) :
    p ∈ m ∨ (p = (a, v) ∧ v ≠ d) := by
  induction m with
  | nil =>
    unfold storePut at h
    split at h
    · simp at h
    · next hv => exact .inr ⟨by simpa using h, hv⟩
  | cons q rest ih =>
    obtain ⟨k, w⟩ := q
    unfold storePut at h
    split at h
    · split at h
      · exact .inl h
      · next hv =>
        rcases List.mem_cons.mp h with h | h
        · exact .inr ⟨h, hv⟩
        · exact .inl h
    · split at h
      · split at h
        · exact .inl (List.mem_cons_of_mem _ h)
        · next hv =>
          rcases List.mem_cons.mp h with h | h
          · exact .inr ⟨h, hv⟩
          · exact .inl (List.mem_cons_of_mem _ h)
      · rcases List.mem_cons.mp h with h | h
        · exact .inl (h ▸ List.mem_cons_self)
        · rcases ih h with h | h
          · exact .inl (List.mem_cons_of_mem _ h)
          · exact .inr h

omit [DecidableEq α] in
/-- A number below every entry reads as the default. -/
theorem storeGet_of_lt (m : List (Nat × α)) (a : Nat) (h : ∀ p ∈ m, a < p.1) : storeGet d m a = d := by
  induction m with
  | nil => rfl
  | cons p rest ih =>
    have h1 := h p List.mem_cons_self
    have h2 : ¬ p.1 = a := by omega
    simp only [storeGet, h2, if_false]
    exact ih (fun q hq => h q (List.mem_cons_of_mem _ hq))

/-- In the canonical form a number reads what was last written to it. -/
theorem storeGet_storePut_same (m : List (Nat × α)) (a : Nat) (v : α) (hm : StoreWf d m) :
    storeGet d (storePut d m a v) a = v := by
  induction m with
  | nil => unfold storePut; split <;> simp_all [storeGet]
  | cons p rest ih =>
    obtain ⟨k, w⟩ := p
    obtain ⟨hs, hd⟩ := hm
    rw [List.pairwise_cons] at hs
    have rest_wf : StoreWf d rest := ⟨hs.2, fun q hq => hd q (List.mem_cons_of_mem _ hq)⟩
    have beyond : ∀ q ∈ rest, k < q.1 := fun q hq => hs.1 q hq
    unfold storePut
    split
    · next hlt =>
      split
      · next hv =>
        rw [hv]
        refine storeGet_of_lt d _ a (fun q hq => ?_)
        rcases List.mem_cons.mp hq with hq | hq
        · rw [hq]; exact hlt
        · have := beyond q hq; omega
      · simp [storeGet]
    · split
      · next hak =>
        split
        · next hv => rw [hv]; exact storeGet_of_lt d _ a (fun q hq => by have := beyond q hq; omega)
        · simp [storeGet]
      · next hne => simp [storeGet, Ne.symm hne, ih rest_wf]

/-- A write keeps the canonical form. -/
theorem storePut_wf (m : List (Nat × α)) (a : Nat) (v : α) (hm : StoreWf d m) : StoreWf d (storePut d m a v) := by
  refine ⟨?_, fun p hp => ?_⟩
  · induction m with
    | nil => unfold storePut; split <;> simp
    | cons p rest ih =>
      obtain ⟨k, w⟩ := p
      obtain ⟨hs, hd⟩ := hm
      have hs' := List.pairwise_cons.mp hs
      have rest_wf : StoreWf d rest := ⟨hs'.2, fun q hq => hd q (List.mem_cons_of_mem _ hq)⟩
      unfold storePut
      split
      · next hlt =>
        split
        · exact hs
        · refine List.pairwise_cons.mpr ⟨fun q hq => ?_, hs⟩
          rcases List.mem_cons.mp hq with hq | hq
          · rw [hq]; exact hlt
          · have := hs'.1 q hq; simp only at this ⊢; omega
      · split
        · next hak =>
          split
          · exact hs'.2
          · exact List.pairwise_cons.mpr ⟨fun q hq => by have := hs'.1 q hq; simp only at this ⊢; omega, hs'.2⟩
        · next hge hne =>
          refine List.pairwise_cons.mpr ⟨fun q hq => ?_, ih rest_wf⟩
          rcases mem_storePut d hq with hq | hq
          · exact hs'.1 q hq
          · rw [hq.1]; simp only; omega
  · rcases mem_storePut d hp with h | h
    · exact hm.2 p h
    · rw [h.1]; exact h.2

end

/-! ### RAM -/

/-- In canonical RAM a byte reads what was last written to it. -/
theorem readByte_writeByte_same (m : Memory) (a : Nat) (b : Byte) (hm : Memory.wf m) : readByte (writeByte m a b) a = b :=
  storeGet_storePut_same blankByte m a b hm

/-- Writing a byte leaves every other byte alone. -/
theorem readByte_writeByte_other (m : Memory) (a c : Nat) (b : Byte) (h : c ≠ a) :
    readByte (writeByte m a b) c = readByte m c :=
  storeGet_storePut_other blankByte m a c b h

/-- Writing a byte keeps the canonical form of RAM. -/
theorem writeByte_wf (m : Memory) (a : Nat) (b : Byte) (hm : Memory.wf m) : Memory.wf (writeByte m a b) :=
  storePut_wf blankByte m a b hm

/-- Writing n bytes keeps the canonical form of RAM. -/
theorem writeBytes_wf (n : Nat) : ∀ (m : Memory) (a v : Nat), Memory.wf m → Memory.wf (writeBytes m a n v) := by
  induction n with
  | zero => intro m a v h; exact h
  | succ n ih => intro m a v h; exact ih _ _ _ (writeByte_wf m a _ h)

/-- Writing n bytes leaves every byte outside them alone. -/
theorem readByte_writeBytes_other (n : Nat) :
    ∀ (m : Memory) (a v c : Nat), (c < a ∨ a + n ≤ c) → readByte (writeBytes m a n v) c = readByte m c := by
  induction n with
  | zero => intro m a v c _; rfl
  | succ n ih =>
    intro m a v c h
    rw [writeBytes, ih _ _ _ _ (by omega), readByte_writeByte_other _ _ _ _ (by omega)]

/-- Byte k of the n bytes written is byte k of the number, in canonical RAM. -/
theorem readByte_writeBytes_same (n : Nat) :
    ∀ (m : Memory) (a v k : Nat), Memory.wf m → k < n →
      readByte (writeBytes m a n v) (a + k) = BitVec.ofNat 8 (v / 256 ^ k) := by
  induction n with
  | zero => intro m a v k _ hk; omega
  | succ n ih =>
    intro m a v k hm hk
    rw [writeBytes]
    rcases k with _ | k
    · rw [readByte_writeBytes_other _ _ _ _ _ (by omega), Nat.add_zero, readByte_writeByte_same _ _ _ hm]; simp
    · have e : a + (k + 1) = a + 1 + k := by omega
      rw [e, ih _ _ _ _ (writeByte_wf m a _ hm) (by omega), Nat.div_div_eq_div_mul, Nat.pow_succ, Nat.mul_comm 256]

/-! ### Regions, and the record of who touched a byte (20_memory.md R81, R97) -/

/-- The n bytes at an address lie in the regions exactly when each of them lies in one. -/
theorem inRegions_iff (rs : List Region) (n : Nat) : ∀ a, inRegions rs a n = true ↔
    ∀ b, a ≤ b → b < a + n → ∃ r ∈ rs, r.base ≤ b ∧ b < r.base + r.size := by
  induction n with
  | zero => intro a; simp [inRegions]; omega
  | succ n ih =>
    intro a
    simp only [inRegions, inRegion, Bool.and_eq_true, List.any_eq_true, decide_eq_true_eq, ih]
    refine ⟨fun h b h1 h2 => ?_, fun h => ⟨h a (by omega) (by omega), fun b h1 h2 => h b (by omega) (by omega)⟩⟩
    by_cases hb : b = a
    · exact hb ▸ h.1
    · exact h.2 b (by omega) (by omega)

/-- After an access of hart h another hart may not store to the byte, nor load it if the access was a store; nothing else changes. -/
theorem useAllows_useAfter (u : RamUse) (h k : Nat) (st w : Bool) :
    useAllows (useAfter u h st) k w = true ↔ useAllows u k w = true ∧ (st = true ∨ w = true → k = h) := by
  obtain ⟨rd, wr⟩ := u
  have add : ∀ l : List Nat, (if l.contains h then l else h :: l).all (fun j => j == k) = true ↔
      l.all (fun j => j == k) = true ∧ k = h := by
    intro l
    split
    · next hc =>
      simp only [List.contains_iff_mem] at hc
      exact ⟨fun a => ⟨a, (beq_iff_eq.mp (List.all_eq_true.mp a h hc)).symm⟩, fun a => a.1⟩
    · rw [List.all_cons, Bool.and_eq_true, beq_iff_eq]; exact ⟨fun a => ⟨a.2, a.1.symm⟩, fun a => ⟨a.2.symm, a.1⟩⟩
  cases st <;> cases w <;> simp only [useAllows, useAfter, Bool.and_eq_true, Bool.not_true, Bool.not_false, Bool.true_or,
    Bool.false_or, Bool.false_eq_true, if_true, if_false, add, or_true, or_false, forall_const, false_implies, and_true] <;> tauto

/-- Whether hart h may touch n bytes is whether it may touch each. -/
theorem raceFree_iff (m : List (Nat × RamUse)) (h : Nat) (st : Bool) (n : Nat) : ∀ a, raceFree m h st a n = true ↔
    ∀ b, a ≤ b → b < a + n → useAllows (storeGet RamUse.none m b) h st = true := by
  induction n with
  | zero => intro a; simp [raceFree]; omega
  | succ n ih =>
    intro a
    simp only [raceFree, Bool.and_eq_true, ih]
    refine ⟨fun p b h1 h2 => ?_, fun p => ⟨p a (by omega) (by omega), fun b h1 h2 => p b (by omega) (by omega)⟩⟩
    by_cases hb : b = a
    · exact hb ▸ p.1
    · exact p.2 b (by omega) (by omega)

/-- What recording an access does: to the n bytes what `useAllows_useAfter` says, to every other byte nothing. -/
theorem useAllows_noteUse (h : Nat) (st : Bool) (n : Nat) : ∀ (m : List (Nat × RamUse)) (a : Nat), StoreWf RamUse.none m →
    ∀ b k w, useAllows (storeGet RamUse.none (noteUse m h st a n) b) k w = true ↔
      useAllows (storeGet RamUse.none m b) k w = true ∧ (a ≤ b → b < a + n → st = true ∨ w = true → k = h) := by
  induction n with
  | zero => intro m a _ b k w; exact ⟨fun x => ⟨x, fun _ _ => by omega⟩, fun x => x.1⟩
  | succ n ih =>
    intro m a hm b k w
    rw [noteUse, ih _ _ (storePut_wf _ _ _ _ hm)]
    by_cases hb : b = a
    · subst hb
      rw [storeGet_storePut_same _ _ _ _ hm, useAllows_useAfter]
      exact ⟨fun x => ⟨x.1.1, fun _ _ => x.1.2⟩, fun x => ⟨⟨x.1, x.2 (by omega) (by omega)⟩, fun _ _ => by omega⟩⟩
    · rw [storeGet_storePut_other _ _ _ _ _ hb]
      exact ⟨fun x => ⟨x.1, fun _ _ => x.2 (by omega) (by omega)⟩, fun x => ⟨x.1, fun _ _ => x.2 (by omega) (by omega)⟩⟩

/-- RAM after reset is canonical. -/
theorem reset_memory_wf (c : Config) : Memory.wf (State.resetWith c).mem := by
  exact ⟨List.Pairwise.nil, fun p hp => nomatch hp⟩

end Sys2Proof.Machine
end

