-- ==== Sys2Proof/Laws/State.lean ====
section
/-! SUPPORT. Laws/State.lean: one lemma per field per update of the state, so that no later proof unfolds a record update. -/

namespace Sys2Proof.Machine

section
variable (s : State) (h : Hart)

/-! ### State.setX -/

@[simp] theorem State.setX_cfg (r : BitVec 5) (v : Word) : (s.setX r v).cfg = s.cfg := rfl
@[simp] theorem State.setX_hid (r : BitVec 5) (v : Word) : (s.setX r v).hid = s.hid := rfl
@[simp] theorem State.setX_hart (r : BitVec 5) (v : Word) : (s.setX r v).hart = { s.hart with x := putReg s.hart.x r v } := rfl
@[simp] theorem State.setX_parked (r : BitVec 5) (v : Word) : (s.setX r v).parked = s.parked := rfl
@[simp] theorem State.setX_mem (r : BitVec 5) (v : Word) : (s.setX r v).mem = s.mem := rfl
@[simp] theorem State.setX_ramUse (r : BitVec 5) (v : Word) : (s.setX r v).ramUse = s.ramUse := rfl
@[simp] theorem State.setX_mtime (r : BitVec 5) (v : Word) : (s.setX r v).mtime = s.mtime := rfl
@[simp] theorem State.setX_plic (r : BitVec 5) (v : Word) : (s.setX r v).plic = s.plic := rfl
@[simp] theorem State.setX_sched (r : BitVec 5) (v : Word) : (s.setX r v).sched = s.sched := rfl
@[simp] theorem State.setX_draws (r : BitVec 5) (v : Word) : (s.setX r v).draws = s.draws := rfl

/-! ### State.setPc -/

@[simp] theorem State.setPc_cfg (v : Word) : (s.setPc v).cfg = s.cfg := rfl
@[simp] theorem State.setPc_hid (v : Word) : (s.setPc v).hid = s.hid := rfl
@[simp] theorem State.setPc_hart (v : Word) : (s.setPc v).hart = { s.hart with pc := v } := rfl
@[simp] theorem State.setPc_parked (v : Word) : (s.setPc v).parked = s.parked := rfl
@[simp] theorem State.setPc_mem (v : Word) : (s.setPc v).mem = s.mem := rfl
@[simp] theorem State.setPc_ramUse (v : Word) : (s.setPc v).ramUse = s.ramUse := rfl
@[simp] theorem State.setPc_mtime (v : Word) : (s.setPc v).mtime = s.mtime := rfl
@[simp] theorem State.setPc_plic (v : Word) : (s.setPc v).plic = s.plic := rfl
@[simp] theorem State.setPc_sched (v : Word) : (s.setPc v).sched = s.sched := rfl
@[simp] theorem State.setPc_draws (v : Word) : (s.setPc v).draws = s.draws := rfl

/-! ### State.setHart -/

@[simp] theorem State.setHart_cfg : (s.setHart h).cfg = s.cfg := rfl
@[simp] theorem State.setHart_hid : (s.setHart h).hid = s.hid := rfl
@[simp] theorem State.setHart_hart : (s.setHart h).hart = h := rfl
@[simp] theorem State.setHart_parked : (s.setHart h).parked = s.parked := rfl
@[simp] theorem State.setHart_mem : (s.setHart h).mem = s.mem := rfl
@[simp] theorem State.setHart_ramUse : (s.setHart h).ramUse = s.ramUse := rfl
@[simp] theorem State.setHart_mtime : (s.setHart h).mtime = s.mtime := rfl
@[simp] theorem State.setHart_plic : (s.setHart h).plic = s.plic := rfl
@[simp] theorem State.setHart_sched : (s.setHart h).sched = s.sched := rfl
@[simp] theorem State.setHart_draws : (s.setHart h).draws = s.draws := rfl

/-! ### State.drawn -/

@[simp] theorem State.drawn_cfg : (s.drawn).cfg = s.cfg := rfl
@[simp] theorem State.drawn_hid : (s.drawn).hid = s.hid := rfl
@[simp] theorem State.drawn_hart : (s.drawn).hart = s.hart := rfl
@[simp] theorem State.drawn_parked : (s.drawn).parked = s.parked := rfl
@[simp] theorem State.drawn_mem : (s.drawn).mem = s.mem := rfl
@[simp] theorem State.drawn_ramUse : (s.drawn).ramUse = s.ramUse := rfl
@[simp] theorem State.drawn_mtime : (s.drawn).mtime = s.mtime := rfl
@[simp] theorem State.drawn_plic : (s.drawn).plic = s.plic := rfl
@[simp] theorem State.drawn_sched : (s.drawn).sched = s.sched := rfl
@[simp] theorem State.drawn_draws : (s.drawn).draws = s.draws + 1 := rfl

/-! ### popEvent -/

@[simp] theorem popEvent_cfg : (popEvent s).cfg = s.cfg := rfl
@[simp] theorem popEvent_hid : (popEvent s).hid = s.hid := rfl
@[simp] theorem popEvent_hart : (popEvent s).hart = s.hart := rfl
@[simp] theorem popEvent_parked : (popEvent s).parked = s.parked := rfl
@[simp] theorem popEvent_mem : (popEvent s).mem = s.mem := rfl
@[simp] theorem popEvent_ramUse : (popEvent s).ramUse = s.ramUse := rfl
@[simp] theorem popEvent_mtime : (popEvent s).mtime = s.mtime := rfl
@[simp] theorem popEvent_plic : (popEvent s).plic = s.plic := rfl
@[simp] theorem popEvent_sched : (popEvent s).sched = s.sched.tail := rfl
@[simp] theorem popEvent_draws : (popEvent s).draws = s.draws := rfl

/-! ### xretState -/

@[simp] theorem xretState_cfg (x : Mode) : (xretState x s).cfg = s.cfg := rfl
@[simp] theorem xretState_hid (x : Mode) : (xretState x s).hid = s.hid := rfl
@[simp] theorem xretState_hart (x : Mode) : (xretState x s).hart = { s.hart with
    mstatus := popStack s.cfg (s.hart.status s.cfg) x
    priv := getPP (s.hart.status s.cfg) x
    pc := align4 (s.hart.trapRegs x).epc } := rfl
@[simp] theorem xretState_parked (x : Mode) : (xretState x s).parked = s.parked := rfl
@[simp] theorem xretState_mem (x : Mode) : (xretState x s).mem = s.mem := rfl
@[simp] theorem xretState_ramUse (x : Mode) : (xretState x s).ramUse = s.ramUse := rfl
@[simp] theorem xretState_mtime (x : Mode) : (xretState x s).mtime = s.mtime := rfl
@[simp] theorem xretState_plic (x : Mode) : (xretState x s).plic = s.plic := rfl
@[simp] theorem xretState_sched (x : Mode) : (xretState x s).sched = s.sched := rfl
@[simp] theorem xretState_draws (x : Mode) : (xretState x s).draws = s.draws := rfl

/-! ### postWrite -/

@[simp] theorem postWrite_cfg (q : PlicWrite) : (postWrite s q).cfg = s.cfg := rfl
@[simp] theorem postWrite_hid (q : PlicWrite) : (postWrite s q).hid = s.hid := rfl
@[simp] theorem postWrite_hart (q : PlicWrite) : (postWrite s q).hart = s.hart := rfl
@[simp] theorem postWrite_parked (q : PlicWrite) : (postWrite s q).parked = s.parked := rfl
@[simp] theorem postWrite_mem (q : PlicWrite) : (postWrite s q).mem = s.mem := rfl
@[simp] theorem postWrite_ramUse (q : PlicWrite) : (postWrite s q).ramUse = s.ramUse := rfl
@[simp] theorem postWrite_mtime (q : PlicWrite) : (postWrite s q).mtime = s.mtime := rfl
@[simp] theorem postWrite_plic (q : PlicWrite) : (postWrite s q).plic = { s.plic with wrQ := s.plic.wrQ ++ [(s.hid, q)] } := rfl
@[simp] theorem postWrite_sched (q : PlicWrite) : (postWrite s q).sched = s.sched := rfl
@[simp] theorem postWrite_draws (q : PlicWrite) : (postWrite s q).draws = s.draws := rfl

/-! ### writeStatus -/

@[simp] theorem writeStatus_cfg (m v : Word) : (writeStatus s m v).cfg = s.cfg := rfl
@[simp] theorem writeStatus_hid (m v : Word) : (writeStatus s m v).hid = s.hid := rfl
@[simp] theorem writeStatus_hart (m v : Word) : (writeStatus s m v).hart = { s.hart with mstatus := statusWord s.cfg m (s.hart.status s.cfg) v s.draws } := rfl
@[simp] theorem writeStatus_parked (m v : Word) : (writeStatus s m v).parked = s.parked := rfl
@[simp] theorem writeStatus_mem (m v : Word) : (writeStatus s m v).mem = s.mem := rfl
@[simp] theorem writeStatus_ramUse (m v : Word) : (writeStatus s m v).ramUse = s.ramUse := rfl
@[simp] theorem writeStatus_mtime (m v : Word) : (writeStatus s m v).mtime = s.mtime := rfl
@[simp] theorem writeStatus_plic (m v : Word) : (writeStatus s m v).plic = s.plic := rfl
@[simp] theorem writeStatus_sched (m v : Word) : (writeStatus s m v).sched = s.sched := rfl
@[simp] theorem writeStatus_draws (m v : Word) : (writeStatus s m v).draws = s.draws + 2 := rfl

/-! ### trapEntry -/

@[simp] theorem trapEntry_cfg (i : Bool) (c : Nat) (e : Word) (b : Option Word) : (trapEntry i c e b s).cfg = s.cfg := rfl
@[simp] theorem trapEntry_hid (i : Bool) (c : Nat) (e : Word) (b : Option Word) : (trapEntry i c e b s).hid = s.hid := rfl
@[simp] theorem trapEntry_parked (i : Bool) (c : Nat) (e : Word) (b : Option Word) : (trapEntry i c e b s).parked = s.parked := rfl
@[simp] theorem trapEntry_mem (i : Bool) (c : Nat) (e : Word) (b : Option Word) : (trapEntry i c e b s).mem = s.mem := rfl
@[simp] theorem trapEntry_ramUse (i : Bool) (c : Nat) (e : Word) (b : Option Word) : (trapEntry i c e b s).ramUse = s.ramUse := rfl
@[simp] theorem trapEntry_mtime (i : Bool) (c : Nat) (e : Word) (b : Option Word) : (trapEntry i c e b s).mtime = s.mtime := rfl
@[simp] theorem trapEntry_plic (i : Bool) (c : Nat) (e : Word) (b : Option Word) : (trapEntry i c e b s).plic = s.plic := rfl
@[simp] theorem trapEntry_sched (i : Bool) (c : Nat) (e : Word) (b : Option Word) : (trapEntry i c e b s).sched = s.sched := rfl
@[simp] theorem trapEntry_draws (i : Bool) (c : Nat) (e : Word) (b : Option Word) :
    (trapEntry i c e b s).draws = if b.isSome then s.draws else s.draws + 1 := rfl

/-! ### advance -/

@[simp] theorem advance_cfg : s.advance.cfg = s.cfg := by unfold State.advance; split <;> rfl
@[simp] theorem advance_hid : s.advance.hid = s.hid := by unfold State.advance; split <;> rfl
@[simp] theorem advance_parked : s.advance.parked = s.parked := by unfold State.advance; split <;> rfl
@[simp] theorem advance_mem : s.advance.mem = s.mem := by unfold State.advance; split <;> rfl
@[simp] theorem advance_ramUse : s.advance.ramUse = s.ramUse := by unfold State.advance; split <;> rfl
@[simp] theorem advance_mtime : s.advance.mtime = s.mtime := by unfold State.advance; split <;> rfl
@[simp] theorem advance_plic : s.advance.plic = s.plic := by unfold State.advance; split <;> rfl
@[simp] theorem advance_sched : s.advance.sched = s.sched := by unfold State.advance; split <;> rfl

/-! ### The hart under register, trap-register and device updates -/

@[simp] theorem Hart.setTrapRegs_x (x : Mode) (r : TrapRegs) : (h.setTrapRegs x r).x = h.x := by cases x <;> rfl
@[simp] theorem Hart.setTrapRegs_pc (x : Mode) (r : TrapRegs) : (h.setTrapRegs x r).pc = h.pc := by cases x <;> rfl
@[simp] theorem Hart.setTrapRegs_priv (x : Mode) (r : TrapRegs) : (h.setTrapRegs x r).priv = h.priv := by cases x <;> rfl
@[simp] theorem Hart.setTrapRegs_mstatus (x : Mode) (r : TrapRegs) : (h.setTrapRegs x r).mstatus = h.mstatus := by cases x <;> rfl
@[simp] theorem Hart.setTrapRegs_mip (x : Mode) (r : TrapRegs) : (h.setTrapRegs x r).mip = h.mip := by cases x <;> rfl
@[simp] theorem Hart.setTrapRegs_mie (x : Mode) (r : TrapRegs) : (h.setTrapRegs x r).mie = h.mie := by cases x <;> rfl
@[simp] theorem Hart.setTrapRegs_medeleg (x : Mode) (r : TrapRegs) : (h.setTrapRegs x r).medeleg = h.medeleg := by cases x <;> rfl
@[simp] theorem Hart.setTrapRegs_hedeleg (x : Mode) (r : TrapRegs) : (h.setTrapRegs x r).hedeleg = h.hedeleg := by cases x <;> rfl
@[simp] theorem Hart.setTrapRegs_sedeleg (x : Mode) (r : TrapRegs) : (h.setTrapRegs x r).sedeleg = h.sedeleg := by cases x <;> rfl
@[simp] theorem Hart.setTrapRegs_mideleg (x : Mode) (r : TrapRegs) : (h.setTrapRegs x r).mideleg = h.mideleg := by cases x <;> rfl
@[simp] theorem Hart.setTrapRegs_hideleg (x : Mode) (r : TrapRegs) : (h.setTrapRegs x r).hideleg = h.hideleg := by cases x <;> rfl
@[simp] theorem Hart.setTrapRegs_sideleg (x : Mode) (r : TrapRegs) : (h.setTrapRegs x r).sideleg = h.sideleg := by cases x <;> rfl
@[simp] theorem Hart.setTrapRegs_cycle (x : Mode) (r : TrapRegs) : (h.setTrapRegs x r).cycle = h.cycle := by cases x <;> rfl
@[simp] theorem Hart.setTrapRegs_instret (x : Mode) (r : TrapRegs) : (h.setTrapRegs x r).instret = h.instret := by cases x <;> rfl
@[simp] theorem Hart.setTrapRegs_mtimecmp (x : Mode) (r : TrapRegs) : (h.setTrapRegs x r).mtimecmp = h.mtimecmp := by cases x <;> rfl
@[simp] theorem Hart.setTrapRegs_waiting (x : Mode) (r : TrapRegs) : (h.setTrapRegs x r).waiting = h.waiting := by cases x <;> rfl

@[simp] theorem Hart.trapRegs_setTrapRegs_same (x : Mode) (r : TrapRegs) : (h.setTrapRegs x r).trapRegs x = r := by cases x <;> rfl
theorem Hart.trapRegs_setTrapRegs_other (x y : Mode) (r : TrapRegs) (hxy : y ≠ x) :
    (h.setTrapRegs x r).trapRegs y = h.trapRegs y := by
  cases x <;> cases y <;> first | rfl | exact absurd rfl hxy

@[simp] theorem Hart.driveMip_x (i : Nat) (b : Bool) : (h.driveMip i b).x = h.x := rfl
@[simp] theorem Hart.driveMip_pc (i : Nat) (b : Bool) : (h.driveMip i b).pc = h.pc := rfl
@[simp] theorem Hart.driveMip_priv (i : Nat) (b : Bool) : (h.driveMip i b).priv = h.priv := rfl
@[simp] theorem Hart.driveMip_mstatus (i : Nat) (b : Bool) : (h.driveMip i b).mstatus = h.mstatus := rfl
@[simp] theorem Hart.driveMip_mie (i : Nat) (b : Bool) : (h.driveMip i b).mie = h.mie := rfl
@[simp] theorem Hart.driveMip_medeleg (i : Nat) (b : Bool) : (h.driveMip i b).medeleg = h.medeleg := rfl
@[simp] theorem Hart.driveMip_hedeleg (i : Nat) (b : Bool) : (h.driveMip i b).hedeleg = h.hedeleg := rfl
@[simp] theorem Hart.driveMip_sedeleg (i : Nat) (b : Bool) : (h.driveMip i b).sedeleg = h.sedeleg := rfl
@[simp] theorem Hart.driveMip_mideleg (i : Nat) (b : Bool) : (h.driveMip i b).mideleg = h.mideleg := rfl
@[simp] theorem Hart.driveMip_hideleg (i : Nat) (b : Bool) : (h.driveMip i b).hideleg = h.hideleg := rfl
@[simp] theorem Hart.driveMip_sideleg (i : Nat) (b : Bool) : (h.driveMip i b).sideleg = h.sideleg := rfl
@[simp] theorem Hart.driveMip_mTrap (i : Nat) (b : Bool) : (h.driveMip i b).mTrap = h.mTrap := rfl
@[simp] theorem Hart.driveMip_hTrap (i : Nat) (b : Bool) : (h.driveMip i b).hTrap = h.hTrap := rfl
@[simp] theorem Hart.driveMip_sTrap (i : Nat) (b : Bool) : (h.driveMip i b).sTrap = h.sTrap := rfl
@[simp] theorem Hart.driveMip_uTrap (i : Nat) (b : Bool) : (h.driveMip i b).uTrap = h.uTrap := rfl
@[simp] theorem Hart.driveMip_cycle (i : Nat) (b : Bool) : (h.driveMip i b).cycle = h.cycle := rfl
@[simp] theorem Hart.driveMip_instret (i : Nat) (b : Bool) : (h.driveMip i b).instret = h.instret := rfl
@[simp] theorem Hart.driveMip_mtimecmp (i : Nat) (b : Bool) : (h.driveMip i b).mtimecmp = h.mtimecmp := rfl
@[simp] theorem Hart.driveMip_waiting (i : Nat) (b : Bool) : (h.driveMip i b).waiting = h.waiting := rfl
@[simp] theorem Hart.driveMip_mip (i : Nat) (b : Bool) : (h.driveMip i b).mip = setBit h.mip i b := rfl
@[simp] theorem Hart.setTimecmp_x (v : BitVec 64) : (h.setTimecmp v).x = h.x := rfl
@[simp] theorem Hart.setTimecmp_pc (v : BitVec 64) : (h.setTimecmp v).pc = h.pc := rfl
@[simp] theorem Hart.setTimecmp_priv (v : BitVec 64) : (h.setTimecmp v).priv = h.priv := rfl
@[simp] theorem Hart.setTimecmp_mstatus (v : BitVec 64) : (h.setTimecmp v).mstatus = h.mstatus := rfl
@[simp] theorem Hart.setTimecmp_mie (v : BitVec 64) : (h.setTimecmp v).mie = h.mie := rfl
@[simp] theorem Hart.setTimecmp_medeleg (v : BitVec 64) : (h.setTimecmp v).medeleg = h.medeleg := rfl
@[simp] theorem Hart.setTimecmp_hedeleg (v : BitVec 64) : (h.setTimecmp v).hedeleg = h.hedeleg := rfl
@[simp] theorem Hart.setTimecmp_sedeleg (v : BitVec 64) : (h.setTimecmp v).sedeleg = h.sedeleg := rfl
@[simp] theorem Hart.setTimecmp_mideleg (v : BitVec 64) : (h.setTimecmp v).mideleg = h.mideleg := rfl
@[simp] theorem Hart.setTimecmp_hideleg (v : BitVec 64) : (h.setTimecmp v).hideleg = h.hideleg := rfl
@[simp] theorem Hart.setTimecmp_sideleg (v : BitVec 64) : (h.setTimecmp v).sideleg = h.sideleg := rfl
@[simp] theorem Hart.setTimecmp_mTrap (v : BitVec 64) : (h.setTimecmp v).mTrap = h.mTrap := rfl
@[simp] theorem Hart.setTimecmp_hTrap (v : BitVec 64) : (h.setTimecmp v).hTrap = h.hTrap := rfl
@[simp] theorem Hart.setTimecmp_sTrap (v : BitVec 64) : (h.setTimecmp v).sTrap = h.sTrap := rfl
@[simp] theorem Hart.setTimecmp_uTrap (v : BitVec 64) : (h.setTimecmp v).uTrap = h.uTrap := rfl
@[simp] theorem Hart.setTimecmp_cycle (v : BitVec 64) : (h.setTimecmp v).cycle = h.cycle := rfl
@[simp] theorem Hart.setTimecmp_instret (v : BitVec 64) : (h.setTimecmp v).instret = h.instret := rfl
@[simp] theorem Hart.setTimecmp_waiting (v : BitVec 64) : (h.setTimecmp v).waiting = h.waiting := rfl
@[simp] theorem Hart.setTimecmp_mtimecmp (v : BitVec 64) : (h.setTimecmp v).mtimecmp = v := rfl
@[simp] theorem Hart.setTimecmp_mip (v : BitVec 64) : (h.setTimecmp v).mip = setBit h.mip 7 false := rfl

@[simp] theorem Hart.setEdeleg_x (x : Mode) (v : Word) : (h.setEdeleg x v).x = h.x := by cases x <;> rfl
@[simp] theorem Hart.setEdeleg_pc (x : Mode) (v : Word) : (h.setEdeleg x v).pc = h.pc := by cases x <;> rfl
@[simp] theorem Hart.setEdeleg_priv (x : Mode) (v : Word) : (h.setEdeleg x v).priv = h.priv := by cases x <;> rfl
@[simp] theorem Hart.setEdeleg_mstatus (x : Mode) (v : Word) : (h.setEdeleg x v).mstatus = h.mstatus := by cases x <;> rfl
@[simp] theorem Hart.setEdeleg_mip (x : Mode) (v : Word) : (h.setEdeleg x v).mip = h.mip := by cases x <;> rfl
@[simp] theorem Hart.setEdeleg_mie (x : Mode) (v : Word) : (h.setEdeleg x v).mie = h.mie := by cases x <;> rfl
@[simp] theorem Hart.setEdeleg_mideleg (x : Mode) (v : Word) : (h.setEdeleg x v).mideleg = h.mideleg := by cases x <;> rfl
@[simp] theorem Hart.setEdeleg_hideleg (x : Mode) (v : Word) : (h.setEdeleg x v).hideleg = h.hideleg := by cases x <;> rfl
@[simp] theorem Hart.setEdeleg_sideleg (x : Mode) (v : Word) : (h.setEdeleg x v).sideleg = h.sideleg := by cases x <;> rfl
@[simp] theorem Hart.setEdeleg_mTrap (x : Mode) (v : Word) : (h.setEdeleg x v).mTrap = h.mTrap := by cases x <;> rfl
@[simp] theorem Hart.setEdeleg_hTrap (x : Mode) (v : Word) : (h.setEdeleg x v).hTrap = h.hTrap := by cases x <;> rfl
@[simp] theorem Hart.setEdeleg_sTrap (x : Mode) (v : Word) : (h.setEdeleg x v).sTrap = h.sTrap := by cases x <;> rfl
@[simp] theorem Hart.setEdeleg_uTrap (x : Mode) (v : Word) : (h.setEdeleg x v).uTrap = h.uTrap := by cases x <;> rfl
@[simp] theorem Hart.setEdeleg_cycle (x : Mode) (v : Word) : (h.setEdeleg x v).cycle = h.cycle := by cases x <;> rfl
@[simp] theorem Hart.setEdeleg_instret (x : Mode) (v : Word) : (h.setEdeleg x v).instret = h.instret := by cases x <;> rfl
@[simp] theorem Hart.setEdeleg_mtimecmp (x : Mode) (v : Word) : (h.setEdeleg x v).mtimecmp = h.mtimecmp := by cases x <;> rfl
@[simp] theorem Hart.setEdeleg_waiting (x : Mode) (v : Word) : (h.setEdeleg x v).waiting = h.waiting := by cases x <;> rfl
@[simp] theorem Hart.setIdeleg_x (x : Mode) (v : Word) : (h.setIdeleg x v).x = h.x := by cases x <;> rfl
@[simp] theorem Hart.setIdeleg_pc (x : Mode) (v : Word) : (h.setIdeleg x v).pc = h.pc := by cases x <;> rfl
@[simp] theorem Hart.setIdeleg_priv (x : Mode) (v : Word) : (h.setIdeleg x v).priv = h.priv := by cases x <;> rfl
@[simp] theorem Hart.setIdeleg_mstatus (x : Mode) (v : Word) : (h.setIdeleg x v).mstatus = h.mstatus := by cases x <;> rfl
@[simp] theorem Hart.setIdeleg_mip (x : Mode) (v : Word) : (h.setIdeleg x v).mip = h.mip := by cases x <;> rfl
@[simp] theorem Hart.setIdeleg_mie (x : Mode) (v : Word) : (h.setIdeleg x v).mie = h.mie := by cases x <;> rfl
@[simp] theorem Hart.setIdeleg_medeleg (x : Mode) (v : Word) : (h.setIdeleg x v).medeleg = h.medeleg := by cases x <;> rfl
@[simp] theorem Hart.setIdeleg_hedeleg (x : Mode) (v : Word) : (h.setIdeleg x v).hedeleg = h.hedeleg := by cases x <;> rfl
@[simp] theorem Hart.setIdeleg_sedeleg (x : Mode) (v : Word) : (h.setIdeleg x v).sedeleg = h.sedeleg := by cases x <;> rfl
@[simp] theorem Hart.setIdeleg_mTrap (x : Mode) (v : Word) : (h.setIdeleg x v).mTrap = h.mTrap := by cases x <;> rfl
@[simp] theorem Hart.setIdeleg_hTrap (x : Mode) (v : Word) : (h.setIdeleg x v).hTrap = h.hTrap := by cases x <;> rfl
@[simp] theorem Hart.setIdeleg_sTrap (x : Mode) (v : Word) : (h.setIdeleg x v).sTrap = h.sTrap := by cases x <;> rfl
@[simp] theorem Hart.setIdeleg_uTrap (x : Mode) (v : Word) : (h.setIdeleg x v).uTrap = h.uTrap := by cases x <;> rfl
@[simp] theorem Hart.setIdeleg_cycle (x : Mode) (v : Word) : (h.setIdeleg x v).cycle = h.cycle := by cases x <;> rfl
@[simp] theorem Hart.setIdeleg_instret (x : Mode) (v : Word) : (h.setIdeleg x v).instret = h.instret := by cases x <;> rfl
@[simp] theorem Hart.setIdeleg_mtimecmp (x : Mode) (v : Word) : (h.setIdeleg x v).mtimecmp = h.mtimecmp := by cases x <;> rfl
@[simp] theorem Hart.setIdeleg_waiting (x : Mode) (v : Word) : (h.setIdeleg x v).waiting = h.waiting := by cases x <;> rfl

/-! ### modHart and switchTo -/

@[simp] theorem modHart_cfg (k : Nat) (f : Hart → Hart) : (s.modHart k f).cfg = s.cfg := by
  unfold State.modHart; split <;> rfl
@[simp] theorem modHart_hid (k : Nat) (f : Hart → Hart) : (s.modHart k f).hid = s.hid := by
  unfold State.modHart; split <;> rfl
@[simp] theorem modHart_mem (k : Nat) (f : Hart → Hart) : (s.modHart k f).mem = s.mem := by
  unfold State.modHart; split <;> rfl
@[simp] theorem modHart_ramUse (k : Nat) (f : Hart → Hart) : (s.modHart k f).ramUse = s.ramUse := by
  unfold State.modHart; split <;> rfl
@[simp] theorem modHart_mtime (k : Nat) (f : Hart → Hart) : (s.modHart k f).mtime = s.mtime := by
  unfold State.modHart; split <;> rfl
@[simp] theorem modHart_plic (k : Nat) (f : Hart → Hart) : (s.modHart k f).plic = s.plic := by
  unfold State.modHart; split <;> rfl
@[simp] theorem modHart_sched (k : Nat) (f : Hart → Hart) : (s.modHart k f).sched = s.sched := by
  unfold State.modHart; split <;> rfl
@[simp] theorem modHart_draws (k : Nat) (f : Hart → Hart) : (s.modHart k f).draws = s.draws := by
  unfold State.modHart; split <;> rfl
@[simp] theorem switchTo_cfg (k : Nat) : (s.switchTo k).cfg = s.cfg := by
  unfold State.switchTo; split <;> [rfl; (split <;> rfl)]
@[simp] theorem switchTo_mem (k : Nat) : (s.switchTo k).mem = s.mem := by
  unfold State.switchTo; split <;> [rfl; (split <;> rfl)]
@[simp] theorem switchTo_ramUse (k : Nat) : (s.switchTo k).ramUse = s.ramUse := by
  unfold State.switchTo; split <;> [rfl; (split <;> rfl)]
@[simp] theorem switchTo_mtime (k : Nat) : (s.switchTo k).mtime = s.mtime := by
  unfold State.switchTo; split <;> [rfl; (split <;> rfl)]
@[simp] theorem switchTo_plic (k : Nat) : (s.switchTo k).plic = s.plic := by
  unfold State.switchTo; split <;> [rfl; (split <;> rfl)]
@[simp] theorem switchTo_sched (k : Nat) : (s.switchTo k).sched = s.sched := by
  unfold State.switchTo; split <;> [rfl; (split <;> rfl)]
@[simp] theorem switchTo_draws (k : Nat) : (s.switchTo k).draws = s.draws := by
  unfold State.switchTo; split <;> [rfl; (split <;> rfl)]

@[simp] theorem switchTo_self : s.switchTo s.hid = s := by simp [State.switchTo]

end

end Sys2Proof.Machine
end

