-- ==== Sys2Proof/Laws/Ops.lean ====
section
/-! SUPPORT. Laws/Ops.lean: what the shared operations over registers, modes and traps do, each said once. -/

namespace Sys2Proof.Machine

/-! ### Registers -/

@[simp] theorem getReg_zero (x : Vector Word 32) : getReg x 0#5 = 0#64 := rfl

@[simp] theorem putReg_zero (x : Vector Word 32) (v : Word) : putReg x 0#5 v = x := rfl

/-- A register other than `x[0]` reads what was last written to it. -/
theorem getReg_putReg_same (x : Vector Word 32) (r : BitVec 5) (v : Word) (h : r ≠ 0#5) : getReg (putReg x r v) r = v := by
  simp [getReg, putReg, h]

/-- Writing a register leaves every other register alone. -/
theorem getReg_putReg_other (x : Vector Word 32) (r q : BitVec 5) (v : Word) (h : q ≠ r) :
    getReg (putReg x r v) q = getReg x q := by
  unfold getReg putReg
  split
  · rfl
  · split
    · rfl
    · rw [Vector.getElem_set_ne]
      intro e
      exact h (BitVec.eq_of_toNat_eq e.symm)

/-- `advance` moves the pc by 4, or at the top of the address space to a free multiple of 4, and changes nothing else. -/
theorem advance_cases (s : State) :
    (pcFits s.cfg.xlen s.hart.pc = true ∧ s.advance = s.setPc (s.hart.pc + 4#64)) ∨
    (pcFits s.cfg.xlen s.hart.pc = false ∧ s.advance = (s.setPc (align4 s.free)).drawn) := by
  unfold State.advance
  cases h : pcFits s.cfg.xlen s.hart.pc <;> simp

/-- When the advance has a meaning. -/
theorem canAdvance_iff (s : State) :
    s.canAdvance = true ↔ s.cfg.pcOverflow = .free ∨ s.hart.pc.toNat + 4 < 2 ^ s.cfg.xlen.bits := by
  simp [State.canAdvance, pcFits, or_comm]

/-- What the end of an instruction can do: the advance, or the refusal of an overflowing pc. -/
theorem complete_cases (s : State) :
    (s.canAdvance = true ∧ s.complete = .next s.advance) ∨ (s.canAdvance = false ∧ s.complete = .refused .pcOverflow) := by
  unfold State.complete
  cases h : s.canAdvance <;> simp

/-- An instruction that ends in a next state advanced. -/
theorem complete_next {s t : State} (h : s.complete = .next t) : s.canAdvance = true ∧ t = s.advance := by
  rcases complete_cases s with ⟨hc, e⟩ | ⟨_, e⟩ <;> rw [e] at h <;> cases h
  exact ⟨hc, rfl⟩

/-- Whether the advance has a meaning depends on the configuration and the pc. -/
theorem canAdvance_congr {s t : State} (hc : t.cfg = s.cfg) (hp : t.hart.pc = s.hart.pc) : t.canAdvance = s.canAdvance := by
  simp [State.canAdvance, hc, hp]

/-! ### Modes -/

theorem modeNum_inj {x y : Mode} (h : modeNum x = modeNum y) : x = y := by cases x <;> cases y <;> simp_all [modeNum]

@[simp] theorem modeOfBits_modeBits (x : Mode) : modeOfBits (modeBits x) = x := by cases x <;> rfl

theorem le_modeMax_right (x y : Mode) : modeLe y (modeMax x y) = true := by cases x <;> cases y <;> rfl

/-! ### Registers by mode -/

/-- A delegation register of a mode reads what was last written to it; U has none. -/
theorem edeleg_setEdeleg (h : Hart) (x y : Mode) (v : Word) :
    (h.setEdeleg x v).edeleg y = if y = x ∧ x ≠ .u then v else h.edeleg y := by cases x <;> cases y <;> rfl

/-- A delegation register of a mode reads what was last written to it; U has none. -/
theorem ideleg_setIdeleg (h : Hart) (x y : Mode) (v : Word) :
    (h.setIdeleg x v).ideleg y = if y = x ∧ x ≠ .u then v else h.ideleg y := by cases x <;> cases y <;> rfl

@[simp] theorem ideleg_setEdeleg (h : Hart) (x y : Mode) (v : Word) : (h.setEdeleg x v).ideleg y = h.ideleg y := by
  cases x <;> cases y <;> rfl
@[simp] theorem edeleg_setIdeleg (h : Hart) (x y : Mode) (v : Word) : (h.setIdeleg x v).edeleg y = h.edeleg y := by
  cases x <;> cases y <;> rfl
@[simp] theorem trapRegs_setEdeleg (h : Hart) (x y : Mode) (v : Word) : (h.setEdeleg x v).trapRegs y = h.trapRegs y := by
  cases x <;> cases y <;> rfl
@[simp] theorem trapRegs_setIdeleg (h : Hart) (x y : Mode) (v : Word) : (h.setIdeleg x v).trapRegs y = h.trapRegs y := by
  cases x <;> cases y <;> rfl
@[simp] theorem edeleg_setTrapRegs (h : Hart) (x y : Mode) (r : TrapRegs) : (h.setTrapRegs x r).edeleg y = h.edeleg y := by
  cases x <;> cases y <;> rfl
@[simp] theorem ideleg_setTrapRegs (h : Hart) (x y : Mode) (r : TrapRegs) : (h.setTrapRegs x r).ideleg y = h.ideleg y := by
  cases x <;> cases y <;> rfl

/-! ### Delegation -/

/-- A delegation chain ends at its first mode or at one of the modes below. -/
theorem delegChain_mem (d : Mode → Word) (code : Nat) (zs : List Mode) :
    ∀ x : Mode, delegChain d code x zs = x ∨ delegChain d code x zs ∈ zs := by
  induction zs with
  | nil => intro x; exact .inl rfl
  | cons z zs ih =>
    intro x
    unfold delegChain
    split
    · rcases ih z with h | h
      · rw [h]; exact .inr List.mem_cons_self
      · exact .inr (List.mem_cons_of_mem _ h)
    · exact .inl rfl

/-- The mode that a trap is delegated to can handle traps. -/
theorem delegTarget_canHandle (c : Config) (h : Hart) (intr : Bool) (code : Nat) :
    canHandle c (delegTarget c h intr code) = true := by
  unfold delegTarget
  rcases delegChain_mem (if intr then h.ideleg else h.edeleg) code (handlerModes c).tail .m with e | e
  · rw [e]; rfl
  · exact (List.mem_filter.mp (List.mem_of_mem_tail e)).2

/-! ### Traps -/

/-- Everything a trap writes: the handling mode's registers, `mstatus`, the mode, the pc, and the count of draws. -/
theorem trapEntry_eq (i : Bool) (c : Nat) (e : Word) (b : Option Word) (s : State) :
    trapEntry i c e b s =
      { s with
        hart :=
          { s.hart.setTrapRegs (trapTarget s i c) (trapRecord s i c e b (s.hart.trapRegs (trapTarget s i c))) with
            mstatus := pushStack s.cfg (s.hart.status s.cfg) s.hart.priv (trapTarget s i c)
            priv := trapTarget s i c
            pc := align4 (s.hart.trapRegs (trapTarget s i c)).tvec }
        draws := if b.isSome then s.draws else s.draws + 1 } := rfl

@[simp] theorem trapEntry_priv (i : Bool) (c : Nat) (e : Word) (b : Option Word) (s : State) :
    (trapEntry i c e b s).hart.priv = trapTarget s i c := rfl

@[simp] theorem trapEntry_pc (i : Bool) (c : Nat) (e : Word) (b : Option Word) (s : State) :
    (trapEntry i c e b s).hart.pc = align4 (s.hart.trapRegs (trapTarget s i c)).tvec := rfl

@[simp] theorem trapEntry_mstatus (i : Bool) (c : Nat) (e : Word) (b : Option Word) (s : State) :
    (trapEntry i c e b s).hart.mstatus = pushStack s.cfg (s.hart.status s.cfg) s.hart.priv (trapTarget s i c) := rfl

@[simp] theorem trapEntry_x (i : Bool) (c : Nat) (e : Word) (b : Option Word) (s : State) :
    (trapEntry i c e b s).hart.x = s.hart.x := Hart.setTrapRegs_x ..

@[simp] theorem trapEntry_mip (i : Bool) (c : Nat) (e : Word) (b : Option Word) (s : State) :
    (trapEntry i c e b s).hart.mip = s.hart.mip := Hart.setTrapRegs_mip ..

@[simp] theorem trapEntry_mie (i : Bool) (c : Nat) (e : Word) (b : Option Word) (s : State) :
    (trapEntry i c e b s).hart.mie = s.hart.mie := Hart.setTrapRegs_mie ..

/-- The trap registers after a trap: the handling mode's are the record, every other mode's are unchanged. -/
theorem trapEntry_trapRegs (i : Bool) (c : Nat) (e : Word) (b : Option Word) (s : State) (x : Mode) :
    (trapEntry i c e b s).hart.trapRegs x =
      if x = trapTarget s i c then trapRecord s i c e b (s.hart.trapRegs x) else s.hart.trapRegs x := by
  have h : (trapEntry i c e b s).hart.trapRegs x =
      (s.hart.setTrapRegs (trapTarget s i c) (trapRecord s i c e b (s.hart.trapRegs (trapTarget s i c)))).trapRegs x := by
    cases x <;> rfl
  rw [h]
  split
  · next hx => subst hx; simp
  · next hx => exact Hart.trapRegs_setTrapRegs_other _ _ _ _ hx

/-- Every exception code is below 12. -/
theorem excCode_lt (e : Exn) : excCode e < 12 := by
  cases e with
  | envCall y => cases y <;> decide
  | _ => decide

/-- `raise` always takes its exception, at the address of the instruction. -/
theorem raise_eq (e : Exn) (bad : Option Word) (s : State) :
    raise e bad s = .next (trapEntry false (excCode e) s.hart.pc bad s) := rfl

/-- xRET goes to the state of R130, or raises Illegal instruction where R135 says. -/
theorem xret_cases (x : Mode) (s : State) :
    (xretLegal s.cfg s.hart.priv x = true ∧ xret x s = .next (xretState x s)) ∨
    (xretLegal s.cfg s.hart.priv x = false ∧ xret x s = raiseIllegal s) := by
  unfold xret
  cases h : xretLegal s.cfg s.hart.priv x <;> simp

/-! ### Harts -/

@[simp] theorem hartAt_self (s : State) : s.hartAt s.hid = some s.hart := by simp [State.hartAt]

/-- Changing hart h changes the state of hart h and of no other hart. -/
theorem modHart_hartAt (s : State) (h k : Nat) (f : Hart → Hart) :
    (s.modHart h f).hartAt k = if k = h then (s.hartAt k).map f else s.hartAt k := by
  have look : ∀ l : List (Nat × Hart),
      (l.map (fun p => if p.1 = h then (p.1, f p.2) else p)).lookup k = if k = h then (l.lookup k).map f else l.lookup k := by
    intro l
    induction l with
    | nil => simp
    | cons p l ih =>
      obtain ⟨n, q⟩ := p
      by_cases hk : k = n
      · subst hk
        by_cases hh : k = h <;> simp [hh]
      · have hk' : (k == n) = false := by simp [hk]
        by_cases hh : n = h
        · have hk2 : (k == h) = false := by simp [← hh, hk]
          simp [hh, List.lookup_cons, hk2, ih]
        · simp [List.lookup_cons, hh, hk', ih]
  unfold State.modHart State.hartAt
  by_cases h1 : h = s.hid
  · subst h1; by_cases h2 : k = s.hid <;> simp [h2]
  · by_cases h2 : k = s.hid
    · have : ¬ k = h := fun e => h1 (e ▸ h2)
      simp [h1, h2]; simp [h2 ▸ this]
    · simp [h1, h2, look]

end Sys2Proof.Machine
end

