-- ==== Sys2Proof/Laws/Status.lean ====
section
/-! SUPPORT. Laws/Status.lean: the bits and fields of `mstatus` after an update, after a trap and after a return. -/

namespace Sys2Proof.Machine

/-! ### Hard-wired bits -/

theorem fixMstatus_bit (c : Config) (w : Word) (i : Nat) :
    (fixMstatus c w).getLsbD i = ((w.getLsbD i && (mstatusImpl c).getLsbD i) || (mstatusOnes c).getLsbD i) := by
  simp [fixMstatus]

/-- Putting the hard-wired bits at their values twice is doing it once. -/
@[simp] theorem fixMstatus_idem (c : Config) (w : Word) : fixMstatus c (fixMstatus c w) = fixMstatus c w := by
  apply BitVec.eq_of_getLsbD_eq
  intro i _
  rw [fixMstatus_bit, fixMstatus_bit]
  cases w.getLsbD i <;> cases (mstatusImpl c).getLsbD i <;> cases (mstatusOnes c).getLsbD i <;> rfl

/-- The only bits hard-wired to one are those of MPP. -/
theorem mstatusOnes_bit (c : Config) (i : Nat) (h : i ≠ 11) (h2 : i ≠ 12) : (mstatusOnes c).getLsbD i = false := by
  unfold mstatusOnes
  split
  · have e : (0x1800#64) = 1#64 <<< 11 ||| 1#64 <<< 12 := by decide
    rw [e, BitVec.getLsbD_or, ← BitVec.twoPow_eq, ← BitVec.twoPow_eq, BitVec.getLsbD_twoPow, BitVec.getLsbD_twoPow]
    simp; omega
  · simp

/-- A mode that can handle traps has its interrupt-enable bits. -/
theorem mstatusImpl_stack (c : Config) (x : Mode) (h : canHandle c x = true) :
    (mstatusImpl c).getLsbD (ieBit x) = true ∧ (mstatusImpl c).getLsbD (pieBit x) = true := by
  obtain ⟨xl, modes, nExt, _⟩ := c
  unfold canHandle hasN hasMode at h
  cases modes <;> cases nExt <;> cases x <;> simp at h <;>
    simp [mstatusImpl, stackMask, fieldMask, hasN, hasMode, ieBit, pieBit, modeNum]

/-- U without the extension N has no interrupt-enable bits (10_state.md R29). -/
theorem mstatusImpl_noUser (c : Config) (h : hasN c = false) :
    (mstatusImpl c).getLsbD (ieBit .u) = false ∧ (mstatusImpl c).getLsbD (pieBit .u) = false := by
  obtain ⟨xl, modes, nExt, _⟩ := c
  unfold hasN hasMode at h
  cases xl <;> cases modes <;> cases nExt <;> simp at h <;>
    simp [mstatusImpl, stackMask, fieldMask, storedMask, topBit, XLen.bits, hasN, hasMode, ieBit, pieBit, modeNum]

/-! ### Positions -/

theorem ieBit_lt (x : Mode) : ieBit x < 4 := by cases x <;> decide
theorem pieBit_lt (x : Mode) : pieBit x < 8 := by cases x <;> decide
theorem le_pieBit (x : Mode) : 4 ≤ pieBit x := by cases x <;> decide
theorem ieBit_ne_pieBit (x y : Mode) : ieBit x ≠ pieBit y := by have := ieBit_lt x; have := le_pieBit y; omega
theorem ieBit_inj {x y : Mode} (h : ieBit x = ieBit y) : x = y := modeNum_inj h

theorem ppMask_low (x : Mode) (i : Nat) (h : i < 8) : (ppMask x).getLsbD i = false := by
  cases x <;> interval_cases i <;> rfl

/-! ### Updates of one field -/

theorem setPIE_bit (w : Word) (x : Mode) (b : Bool) (i : Nat) :
    (setPIE w x b).getLsbD i = if i = pieBit x then b else w.getLsbD i :=
  setBit_getLsbD _ _ _ _ (by have := pieBit_lt x; omega)

theorem setIE_bit (w : Word) (x : Mode) (b : Bool) (i : Nat) :
    (setIE w x b).getLsbD i = if i = ieBit x then b else w.getLsbD i :=
  setBit_getLsbD _ _ _ _ (by have := ieBit_lt x; omega)

theorem setPP_bit (w : Word) (x y : Mode) (i : Nat) :
    (setPP w x y).getLsbD i = if (ppMask x).getLsbD i then (ppBits x y).getLsbD i else w.getLsbD i := merge_getLsbD ..

/-- A two-bit field from its bits. -/
theorem extract_two (v : Word) (k : Nat) :
    v.extractLsb' k 2 = BitVec.ofBool (v.getLsbD (k + 1)) ++ BitVec.ofBool (v.getLsbD k) := by
  apply BitVec.eq_of_getLsbD_eq
  intro i hi
  rw [BitVec.getLsbD_append]
  interval_cases i <;> simp

/-- Two status words that agree on the bits of xPP have the same xPP. -/
theorem getPP_congr {v w : Word} (x : Mode) (h : ∀ i, (ppMask x).getLsbD i = true → v.getLsbD i = w.getLsbD i) :
    getPP v x = getPP w x := by
  cases x with
  | m => simp only [getPP]; rw [extract_two, extract_two, h 11 rfl, h 12 rfl]
  | h => simp only [getPP]; rw [extract_two, extract_two, h 9 rfl, h 10 rfl]
  | s => simp only [getPP]; rw [h 8 rfl]
  | u => rfl

/-- A supported mode up to x, written to the field xPP of a mode that can handle traps, reads back. -/
theorem getPP_fix_setPP (c : Config) (w : Word) (x y : Mode) (hx : canHandle c x = true) (hy : hasMode c y = true)
    (hle : modeLe y x = true) : getPP (fixMstatus c (setPP w x y)) x = y := by
  have e : ∀ i, (fixMstatus c (setPP w x y)).getLsbD i =
      (((if (ppMask x).getLsbD i then (ppBits x y).getLsbD i else w.getLsbD i) && (mstatusImpl c).getLsbD i) ||
        (mstatusOnes c).getLsbD i) := by
    intro i; rw [fixMstatus_bit, setPP_bit]
  generalize fixMstatus c (setPP w x y) = v at e
  obtain ⟨xl, modes, nExt, _⟩ := c
  unfold getPP
  rw [extract_two, extract_two, e 8, e 9, e 10, e 11, e 12]
  unfold canHandle hasN hasMode at hx
  unfold hasMode at hy
  unfold modeLe at hle
  clear e
  cases modes <;> cases nExt <;> cases x <;> simp at hx <;> cases y <;> simp at hy <;> simp [modeNum] at hle <;>
    (simp [mstatusImpl, stackMask, fieldMask, storedMask, hasN, hasMode, ppMask, ppBits, modeBits, modeNum, mstatusOnes] <;>
      try rfl)

/-! ### Traps and returns -/

theorem canHandle_hasMode {c : Config} {x : Mode} (h : canHandle c x = true) : hasMode c x = true := by
  unfold canHandle at h; cases x <;> simp_all [hasN, hasMode]

/-- The mode that handles a trap from a supported mode can handle traps. -/
theorem trapTarget_canHandle (s : State) (intr : Bool) (code : Nat) (hy : hasMode s.cfg s.hart.priv = true) :
    canHandle s.cfg (trapTarget s intr code) = true := by
  unfold trapTarget
  split
  · exact delegTarget_canHandle ..
  · unfold excTarget modeMax
    split
    · next hl =>
      cases hu : s.hart.priv with
      | u =>
        have := delegTarget_canHandle s.cfg s.hart false code
        rw [hu] at hl
        cases hd : delegTarget s.cfg s.hart false code <;> rw [hd] at hl this <;> simp [modeLe, modeNum] at hl
        exact this
      | s => rw [hu] at hy; exact hy
      | h => rw [hu] at hy; exact hy
      | m => rfl
    · exact delegTarget_canHandle ..

/-- An exception is never handled below the mode that raised it. -/
theorem le_trapTarget_exception (s : State) (code : Nat) : modeLe s.hart.priv (trapTarget s false code) = true :=
  le_modeMax_right ..

/-- Every bit of `mstatus` after a trap from y into x. -/
theorem pushStack_bit (c : Config) (w : Word) (y x : Mode) (i : Nat) :
    (pushStack c w y x).getLsbD i =
      (((if (ppMask x).getLsbD i then (ppBits x y).getLsbD i
        else if i = ieBit x then false else if i = pieBit x then getIE w y else w.getLsbD i) &&
        (mstatusImpl c).getLsbD i) || (mstatusOnes c).getLsbD i) := by
  unfold pushStack
  rw [fixMstatus_bit, setPP_bit, setIE_bit, setPIE_bit]

/-- Every bit of `mstatus` after a return into mode x. -/
theorem popStack_bit (c : Config) (w : Word) (x : Mode) (i : Nat) :
    (popStack c w x).getLsbD i =
      (((if (ppMask x).getLsbD i then (ppBits x (bottomMode c)).getLsbD i
        else if i = pieBit x then true else if i = ieBit (getPP w x) then getPIE w x else w.getLsbD i) &&
        (mstatusImpl c).getLsbD i) || (mstatusOnes c).getLsbD i) := by
  unfold popStack
  rw [fixMstatus_bit, setPP_bit, setPIE_bit, setIE_bit]

@[simp] theorem fix_pushStack (c : Config) (w : Word) (y x : Mode) : fixMstatus c (pushStack c w y x) = pushStack c w y x :=
  fixMstatus_idem ..

@[simp] theorem fix_popStack (c : Config) (w : Word) (x : Mode) : fixMstatus c (popStack c w x) = popStack c w x :=
  fixMstatus_idem ..

end Sys2Proof.Machine
end

