-- ==== Sys2Proof/Laws/Csr.lean ====
section
/-! SUPPORT. Laws/Csr.lean: what the checks, the read, the write and the whole of a CSR instruction can do, each said once. -/

namespace Sys2Proof.Machine

/-- An access that the checks let through: the number is outside the debug range, the mode suffices, a written CSR is not
read-only, and the number names a CSR that exists. -/
theorem csrAccess_some {c : Config} {priv : Mode} {a : BitVec 12} {write : Bool} {r : Csr}
    (h : csrAccess c priv a write = some r) :
    debugCsr a = false ∧ modeLe (csrMode a) priv = true ∧ (write = true → csrReadOnly a = false) ∧
    csrOfNum a = some r ∧ csrExists c r = true := by
  have neg : ∀ x y : Mode, modeLt x y = false → modeLe y x = true := by
    intro x y; cases x <;> cases y <;> decide
  unfold csrAccess at h
  split at h
  · cases h
  · next hb =>
    simp only [Bool.or_eq_true, Bool.and_eq_true, not_or, not_and, Bool.not_eq_true] at hb
    split at h
    · cases h
    · next q hq =>
      split at h
      · next he => cases h; exact ⟨hb.1.1, neg _ _ hb.1.2, hb.2, hq, he⟩
      · cases h

/-- A read changes only the two free counters and the count of draws. -/
theorem csrAfterRead_frame (s : State) (r : Csr) :
    ∃ (cy ins : BitVec 64) (n : Nat),
      csrAfterRead s r = { s with hart := { s.hart with cycle := cy, instret := ins }, draws := n } := by
  unfold csrAfterRead
  split <;> exact ⟨_, _, _, rfl⟩

/-- A write is refused exactly where `csrRefusal` says. -/
theorem csrWrite_error (s : State) (r : Csr) (v : Word) (e : Refusal) :
    csrWrite s r v = .error e ↔ csrRefusal s.cfg s.hart r v = some e := by
  unfold csrWrite; split <;> simp [*]

/-- A write that is not refused has its effect. -/
theorem csrWrite_ok (s : State) (r : Csr) (v : Word) (t : State) :
    csrWrite s r v = .ok t ↔ csrRefusal s.cfg s.hart r v = none ∧ t = csrPut s r v := by
  unfold csrWrite; split <;> simp [*, eq_comm]

/-- The refusals: VM, PUM or MPRV of `mstatus`, an unsupported mode in an xPP field, an unsupported code in `xcause`. -/
theorem csrRefusal_some {c : Config} {h : Hart} {r : Csr} {v : Word} {e : Refusal} (he : csrRefusal c h r v = some e) :
    (r = .status .m ∧ v &&& translationMask ≠ 0#64 ∧ e = .translationBits) ∨
    (c.unsupportedWrite = .refuse ∧ e = .unsupportedMode ∧ ∃ x, r = .status x ∧ unsupportedPP c h x v = true) ∨
    (c.unsupportedWrite = .refuse ∧ e = .unsupportedCode ∧ causeLegal c v = false ∧ ∃ x, r = .cause x) := by
  unfold csrRefusal at he
  split at he
  · next x =>
    split at he
    · next hx => cases he; exact .inl ⟨by rw [hx.1], hx.2, rfl⟩
    · split at he
      · next hx => cases he; exact .inr (.inl ⟨hx.1, rfl, x, rfl, hx.2⟩)
      · cases he
  · next x =>
    split at he
    · next hx => cases he; exact .inr (.inr ⟨hx.1, rfl, hx.2, x, rfl⟩)
    · cases he
  · cases he

/-- A write that is not refused leaves VM, PUM and MPRV of `mstatus` 0. -/
theorem csrRefusal_none_status {c : Config} {h : Hart} {v : Word} (hn : csrRefusal c h (.status .m) v = none) :
    v &&& translationMask = 0#64 := by
  by_contra hv
  simp [csrRefusal, hv] at hn

/-- The refusal of a write depends on the hart only through `mstatus`. -/
theorem csrRefusal_congr {c : Config} {h k : Hart} (r : Csr) (v : Word) (hs : k.mstatus = h.mstatus) :
    csrRefusal c k r v = csrRefusal c h r v := by
  simp [csrRefusal, unsupportedPP, Hart.status, hs]

/-- A masked write of two values that agree on the mask is one write. -/
theorem merge_congr {m old v w : Word} (h : v &&& m = w &&& m) : merge m old v = merge m old w := by unfold merge; rw [h]

/-- The reserved bits of `mstatus` are none that a write changes or that are refused. -/
theorem mstatusReserved_disjoint (c : Config) :
    mstatusReserved c.xlen &&& statusWriteMask c .m = 0#64 ∧ mstatusReserved c.xlen &&& translationMask = 0#64 := by
  obtain ⟨xl, ms, n, _⟩ := c
  cases xl <;> cases ms <;> cases n <;>
    simp [mstatusReserved, statusWriteMask, stackMask, storedMask, translationMask, fieldMask, hasN, hasMode]

/-- The reserved bits of `mip` and `mie` are none that are implemented. -/
theorem irqReserved_disjoint (c : Config) : irqReserved c &&& irqMask c = 0#64 ∧ irqReserved c &&& mipWriteMask c = 0#64 := by
  have low : ∀ w : Word, w &&& 0xFFF#64 = w → irqReserved c &&& w = 0#64 := by
    intro w hw
    rw [← hw]
    apply BitVec.eq_of_getLsbD_eq
    intro i hi
    simp only [irqReserved, BitVec.getLsbD_and, trunc_getLsbD, BitVec.getLsbD_not, BitVec.getLsbD_or]
    cases (0xFFF#64).getLsbD i <;> simp
  have lm : levelMask c &&& 0xFFF#64 = levelMask c := by rw [levelMask_eq]; cases c.modes <;> rfl
  refine ⟨?_, low _ (by unfold mipWriteMask; rw [levelMask_eq]; cases c.modes <;> rfl)⟩
  have loc : irqReserved c &&& localMask c = 0#64 := by
    apply BitVec.eq_of_getLsbD_eq
    intro i hi
    simp only [irqReserved, BitVec.getLsbD_and, trunc_getLsbD, BitVec.getLsbD_not, BitVec.getLsbD_or]
    cases (localMask c).getLsbD i <;> simp
  unfold irqMask
  rw [BitVec.and_or_distrib_left, low _ lm, loc]; rfl

/-- Two values that a write of a CSR cannot tell apart: they are equal, or agree on every bit that the write changes or refuses. -/
def SameWrite (c : Config) (r : Csr) (v w : Word) : Prop :=
  v = w ∨
  (r = .status .m ∧ v &&& statusWriteMask c .m = w &&& statusWriteMask c .m ∧ v &&& translationMask = w &&& translationMask) ∨
  (r = .ip .m ∧ v &&& mipWriteMask c = w &&& mipWriteMask c) ∨ (r = .ie .m ∧ v &&& irqMask c = w &&& irqMask c)

/-- Such values are refused alike. -/
theorem SameWrite.refusal {c : Config} {r : Csr} {v w : Word} (hs : SameWrite c r v w) (h : Hart) :
    csrRefusal c h r v = csrRefusal c h r w := by
  rcases hs with rfl | ⟨rfl, h1, h2⟩ | ⟨rfl, _⟩ | ⟨rfl, _⟩
  · rfl
  · unfold csrRefusal unsupportedPP
    dsimp only
    rw [h2, merge_congr h1]
  · rfl
  · rfl

/-- Such values are written alike. -/
theorem SameWrite.put {r : Csr} {v w : Word} {s : State} (hs : SameWrite s.cfg r v w) : csrPut s r v = csrPut s r w := by
  rcases hs with rfl | ⟨rfl, h1, _⟩ | ⟨rfl, h1⟩ | ⟨rfl, h1⟩
  · rfl
  · unfold csrPut writeStatus statusWord
    dsimp only
    rw [merge_congr h1]
  · unfold csrPut viewWriteMask
    dsimp only
    rw [merge_congr h1]
  · unfold csrPut
    dsimp only
    rw [merge_congr h1]

/-- Such values make the same write. -/
theorem SameWrite.write {r : Csr} {v w : Word} {s : State} (hs : SameWrite s.cfg r v w) : csrWrite s r v = csrWrite s r w := by
  unfold csrWrite; rw [hs.refusal, hs.put]

/-- A set or a clear of bits writes the same, computed from the value read or from the part of it that is state. -/
theorem csrHeld_sameWrite (s : State) (r : Csr) (m : Word) :
    SameWrite s.cfg r (csrHeld s r ||| m) (csrValue s r ||| m) ∧ SameWrite s.cfg r (csrHeld s r &&& ~~~m) (csrValue s r &&& ~~~m) := by
  have or1 : ∀ a b k w : Word, b &&& w = 0#64 → (a ||| m) &&& w = ((a ||| (k &&& b)) ||| m) &&& w := by
    intro a b k w h
    rw [BitVec.and_or_distrib_right, BitVec.and_or_distrib_right, BitVec.and_or_distrib_right, BitVec.and_assoc, h]
    simp
  have and1 : ∀ a b k w : Word, b &&& w = 0#64 → a &&& ~~~m &&& w = (a ||| (k &&& b)) &&& ~~~m &&& w := by
    intro a b k w h
    have e : ∀ x : Word, x &&& ~~~m &&& w = x &&& w &&& ~~~m := by
      intro x; rw [BitVec.and_assoc, BitVec.and_comm (~~~m), ← BitVec.and_assoc]
    rw [e, e, BitVec.and_or_distrib_right, BitVec.and_assoc k, h]
    simp
  obtain ⟨d1, d2⟩ := mstatusReserved_disjoint s.cfg
  obtain ⟨d3, d4⟩ := irqReserved_disjoint s.cfg
  cases r with
  | status x =>
    cases x with
    | m => exact ⟨.inr (.inl ⟨rfl, or1 _ _ _ _ d1, or1 _ _ _ _ d2⟩), .inr (.inl ⟨rfl, and1 _ _ _ _ d1, and1 _ _ _ _ d2⟩)⟩
    | _ => exact ⟨.inl rfl, .inl rfl⟩
  | ip x =>
    cases x with
    | m => exact ⟨.inr (.inr (.inl ⟨rfl, or1 _ _ _ _ d4⟩)), .inr (.inr (.inl ⟨rfl, and1 _ _ _ _ d4⟩))⟩
    | _ => exact ⟨.inl rfl, .inl rfl⟩
  | ie x =>
    cases x with
    | m => exact ⟨.inr (.inr (.inr ⟨rfl, or1 _ _ _ _ d3⟩)), .inr (.inr (.inr ⟨rfl, and1 _ _ _ _ d3⟩))⟩
    | _ => exact ⟨.inl rfl, .inl rfl⟩
  | _ => exact ⟨.inl rfl, .inl rfl⟩

/-- What a CSR instruction does: Illegal instruction, a refusal of the write, or the read, the write, rd and the pc. -/
theorem csrInstr_cases (rd : BitVec 5) (a : BitVec 12) (reads writes : Bool) (f : Word → Word) (s : State) :
    (csrAccess s.cfg s.hart.priv a writes = none ∧ csrInstr rd a reads writes f s = raiseIllegal s) ∨
    ∃ r, csrAccess s.cfg s.hart.priv a writes = some r ∧
      ((writes = false ∧
        csrInstr rd a reads writes f s = ((if reads then csrAfterRead s r else s).setX rd (csrValue s r)).complete) ∨
       (writes = true ∧ csrRefusal s.cfg s.hart r (f (csrHeld s r)) = none ∧
        csrInstr rd a reads writes f s =
          ((csrPut (if reads then csrAfterRead s r else s) r (f (csrHeld s r))).setX rd (csrValue s r)).complete) ∨
       (writes = true ∧ ∃ e, csrRefusal s.cfg s.hart r (f (csrHeld s r)) = some e ∧
        csrInstr rd a reads writes f s = .refused e)) := by
  unfold csrInstr
  cases ha : csrAccess s.cfg s.hart.priv a writes with
  | none => exact .inl ⟨rfl, rfl⟩
  | some r =>
    refine .inr ⟨r, rfl, ?_⟩
    cases writes with
    | false => exact .inl ⟨rfl, rfl⟩
    | true =>
      have hc : csrRefusal (if reads then csrAfterRead s r else s).cfg (if reads then csrAfterRead s r else s).hart r (f (csrHeld s r)) =
          csrRefusal s.cfg s.hart r (f (csrHeld s r)) := by
        cases reads with
        | false => rfl
        | true => obtain ⟨_, _, _, e⟩ := csrAfterRead_frame s r; rw [if_pos rfl, e]; exact csrRefusal_congr _ _ rfl
      cases hw : csrWrite (if reads then csrAfterRead s r else s) r (f (csrHeld s r)) with
      | ok s2 =>
        obtain ⟨hn, rfl⟩ := (csrWrite_ok _ _ _ _).mp hw
        exact .inr (.inl ⟨rfl, hc ▸ hn, by simp [hw]⟩)
      | error e => exact .inr (.inr ⟨rfl, e, hc ▸ (csrWrite_error _ _ _ _).mp hw, by simp [hw]⟩)

/-- A write changes only the hart's status, pending, enable, delegation and trap registers, and the count of draws. -/
theorem csrPut_frame (s : State) (r : Csr) (v : Word) :
    ∃ (k : Hart) (n : Nat), csrPut s r v = { s with hart := k, draws := n } ∧ k.x = s.hart.x ∧ k.pc = s.hart.pc ∧
      k.priv = s.hart.priv ∧ k.cycle = s.hart.cycle ∧ k.instret = s.hart.instret ∧ k.mtimecmp = s.hart.mtimecmp ∧
      k.waiting = s.hart.waiting := by
  unfold csrPut
  split
  all_goals first
    | exact ⟨_, _, rfl, rfl, rfl, rfl, rfl, rfl, rfl, rfl⟩
    | (next x => cases x <;> exact ⟨_, _, rfl, rfl, rfl, rfl, rfl, rfl, rfl, rfl⟩)

/-- The frame of a write that is not refused. -/
theorem csrWrite_frame {s t : State} {r : Csr} {v : Word} (h : csrWrite s r v = .ok t) :
    ∃ (k : Hart) (n : Nat), t = { s with hart := k, draws := n } ∧ k.x = s.hart.x ∧ k.pc = s.hart.pc ∧ k.priv = s.hart.priv ∧
      k.cycle = s.hart.cycle ∧ k.instret = s.hart.instret ∧ k.mtimecmp = s.hart.mtimecmp ∧ k.waiting = s.hart.waiting := by
  obtain ⟨_, rfl⟩ := (csrWrite_ok _ _ _ _).mp h
  exact csrPut_frame s r v

/-! ### The status word after a write -/

/-- What the settling of the field xPP does: the field is legal after it, it changes only that field, and it changes nothing if
the field was legal. -/
theorem settlePP_spec (c : Config) (x : Mode) (n : Nat) (w : Word) (hw : fixMstatus c w = w) (hx : x ≠ .u) :
    ppLegal c (settlePP c x n w) x = true ∧
    (∀ i, (ppMask x).getLsbD i = false → (settlePP c x n w).getLsbD i = w.getLsbD i) ∧
    (ppLegal c w x = true → settlePP c x n w = w) ∧ fixMstatus c (settlePP c x n w) = settlePP c x n w := by
  refine ⟨?_, fun i hi => ?_, fun h => if_pos h, ?_⟩
  · unfold settlePP
    split
    · assumption
    · next h =>
      have hm : hasMode c x = true := by
        by_contra hh
        rw [Bool.not_eq_true] at hh
        exact h (by simp [ppLegal, hh])
      have hc : canHandle c x = true := by cases x <;> first | exact absurd rfl hx | exact hm
      have mem : freeMode c x (Config.freeWord n) ∈ supportedUpTo c x := by
        have hne : x ∈ supportedUpTo c x :=
          List.mem_filter.mpr ⟨by cases x <;> decide, by rw [hm]; simp [modeLe]⟩
        have hlt := Nat.mod_lt (Config.freeWord n).toNat (List.length_pos_of_mem hne)
        unfold freeMode
        rw [List.getElem?_eq_getElem hlt]
        simp
      have hy := (List.mem_filter.mp mem).2
      rw [Bool.and_eq_true] at hy
      unfold ppLegal
      rw [getPP_fix_setPP c w x _ hc hy.1 hy.2]
      simp [mem]
  · unfold settlePP
    split
    · rfl
    · rw [fixMstatus_bit, setPP_bit, hi]
      simp only [Bool.false_eq_true, if_false]
      rw [← fixMstatus_bit, hw]
  · unfold settlePP
    split
    · exact hw
    · simp

/-- A status word after a write has every hard-wired bit at its value. -/
theorem fix_statusWord (c : Config) (mask old v : Word) (n : Nat) :
    fixMstatus c (statusWord c mask old v n) = statusWord c mask old v n :=
  (settlePP_spec c .h _ _ (settlePP_spec c .m _ _ (fixMstatus_idem c _) (by decide)).2.2.2 (by decide)).2.2.2

/-- The lowest mode of a CSR number is bits 9:8 of it. -/
theorem modeNum_csrMode (a : BitVec 12) : modeNum (csrMode a) = a.toNat / 256 % 4 := by
  have e : (a.extractLsb' 8 2).toNat = a.toNat / 256 % 4 := by
    simp [BitVec.extractLsb'_toNat, Nat.shiftRight_eq_div_pow]
  have num : ∀ b : BitVec 2, modeNum (modeOfBits b) = b.toNat := by decide
  rw [csrMode, num, e]

/-- A CSR number is read-only when its bits 11:10 are 11. -/
theorem csrReadOnly_iff (a : BitVec 12) : csrReadOnly a = true ↔ a.toNat / 1024 = 3 := by
  have e : (a.extractLsb' 10 2).toNat = a.toNat / 1024 := by
    have := a.isLt
    simp [BitVec.extractLsb'_toNat, Nat.shiftRight_eq_div_pow]; omega
  rw [csrReadOnly, beq_iff_eq, ← e]
  exact ⟨fun h => by rw [h]; rfl, fun h => BitVec.eq_of_toNat_eq (by rw [h]; rfl)⟩

/-- The Interrupt bit of `xcause` is the one written. -/
theorem causeAfterWrite_top (c : Config) (v : Word) (n : Nat) :
    causeAfterWrite c v n &&& topBit c.xlen = v &&& topBit c.xlen := by
  unfold causeAfterWrite
  split
  · rfl
  · ext j hj
    simp only [merge, BitVec.getElem_and, BitVec.getElem_or, BitVec.getElem_not]
    cases (topBit c.xlen)[j] <;> cases v[j] <;> simp

end Sys2Proof.Machine
end

