-- ==== Sys2Proof/Laws/Plic.lean ====
section
/-! SUPPORT. Laws/Plic.lean: what each step of the PLIC can change, and what its choice of an interrupt is. -/

namespace Sys2Proof.Machine

/-! ### What each step changes -/

/-- A register write changes only the priorities, the enables or the thresholds. -/
theorem applyWrite_frame (c : Config) (n : Nat) (p : Plic) (q : PlicWrite) :
    ∃ pr ie th, applyWrite c n p q = { p with prio := pr, ie := ie, thr := th } := by
  unfold applyWrite
  split <;> (try split) <;> exact ⟨_, _, _, rfl⟩

/-- Write Register changes only the PLIC's priorities, enables, thresholds and write queue, and the count of draws. -/
theorem doWrite_frame (s : State) (h : Nat) :
    ∃ pr ie th q n, doWrite s h = { s with plic := { s.plic with prio := pr, ie := ie, thr := th, wrQ := q }, draws := n } := by
  unfold doWrite
  split
  · exact ⟨_, _, _, _, _, rfl⟩
  · next e _ =>
    obtain ⟨pr, ie, th, e2⟩ := applyWrite_frame s.cfg s.draws { s.plic with wrQ := removeFirst (fun d => d.1 == h) s.plic.wrQ } e.2
    exact ⟨pr, ie, th, _, _, by rw [e2]⟩

/-- A Write Register step that goes on performs the write; where it stops, the hart's oldest write is one that R234 refuses. -/
theorem writeRegister_cases (s : State) (h : Nat) :
    writeRegister s h = .next (doWrite s h) ∨
    ∃ e v, s.plic.wrQ.find? (fun d => d.1 == h) = some e ∧ refusedValue s.cfg e.2 = some v ∧
      writeRegister s h = .refused (.highPriority v) := by
  unfold writeRegister
  split
  · next v hv =>
    obtain ⟨e, he, hr⟩ := Option.bind_eq_some_iff.mp hv
    exact .inr ⟨e, v, he, hr, rfl⟩
  · exact .inl rfl

/-- Draining a hart's writes changes what one write changes. -/
theorem drainWrites_frame (h n : Nat) : ∀ s : State,
    ∃ pr ie th q d, drainWrites h n s = { s with plic := { s.plic with prio := pr, ie := ie, thr := th, wrQ := q }, draws := d } := by
  induction n with
  | zero => intro s; exact ⟨_, _, _, _, _, rfl⟩
  | succ n ih =>
    intro s
    obtain ⟨a, b, c, d, e, h1⟩ := doWrite_frame s h
    obtain ⟨a', b', c', d', e', h2⟩ := ih (doWrite s h)
    exact ⟨a', b', c', d', e', by rw [drainWrites, h2, h1]⟩

/-- A read of a PLIC register is ordered after the hart's writes, and changes what they change. -/
theorem afterOwnWrites_frame (s : State) :
    ∃ pr ie th q d,
      afterOwnWrites s = { s with plic := { s.plic with prio := pr, ie := ie, thr := th, wrQ := q }, draws := d } :=
  drainWrites_frame s.hid s.plic.wrQ.length s

/-- A claim waits while a register write of its hart is queued, and where the hart has no claim there is nothing to process. -/
theorem doClaim_waits {s : State} {h : Nat} (hw : (∃ e ∈ s.plic.wrQ, e.1 = h) ∨ ∀ e ∈ s.plic.claimQ, e.1 ≠ h) : doClaim s h = s := by
  unfold doClaim
  split
  · rfl
  · next hn =>
    rcases hw with ⟨e, he, hh⟩ | hc
    · exact absurd (by simpa using ⟨e.2, hh ▸ he⟩) hn
    · rw [List.find?_eq_none.mpr (fun e he => by simpa using hc e he)]

/-- Process Claim changes only the PLIC's pending bits, its claim queue and its response queue. -/
theorem doClaim_frame (s : State) (h : Nat) :
    ∃ i c r, doClaim s h = { s with plic := { s.plic with ip := i, claimQ := c, respQ := r } } := by
  unfold doClaim answerClaim Plic.setPending
  split
  · exact ⟨_, _, _, rfl⟩
  · split
    · exact ⟨_, _, _, rfl⟩
    · dsimp only; split <;> exact ⟨_, _, _, rfl⟩

/-- Accept Request changes only the PLIC's pending bits and its request queue. -/
theorem doAccept_frame (s : State) (src : Nat) :
    ∃ i q, doAccept s src = { s with plic := { s.plic with ip := i, reqQ := q } } := by
  unfold doAccept Plic.setPending
  split <;> exact ⟨_, _, rfl⟩

/-- An input of a gateway changes only the gateways. -/
theorem doLine_frame (s : State) (src : Nat) (b : Bool) : ∃ g, doLine s src b = { s with plic := { s.plic with gateways := g } } := by
  unfold doLine Plic.setGateway
  split <;> exact ⟨_, rfl⟩

/-- An event at a gateway changes only the gateways. -/
theorem doEdge_frame (s : State) (src : Nat) : ∃ g, doEdge s src = { s with plic := { s.plic with gateways := g } } := by
  unfold doEdge Plic.setGateway
  split <;> exact ⟨_, rfl⟩

/-- Forwarding changes only the gateways and the request queue. -/
theorem doForward_frame (s : State) (src : Nat) :
    ∃ g q, doForward s src = { s with plic := { s.plic with gateways := g, reqQ := q } } := by
  unfold doForward Plic.setGateway
  split <;> exact ⟨_, _, rfl⟩

/-- A completion changes only the gateways and the completion queue. -/
theorem doComplete_frame (s : State) (t src : Nat) :
    ∃ g q, doComplete s t src = { s with plic := { s.plic with gateways := g, complQ := q } } := by
  unfold doComplete completed Plic.setGateway
  split
  · split <;> exact ⟨_, _, rfl⟩
  · exact ⟨_, _, rfl⟩

/-- A notification changes one bit of `mip` of one hart, or nothing. -/
theorem doNotify_cases (s : State) (t : Nat) :
    doNotify s t = s ∨
    ∃ h x, s.cfg.targetMap.lookup t = some (h, x) ∧
      doNotify s t = s.modHart h (fun k => k.driveMip (eipBit x) (eip s.cfg s.plic t)) := by
  unfold doNotify
  split
  · exact .inl rfl
  · next h x e => exact .inr ⟨h, x, e, rfl⟩

/-! ### Queues -/

/-- Every entry left after a removal was there before. -/
theorem mem_removeFirst {α : Type} (f : α → Bool) {l : List α} {a : α} (h : a ∈ removeFirst f l) : a ∈ l := by
  induction l with
  | nil => cases h
  | cons b l ih =>
    unfold removeFirst at h
    split at h
    · exact List.mem_cons_of_mem _ h
    · rcases List.mem_cons.mp h with h | h
      · exact h ▸ List.mem_cons_self
      · exact List.mem_cons_of_mem _ (ih h)

/-- An entry that the test does not hold of stays. -/
theorem mem_removeFirst_of_not {α : Type} (f : α → Bool) {l : List α} {a : α} (h : a ∈ l) (hf : f a = false) :
    a ∈ removeFirst f l := by
  induction l with
  | nil => cases h
  | cons b l ih =>
    unfold removeFirst
    rcases List.mem_cons.mp h with h | h
    · subst h; rw [hf]; simp
    · split
      · exact h
      · exact List.mem_cons_of_mem _ (ih h)

/-- A removal that finds nothing changes nothing. -/
theorem removeFirst_of_not {α : Type} (f : α → Bool) {l : List α} (h : ∀ a ∈ l, f a = false) : removeFirst f l = l := by
  induction l with
  | nil => rfl
  | cons b l ih => rw [removeFirst, h b List.mem_cons_self, ih (fun a ha => h a (List.mem_cons_of_mem _ ha))]; rfl

/-- A removal leaves the entries that the test does not hold of, in their order. -/
theorem filter_removeFirst {α : Type} (f : α → Bool) (l : List α) :
    (removeFirst f l).filter (fun a => !f a) = l.filter (fun a => !f a) := by
  induction l with
  | nil => rfl
  | cons b l ih => unfold removeFirst; cases hb : f b <;> simp [hb, ih]

/-- A removal takes away one of the entries that the test holds of. -/
theorem countP_removeFirst {α : Type} (f : α → Bool) (l : List α) : (removeFirst f l).countP f = l.countP f - 1 := by
  induction l with
  | nil => rfl
  | cons b l ih => unfold removeFirst; cases hb : f b <;> simp [hb, ih]

/-! ### The writes that a read waits for -/

/-- With no write of hart h queued Write Register for h changes nothing. -/
theorem doWrite_none {s : State} {h : Nat} (hn : ∀ e ∈ s.plic.wrQ, e.1 ≠ h) : doWrite s h = s := by
  have : s.plic.wrQ.find? (fun e => e.1 == h) = none := by simpa [List.find?_eq_none] using fun a b hb => hn (a, b) hb
  unfold doWrite; rw [this]

/-- Write Register for hart h takes its oldest write off the queue. -/
theorem doWrite_wrQ (s : State) (h : Nat) : (doWrite s h).plic.wrQ = removeFirst (fun e => e.1 == h) s.plic.wrQ := by
  unfold doWrite
  split
  · next hf => rw [removeFirst_of_not _ (by simpa [List.find?_eq_none] using hf)]
  · next e _ =>
    obtain ⟨_, _, _, e2⟩ := applyWrite_frame s.cfg s.draws { s.plic with wrQ := removeFirst (fun d => d.1 == h) s.plic.wrQ } e.2
    rw [e2]

/-- With no write of hart h queued draining changes nothing. -/
theorem drainWrites_none {s : State} {h : Nat} (n : Nat) (hn : ∀ e ∈ s.plic.wrQ, e.1 ≠ h) : drainWrites h n s = s := by
  induction n with
  | zero => rfl
  | succ n ih => rw [drainWrites, doWrite_none hn, ih]

/-- Draining leaves the writes of the other harts, in their order. -/
theorem drainWrites_wrQ (h n : Nat) : ∀ s : State, s.plic.wrQ.countP (fun e => e.1 == h) ≤ n →
    (drainWrites h n s).plic.wrQ = s.plic.wrQ.filter (fun e => e.1 != h) := by
  induction n with
  | zero =>
    intro s hc
    have : ∀ e ∈ s.plic.wrQ, e.1 ≠ h := by simpa using hc
    exact (List.filter_eq_self.mpr (fun e he => by simpa using this e he)).symm
  | succ n ih =>
    intro s hc
    rw [drainWrites, ih _ (by rw [doWrite_wrQ, countP_removeFirst]; omega), doWrite_wrQ]
    exact filter_removeFirst (fun e : Nat × PlicWrite => e.1 == h) s.plic.wrQ

/-- Once every write of hart h has been performed, more steps of draining change nothing. -/
theorem drainWrites_enough (h n : Nat) : ∀ (m : Nat) (s : State), s.plic.wrQ.countP (fun e => e.1 == h) ≤ n →
    s.plic.wrQ.countP (fun e => e.1 == h) ≤ m → drainWrites h n s = drainWrites h m s := by
  induction n with
  | zero => intro m s hc _; rw [drainWrites_none m (by simpa using hc)]; rfl
  | succ n ih =>
    intro m s hn hm
    cases m with
    | zero => rw [drainWrites_none (n + 1) (by simpa using hm)]; rfl
    | succ m => exact ih m _ (by rw [doWrite_wrQ, countP_removeFirst]; omega) (by rw [doWrite_wrQ, countP_removeFirst]; omega)

/-- A read that waits for the hart's writes sees the same core whether or not the oldest of them was performed before. -/
theorem afterOwnWrites_doWrite (s : State) : afterOwnWrites (doWrite s s.hid) = afterOwnWrites s := by
  have hh : (doWrite s s.hid).hid = s.hid := by obtain ⟨_, _, _, _, _, e⟩ := doWrite_frame s s.hid; rw [e]
  have hc : (doWrite s s.hid).plic.wrQ.countP (fun e => e.1 == s.hid) ≤ s.plic.wrQ.length := by
    rw [doWrite_wrQ, countP_removeFirst]; exact Nat.le_trans (Nat.sub_le _ _) List.countP_le_length
  unfold afterOwnWrites
  rw [hh, drainWrites_enough _ _ s.plic.wrQ.length _ List.countP_le_length hc, ← drainWrites]
  exact drainWrites_enough _ _ _ _ (Nat.le_succ_of_le List.countP_le_length) List.countP_le_length

/-- A read that waits is refused exactly when some write of the hart is one that R234 refuses. -/
theorem ownRefusedValue_none (s : State) :
    ownRefusedValue s = none ↔ ∀ e ∈ s.plic.wrQ, e.1 = s.hid → refusedValue s.cfg e.2 = none := by
  unfold ownRefusedValue; rw [List.findSome?_eq_none_iff]; simp

/-- A refused value is above `MAX_PRI`. -/
theorem refusedValue_gt {c : Config} {q : PlicWrite} {v : Nat} (h : refusedValue c q = some v) : c.maxPri < v := by
  unfold refusedValue at h
  split at h
  · split at h <;> cases h; next hc => exact hc.2.2
  · cases h
  · split at h <;> cases h; next hc => exact hc.2.2

/-! ### The pending bits -/

/-- The pending bits after one of them is set to a value. -/
theorem pendingOf_setPending (p : Plic) (s k : Nat) (b : Bool) (hs : s < 1024) :
    pendingOf (p.setPending s b) k = if k = s then b else pendingOf p k := by
  have key : (1#1024 <<< s).getLsbD k = decide (k = s) := by
    rw [← BitVec.twoPow_eq, BitVec.getLsbD_twoPow]
    by_cases h : k = s
    · subst h; simp [hs]
    · simp [h, Ne.symm h]
  unfold pendingOf Plic.setPending
  by_cases hk : k < 1024
  · cases b
    · simp only [Bool.false_eq_true, if_false, BitVec.getLsbD_and, BitVec.getLsbD_not, key, hk]
      by_cases h : k = s <;> simp [h]
    · simp only [if_true, BitVec.getLsbD_or, key]
      by_cases h : k = s <;> simp [h]
  · have hne : k ≠ s := by omega
    rw [if_neg hne, BitVec.getLsbD_of_ge _ _ (Nat.le_of_not_lt hk), BitVec.getLsbD_of_ge _ _ (Nat.le_of_not_lt hk)]

/-! ### The choice of an interrupt -/

/-- The best of the sources up to n is no source, or an active one up to n. -/
theorem bestUpTo_le (c : Config) (p : Plic) (t n : Nat) : bestUpTo c p t n ≤ n := by
  induction n with
  | zero => exact Nat.le_refl 0
  | succ n ih =>
    unfold bestUpTo better
    split <;> omega

end Sys2Proof.Machine
end

