-- ==== Sys2Proof/Laws/Devices.lean ====
section
/-! SUPPORT. Laws/Devices.lean: what a memory access, a load and a store can do, each said once. -/

namespace Sys2Proof.Machine

/-- A read that gives a value changes only the PLIC registers that the hart's own queued writes change, the count of draws, and,
where the address is in RAM, the record of RAM accesses. -/
theorem memRead_value_frame {s t : State} {w : Width} {a : Nat} {v : Word} (h : memRead s w a = .value v t) :
    ∃ pr ie th q d u,
      t = { s with plic := { s.plic with prio := pr, ie := ie, thr := th, wrQ := q }, draws := d, ramUse := u } ∧
      (u = s.ramUse ∨ route s.cfg a (widthBytes w) = .ram) := by
  have own : ∃ pr ie th q d u, afterOwnWrites s =
      { s with plic := { s.plic with prio := pr, ie := ie, thr := th, wrQ := q }, draws := d, ramUse := u } ∧
      (u = s.ramUse ∨ route s.cfg a (widthBytes w) = .ram) := by
    obtain ⟨a, b, c, d, e, h⟩ := afterOwnWrites_frame s
    exact ⟨a, b, c, d, e, s.ramUse, h, .inl rfl⟩
  have timer : ∀ off n, timerRead s w off n = .value v t → t = s := by
    intro off n h
    unfold timerRead at h
    split at h
    · cases h; rfl
    · split at h
      · cases h; rfl
      · split at h <;> cases h; rfl
  have same : ∃ pr ie th q d u, s =
      { s with plic := { s.plic with prio := pr, ie := ie, thr := th, wrQ := q }, draws := d, ramUse := u } ∧
      (u = s.ramUse ∨ route s.cfg a (widthBytes w) = .ram) :=
    ⟨_, _, _, _, _, _, rfl, .inl rfl⟩
  unfold memRead at h
  split at h
  · split at h
    · cases h
    · unfold plicRead at h
      split at h
      case h_5 => cases h
      case h_6 => cases h
      all_goals
        unfold coreRead at h
        split at h <;> cases h
        exact own
  · split at h
    · cases h
    · split at h <;> cases h; exact same
  · split at h
    · cases h
    · rw [timer _ _ h]; exact same
  · split at h
    · cases h
    · rw [timer _ _ h]; exact same
  · next hr => split at h <;> cases h; exact ⟨_, _, _, _, _, _, rfl, .inr hr⟩
  · cases h

/-- A read of a claim register sends a claim of the current hart and changes nothing else. -/
theorem memRead_claim {s t : State} {w : Width} {a g : Nat} (h : memRead s w a = .claim g t) :
    t = { s with plic := { s.plic with claimQ := s.plic.claimQ ++ [(s.hid, g)] } } := by
  have timer : ∀ off n, timerRead s w off n ≠ .claim g t := by
    intro off n h
    unfold timerRead at h
    split at h
    · cases h
    · split at h
      · cases h
      · split at h <;> cases h
  unfold memRead at h
  split at h
  · split at h
    · cases h
    · unfold plicRead at h
      split at h
      case h_5 => cases h; rfl
      case h_6 => cases h
      all_goals
        unfold coreRead at h
        split at h <;> cases h
  · split at h
    · cases h
    · split at h <;> cases h
  · split at h
    · cases h
    · exact absurd h (timer _ _)
  · split at h
    · cases h
    · exact absurd h (timer _ _)
  · split at h <;> cases h
  · cases h

/-- What a write that is done can do: post a message to the PLIC, nothing (a pending word that is ignored), set the MSIP bit or write
the timer compare register of the hart whose register stands at the address, or store to RAM. -/
theorem memWrite_done {s t : State} {w : Width} {a : Nat} {v : Word} (h : memWrite s w a v = .done t) :
    (∃ q c, t = { s with plic := { s.plic with wrQ := q, complQ := c } }) ∨
    (s.hart.priv = .m ∧ ∃ (k off : Nat) (b : Bool), route s.cfg a (widthBytes w) = .msip k off ∧
      t = s.modHart k (fun x => x.driveMip 3 b)) ∨
    (s.hart.priv = .m ∧ ∃ (k off : Nat) (f : Hart → BitVec 64), route s.cfg a (widthBytes w) = .timecmp k off ∧
      t = s.modHart k (fun x => x.setTimecmp (f x))) ∨
    (route s.cfg a (widthBytes w) = .ram ∧ meetsRegions s.cfg.text a (widthBytes w) = false ∧
      t = { s with mem := writeBytes s.mem a (widthBytes w) v.toNat, ramUse := noteUse s.ramUse s.hid true a (widthBytes w) }) := by
  unfold memWrite at h
  split at h
  · split at h
    · cases h
    · unfold plicStore at h
      left
      split at h
      · cases h; exact ⟨_, _, rfl⟩
      · split at h <;> cases h; exact ⟨_, _, rfl⟩
      · cases h; exact ⟨_, _, rfl⟩
      · cases h; exact ⟨_, _, rfl⟩
      · cases h; exact ⟨_, _, rfl⟩
      · cases h
  · next hr =>
    split at h
    · cases h
    · next hp =>
      split at h <;> cases h
      exact .inr (.inl ⟨by simpa using hp, _, _, _, hr, rfl⟩)
  · next hr =>
    split at h
    · cases h
    · next hp =>
      unfold timecmpWrite at h
      refine .inr (.inr (.inl ⟨by simpa using hp, ?_⟩))
      split at h
      · cases h; exact ⟨_, _, fun k => hiHalf k.mtimecmp ++ loHalf v, hr, rfl⟩
      · split at h
        · cases h; exact ⟨_, _, fun k => loHalf v ++ loHalf k.mtimecmp, hr, rfl⟩
        · split at h <;> cases h; exact ⟨_, _, fun _ => v, hr, rfl⟩
  · split at h <;> cases h
  · next hr =>
    split at h
    · cases h
    · next ht =>
      split at h <;> cases h
      exact .inr (.inr (.inr ⟨hr, by simpa using ht, rfl⟩))
  · cases h

/-- A refused access raises the access-fault exception, or stops. -/
theorem refuseAccess_next {s t : State} {x : Exn} {e : AccessError} {a : Word} (h : refuseAccess s x e a = .next t) :
    s.cfg.badAccess = .accessFault ∧ t = trapEntry false (excCode x) s.hart.pc (some a) s := by
  unfold refuseAccess at h
  split at h
  · next hb => cases h; exact ⟨hb, rfl⟩
  · unfold stopAccess at h; split at h <;> cases h

/-- What a load that goes on can do: take an exception, wait for a claim, or write rd and advance. -/
theorem loadTo_next {w : Width} {rd : BitVec 5} {a : Word} {s t : State} (h : loadTo w rd a s = .next t) :
    (∃ e, t = trapEntry false (excCode e) s.hart.pc (some a) s) ∨
    (∃ g, t = { s with
        plic := { s.plic with claimQ := s.plic.claimQ ++ [(s.hid, g)] }
        hart := { s.hart with waiting := some ⟨g, rd⟩ } }) ∨
    (∃ v s1, memRead s w a.toNat = .value v s1 ∧ t = (s1.setX rd (loadExtend s.cfg.xlen w v)).advance) := by
  unfold loadTo at h
  split at h
  · split at h
    · next v s1 hm => exact .inr (.inr ⟨v, s1, hm, (complete_next h).2⟩)
    · next g s1 hm =>
      cases h
      rw [memRead_claim hm]
      exact .inr (.inl ⟨g, rfl⟩)
    · obtain ⟨_, rfl⟩ := refuseAccess_next h; exact .inl ⟨_, rfl⟩
    · cases h
    · cases h
  · cases h; exact .inl ⟨_, rfl⟩

/-- What a store that goes on can do: take an exception, or write and advance. -/
theorem storeFrom_next {w : Width} {v a : Word} {s t : State} (h : storeFrom w v a s = .next t) :
    (∃ e, t = trapEntry false (excCode e) s.hart.pc (some a) s) ∨
    (∃ s1, memWrite s w a.toNat v = .done s1 ∧ t = s1.advance) := by
  unfold storeFrom at h
  split at h
  · split at h
    · next s1 hm => exact .inr ⟨s1, hm, (complete_next h).2⟩
    · obtain ⟨_, rfl⟩ := refuseAccess_next h; exact .inl ⟨_, rfl⟩
    · cases h
    · cases h
  · cases h; exact .inl ⟨_, rfl⟩

end Sys2Proof.Machine
end

