-- ==== Sys2Proof/Laws/Encoding.lean ====
section
/-! SUPPORT. Laws/Encoding.lean: the fields of an encoded word, and the opcode and function bits that the masks keep. -/

namespace Sys2Proof

/-! ### Fields of a concatenation -/

section
variable {a b : Nat} (x : BitVec a) (y : BitVec b)

/-- A field inside the low part. -/
theorem extract_low (s n : Nat) (h : s + n ≤ b) : (x ++ y).extractLsb' s n = y.extractLsb' s n := by
  rw [BitVec.extractLsb'_append_eq_ite]
  by_cases hs : s < b
  · simp [hs, h]
  · apply BitVec.eq_of_getLsbD_eq
    intro i hi
    omega

/-- A field inside the high part. -/
theorem extract_high (s n : Nat) (h : b ≤ s) : (x ++ y).extractLsb' s n = x.extractLsb' (s - b) n :=
  BitVec.extractLsb'_append_eq_of_le h

/-- A mask of a concatenation is the concatenation of the masks. -/
theorem and_parts (p : BitVec a) (q : BitVec b) : (x ++ y) &&& (p ++ q) = (x &&& p) ++ (y &&& q) := BitVec.and_append

end

/-- Putting parts together keeps equalities. -/
theorem append_parts {a b : Nat} {x x' : BitVec a} {y y' : BitVec b} (hx : x = x') (hy : y = y') : x ++ y = x' ++ y' := by
  rw [hx, hy]

/-! ### The I formats -/

section
variable (imm : BitVec 12) (rs1 : Reg) (f : BitVec 3) (rd : Reg) (op : BitVec 7)

theorem encodeI_mask : encodeI imm rs1 f rd op &&& 0x0000707F#32 = encodeI 0#12 0#5 f 0#5 op := by
  have e : (0x0000707F#32) = (0#12 ++ 0#5 ++ BitVec.allOnes 3 ++ 0#5 ++ BitVec.allOnes 7 : BitVec 32) := by decide
  rw [e]; unfold encodeI
  refine (and_parts _ _ _ _).trans (append_parts ?_ BitVec.and_allOnes)
  refine (and_parts _ _ _ _).trans (append_parts ?_ BitVec.and_zero)
  refine (and_parts _ _ _ _).trans (append_parts ?_ BitVec.and_allOnes)
  refine (and_parts _ _ _ _).trans (append_parts ?_ BitVec.and_zero)
  exact BitVec.and_zero

@[simp] theorem rdField_encodeI : rdField (encodeI imm rs1 f rd op) = rd := by
  exact (extract_high _ _ _ _ (by decide)).trans <| (extract_low _ _ _ _ (by decide)).trans <| BitVec.extractLsb'_eq_self

@[simp] theorem rs1Field_encodeI : rs1Field (encodeI imm rs1 f rd op) = rs1 := by
  exact (extract_high _ _ _ _ (by decide)).trans <| (extract_high _ _ _ _ (by decide)).trans <|
    (extract_high _ _ _ _ (by decide)).trans <| (extract_low _ _ _ _ (by decide)).trans <| BitVec.extractLsb'_eq_self

@[simp] theorem csrField_encodeI : csrField (encodeI imm rs1 f rd op) = imm := by
  exact (extract_high _ _ _ _ (by decide)).trans <| (extract_high _ _ _ _ (by decide)).trans <|
    (extract_high _ _ _ _ (by decide)).trans <| (extract_high _ _ _ _ (by decide)).trans <| BitVec.extractLsb'_eq_self

@[simp] theorem immI_encodeI : immI (encodeI imm rs1 f rd op) = imm := csrField_encodeI imm rs1 f rd op

theorem low_encodeI : (encodeI imm rs1 f rd op).extractLsb' 0 2 = op.extractLsb' 0 2 := by
  exact extract_low _ _ _ _ (by decide)

end

/-! ### The S format -/

section
variable (imm : BitVec 12) (rs2 rs1 : Reg) (f : BitVec 3) (op : BitVec 7)

theorem encodeS_mask : encodeS imm rs2 rs1 f op &&& 0x0000707F#32 = encodeS 0#12 0#5 0#5 f op := by
  have e : (0x0000707F#32) = (0#7 ++ 0#5 ++ 0#5 ++ BitVec.allOnes 3 ++ 0#5 ++ BitVec.allOnes 7 : BitVec 32) := by decide
  rw [e]; unfold encodeS
  refine (and_parts _ _ _ _).trans (append_parts ?_ BitVec.and_allOnes)
  refine (and_parts _ _ _ _).trans (append_parts ?_ BitVec.and_zero)
  refine (and_parts _ _ _ _).trans (append_parts ?_ BitVec.and_allOnes)
  refine (and_parts _ _ _ _).trans (append_parts ?_ BitVec.and_zero)
  refine (and_parts _ _ _ _).trans (append_parts ?_ BitVec.and_zero)
  exact BitVec.and_zero

@[simp] theorem rs1Field_encodeS : rs1Field (encodeS imm rs2 rs1 f op) = rs1 := by
  exact (extract_high _ _ _ _ (by decide)).trans <| (extract_high _ _ _ _ (by decide)).trans <|
    (extract_high _ _ _ _ (by decide)).trans <| (extract_low _ _ _ _ (by decide)).trans <| BitVec.extractLsb'_eq_self

@[simp] theorem rs2Field_encodeS : rs2Field (encodeS imm rs2 rs1 f op) = rs2 := by
  exact (extract_high _ _ _ _ (by decide)).trans <| (extract_high _ _ _ _ (by decide)).trans <|
    (extract_high _ _ _ _ (by decide)).trans <| (extract_high _ _ _ _ (by decide)).trans <|
    (extract_low _ _ _ _ (by decide)).trans <| BitVec.extractLsb'_eq_self

@[simp] theorem immS_encodeS : immS (encodeS imm rs2 rs1 f op) = imm := by
  have hi : (encodeS imm rs2 rs1 f op).extractLsb' 25 7 = imm.extractLsb' 5 7 := by
    unfold encodeS
    exact (extract_high _ _ _ _ (by decide)).trans <| (extract_high _ _ _ _ (by decide)).trans <|
      (extract_high _ _ _ _ (by decide)).trans <| (extract_high _ _ _ _ (by decide)).trans <|
      (extract_high _ _ _ _ (by decide)).trans <| BitVec.extractLsb'_eq_self
  have lo : (encodeS imm rs2 rs1 f op).extractLsb' 7 5 = imm.extractLsb' 0 5 := by
    unfold encodeS
    exact (extract_high _ _ _ _ (by decide)).trans <| (extract_low _ _ _ _ (by decide)).trans <| BitVec.extractLsb'_eq_self
  unfold immS
  rw [hi, lo]
  apply BitVec.eq_of_getLsbD_eq
  intro i hi
  simp only [BitVec.getLsbD_append, BitVec.getLsbD_extractLsb']
  by_cases h : i < 5
  · simp [h]
  · have h2 : i - 5 < 7 := by omega
    have h3 : 5 + (i - 5) = i := by omega
    simp [h, h2, h3]

theorem low_encodeS : (encodeS imm rs2 rs1 f op).extractLsb' 0 2 = op.extractLsb' 0 2 := by
  exact extract_low _ _ _ _ (by decide)

end

/-! ### The B format -/

section
variable (off : BitVec 13) (rs2 rs1 : Reg) (f : BitVec 3) (op : BitVec 7)

theorem encodeB_mask : encodeB off rs2 rs1 f op &&& 0x0000707F#32 = encodeB 0#13 0#5 0#5 f op := by
  have e : (0x0000707F#32) =
      (0#1 ++ 0#6 ++ 0#5 ++ 0#5 ++ BitVec.allOnes 3 ++ 0#4 ++ 0#1 ++ BitVec.allOnes 7 : BitVec 32) := by decide
  rw [e]; unfold encodeB
  refine (and_parts _ _ _ _).trans (append_parts ?_ BitVec.and_allOnes)
  refine (and_parts _ _ _ _).trans (append_parts ?_ BitVec.and_zero)
  refine (and_parts _ _ _ _).trans (append_parts ?_ BitVec.and_zero)
  refine (and_parts _ _ _ _).trans (append_parts ?_ BitVec.and_allOnes)
  refine (and_parts _ _ _ _).trans (append_parts ?_ BitVec.and_zero)
  refine (and_parts _ _ _ _).trans (append_parts ?_ BitVec.and_zero)
  refine (and_parts _ _ _ _).trans (append_parts ?_ BitVec.and_zero)
  exact BitVec.and_zero

@[simp] theorem rs1Field_encodeB : rs1Field (encodeB off rs2 rs1 f op) = rs1 := by
  exact (extract_high _ _ _ _ (by decide)).trans <| (extract_high _ _ _ _ (by decide)).trans <|
    (extract_high _ _ _ _ (by decide)).trans <| (extract_high _ _ _ _ (by decide)).trans <|
    (extract_low _ _ _ _ (by decide)).trans <| BitVec.extractLsb'_eq_self

@[simp] theorem rs2Field_encodeB : rs2Field (encodeB off rs2 rs1 f op) = rs2 := by
  exact (extract_high _ _ _ _ (by decide)).trans <| (extract_high _ _ _ _ (by decide)).trans <|
    (extract_high _ _ _ _ (by decide)).trans <| (extract_high _ _ _ _ (by decide)).trans <|
    (extract_high _ _ _ _ (by decide)).trans <| (extract_low _ _ _ _ (by decide)).trans <| BitVec.extractLsb'_eq_self

/-- The offset that the B format stores is the instruction's, if it is even. -/
theorem immB_encodeB (h : off.getLsbD 0 = false) : immB (encodeB off rs2 rs1 f op) = off := by
  have f1 : (encodeB off rs2 rs1 f op).extractLsb' 31 1 = off.extractLsb' 12 1 := by
    unfold encodeB
    exact (extract_high _ _ _ _ (by decide)).trans <| (extract_high _ _ _ _ (by decide)).trans <|
      (extract_high _ _ _ _ (by decide)).trans <| (extract_high _ _ _ _ (by decide)).trans <|
      (extract_high _ _ _ _ (by decide)).trans <| (extract_high _ _ _ _ (by decide)).trans <|
      (extract_high _ _ _ _ (by decide)).trans <| BitVec.extractLsb'_eq_self
  have f2 : (encodeB off rs2 rs1 f op).extractLsb' 7 1 = off.extractLsb' 11 1 := by
    unfold encodeB
    exact (extract_high _ _ _ _ (by decide)).trans <| (extract_low _ _ _ _ (by decide)).trans <| BitVec.extractLsb'_eq_self
  have f3 : (encodeB off rs2 rs1 f op).extractLsb' 25 6 = off.extractLsb' 5 6 := by
    unfold encodeB
    exact (extract_high _ _ _ _ (by decide)).trans <| (extract_high _ _ _ _ (by decide)).trans <|
      (extract_high _ _ _ _ (by decide)).trans <| (extract_high _ _ _ _ (by decide)).trans <|
      (extract_high _ _ _ _ (by decide)).trans <| (extract_high _ _ _ _ (by decide)).trans <|
      (extract_low _ _ _ _ (by decide)).trans <| BitVec.extractLsb'_eq_self
  have f4 : (encodeB off rs2 rs1 f op).extractLsb' 8 4 = off.extractLsb' 1 4 := by
    unfold encodeB
    exact (extract_high _ _ _ _ (by decide)).trans <| (extract_high _ _ _ _ (by decide)).trans <|
      (extract_low _ _ _ _ (by decide)).trans <| BitVec.extractLsb'_eq_self
  unfold immB
  rw [f1, f2, f3, f4]
  apply BitVec.eq_of_getLsbD_eq
  intro i hi
  simp only [BitVec.getLsbD_append, BitVec.getLsbD_extractLsb']
  have h0 : off[0] = false := h
  interval_cases i <;> simp [h0]

theorem low_encodeB : (encodeB off rs2 rs1 f op).extractLsb' 0 2 = op.extractLsb' 0 2 := by
  exact extract_low _ _ _ _ (by decide)

end

/-! ### The U format -/

section
variable (imm : BitVec 20) (rd : Reg) (op : BitVec 7)

theorem encodeU_mask : encodeU imm rd op &&& 0x0000007F#32 = encodeU 0#20 0#5 op := by
  have e : (0x0000007F#32) = (0#20 ++ 0#5 ++ BitVec.allOnes 7 : BitVec 32) := by decide
  rw [e]; unfold encodeU
  refine (and_parts _ _ _ _).trans (append_parts ?_ BitVec.and_allOnes)
  refine (and_parts _ _ _ _).trans (append_parts ?_ BitVec.and_zero)
  exact BitVec.and_zero

@[simp] theorem rdField_encodeU : rdField (encodeU imm rd op) = rd := by
  exact (extract_high _ _ _ _ (by decide)).trans <| (extract_low _ _ _ _ (by decide)).trans <| BitVec.extractLsb'_eq_self

@[simp] theorem immU_encodeU : immU (encodeU imm rd op) = imm := by
  exact (extract_high _ _ _ _ (by decide)).trans <| (extract_high _ _ _ _ (by decide)).trans <| BitVec.extractLsb'_eq_self

theorem low_encodeU : (encodeU imm rd op).extractLsb' 0 2 = op.extractLsb' 0 2 := by
  exact extract_low _ _ _ _ (by decide)

end

/-! ### The shift format -/

section
variable (shamt : BitVec 6) (rs1 : Reg) (f : BitVec 3) (rd : Reg) (op : BitVec 7)

@[simp] theorem shamtField_encodeI : shamtField (encodeI (0#6 ++ shamt) rs1 f rd op) = shamt := by
  unfold shamtField encodeI
  exact (extract_high _ _ _ _ (by decide)).trans <| (extract_high _ _ _ _ (by decide)).trans <|
    (extract_high _ _ _ _ (by decide)).trans <| (extract_high _ _ _ _ (by decide)).trans <|
    (extract_low _ _ _ _ (by decide)).trans <| BitVec.extractLsb'_eq_self

theorem encodeShift_mask64 :
    encodeI (0#6 ++ shamt) rs1 f rd op &&& 0xFC00707F#32 = encodeI (0#6 ++ 0#6) 0#5 f 0#5 op := by
  have e : (0xFC00707F#32) = ((BitVec.allOnes 6 ++ 0#6) ++ 0#5 ++ BitVec.allOnes 3 ++ 0#5 ++ BitVec.allOnes 7 : BitVec 32) := by
    decide
  rw [e]; unfold encodeI
  refine (and_parts _ _ _ _).trans (append_parts ?_ BitVec.and_allOnes)
  refine (and_parts _ _ _ _).trans (append_parts ?_ BitVec.and_zero)
  refine (and_parts _ _ _ _).trans (append_parts ?_ BitVec.and_allOnes)
  refine (and_parts _ _ _ _).trans (append_parts ?_ BitVec.and_zero)
  refine (and_parts _ _ _ _).trans (append_parts ?_ BitVec.and_zero)
  exact BitVec.and_allOnes

/-- With XLEN = 32 a shift amount below 32 keeps bit 25 of the word 0. -/
theorem encodeShift_mask32 (h : shamt.toNat < 32) :
    encodeI (0#6 ++ shamt) rs1 f rd op &&& 0xFE00707F#32 = encodeI (0#6 ++ 0#6) 0#5 f 0#5 op := by
  have e : (0xFE00707F#32) =
      ((BitVec.allOnes 6 ++ 0x20#6) ++ 0#5 ++ BitVec.allOnes 3 ++ 0#5 ++ BitVec.allOnes 7 : BitVec 32) := by decide
  have z : shamt &&& 0x20#6 = 0#6 := by
    have all : ∀ k : Fin 64, k.val < 32 → BitVec.ofNat 6 k.val &&& 0x20#6 = 0#6 := by decide
    simpa using all ⟨shamt.toNat, shamt.isLt⟩ h
  rw [e]; unfold encodeI
  refine (and_parts _ _ _ _).trans (append_parts ?_ BitVec.and_allOnes)
  refine (and_parts _ _ _ _).trans (append_parts ?_ BitVec.and_zero)
  refine (and_parts _ _ _ _).trans (append_parts ?_ BitVec.and_allOnes)
  refine (and_parts _ _ _ _).trans (append_parts ?_ BitVec.and_zero)
  refine (and_parts _ _ _ _).trans (append_parts ?_ z)
  exact BitVec.and_allOnes

end

end Sys2Proof
end

