-- ==== Sys2Proof/Laws/Step.lean ====
section
/-! SUPPORT. Laws/Step.lean: what an instruction, a hart's step and a step of the machine can do, each said once. -/

namespace Sys2Proof.Machine

/-- The bytes that a fetch gives are those at the pc. -/
theorem fetch_bytes {s : State} {bs : List Byte} (h : fetch s = .bytes bs) : bs = fourBytes s.mem s.hart.pc.toNat := by
  unfold fetch at h
  split at h
  · split at h <;> cases h
    rfl
  · cases h

/-- What a hart that fetches can do: take the exception of the fetch, at its pc, or of the decoder, or execute the
instruction that the bytes at its pc decode to. -/
theorem execNext_next {s t : State} (h : execNext s = .next t) :
    (∃ e bad, (∀ b, bad = some b → b = s.hart.pc) ∧ t = trapEntry false (excCode e) s.hart.pc bad s) ∨
    ∃ i, decodeBytes s.cfg.xlen (fourBytes s.mem s.hart.pc.toNat) = .ok i ∧ exec i s = .next t := by
  unfold execNext at h
  split at h
  · cases h; exact .inl ⟨_, _, fun b hb => (Option.some.inj hb).symm, rfl⟩
  · unfold refuseFetch at h
    split at h <;> cases h
    exact .inl ⟨_, _, fun b hb => (Option.some.inj hb).symm, rfl⟩
  · next hf =>
    split at h
    · cases h; exact .inl ⟨.illegal, none, fun b hb => (nomatch hb), rfl⟩
    · next i hd => rw [fetch_bytes hf] at hd; exact .inr ⟨i, hd, h⟩

/-- A hart that is held finishes its claim load; another executes. -/
theorem runHart_next {s t : State} (h : runHart s = .next t) :
    (∃ w, s.hart.waiting = some w ∧ finishClaim s w = .next t) ∨ (s.hart.waiting = none ∧ execNext s = .next t) := by
  unfold runHart at h
  split at h
  · next w hw => exact .inl ⟨w, hw, h⟩
  · next hw => exact .inr ⟨hw, h⟩

/-- A held hart waits, or with the response come its load is done: the response is removed, rd written and the pc advanced. -/
theorem finishClaim_next {s t : State} {w : Waiting} (h : finishClaim s w = .next t) :
    t = s ∨ ∃ r, s.plic.respQ.find? (answers s.hid w.target) = some r ∧ s.canAdvance = true ∧
      t = (({ s with
          plic := { s.plic with respQ := removeFirst (answers s.hid w.target) s.plic.respQ }
          hart := { s.hart with waiting := none } } : State).setX w.rd (sext s.cfg.xlen (BitVec.ofNat 32 r.id))).advance := by
  unfold finishClaim at h
  split at h
  · cases h; exact .inl rfl
  · next r hr => exact .inr ⟨r, hr, (complete_next h).1, (complete_next h).2⟩

/-- A hart takes the interrupt, which is takeable, or nothing changes. -/
theorem takeInterrupt_cases (s : State) (i : Nat) :
    (s.hart.waiting = none ∧ takeable s.cfg s.hart i = true ∧ takeInterrupt s i = trapEntry true i s.hart.pc none s) ∨
    takeInterrupt s i = s := by
  unfold takeInterrupt
  split
  · next h =>
    simp only [Bool.and_eq_true, Option.isNone_iff_eq_none] at h
    exact .inl ⟨h.1, h.2, rfl⟩
  · exact .inr rfl

/-- What an event can do when it does not stop: an event of a hart that does not exist changes nothing. -/
theorem runEvent_next {e : Event} {s t : State} (h : runEvent e s = .next t) :
    t = s ∨
    (∃ k w, e = .run k ∧ hasHart s k = true ∧ (s.switchTo k).hart.waiting = some w ∧ finishClaim (s.switchTo k) w = .next t) ∨
    (∃ k, e = .run k ∧ hasHart s k = true ∧ (s.switchTo k).hart.waiting = none ∧ execNext (s.switchTo k) = .next t) ∨
    (∃ k i, e = .interrupt k i ∧ hasHart s k = true ∧ t = takeInterrupt (s.switchTo k) i) ∨
    (e = .tick ∧ s.mtime ≠ BitVec.allOnes 64 ∧ t = { s with mtime := s.mtime + 1#64 }) ∨
    (∃ k, e = .compare k ∧ t = doCompare s k) ∨
    (∃ k b, e = .line k b ∧ t = doLine s k b) ∨
    (∃ k, e = .edge k ∧ t = doEdge s k) ∨
    (∃ k i b, e = .localIrq k i b ∧ t = doLocalIrq s k i b) ∨
    (∃ k, e = .forward k ∧ t = doForward s k) ∨
    (∃ k, e = .accept k ∧ t = doAccept s k) ∨
    (∃ k, e = .plicWrite k ∧ t = doWrite s k) ∨
    (∃ k, e = .plicClaim k ∧ t = doClaim s k) ∨
    (∃ k i, e = .complete k i ∧ t = doComplete s k i) ∨
    (∃ k, e = .notify k ∧ t = doNotify s k) := by
  cases e with
  | run k =>
    simp only [runEvent] at h
    split at h
    · next hk =>
      rcases runHart_next h with ⟨w, hw, hf⟩ | ⟨hw, hx⟩
      · exact .inr (.inl ⟨k, w, rfl, hk, hw, hf⟩)
      · exact .inr (.inr (.inl ⟨k, rfl, hk, hw, hx⟩))
    · cases h; exact .inl rfl
  | interrupt k i =>
    simp only [runEvent] at h
    split at h
    · next hk => cases h; exact .inr (.inr (.inr (.inl ⟨k, i, rfl, hk, rfl⟩)))
    · cases h; exact .inl rfl
  | tick =>
    simp only [runEvent, doTick] at h
    split at h
    · cases h
    · next hm => cases h; exact .inr (.inr (.inr (.inr (.inl ⟨rfl, hm, rfl⟩))))
  | compare k => cases h; exact .inr (.inr (.inr (.inr (.inr (.inl ⟨k, rfl, rfl⟩)))))
  | line k b => cases h; exact .inr (.inr (.inr (.inr (.inr (.inr (.inl ⟨k, b, rfl, rfl⟩))))))
  | edge k => cases h; exact .inr (.inr (.inr (.inr (.inr (.inr (.inr (.inl ⟨k, rfl, rfl⟩)))))))
  | localIrq k i b => cases h; exact .inr (.inr (.inr (.inr (.inr (.inr (.inr (.inr (.inl ⟨k, i, b, rfl, rfl⟩))))))))
  | forward k => cases h; exact .inr (.inr (.inr (.inr (.inr (.inr (.inr (.inr (.inr (.inl ⟨k, rfl, rfl⟩)))))))))
  | accept k => cases h; exact .inr (.inr (.inr (.inr (.inr (.inr (.inr (.inr (.inr (.inr (.inl ⟨k, rfl, rfl⟩))))))))))
  | plicWrite k =>
    simp only [runEvent] at h
    rcases writeRegister_cases s k with e | ⟨_, _, _, _, e⟩ <;> rw [e] at h <;> cases h
    exact .inr (.inr (.inr (.inr (.inr (.inr (.inr (.inr (.inr (.inr (.inr (.inl ⟨k, rfl, rfl⟩)))))))))))
  | plicClaim k =>
    cases h; exact .inr (.inr (.inr (.inr (.inr (.inr (.inr (.inr (.inr (.inr (.inr (.inr (.inl ⟨k, rfl, rfl⟩))))))))))))
  | complete k i =>
    cases h; exact .inr (.inr (.inr (.inr (.inr (.inr (.inr (.inr (.inr (.inr (.inr (.inr (.inr (.inl ⟨k, i, rfl, rfl⟩)))))))))))))
  | notify k =>
    cases h; exact .inr (.inr (.inr (.inr (.inr (.inr (.inr (.inr (.inr (.inr (.inr (.inr (.inr (.inr ⟨k, rfl, rfl⟩)))))))))))))

/-- A step runs the event at the head of the schedule, or the default one, on the state without it. -/
theorem step_eq (s : State) : step s = runEvent (nextEvent s) (popEvent s) := rfl

/-- What a CSR instruction that goes on can do. -/
theorem csrInstr_next {rd : BitVec 5} {a : BitVec 12} {reads writes : Bool} {f : Word → Word} {s t : State}
    (h : csrInstr rd a reads writes f s = .next t) :
    (csrAccess s.cfg s.hart.priv a writes = none ∧ t = trapEntry false 2 s.hart.pc none s) ∨
    ∃ r s1 s2, csrAccess s.cfg s.hart.priv a writes = some r ∧ (s1 = s ∨ s1 = csrAfterRead s r) ∧
      (s2 = s1 ∨ csrWrite s1 r (f (csrHeld s r)) = .ok s2) ∧ t = (s2.setX rd (csrValue s r)).advance := by
  rcases csrInstr_cases rd a reads writes f s with ⟨hn, e⟩ | ⟨r, hr, ⟨hw, e⟩ | ⟨hw, hn, e⟩ | ⟨_, _, _, e⟩⟩
  · rw [e] at h; cases h; exact .inl ⟨hn, rfl⟩
  · rw [e] at h
    refine .inr ⟨r, if reads then csrAfterRead s r else s, _, hr, ?_, .inl rfl, (complete_next h).2⟩
    cases reads <;> simp
  · rw [e] at h
    have hs : (if reads then csrAfterRead s r else s) = s ∨ (if reads then csrAfterRead s r else s) = csrAfterRead s r := by
      cases reads <;> simp
    refine .inr ⟨r, if reads then csrAfterRead s r else s, _, hr, hs, .inr ((csrWrite_ok _ _ _ _).mpr ⟨?_, rfl⟩), (complete_next h).2⟩
    rcases hs with hs | hs <;> rw [hs]
    · exact hn
    · obtain ⟨_, _, _, e1⟩ := csrAfterRead_frame s r; rw [e1, ← hn]; exact csrRefusal_congr _ _ rfl
  · rw [e] at h; cases h

/-- What an instruction that goes on can do: every arm is a trap, a trap return, a CSR access, a load (LW), a store (SW), a branch, or
one register written and the pc advanced. The faulting addresses, the addresses of loads and stores, the branch targets and the
values written are XLEN-bit values, those written to CSRs where the registers and the old value are. -/
theorem exec_next {i : Instr} {s t : State} (h : exec i s = .next t) :
    (∃ e bad, (∀ b, bad = some b → fits s.cfg.xlen b) ∧ t = trapEntry false (excCode e) s.hart.pc bad s) ∨
    (∃ x, xretLegal s.cfg s.hart.priv x = true ∧ t = xretState x s) ∨
    (∃ rd a reads writes f,
      (∀ old, (∀ r, fits s.cfg.xlen (s.getX r)) → fits s.cfg.xlen old → fits s.cfg.xlen (f old)) ∧
      csrInstr rd a reads writes f s = .next t) ∨
    (∃ rd a, (fits s.cfg.xlen a ∧ ∃ imm rs1, i = .lw rd imm rs1 ∧ a = dataAddr s rs1 imm) ∧ loadTo .word rd a s = .next t) ∨
    (∃ v a, (fits s.cfg.xlen a ∧ ∃ rs2 imm rs1, i = .sw rs2 imm rs1 ∧ a = dataAddr s rs1 imm) ∧
      storeFrom .word v a s = .next t) ∨
    (∃ a, aligned a 4 = true ∧ fits s.cfg.xlen a ∧ t = s.setPc a) ∨
    (∃ rd v, fits s.cfg.xlen v ∧ t = (s.setX rd v).advance) ∨
    t = s.advance := by
  have none_fits : ∀ b : Word, (none : Option Word) = some b → fits s.cfg.xlen b := fun b hb => nomatch hb
  have ret : ∀ x, xret x s = .next t →
      (∃ e bad, (∀ b, bad = some b → fits s.cfg.xlen b) ∧ t = trapEntry false (excCode e) s.hart.pc bad s) ∨
      (∃ x, xretLegal s.cfg s.hart.priv x = true ∧ t = xretState x s) := by
    intro x h
    rcases xret_cases x s with ⟨hl, e⟩ | ⟨_, e⟩ <;> rw [e] at h <;> cases h
    · exact .inr ⟨x, hl, rfl⟩
    · exact .inl ⟨.illegal, none, none_fits, rfl⟩
  have zimm_fits : ∀ z : BitVec 5, fits s.cfg.xlen (zimmWord z) := by
    intro z
    rw [fits_iff]
    have h5 : (zimmWord z).toNat < 2 ^ 32 := by
      have := z.isLt
      simp only [zimmWord, BitVec.toNat_setWidth]; omega
    exact Nat.lt_of_lt_of_le h5 (by cases s.cfg.xlen <;> decide)
  cases i with
  | ecall => cases h; exact .inl ⟨_, _, none_fits, rfl⟩
  | ebreak => cases h; exact .inl ⟨_, _, none_fits, rfl⟩
  | uret => exact (ret .u h).imp_right .inl
  | sret => exact (ret .s h).imp_right .inl
  | hret => exact (ret .h h).imp_right .inl
  | mret => exact (ret .m h).imp_right .inl
  | csrrw rd csr rs1 =>
    simp only [exec, execCsrrw, csrSwap] at h; exact .inr (.inr (.inl ⟨_, _, _, _, _, fun _ hr _ => hr rs1, h⟩))
  | csrrs rd csr rs1 =>
    simp only [exec, execCsrrs, csrSet] at h
    exact .inr (.inr (.inl ⟨_, _, _, _, _, fun _ hr ho => or_fits ho (hr rs1), h⟩))
  | csrrc rd csr rs1 =>
    simp only [exec, execCsrrc, csrClear] at h
    exact .inr (.inr (.inl ⟨_, _, _, _, _, fun _ _ ho => and_fits ho _, h⟩))
  | csrrwi rd csr z =>
    simp only [exec, execCsrrwi, csrSwap] at h; exact .inr (.inr (.inl ⟨_, _, _, _, _, fun _ _ _ => zimm_fits z, h⟩))
  | csrrsi rd csr z =>
    simp only [exec, execCsrrsi, csrSet] at h
    exact .inr (.inr (.inl ⟨_, _, _, _, _, fun _ _ ho => or_fits ho (zimm_fits z), h⟩))
  | csrrci rd csr z =>
    simp only [exec, execCsrrci, csrClear] at h
    exact .inr (.inr (.inl ⟨_, _, _, _, _, fun _ _ ho => and_fits ho _, h⟩))
  | lui rd imm => exact .inr (.inr (.inr (.inr (.inr (.inr (.inl ⟨_, _, trunc_fits _ _, (complete_next h).2⟩))))))
  | addi rd rs1 imm => exact .inr (.inr (.inr (.inr (.inr (.inr (.inl ⟨_, _, trunc_fits _ _, (complete_next h).2⟩))))))
  | slli rd rs1 sh =>
    simp only [exec, execSlli] at h
    split at h
    · exact .inr (.inr (.inr (.inr (.inr (.inr (.inl ⟨_, _, trunc_fits _ _, (complete_next h).2⟩))))))
    · cases h; exact .inl ⟨.illegal, none, none_fits, rfl⟩
  | lw rd imm rs1 =>
    simp only [exec, execLw] at h
    exact .inr (.inr (.inr (.inl ⟨_, _, ⟨trunc_fits _ _, imm, rs1, rfl, rfl⟩, h⟩)))
  | sw rs2 imm rs1 =>
    simp only [exec, execSw] at h
    exact .inr (.inr (.inr (.inr (.inl ⟨_, _, ⟨trunc_fits _ _, rs2, imm, rs1, rfl, rfl⟩, h⟩))))
  | blt rs1 rs2 off =>
    simp only [exec, execBlt] at h
    split at h
    · split at h
      · next ha => cases h; exact .inr (.inr (.inr (.inr (.inr (.inl ⟨_, ha, trunc_fits _ _, rfl⟩)))))
      · cases h; exact .inl ⟨_, _, fun b hb => Option.some.inj hb ▸ trunc_fits _ _, rfl⟩
    · exact .inr (.inr (.inr (.inr (.inr (.inr (.inr (complete_next h).2))))))

end Sys2Proof.Machine
end

