-- ==== Sys2Proof/Laws/Invariant.lean ====
section
/-! SUPPORT. Laws/Invariant.lean: a property of every hart is kept by every step if the few ways in which a step changes a hart keep
it: the induction over steps, done once. -/

namespace Sys2Proof.Machine

/-- What `lookup` finds is in the list. -/
theorem mem_of_lookup {β : Type} {l : List (Nat × β)} {k : Nat} {v : β} (h : l.lookup k = some v) : (k, v) ∈ l := by
  induction l with
  | nil => cases h
  | cons p l ih =>
    obtain ⟨a, b⟩ := p
    rw [List.lookup_cons] at h
    split at h
    · next e => cases h; rw [beq_iff_eq.mp e]; exact List.mem_cons_self
    · exact List.mem_cons_of_mem _ (ih h)

/-! ### Changing one hart, and changing which hart is the current one -/

/-- A parked hart after hart h was changed is an old one, or an old one changed. -/
theorem modHart_parked (s : State) (h : Nat) (f : Hart → Hart) :
    ∀ p ∈ (s.modHart h f).parked, p ∈ s.parked ∨ ∃ q ∈ s.parked, p.2 = f q.2 := by
  intro p hp
  unfold State.modHart at hp
  split at hp
  · exact .inl hp
  · obtain ⟨q, hq, rfl⟩ := List.mem_map.mp hp
    split
    · exact .inr ⟨q, hq, rfl⟩
    · exact .inl hq

/-- The current hart after hart h was changed is as before, or changed. -/
theorem modHart_hart (s : State) (h : Nat) (f : Hart → Hart) :
    (s.modHart h f).hart = s.hart ∨ (s.modHart h f).hart = f s.hart := by
  unfold State.modHart
  split
  · exact .inr rfl
  · exact .inl rfl

/-- A property that a change keeps still holds of every hart. -/
theorem modHart_everyHart {P : Hart → Prop} (s : State) (h : Nat) (f : Hart → Hart) (he : EveryHart s P)
    (hf : ∀ k, P k → P (f k)) : EveryHart (s.modHart h f) P := by
  refine ⟨?_, fun p hp => ?_⟩
  · rcases modHart_hart s h f with e | e <;> rw [e]
    · exact he.1
    · exact hf _ he.1
  · rcases modHart_parked s h f p hp with h1 | ⟨q, hq, h1⟩
    · exact he.2 p h1
    · rw [h1]; exact hf _ (he.2 q hq)

/-- Making another hart the current one moves harts and changes none. -/
theorem switchTo_everyHart {P : Hart → Prop} (s : State) (h : Nat) (he : EveryHart s P) : EveryHart (s.switchTo h) P := by
  unfold State.switchTo
  split
  · exact he
  · split
    · exact he
    · next k hk =>
      refine ⟨he.2 _ (mem_of_lookup hk), fun p hp => ?_⟩
      obtain ⟨q, hq, rfl⟩ := List.mem_map.mp hp
      split
      · exact he.1
      · exact he.2 q hq

/-! ### What a step of one hart does to the others -/

/-- What a store can do to a hart: nothing, set its MSIP bit, or write its timer compare register. -/
def StoreChange (q p : Hart) : Prop := p = q ∨ (∃ b, p = q.driveMip 3 b) ∨ ∃ v, p = q.setTimecmp v

/-- A CSR instruction reaches no other hart. -/
theorem csrInstr_parked {rd : BitVec 5} {a : BitVec 12} {reads writes : Bool} {f : Word → Word} {s t : State}
    (h : csrInstr rd a reads writes f s = .next t) : t.parked = s.parked ∧ t.cfg = s.cfg := by
  rcases csrInstr_next h with ⟨_, rfl⟩ | ⟨r, s1, s2, _, h1, h2, rfl⟩
  · exact ⟨rfl, rfl⟩
  · have e1 : s1.parked = s.parked ∧ s1.cfg = s.cfg := by
      rcases h1 with rfl | rfl
      · exact ⟨rfl, rfl⟩
      · obtain ⟨_, _, _, e⟩ := csrAfterRead_frame s r; rw [e]; exact ⟨rfl, rfl⟩
    have e2 : s2.parked = s1.parked ∧ s2.cfg = s1.cfg := by
      rcases h2 with rfl | h2
      · exact ⟨rfl, rfl⟩
      · obtain ⟨_, _, e, _⟩ := csrWrite_frame h2; rw [e]; exact ⟨rfl, rfl⟩
    have e3 : (s2.setX rd (csrValue s r)).advance.parked = s2.parked ∧ (s2.setX rd (csrValue s r)).advance.cfg = s2.cfg := by
      simp
    rw [e3.1, e3.2, e2.1, e2.2, e1.1, e1.2]; exact ⟨rfl, rfl⟩

/-- An instruction changes the other harts as a store does, if at all. -/
theorem exec_parked {i : Instr} {s t : State} (h : exec i s = .next t) :
    t.cfg = s.cfg ∧ ∀ p ∈ t.parked, p ∈ s.parked ∨ ∃ q ∈ s.parked, StoreChange q.2 p.2 := by
  have same : ∀ u : State, u.parked = s.parked → ∀ p ∈ u.parked, p ∈ s.parked ∨ ∃ q ∈ s.parked, StoreChange q.2 p.2 :=
    fun u hu p hp => .inl (hu ▸ hp)
  rcases exec_next h with ⟨e, bad, _, rfl⟩ | ⟨x, _, rfl⟩ | ⟨rd, a, r, w, f, _, hc⟩ | ⟨rd, a, _, hl⟩ | ⟨v, a, _, hst⟩ | ⟨a, _, _, rfl⟩ |
    ⟨rd, v, _, rfl⟩ | rfl
  · exact ⟨rfl, same _ (trapEntry_parked ..)⟩
  · exact ⟨rfl, same _ (xretState_parked ..)⟩
  · obtain ⟨e1, e2⟩ := csrInstr_parked hc; exact ⟨e2, same _ e1⟩
  · rcases loadTo_next hl with ⟨_, rfl⟩ | ⟨_, rfl⟩ | ⟨v, s1, hm, rfl⟩
    · exact ⟨rfl, same _ (trapEntry_parked ..)⟩
    · exact ⟨rfl, fun p hp => .inl hp⟩
    · obtain ⟨_, _, _, _, _, _, rfl, _⟩ := memRead_value_frame hm
      exact ⟨by simp, same _ (by simp)⟩
  · rcases storeFrom_next hst with ⟨_, rfl⟩ | ⟨s1, hm, rfl⟩
    · exact ⟨rfl, same _ (trapEntry_parked ..)⟩
    · rcases memWrite_done hm with ⟨_, _, rfl⟩ | ⟨_, k, _, b, _, rfl⟩ | ⟨_, k, _, f, _, rfl⟩ | ⟨_, _, rfl⟩
      · exact ⟨by simp, same _ (by simp)⟩
      · refine ⟨by simp, fun p hp => ?_⟩
        rw [advance_parked] at hp
        rcases modHart_parked _ _ _ p hp with h | ⟨q, hq, h⟩
        · exact .inl h
        · exact .inr ⟨q, hq, .inr (.inl ⟨b, h⟩)⟩
      · refine ⟨by simp, fun p hp => ?_⟩
        rw [advance_parked] at hp
        rcases modHart_parked _ _ _ p hp with h | ⟨q, hq, h⟩
        · exact .inl h
        · exact .inr ⟨q, hq, .inr (.inr ⟨_, h⟩)⟩
      · exact ⟨by simp, same _ (by simp)⟩
  · exact ⟨rfl, same _ (State.setPc_parked ..)⟩
  · exact ⟨by simp, same _ (by simp)⟩
  · exact ⟨by simp, same _ (by simp)⟩

/-- A hart that fetches changes the other harts as a store does, if at all. -/
theorem execNext_parked {s t : State} (h : execNext s = .next t) :
    t.cfg = s.cfg ∧ ∀ p ∈ t.parked, p ∈ s.parked ∨ ∃ q ∈ s.parked, StoreChange q.2 p.2 := by
  rcases execNext_next h with ⟨_, _, _, rfl⟩ | ⟨i, hdec, hi⟩
  · exact ⟨rfl, fun p hp => .inl hp⟩
  · exact exec_parked hi

/-- Finishing a claim load reaches no other hart. -/
theorem finishClaim_parked {s t : State} {w : Waiting} (h : finishClaim s w = .next t) : t.cfg = s.cfg ∧ t.parked = s.parked := by
  rcases finishClaim_next h with rfl | ⟨r, _, _, rfl⟩ <;> simp

/-! ### The induction over steps -/

/-- Writing `mtimecmp` clears MTIP. -/
theorem setTimecmp_eq (h : Hart) (v : BitVec 64) : h.setTimecmp v = { h.driveMip 7 false with mtimecmp := v } := rfl

/-- The bits MSIP and MTIP are always implemented. -/
theorem irqMask_msip_mtip (c : Config) : (irqMask c).getLsbD 3 = true ∧ (irqMask c).getLsbD 7 = true :=
  ⟨(irqMask_level c .m rfl).1, (irqMask_level c .m rfl).2.1⟩

/-- A property P of the configuration and a hart holds of every hart after every step, under a condition W on the configuration, if
these keep it: executing, finishing a claim load, taking a takeable interrupt, driving an implemented bit of `mip` or one a
target is mapped to, and writing `mtimecmp`. -/
theorem everyHart_kept (P : Config → Hart → Prop) (W : Config → Prop)
    (hexec : ∀ (s t : State), W s.cfg → P s.cfg s.hart → s.hart.waiting = none → execNext s = .next t → P s.cfg t.hart)
    (hclaim : ∀ (s t : State) w, W s.cfg → P s.cfg s.hart → finishClaim s w = .next t → P s.cfg t.hart)
    (hintr : ∀ (s : State) i, W s.cfg → P s.cfg s.hart → takeable s.cfg s.hart i = true →
      P s.cfg (trapEntry true i s.hart.pc none s).hart)
    (hmip : ∀ c h i b, W c → ((irqMask c).getLsbD i = true ∨ ∃ t k x, c.targetMap.lookup t = some (k, x) ∧ i = eipBit x) →
      P c h → P c (h.driveMip i b))
    (hcmp : ∀ c h v, P c h → P c { h with mtimecmp := v }) :
    KeptByStep (fun s => W s.cfg ∧ EveryHart s (P s.cfg)) := by
  have hstore : ∀ c q p, W c → P c q → StoreChange q p → P c p := by
    intro c q p hw hq hm
    rcases hm with rfl | ⟨b, rfl⟩ | ⟨v, rfl⟩
    · exact hq
    · exact hmip _ _ _ _ hw (.inl (irqMask_msip_mtip c).1) hq
    · rw [setTimecmp_eq]; exact hcmp _ _ _ (hmip _ _ _ _ hw (.inl (irqMask_msip_mtip c).2) hq)
  intro s t ⟨hw, he⟩ hs
  rw [step_eq] at hs
  have he' : EveryHart (popEvent s) (P s.cfg) := he
  have go : ∀ u : State, u.cfg = s.cfg → EveryHart u (P s.cfg) → (W u.cfg ∧ EveryHart u (P u.cfg)) := by
    intro u hc hu; rw [hc]; exact ⟨hw, hu⟩
  have same : ∀ u : State, u.cfg = s.cfg → u.hart = s.hart → u.parked = s.parked → (W u.cfg ∧ EveryHart u (P u.cfg)) := by
    intro u hc h1 h2; exact go u hc ⟨by rw [h1]; exact he.1, by rw [h2]; exact he.2⟩
  have sw : ∀ k, EveryHart ((popEvent s).switchTo k) (P s.cfg) := fun k => switchTo_everyHart (popEvent s) k he'
  have swc : ∀ k, ((popEvent s).switchTo k).cfg = s.cfg := fun k => by simp
  rcases runEvent_next hs with rfl | ⟨k, w, _, _, _, hf⟩ | ⟨k, _, _, hw1, hx⟩ | ⟨k, i, _, _, rfl⟩ | ⟨_, _, rfl⟩ | ⟨k, _, rfl⟩ |
    ⟨k, b, _, rfl⟩ | ⟨k, _, rfl⟩ | ⟨k, i, b, _, rfl⟩ | ⟨k, _, rfl⟩ | ⟨k, _, rfl⟩ | ⟨k, _, rfl⟩ | ⟨k, _, rfl⟩ | ⟨k, i, _, rfl⟩ | ⟨k, _, rfl⟩
  · exact same _ rfl rfl rfl
  · obtain ⟨c1, c2⟩ := finishClaim_parked hf
    refine go _ (by rw [c1, swc]) ⟨?_, by rw [c2]; exact (sw k).2⟩
    have := hclaim ((popEvent s).switchTo k) _ w (by rw [swc]; exact hw) (by rw [swc]; exact (sw k).1) hf
    rw [swc] at this; exact this
  · obtain ⟨e1, e2⟩ := execNext_parked hx
    refine go _ (by rw [e1, swc]) ⟨?_, fun p hp => ?_⟩
    · have := hexec _ _ (by rw [swc]; exact hw) (by rw [swc]; exact (sw k).1) hw1 hx
      rw [swc] at this; exact this
    · rcases e2 p hp with h1 | ⟨q, hq, hm⟩
      · exact (sw k).2 p h1
      · exact hstore _ _ _ hw ((sw k).2 q hq) hm
  · rcases takeInterrupt_cases ((popEvent s).switchTo k) i with ⟨_, ht, e⟩ | e
    · rw [e]
      refine go _ (by simp) ⟨?_, by simpa using (sw k).2⟩
      have := hintr ((popEvent s).switchTo k) i (by rw [swc]; exact hw) (by rw [swc]; exact (sw k).1) ht
      rw [swc] at this; exact this
    · rw [e]; exact go _ (swc k) (sw k)
  · exact same _ rfl rfl rfl
  · refine go _ (by simp [doCompare]) (modHart_everyHart _ _ _ he' (fun k hk => ?_))
    split
    · exact hmip _ _ _ _ hw (.inl (irqMask_msip_mtip _).2) hk
    · exact hk
  · obtain ⟨g, e⟩ := doLine_frame (popEvent s) k b; rw [e]; exact same _ rfl rfl rfl
  · obtain ⟨g, e⟩ := doEdge_frame (popEvent s) k; rw [e]; exact same _ rfl rfl rfl
  · unfold doLocalIrq
    split
    · next hl =>
      refine go _ (by simp) (modHart_everyHart _ _ _ he' (fun k hk => hmip _ _ _ _ hw (.inl ?_) hk))
      rw [irqMask_getLsbD, show (localMask s.cfg).getLsbD i = true from hl, Bool.or_true]
    · exact same _ rfl rfl rfl
  · obtain ⟨g, q, e⟩ := doForward_frame (popEvent s) k; rw [e]; exact same _ rfl rfl rfl
  · obtain ⟨g, q, e⟩ := doAccept_frame (popEvent s) k; rw [e]; exact same _ rfl rfl rfl
  · obtain ⟨_, _, _, _, _, e⟩ := doWrite_frame (popEvent s) k; rw [e]; exact same _ rfl rfl rfl
  · obtain ⟨_, _, _, e⟩ := doClaim_frame (popEvent s) k; rw [e]; exact same _ rfl rfl rfl
  · obtain ⟨_, _, e⟩ := doComplete_frame (popEvent s) k i; rw [e]; exact same _ rfl rfl rfl
  · rcases doNotify_cases (popEvent s) k with e | ⟨h, x, hl, e⟩
    · rw [e]; exact same _ rfl rfl rfl
    · rw [e]
      exact go _ (by simp) (modHart_everyHart _ _ _ he' (fun k2 hk => hmip _ _ _ _ hw (.inr ⟨k, h, x, hl, rfl⟩) hk))

end Sys2Proof.Machine
end

