-- ==== Sys2Proof/Laws/PerInstr.lean ====
section
/-! SUPPORT. Laws/PerInstr.lean: for every instruction, its word has bits 1:0 = 11 (30_encoding.md R110) and matches a row of the
opcode table. -/

namespace Sys2Proof.Laws.Encodes

/-- The word of an instruction ends in 11, and matches some row of the opcode table if the instruction is well formed. -/
def Statement (i : Instr) : Prop :=
  (encode i).extractLsb' 0 2 = 3#2 ∧
  ∀ xl : XLen, i.wf xl = true → (opcodeRows xl).any (fun r => r.matches (encode i)) = true

/-- A row of the table matches. -/
theorem any_of_row {xl : XLen} {w : BitVec 32} (r : OpcodeRow) (hr : r ∈ opcodeRows xl) (h : w &&& r.mask = r.pattern) :
    (opcodeRows xl).any (fun r => r.matches w) = true :=
  List.any_eq_true.mpr ⟨r, hr, by simp [OpcodeRow.matches, h]⟩

theorem ecall : Statement .ecall := ⟨by decide, fun xl _ => by cases xl <;> decide⟩
theorem ebreak : Statement .ebreak := ⟨by decide, fun xl _ => by cases xl <;> decide⟩
theorem uret : Statement .uret := ⟨by decide, fun xl _ => by cases xl <;> decide⟩
theorem sret : Statement .sret := ⟨by decide, fun xl _ => by cases xl <;> decide⟩
theorem hret : Statement .hret := ⟨by decide, fun xl _ => by cases xl <;> decide⟩
theorem mret : Statement .mret := ⟨by decide, fun xl _ => by cases xl <;> decide⟩

theorem csrrw (rd : Reg) (csr : CsrNum) (rs1 : Reg) : Statement (.csrrw rd csr rs1) :=
  ⟨low_encodeI .., fun _ _ => any_of_row _ (.tail _ (.tail _ (.tail _ (.tail _ (.tail _ (.tail _ (.head _))))))) (encodeI_mask ..)⟩
theorem csrrs (rd : Reg) (csr : CsrNum) (rs1 : Reg) : Statement (.csrrs rd csr rs1) :=
  ⟨low_encodeI .., fun _ _ =>
    any_of_row _ (.tail _ (.tail _ (.tail _ (.tail _ (.tail _ (.tail _ (.tail _ (.head _)))))))) (encodeI_mask ..)⟩
theorem csrrc (rd : Reg) (csr : CsrNum) (rs1 : Reg) : Statement (.csrrc rd csr rs1) :=
  ⟨low_encodeI .., fun _ _ =>
    any_of_row _ (.tail _ (.tail _ (.tail _ (.tail _ (.tail _ (.tail _ (.tail _ (.tail _ (.head _))))))))) (encodeI_mask ..)⟩
theorem csrrwi (rd : Reg) (csr : CsrNum) (zimm : BitVec 5) : Statement (.csrrwi rd csr zimm) :=
  ⟨low_encodeI .., fun _ _ =>
    any_of_row _ (.tail _ (.tail _ (.tail _ (.tail _ (.tail _ (.tail _ (.tail _ (.tail _ (.tail _ (.head _))))))))))
      (encodeI_mask ..)⟩
theorem csrrsi (rd : Reg) (csr : CsrNum) (zimm : BitVec 5) : Statement (.csrrsi rd csr zimm) :=
  ⟨low_encodeI .., fun _ _ =>
    any_of_row _ (.tail _ (.tail _ (.tail _ (.tail _ (.tail _ (.tail _ (.tail _ (.tail _ (.tail _ (.tail _ (.head _)))))))))))
      (encodeI_mask ..)⟩
theorem csrrci (rd : Reg) (csr : CsrNum) (zimm : BitVec 5) : Statement (.csrrci rd csr zimm) :=
  ⟨low_encodeI .., fun _ _ =>
    any_of_row _ (List.mem_append_left _ (List.mem_of_getLast? rfl)) (encodeI_mask ..)⟩

theorem lui (rd : Reg) (imm : BitVec 20) : Statement (.lui rd imm) :=
  ⟨low_encodeU .., fun _ _ => any_of_row _ (List.mem_append_right _ (.head _)) (encodeU_mask ..)⟩
theorem addi (rd rs1 : Reg) (imm : BitVec 12) : Statement (.addi rd rs1 imm) :=
  ⟨low_encodeI .., fun _ _ => any_of_row _ (List.mem_append_right _ (.tail _ (.head _))) (encodeI_mask ..)⟩
theorem slli (rd rs1 : Reg) (shamt : BitVec 6) : Statement (.slli rd rs1 shamt) :=
  ⟨low_encodeI .., fun xl h => by
    refine any_of_row _ (List.mem_append_right _ (.tail _ (.tail _ (.head _)))) ?_
    cases xl with
    | rv32 => exact encodeShift_mask32 _ _ _ _ _ (of_decide_eq_true h)
    | rv64 => exact encodeShift_mask64 ..⟩
theorem lw (rd : Reg) (imm : BitVec 12) (rs1 : Reg) : Statement (.lw rd imm rs1) :=
  ⟨low_encodeI .., fun _ _ => any_of_row _ (List.mem_append_right _ (.tail _ (.tail _ (.tail _ (.head _))))) (encodeI_mask ..)⟩
theorem sw (rs2 : Reg) (imm : BitVec 12) (rs1 : Reg) : Statement (.sw rs2 imm rs1) :=
  ⟨low_encodeS .., fun _ _ =>
    any_of_row _ (List.mem_append_right _ (.tail _ (.tail _ (.tail _ (.tail _ (.head _)))))) (encodeS_mask ..)⟩
theorem blt (rs1 rs2 : Reg) (off : BitVec 13) : Statement (.blt rs1 rs2 off) :=
  ⟨low_encodeB .., fun _ _ =>
    any_of_row _ (List.mem_append_right _ (.tail _ (.tail _ (.tail _ (.tail _ (.tail _ (.head _))))))) (encodeB_mask ..)⟩

end Sys2Proof.Laws.Encodes
end

