-- ==== Sys2Proof/Tests/Slice0.lean ====
section
/-! SUPPORT. Tests/Slice0.lean: the model's own tests. Ids V and S name vectors of 95_test_vectors.md, the other expected values are
those of the rule cited. A theorem named `witness_<statement>` shows values that meet every hypothesis of that statement. -/

namespace Sys2Proof.Tests
open Sys2Proof Sys2Proof.Machine

-- One after the other: a `decide` in the kernel waits for every declaration before it, and a thread that waits holds its stack.
set_option Elab.async false

/-! ### Helpers -/

/-- The default configuration with other modes. -/
def tCfg (ms : ModeSet) (n : Bool) : Config := { Config.default with modes := ms, nExt := n }

/-- The machine after reset of a configuration, with the current hart changed. -/
def tAt (c : Config) (f : Hart → Hart) : State := { State.resetWith c with hart := f (Hart.reset c) }

/-- The machine after reset in mode y, with t0 = v. -/
def tIn (y : Mode) (v : Word) : State := (tAt Config.default (fun h => { h with priv := y })).setX 5#5 v

/-- What is seen in the next state, if there is one. -/
def tSees {α : Type} (o : Outcome) (f : State → α) : Option α :=
  match o with
  | .next t => some (f t)
  | .fault _ => none
  | .refused _ => none

/-- `mstatus`, the mode and the pc after an instruction. -/
def tStack (o : Outcome) : Option (Word × Mode × Word) := tSees o (fun t => (t.hart.mstatus, t.hart.priv, t.hart.pc))

/-! ### Well-formedness: one refused term for each check -/

theorem test_wf_default : Config.default.wf = true := by decide +kernel
theorem test_wf_shamt_refused : Instr.wf .rv32 (.slli 5#5 5#5 32#6) = false ∧ Instr.wf .rv64 (.slli 5#5 5#5 32#6) = true := by decide
theorem test_wf_offset_refused : Instr.wf .rv32 (.blt 5#5 0#5 7#13) = false ∧ Instr.wf .rv32 (.blt 5#5 0#5 8#13) = true := by decide
theorem test_wf_nExt_refused : (tCfg .m true).nExtOk = false := by decide
theorem test_wf_harts_refused : ({ Config.default with nharts := 3 }).hartsOk = false := by decide
theorem test_wf_masks_refused : ({ Config.default with medelegMask := 0x1000#64 }).masksOk = false := by decide +kernel
theorem test_wf_localIrq_refused : ({ Config.default with localIrq := 0x800#64 }).localIrqOk = false := by decide +kernel
theorem test_wf_plic_refused : ({ Config.default with nsrc := 1024 }).plicOk = false := by decide +kernel
theorem test_wf_targetMap_refused : ({ Config.default with targetMap := [(0, (0, .m)), (1, (0, .m))] }).targetMapOk = false := by
  decide +kernel
theorem test_wf_regions_refused : ({ Config.default with ram := [⟨0x43FFFFFC, 8⟩] }).regionsOk = false := by decide +kernel
theorem test_wf_text_refused : ({ Config.default with text := [⟨0x80001FFC, 8⟩] }).textOk = false := by decide +kernel
theorem test_wf_resetPc_refused : ({ Config.default with resetPc := 0x80000002#64 }).resetPcOk = false := by decide +kernel

theorem test_wf_resetPc_device_refused :
    ({ Config.default with resetPc := 0x40001000#64 }).resetPcOk = false ∧ ({ Config.default with resetPc := 0x44000000#64 }).resetPcOk = false := by
  decide +kernel
/-- Bits XLEN-1:12 are the platform's (10_state.md R41), the highest included, and none above. -/
theorem test_wf_localIrq_top :
    ({ Config.default with localIrq := 0x80001000#64 }).localIrqOk = true ∧ ({ Config.default with localIrq := 0x100000000#64 }).localIrqOk = false := by
  decide +kernel

/-! ### Decoding: words written out field by field from 30_encoding.md -/

theorem test_decode_ecall : decode .rv32 (0x000#12 ++ 0#5 ++ 0#3 ++ 0#5 ++ 0b1110011#7) = .ok .ecall := by decide
theorem test_decode_ebreak : decode .rv32 (0x001#12 ++ 0#5 ++ 0#3 ++ 0#5 ++ 0b1110011#7) = .ok .ebreak := by decide
theorem test_decode_uret : decode .rv32 (0x002#12 ++ 0#5 ++ 0#3 ++ 0#5 ++ 0b1110011#7) = .ok .uret := by decide
theorem test_decode_sret : decode .rv32 (0x102#12 ++ 0#5 ++ 0#3 ++ 0#5 ++ 0b1110011#7) = .ok .sret := by decide
theorem test_decode_hret : decode .rv32 (0x202#12 ++ 0#5 ++ 0#3 ++ 0#5 ++ 0b1110011#7) = .ok .hret := by decide
theorem test_decode_mret : decode .rv32 (0x302#12 ++ 0#5 ++ 0#3 ++ 0#5 ++ 0b1110011#7) = .ok .mret := by decide
theorem test_decode_csrrw :
    decode .rv32 (0x305#12 ++ 5#5 ++ 0b001#3 ++ 9#5 ++ 0b1110011#7) = .ok (.csrrw 9#5 0x305#12 5#5) := by decide
theorem test_decode_csrrs :
    decode .rv32 (0x342#12 ++ 6#5 ++ 0b010#3 ++ 5#5 ++ 0b1110011#7) = .ok (.csrrs 5#5 0x342#12 6#5) := by decide
theorem test_decode_csrrc :
    decode .rv32 (0x344#12 ++ 5#5 ++ 0b011#3 ++ 7#5 ++ 0b1110011#7) = .ok (.csrrc 7#5 0x344#12 5#5) := by decide
theorem test_decode_csrrwi :
    decode .rv32 (0x340#12 ++ 31#5 ++ 0b101#3 ++ 8#5 ++ 0b1110011#7) = .ok (.csrrwi 8#5 0x340#12 31#5) := by decide
theorem test_decode_csrrsi :
    decode .rv32 (0x300#12 ++ 8#5 ++ 0b110#3 ++ 1#5 ++ 0b1110011#7) = .ok (.csrrsi 1#5 0x300#12 8#5) := by decide
theorem test_decode_csrrci :
    decode .rv32 (0x144#12 ++ 2#5 ++ 0b111#3 ++ 3#5 ++ 0b1110011#7) = .ok (.csrrci 3#5 0x144#12 2#5) := by decide
theorem test_decode_lui : decode .rv32 (0x80201#20 ++ 5#5 ++ 0b0110111#7) = .ok (.lui 5#5 0x80201#20) := by decide
theorem test_decode_addi :
    decode .rv32 (0x801#12 ++ 6#5 ++ 0b000#3 ++ 5#5 ++ 0b0010011#7) = .ok (.addi 5#5 6#5 0x801#12) := by decide
theorem test_decode_slli :
    decode .rv32 (0#7 ++ 31#5 ++ 6#5 ++ 0b001#3 ++ 5#5 ++ 0b0010011#7) = .ok (.slli 5#5 6#5 31#6) := by decide
theorem test_decode_lw :
    decode .rv32 (0x804#12 ++ 6#5 ++ 0b010#3 ++ 10#5 ++ 0b0000011#7) = .ok (.lw 10#5 0x804#12 6#5) := by decide
/-- V17: imm[11:5] = 0001000, imm[4:0] = 00100. -/
theorem test_decode_sw :
    decode .rv32 (0b0001000#7 ++ 7#5 ++ 6#5 ++ 0b010#3 ++ 0b00100#5 ++ 0b0100011#7) = .ok (.sw 7#5 0x104#12 6#5) := by decide
/-- Offset bits 12, 11, 10:5 and 4:1 each in its place: 1 0 000001 0010 0 is 0x1024, and 0 1 100000 1000 0 is 0xC10. -/
theorem test_decode_blt :
    decode .rv32 (1#1 ++ 0b000001#6 ++ 29#5 ++ 9#5 ++ 0b100#3 ++ 0b0010#4 ++ 0#1 ++ 0b1100011#7) = .ok (.blt 9#5 29#5 0x1024#13) ∧
    decode .rv32 (0#1 ++ 0b100000#6 ++ 29#5 ++ 9#5 ++ 0b100#3 ++ 0b1000#4 ++ 1#1 ++ 0b1100011#7) = .ok (.blt 9#5 29#5 0xC10#13) := by
  decide
/-- V7 to V12, V15, V19: words that are no instruction; the shift by 34 is one with XLEN = 64. -/
theorem test_decode_refused :
    [0x30200173#32, 0x30208073#32, 0x00300073#32, 0x10500073#32, 0x30004073#32, 0x02229293#32, 0x0000100F#32].all
      (fun w => decide (decode .rv32 w = .error .unallocated)) = true ∧
    decode .rv32 0#32 = .error .compressed ∧ decode .rv64 0x02229293#32 = .ok (.slli 5#5 5#5 34#6) := by decide
theorem test_decode_length : decodeBytes .rv32 [0x73#8, 0#8] = .error .length := by decide

/-! ### Trap returns: 95_test_vectors.md section 2.2 -/

/-- A hart in mode y with `mstatus` w and its trap registers' `xepc` at 0x80000100. -/
def tRet (ms : ModeSet) (n : Bool) (y : Mode) (w : Word) : State :=
  tAt (tCfg ms n) (fun h =>
    { h with
      priv := y
      mstatus := w
      mTrap := { h.mTrap with epc := 0x80000100#64 }
      hTrap := { h.hTrap with epc := 0x80000200#64 }
      sTrap := { h.sTrap with epc := 0x80000300#64 }
      uTrap := { h.uTrap with epc := 0x80000400#64 } })

theorem test_mret_V25_V20 :
    tStack (exec .mret (tRet .msu false .m 0x0880#64)) = some (0x0082#64, .s, 0x80000100#64) ∧
    tStack (exec .mret (tRet .m false .m 0x1880#64)) = some (0x1888#64, .m, 0x80000100#64) := by decide +kernel
theorem test_mret_V27_V28_V29 :
    tStack (exec .mret (tRet .msu true .m 0x0080#64)) = some (0x0081#64, .u, 0x80000100#64) ∧
    tStack (exec .mret (tRet .msu true .m 0x0000#64)) = some (0x0080#64, .u, 0x80000100#64) ∧
    tStack (exec .mret (tRet .mu false .m 0x1880#64)) = some (0x0088#64, .m, 0x80000100#64) := by decide +kernel
theorem test_sret_V30_V32 :
    tStack (exec .sret (tRet .msu false .s 0x0120#64)) = some (0x0022#64, .s, 0x80000300#64) ∧
    tStack (exec .sret (tRet .msu true .s 0x0020#64)) = some (0x0021#64, .u, 0x80000300#64) := by decide +kernel
theorem test_sret_V34_V35 :
    tStack (exec .sret (tRet .msu false .m 0x1920#64)) = some (0x1822#64, .s, 0x80000300#64) ∧
    tSees (exec .sret (tRet .msu false .u 0#64)) (fun t => (t.hart.mTrap.cause, t.hart.mTrap.epc)) = some (2#64, 0x80000000#64) := by
  decide +kernel
theorem test_hret_V36_V38 :
    tStack (exec .hret (tRet .mhsu false .h 0x0240#64)) = some (0x0042#64, .s, 0x80000200#64) ∧
    tStack (exec .hret (tRet .mhsu true .h 0x0040#64)) = some (0x0041#64, .u, 0x80000200#64) := by decide +kernel
theorem test_hret_V39 :
    tSees (exec .hret (tRet .msu true .m 0#64)) (fun t => (t.hart.priv, t.hart.mTrap.cause)) = some (.m, 2#64) := by decide +kernel
theorem test_uret_V40_V41 :
    tStack (exec .uret (tRet .msu true .u 0x0010#64)) = some (0x0011#64, .u, 0x80000400#64) ∧
    tStack (exec .uret (tRet .msu true .u 0x0001#64)) = some (0x0010#64, .u, 0x80000400#64) := by decide +kernel
theorem test_uret_V42 :
    tSees (exec .uret (tRet .msu false .s 0#64)) (fun t => (t.hart.priv, t.hart.mTrap.cause)) = some (.m, 2#64) := by decide +kernel

/-! ### Environment traps and trap entry: 95_test_vectors.md section 2.3 -/

/-- A hart in mode y with `mstatus` w and `medeleg` d, and vectors. -/
def tEnv (n : Bool) (y : Mode) (w d : Word) : State :=
  tAt (tCfg .msu n) (fun h =>
    { h with
      priv := y
      mstatus := w
      medeleg := d
      mTrap := { h.mTrap with tvec := 0x80000400#64 }
      sTrap := { h.sTrap with tvec := 0x80000500#64 } })

theorem test_ecall_V43 :
    tStack (exec .ecall (tEnv false .u 0x000A#64 0x100#64)) = some (0x0008#64, .s, 0x80000500#64) ∧
    tSees (exec .ecall (tEnv false .u 0x000A#64 0x100#64)) (fun t => (t.hart.sTrap.cause, t.hart.sTrap.epc, t.hart.mTrap.cause)) =
      some (8#64, 0x80000000#64, 0#64) := by decide +kernel
theorem test_ecall_V49b_V49d :
    tStack (exec .ecall (tEnv true .u 0x0009#64 0#64)) = some (0x0081#64, .m, 0x80000400#64) ∧
    tStack (exec .ecall (tEnv false .m 0x0008#64 0xFFF#64)) = some (0x1880#64, .m, 0x80000400#64) := by decide +kernel
theorem test_ebreak_V47 :
    tStack (exec .ebreak (tEnv false .m 0x0008#64 0#64)) = some (0x1880#64, .m, 0x80000400#64) ∧
    tSees (exec .ebreak (tEnv false .m 0x0008#64 0#64)) (fun t => (t.hart.mTrap.cause, t.hart.mTrap.epc)) =
      some (3#64, 0x80000000#64) := by decide +kernel
theorem test_interrupt_V44 :
    let s := takeInterrupt (tAt (tCfg .msu false) (fun h => { h with priv := .s, mstatus := 0x0002#64, mip := 0x080#64, mie := 0x080#64 })) 7
    (s.hart.mstatus, s.hart.priv, s.hart.mTrap.cause, s.hart.mip) = (0x0882#64, .m, 0x80000007#64, 0x080#64) := by decide +kernel
theorem test_takeable_V51_V55_V57 :
    let h := Hart.reset (tCfg .msu false)
    takeable (tCfg .msu false) { h with mip := 0x080#64, mie := 0x080#64 } 7 = false ∧
    takeable (tCfg .msu false)
      { h with priv := .s, mstatus := 0x0008#64, mip := 0x020#64, mie := 0x020#64, mideleg := 0x020#64 } 5 = false ∧
    takeable (tCfg .msu false) { h with priv := .u, mip := 0x020#64, mie := 0x020#64, mideleg := 0x020#64 } 5 = true := by
  decide +kernel

/-! ### CSR accesses: 95_test_vectors.md section 2.5 and the examples of 41_csr_access.md -/

/-- A hart of the {M,S,U} machine in mode y with `mip`, `mie`, `mideleg` and t0. -/
def tIrq (y : Mode) (ip ie d v : Word) : State :=
  (tAt (tCfg .msu false) (fun h => { h with priv := y, mip := ip, mie := ie, mideleg := d })).setX 5#5 v

theorem test_csrrw_V60_V65 :
    tSees (exec (.csrrw 0#5 0x344#12 5#5) (tIn .m 0xFFF#64)) (fun t => t.hart.mip) = some 0x077#64 ∧
    tSees (exec (.csrrw 0#5 0x144#12 5#5) (tIrq .s 0#64 0#64 0x222#64 0xFFF#64)) (fun t => t.hart.mip) = some 0x002#64 := by
  decide +kernel
/-- V69k (rd is the source too), and V69a. -/
theorem test_csrrw_V69k_V69a :
    tSees (exec (.csrrw 5#5 0x340#12 5#5) (tAt Config.default (fun h => { h with mTrap := { h.mTrap with scratch := 9#64 } }) |>.setX 5#5 5#64))
      (fun t => (t.hart.mTrap.scratch, t.getX 5#5)) = some (5#64, 9#64) ∧
    tSees (exec (.csrrw 0#5 0x341#12 5#5) (tIn .m 0x80000102#64)) (fun t => t.hart.mTrap.epc) = some 0x80000100#64 := by decide +kernel
/-- V63 and the example of R144. -/
theorem test_csrrs_V63 :
    tSees (exec (.csrrs 5#5 0x144#12 0#5) (tIrq .s 0x2A2#64 0#64 0x222#64 0#64)) (fun t => t.getX 5#5) = some 0x222#64 ∧
    tSees (exec (.csrrs 0#5 0x304#12 5#5) (tIrq .m 0#64 0x008#64 0#64 0x80#64)) (fun t => t.hart.mie) = some 0x088#64 := by decide +kernel
/-- V69c, V69e, V69f, V69g: each is Illegal instruction, code 2. -/
theorem test_csrrs_V69c_V69e_V69f_V69g :
    [exec (.csrrs 5#5 0x300#12 0#5) (tIn .s 0#64), exec (.csrrw 0#5 0xC00#12 5#5) (tIn .m 0#64),
      exec (.csrrs 0#5 0xC01#12 5#5) (tIn .m 0#64), exec (.csrrs 5#5 0xFA0#12 0#5) (tIn .m 0#64)].map
      (fun o => tSees o (fun t => t.hart.mTrap.cause)) = [some 2#64, some 2#64, some 2#64, some 2#64] := by decide +kernel
/-- V62, and V85: MTIP is not cleared through `mip`. -/
theorem test_csrrc_V62_V85 :
    tSees (exec (.csrrc 0#5 0x344#12 5#5) (tIrq .m 0x0A0#64 0#64 0#64 0x020#64)) (fun t => t.hart.mip) = some 0x080#64 ∧
    tSees (exec (.csrrc 0#5 0x344#12 5#5) (tIrq .m 0x0A0#64 0#64 0#64 0x080#64)) (fun t => t.hart.mip) = some 0x0A0#64 := by decide +kernel
theorem test_csrrwi_mscratch :
    tSees (exec (.csrrwi 7#5 0x340#12 31#5) (tAt Config.default (fun h => { h with mTrap := { h.mTrap with scratch := 9#64 } })))
      (fun t => (t.hart.mTrap.scratch, t.getX 7#5)) = some (31#64, 9#64) := by decide +kernel
/-- The example of R147 (S10), and V66. -/
theorem test_csrrsi_S10_V66 :
    tSees (exec (.csrrsi 0#5 0x300#12 8#5) (tRet .msu true .m 0x0100#64)) (fun t => t.hart.mstatus) = some 0x0108#64 ∧
    tSees (exec (.csrrsi 0#5 0x144#12 2#5) (tIrq .s 0#64 0#64 0#64 0#64)) (fun t => t.hart.mip) = some 0#64 := by decide +kernel
/-- V69l's `mstatus`, and the example of R148: SSIP cleared in S-mode. -/
theorem test_csrrci_V69l :
    tSees (exec (.csrrci 5#5 0x300#12 8#5) (tRet .msu false .m 0x0008#64)) (fun t => t.hart.mstatus) = some 0#64 ∧
    tSees (exec (.csrrci 0#5 0x144#12 2#5) (tIrq .s 0x022#64 0#64 0x022#64 0#64)) (fun t => t.hart.mip) = some 0x020#64 := by
  decide +kernel
/-- R31, R27: a write that would make MPRV non-zero, H into MPP of {M,S,U} and 11 into HPP through `hstatus` are refused by name. -/
theorem test_csrrw_refused :
    exec (.csrrw 0#5 0x300#12 5#5) (tIn .m 0x20000#64) = .refused .translationBits ∧
    exec (.csrrw 0#5 0x300#12 5#5) (tIrq .m 0#64 0#64 0#64 0x1000#64) = .refused .unsupportedMode ∧
    exec (.csrrw 0#5 0x200#12 5#5) (tIn .h 0x600#64) = .refused .unsupportedMode := ⟨rfl, rfl, rfl⟩
/-- R28, R30: MPP of {M} is hard-wired and {M,U} has no HPP, so no write of them is of an unsupported mode; SPP holds S or U. -/
theorem test_csrRefusal_status :
    let r := fun ms x v => csrRefusal (tCfg ms false) (Hart.reset (tCfg ms false)) (.status x) v
    r .m .m 0x0800#64 = none ∧ r .mu .m 0x0600#64 = none ∧ r .mu .m 0x0800#64 = some .unsupportedMode ∧ r .mu .m 0x1800#64 = none ∧
    r .msu .s 0x1F00#64 = none ∧ r .mhsu .m 0x1400#64 = none ∧ r .mhsu .h 0x1800#64 = none := by decide +kernel
/-- R48, R181: codes 11 and 12, H's environment call without H, and interrupt codes 7 and 12. -/
theorem test_csrRefusal_cause :
    let r := fun c v => csrRefusal c (Hart.reset c) (.cause .m) v
    r Config.default 11#64 = none ∧ r Config.default 12#64 = some .unsupportedCode ∧ r (tCfg .msu false) 10#64 = some .unsupportedCode ∧
    r Config.default 0x80000007#64 = none ∧ r Config.default 0x8000000C#64 = some .unsupportedCode ∧
    r { Config.default with localIrq := 0x1000#64 } 0x8000000C#64 = none := by decide +kernel

/-! ### The support subset: 95_test_vectors.md section 2.6 and the examples of 43_support_subset.md -/

/-- The machine after reset with XLEN = 64. -/
def t64 (v : Word) : State := (tAt { Config.default with xlen := .rv64 } id).setX 5#5 v

/-- The example of R167, and V76. -/
theorem test_lui_V76 :
    tSees (exec (.lui 5#5 0x80000#20) (tIn .m 0#64)) (fun t => (t.getX 5#5, t.hart.pc)) = some (0x80000000#64, 0x80000004#64) ∧
    tSees (exec (.lui 5#5 0x80000#20) (t64 0#64)) (fun t => t.getX 5#5) = some 0xFFFFFFFF80000000#64 := by decide +kernel
/-- R22: the last instruction of the address space is refused; the one before it, and one of XLEN = 64 at the same pc, are not. -/
theorem test_lui_overflow :
    exec (.lui 5#5 1#20) ((tIn .m 0#64).setPc 0xFFFFFFFC#64) = .refused .pcOverflow ∧
    tSees (exec (.lui 5#5 1#20) ((tIn .m 0#64).setPc 0xFFFFFFF8#64)) (fun t => t.hart.pc) = some 0xFFFFFFFC#64 ∧
    tSees (exec (.lui 5#5 1#20) ((t64 0#64).setPc 0xFFFFFFFC#64)) (fun t => t.hart.pc) = some 0x100000000#64 :=
  ⟨rfl, by decide +kernel, by decide +kernel⟩
/-- V75, and a write to x0 is discarded. -/
theorem test_addi_V75 :
    tSees (exec (.addi 5#5 5#5 0xFFF#12) (tIn .m 0#64)) (fun t => t.getX 5#5) = some 0xFFFFFFFF#64 ∧
    tSees (exec (.addi 0#5 5#5 0xFFF#12) (tIn .m 0#64)) (fun t => (t.getX 0#5, t.hart.pc)) = some (0#64, 0x80000004#64) := by decide +kernel
theorem test_slli_V72_V74 :
    tSees (exec (.slli 5#5 5#5 2#6) (tIn .m 0x80000007#64)) (fun t => t.getX 5#5) = some 0x1C#64 ∧
    tSees (exec (.slli 5#5 5#5 2#6) (t64 0x800000000000000B#64)) (fun t => t.getX 5#5) = some 0x2C#64 := by decide +kernel
/-- Little-endian RAM, sign extension with XLEN = 64. -/
theorem test_lw_ram :
    tSees (exec (.lw 10#5 4#12 5#5)
        { t64 0x80001000#64 with mem := [(0x80001004, 0x0B#8), (0x80001007, 0x80#8)] }) (fun t => t.getX 10#5) =
      some 0xFFFFFFFF8000000B#64 := by decide +kernel
/-- V77: a misaligned load, and no claim is made. -/
theorem test_lw_V77 :
    tSees (exec (.lw 10#5 4#12 5#5) (tIn .m 0x40200002#64))
      (fun t => (t.hart.mTrap.cause, t.hart.mTrap.badaddr, t.hart.mTrap.epc, t.plic.claimQ)) =
      some (4#64, 0x40200006#64, 0x80000000#64, []) := by decide +kernel
/-- V78: an aligned address from two unaligned parts, a completion. -/
theorem test_sw_V78 :
    tSees (exec (.sw 10#5 3#12 5#5) ((tIn .m 0x40200001#64).setX 10#5 7#64)) (fun t => t.plic.complQ) = some [(0, 7)] := by decide +kernel
/-- A store to RAM, the least significant byte at the lowest address; the byte 0 leaves no entry. -/
theorem test_sw_ram :
    tSees (exec (.sw 5#5 0#12 6#5) ((tIn .m 0x11002233#64).setX 6#5 0x80001000#64)) (fun t => t.mem) =
      some [(0x80001000, 0x33#8), (0x80001001, 0x22#8), (0x80001003, 0x11#8)] := by decide +kernel
theorem test_blt_V70_V71 :
    tSees (exec (.blt 5#5 0#5 28#13) (tIn .m 0x80000007#64)) (fun t => t.hart.pc) = some 0x8000001C#64 ∧
    tSees (exec (.blt 5#5 0#5 28#13) (tIn .m 2#64)) (fun t => t.hart.pc) = some 0x80000004#64 := by decide +kernel
/-- V79, and V79a: a taken branch to a misaligned target traps at the branch. -/
theorem test_blt_V79_V79a :
    tSees (exec (.blt 5#5 5#5 0#13) (tIn .m 5#64)) (fun t => t.hart.pc) = some 0x80000004#64 ∧
    tSees (exec (.blt 5#5 6#5 6#13) (tIn .m 0xFFFFFFFF#64)) (fun t => (t.hart.mTrap.cause, t.hart.mTrap.epc, t.hart.mTrap.badaddr)) =
      some (0#64, 0x80000000#64, 0x80000006#64) := by decide +kernel

/-! ### The timer and the PLIC: 95_test_vectors.md sections 2.7 to 2.10 -/

/-- V80, V81, V82: the set step. -/
theorem test_compare_V80_V81_V82 :
    let s := fun (n : BitVec 64) (c : BitVec 64) => doCompare { tAt Config.default (fun h => { h with mtimecmp := c }) with mtime := n } 0
    (s 99#64 100#64).hart.mip = 0#64 ∧ (s 100#64 100#64).hart.mip = 0x80#64 ∧ (s 1#64 0xFFFFFFFFFFFFFFFF#64).hart.mip = 0#64 := by
  decide +kernel
/-- V83: a store to `mtimecmp` clears MTIP. -/
theorem test_timecmp_V83 :
    tSees (exec (.sw 6#5 0#12 5#5)
        ((tAt Config.default (fun h => { h with mip := 0x80#64 })).setX 5#5 0x44000100#64 |>.setX 6#5 1000#64))
      (fun t => (t.hart.mip, t.hart.mtimecmp)) = some (0#64, 1000#64) := by decide +kernel

/-- A PLIC with priorities, sources 1 to 9 enabled for target 0, and pending bits. -/
def tPlic (pr : List (Nat × Nat)) (ip : BitVec 1024) (thr : List (Nat × Nat)) : Plic :=
  { Plic.reset with prio := pr, ip := ip, ie := [(0, 0x3FE#1024)], thr := thr }

/-- V90, V92, V93: which interrupt a claim gets. -/
theorem test_best_V90_V92_V93 :
    let c := Config.default
    best c (tPlic [(1, 1), (2, 3), (3, 3)] 0b11110#1024 []) 0 = 2 ∧ best c (tPlic [(1, 1), (2, 3), (3, 3)] 0b11010#1024 []) 0 = 3 ∧
    best c (tPlic [(1, 1), (2, 3), (3, 3)] 0b10000#1024 []) 0 = 0 ∧ best c (tPlic [(2, 1), (5, 1), (9, 1)] 0x224#1024 []) 0 = 2 ∧
    best c { tPlic [(1, 1), (2, 2)] 0b110#1024 [] with ie := [(0, 0b010#1024)] } 0 = 1 := by decide +kernel
/-- V94, V95: the threshold masks the notification, and the claim only where `CLAIM_USES_THRESHOLD`. -/
theorem test_threshold_V94_V95 :
    let c := Config.default
    let d := { Config.default with claimUsesThreshold := true }
    eip c (tPlic [(1, 1)] 0b10#1024 [(0, 2)]) 0 = false ∧ best c (tPlic [(1, 1)] 0b10#1024 [(0, 2)]) 0 = 1 ∧
    best d (tPlic [(1, 1)] 0b10#1024 [(0, 2)]) 0 = 0 ∧ eip { c with maxPri := 3 } (tPlic [(1, 3)] 0b10#1024 [(0, 3)]) 0 = false := by
  decide +kernel
/-- V97, V97a: a completion of another target's source, and of no source, has no effect. -/
theorem test_complete_V97 :
    let p := { tPlic [] 0#1024 [] with gateways := [(3, ⟨true, false, 0⟩)] }
    completed Config.default p 1 3 = p ∧ (completed Config.default p 0 3).gateways = [] ∧
    completed Config.default p 0 0 = p ∧ completed Config.default p 0 200 = p := by decide +kernel
/-- V100 to V110 in part, and V112: the register map. -/
theorem test_map_V100_V112 :
    let c := { Config.default with nsrc := 1023, ntgt := 15808 }
    plicReg c 0x4 = .prio 1 ∧ plicReg c 0xFFC = .prio 1023 ∧ plicReg c 0x107C = .pendingWord 31 ∧ plicReg c 0x210C = .enableWord 2 3 ∧
    plicReg c 0x1EFF80 = .enableWord 15807 0 ∧ plicReg c 0x201000 = .threshold 1 ∧ plicReg c 0x201004 = .claim 1 ∧
    plicReg c 0 = .reserved ∧ plicReg c 0x1080 = .reserved ∧ plicReg c 0x1F0000 = .reserved ∧ plicReg c 0x200008 = .reserved := by
  decide +kernel
/-- V120 to V122, V124: delegation chains. -/
theorem test_delegation_V120_V124 :
    let h := { Hart.reset Config.default with mideleg := 0x20#64, hideleg := 0x20#64 }
    intTarget Config.default h 5 = .s ∧ intTarget Config.default { h with sideleg := 0x20#64 } 5 = .u ∧
    intTarget Config.default { h with mideleg := 0#64 } 5 = .m ∧ intTarget (tCfg .mu false) h 5 = .m := by decide +kernel

/-! ### Witnesses: values that meet all the hypotheses of a statement, clause by clause, at the ends of their ranges -/

/-- The machine after reset with an instruction at the pc. -/
def tRun (i : Instr) : State := State.reset.withFetchWord 32 (encode i).toNat

/-- A state with its pc at the last word of an address space of XLEN = 32. -/
def tTop (s : State) : State := s.setPc 0xFFFFFFFC#64

/-- Moving the pc keeps every other hypothesis below about loads, stores and CSR accesses. -/
theorem tTop_same (s : State) (r : BitVec 5) (imm : BitVec 12) (q : Csr) :
    dataAddr (tTop s) r imm = dataAddr s r imm ∧ (tTop s).cfg = s.cfg ∧ (tTop s).hart.priv = s.hart.priv ∧ (tTop s).plic = s.plic ∧
    (tTop s).mem = s.mem ∧ (tTop s).ramUse = s.ramUse ∧ (tTop s).getX r = s.getX r ∧
    csrRefusal s.cfg (tTop s).hart q = csrRefusal s.cfg s.hart q := ⟨rfl, rfl, rfl, rfl, rfl, rfl, rfl, rfl⟩

/-- The pc at the last word but one, at the last word, and there under the other policy. -/
theorem witness_LuiResult_AddiResult :
    let s := State.reset
    CanAdvance (s.setPc 0xFFFFFFF8#64) ∧ ¬ CanAdvance (tTop s) ∧
    CanAdvance { tTop s with cfg := { s.cfg with pcOverflow := .free } } := by decide +kernel
theorem witness_DecodeInvertsEncode :
    Instr.wf .rv32 (.slli 5#5 5#5 31#6) = true ∧ Instr.wf .rv64 (.slli 5#5 5#5 63#6) = true ∧ Instr.wf .rv32 (.blt 5#5 0#5 0x1FFE#13) = true := by
  decide
theorem witness_EncodeInvertsDecode : decode .rv32 0x00229293#32 = .ok (.slli 5#5 5#5 2#6) := by decide
theorem witness_StepRunsDecoded_scheduled :
    let s := { tRun (.addi 6#5 0#5 1#12) with sched := [.run 1] }
    let u := (popEvent s).switchTo 1
    hasHart s 1 = true ∧ u.hart.waiting = none ∧ u.hart.pc.toNat % 4 = 0 ∧ inRegions s.cfg.text u.hart.pc.toNat 4 = true ∧
    decodeBytes s.cfg.xlen (fourBytes s.mem u.hart.pc.toNat) = .ok (.addi 6#5 0#5 1#12) := by decide +kernel
/-- The last word of the program text. -/
theorem witness_StepRunsDecoded_unscheduled :
    let s := (State.reset.setPc 0x80000FFC#64).withFetchWord 32 0x30200073
    s.sched = [] ∧ s.hart.waiting = none ∧ s.hart.pc.toNat % 4 = 0 ∧ inRegions s.cfg.text s.hart.pc.toNat 4 = true ∧
    decodeBytes s.cfg.xlen (fourBytes s.mem s.hart.pc.toNat) = .ok .mret := by decide +kernel
theorem witness_StepRunsDecoded_switch : HartsDistinct State.reset ∧ hasHart State.reset 1 = true := by
  unfold HartsDistinct; decide +kernel
theorem witness_PlacedWordRuns : Instr.wf Config.default.xlen (.blt 5#5 0#5 8#13) = true := by decide
/-- Empty memory (a word that does not end in 11), and V19 (a word that matches no row). -/
theorem witness_FetchTraps_illegal :
    let s := State.reset.withFetchWord 32 0x0000100F
    (fourBytes State.reset.mem State.reset.hart.pc.toNat = bytesOfWord 0#32 ∧ (0#32).extractLsb' 0 2 ≠ 3#2) ∧
    s.sched = [] ∧ s.hart.waiting = none ∧ s.hart.pc.toNat % 4 = 0 ∧ inRegions s.cfg.text s.hart.pc.toNat 4 = true ∧
    hasMode s.cfg s.hart.priv = true ∧ fourBytes s.mem s.hart.pc.toNat = bytesOfWord 0x0000100F#32 ∧
    ∀ r ∈ opcodeRows s.cfg.xlen, r.matches 0x0000100F#32 = false := by decide +kernel
theorem witness_FetchTraps_address :
    let s := State.reset.setPc 0x80000FFE#64
    let u := State.reset.setPc 0x80001000#64
    s.sched = [] ∧ s.hart.waiting = none ∧ hasMode s.cfg s.hart.priv = true ∧ s.hart.pc.toNat % 4 ≠ 0 ∧
    u.sched = [] ∧ u.hart.waiting = none ∧ hasMode u.cfg u.hart.priv = true ∧ u.hart.pc.toNat % 4 = 0 ∧
    inRegions u.cfg.text u.hart.pc.toNat 4 = false ∧ u.cfg.badAccess = .accessFault ∧
    ({ u with cfg := { u.cfg with badAccess := .stop } }).cfg.badAccess = .stop := by decide +kernel
theorem witness_RegistersAndPc : 2 ^ (State.reset.setPc 0xFFFFFFFC#64).cfg.xlen.bits ≤ (State.reset.setPc 0xFFFFFFFC#64).hart.pc.toNat + 4 := by
  decide +kernel
theorem witness_SlliResult :
    CanAdvance State.reset ∧ ¬ CanAdvance (tTop State.reset) ∧
    (31#6).toNat < State.reset.cfg.xlen.bits ∧ State.reset.cfg.xlen.bits ≤ (32#6).toNat ∧
    hasMode State.reset.cfg State.reset.hart.priv = true := by decide +kernel
theorem witness_BltResult :
    let s := tIn .u 0x80000000#64
    signedVal s.cfg.xlen (s.getX 5#5) ≤ signedVal s.cfg.xlen (s.getX 5#5) ∧ CanAdvance s ∧ ¬ CanAdvance (tTop s) ∧
    signedVal s.cfg.xlen (s.getX 5#5) < signedVal s.cfg.xlen (s.getX 0#5) ∧ (branchTarget s 0x1000#13).toNat % 4 = 0 ∧
    (branchTarget s 6#13).toNat % 4 ≠ 0 ∧ hasMode s.cfg s.hart.priv = true := by decide +kernel
/-- Addresses at the first and last word of every region, and outside every region. -/
theorem witness_AddressMap :
    let c := Config.default
    c.wf = true ∧ c.plicOk = true ∧ c.msipAddr[1]? = some 0x44000004 ∧ c.mtimecmpAddr[1]? = some 0x44000108 ∧ c.mtimeAddr = some 0x44000200 ∧
    inRegions c.ram 0x80000000 4 = true ∧ inRegions c.ram 0x80001FFC 4 = true ∧ inRegions c.ram 0x80002000 4 = false ∧
    (∀ r ∈ c.deviceRegions, 0x80002000 < r.base ∨ r.base + r.size ≤ 0x80002000) ∧
    (∀ r ∈ c.deviceRegions, 0x3FFFFFFC < r.base ∨ r.base + r.size ≤ 0x3FFFFFFC) := by decide +kernel
/-- A word that lies across two RAM regions that abut is in RAM (notes/assumptions/43.md); one with a byte in neither is nowhere. -/
theorem test_route_two_regions :
    route { Config.default with ram := [⟨0x80000000, 6⟩, ⟨0x80000006, 4⟩] } 0x80000004 4 = .ram ∧
    route { Config.default with ram := [⟨0x80000000, 6⟩, ⟨0x80000007, 4⟩] } 0x80000004 4 = .nowhere := by decide +kernel
/-- The word below each boundary of the PLIC map, and the word at it. -/
theorem witness_AddressMap_plic :
    let c := Config.default
    c.plicOk = true ∧ 4 * 31 = 4 * c.nsrc ∧ 4 * c.nsrc < 0x80 ∧ 0x107C = 0x1000 + 4 * 31 ∧ 0x23FC = 0x2000 + 0x80 * 7 + 4 * 31 ∧ 7 < c.ntgt ∧
    0x2000 + 0x80 * c.ntgt ≤ 0x2400 ∧ 0x207000 = 0x200000 + 0x1000 * 7 ∧ 0x207004 = 0x200004 + 0x1000 * 7 ∧
    0x200000 + 0x1000 * c.ntgt ≤ 0x208000 ∧ 8 ≤ 0x200008 % 0x1000 ∧ 0x3FFFFFC < 0x4000000 := by decide +kernel
/-- The first and the last word of RAM. -/
theorem witness_LoadFromRam :
    let s := tIn .u 0x80000000#64
    let u := tIn .u 0x80002000#64
    (dataAddr s 5#5 0#12).toNat % 4 = 0 ∧ route s.cfg (dataAddr s 5#5 0#12).toNat 4 = .ram ∧
    raceFree s.ramUse s.hid false (dataAddr s 5#5 0#12).toNat 4 = true ∧
    (dataAddr u 5#5 0xFFC#12).toNat % 4 = 0 ∧ route u.cfg (dataAddr u 5#5 0xFFC#12).toNat 4 = .ram ∧
    raceFree u.ramUse u.hid false (dataAddr u 5#5 0xFFC#12).toNat 4 = true ∧ StoreWf RamUse.none u.ramUse ∧
    CanAdvance s ∧ ¬ CanAdvance (tTop s) := by decide +kernel
/-- The first word of RAM after the program text. -/
theorem witness_StoreToRam :
    let s := tIn .u 0x80001000#64
    Memory.wf s.mem ∧ (dataAddr s 5#5 0#12).toNat % 4 = 0 ∧ route s.cfg (dataAddr s 5#5 0#12).toNat 4 = .ram ∧
    meetsRegions s.cfg.text (dataAddr s 5#5 0#12).toNat 4 = false ∧ raceFree s.ramUse s.hid true (dataAddr s 5#5 0#12).toNat 4 = true ∧
    StoreWf RamUse.none s.ramUse ∧ CanAdvance s ∧ ¬ CanAdvance (tTop s) := by
  decide +kernel
theorem witness_MisalignedDataTraps :
    let s := tIn .u 0x80001003#64
    (dataAddr s 5#5 0#12).toNat % 4 ≠ 0 ∧ hasMode s.cfg s.hart.priv = true := by decide +kernel
/-- Nothing at an address; a byte another hart wrote; the last word of the program text; a byte another hart read. -/
theorem witness_RefusedAccesses_memory :
    let s := fun v u => { tIn .u v with ramUse := u }
    (dataAddr (s 0x80002000#64 []) 5#5 0#12).toNat % 4 = 0 ∧ hasMode (s 0x80002000#64 []).cfg (s 0x80002000#64 []).hart.priv = true ∧
    route Config.default (dataAddr (s 0x80002000#64 []) 5#5 0#12).toNat 4 = .nowhere ∧
    route Config.default (dataAddr (s 0x80001000#64 []) 5#5 0#12).toNat 4 = .ram ∧
    raceFree [(0x80001003, ⟨[], [1]⟩)] 0 false (dataAddr (s 0x80001000#64 []) 5#5 0#12).toNat 4 = false ∧
    meetsRegions Config.default.text (dataAddr (s 0x80000FFC#64 []) 5#5 0#12).toNat 4 = true ∧
    meetsRegions Config.default.text (dataAddr (s 0x80001000#64 []) 5#5 0#12).toNat 4 = false ∧
    raceFree [(0x80001000, ⟨[1], []⟩)] 0 true (dataAddr (s 0x80001000#64 []) 5#5 0#12).toNat 4 = false := by decide +kernel
theorem witness_RefusedAccesses_device :
    let s := fun v => tIn .h v
    (s 0#64).hart.priv ≠ .m ∧ hasMode (s 0#64).cfg (s 0#64).hart.priv = true ∧
    route Config.default (dataAddr (s 0x44000004#64) 5#5 0#12).toNat 4 = .msip 1 0 ∧
    route Config.default (dataAddr (s 0x4400010C#64) 5#5 0#12).toNat 4 = .timecmp 1 4 ∧
    route Config.default (dataAddr (s 0x44000204#64) 5#5 0#12).toNat 4 = .mtime 4 ∧ (tIn .m 0x44000204#64).hart.priv = .m := by decide +kernel
/-- Every kind of register, from M-mode, and a threshold from the mode that owns its page. -/
theorem witness_LoadPlicRegister :
    let s := tIn .m 0x40001000#64
    (dataAddr s 5#5 0#12).toNat % 4 = 0 ∧ route s.cfg (dataAddr s 5#5 0#12).toNat 4 = .plic 0x1000 ∧
    plicPerm s.cfg s.hart.priv s.hid 0x1000 = true ∧ plicReg s.cfg 0x1000 = .pendingWord 0 ∧
    plicReg s.cfg 0x7C = .prio 31 ∧ plicReg s.cfg 0x2380 = .enableWord 7 0 ∧ plicReg s.cfg 0x203000 = .threshold 3 ∧
    plicPerm s.cfg .u 0 0x203000 = true ∧ CanAdvance s ∧ ¬ CanAdvance (tTop s) ∧ ∀ e ∈ s.plic.wrQ, e.1 = s.hid → refusedValue s.cfg e.2 = none := by decide +kernel
/-- Own writes in the queue: the same load with a priority at `MAX_PRI` in it completes, and with one above it is refused. -/
theorem witness_LoadPlicRegister_writes :
    let s := fun v => { tIn .m 0x40001000#64 with plic := { Plic.reset with wrQ := [(1, .prio 4 9), (0, .prio 3 v)] } }
    (∀ e ∈ (s 7).plic.wrQ, e.1 = (s 7).hid → refusedValue (s 7).cfg e.2 = none) ∧
    (∃ e ∈ (s 8).plic.wrQ, e.1 = (s 8).hid ∧ refusedValue (s 8).cfg e.2 ≠ none) ∧
    ∃ u, step { s 7 with sched := [.plicWrite (s 7).hid] } = .next u :=
  ⟨by decide +kernel, by decide +kernel, _, rfl⟩
theorem witness_StorePlicRegister :
    let s := tIn .m 0x40200004#64
    (dataAddr s 5#5 0#12).toNat % 4 = 0 ∧ route s.cfg (dataAddr s 5#5 0#12).toNat 4 = .plic 0x200004 ∧
    plicPerm s.cfg s.hart.priv s.hid 0x200004 = true ∧ hasMode s.cfg s.hart.priv = true ∧ plicReg s.cfg 0x200004 = .claim 0 ∧
    plicReg s.cfg 0x4 = .prio 1 ∧ plicReg s.cfg 0x2000 = .enableWord 0 0 ∧ plicReg s.cfg 0x207000 = .threshold 7 ∧
    plicReg s.cfg 0x107C = .pendingWord 31 ∧ s.cfg.ignorePendingWrite = false ∧
    ({ s.cfg with ignorePendingWrite := true }).ignorePendingWrite = true ∧ CanAdvance s ∧ ¬ CanAdvance (tTop s) := by decide +kernel
theorem witness_ClaimLoadWaits_claim :
    let s := tIn .u 0x40203000#64
    (dataAddr s 5#5 4#12).toNat % 4 = 0 ∧ route s.cfg (dataAddr s 5#5 4#12).toNat 4 = .plic 0x203004 ∧
    plicPerm s.cfg s.hart.priv s.hid 0x203004 = true ∧ plicReg s.cfg 0x203004 = .claim 3 := by decide +kernel
theorem witness_ClaimLoadWaits_waiting :
    let s := { tAt Config.default (fun h => { h with waiting := some ⟨3, 10#5⟩ }) with
      sched := [.run 0], plic := { Plic.reset with respQ := [⟨0, 2, 5⟩] } }
    s.sched = .run s.hid :: [] ∧ s.hart.waiting = some ⟨3, 10#5⟩ ∧ ∀ r ∈ s.plic.respQ, ¬ (r.hart = s.hid ∧ r.target = 3) := by
  decide +kernel
theorem witness_ClaimLoadWaits_answered :
    let s := { tAt Config.default (fun h => { h with waiting := some ⟨3, 10#5⟩ }) with
      sched := [.run 0], plic := { Plic.reset with respQ := [⟨1, 3, 4⟩, ⟨0, 3, 1023⟩] } }
    s.sched = .run s.hid :: [] ∧ s.hart.waiting = some ⟨3, 10#5⟩ ∧ 1023 < 2 ^ 31 ∧
    s.plic.respQ = [⟨1, 3, 4⟩] ++ ⟨s.hid, 3, 1023⟩ :: [] ∧ CanAdvance s ∧ ¬ CanAdvance (tTop s) ∧
    ∀ r ∈ [(⟨1, 3, 4⟩ : ClaimResponse)], ¬ (r.hart = s.hid ∧ r.target = 3) := by
  decide +kernel
theorem witness_ClaimProtocol :
    let s := { tIn .m 0x40200000#64 with plic := { tPlic [(2, 1)] 0b100#1024 [] with wrQ := [(1, .prio 3 1)], claimQ := [(1, 4)] } }
    s.cfg.plicOk = true ∧ s.sched = [] ∧ (dataAddr s 5#5 4#12).toNat % 4 = 0 ∧
    route s.cfg (dataAddr s 5#5 4#12).toNat 4 = .plic 0x200004 ∧ plicPerm s.cfg s.hart.priv s.hid 0x200004 = true ∧
    plicReg s.cfg 0x200004 = .claim 0 ∧ (∀ e ∈ s.plic.wrQ, e.1 ≠ s.hid) ∧ (∀ e ∈ s.plic.claimQ, e.1 ≠ s.hid) ∧
    (∀ r ∈ s.plic.respQ, ¬ (r.hart = s.hid ∧ r.target = 0)) ∧ s.hart.waiting = none ∧ best s.cfg s.plic 0 = 2 ∧
    CanAdvance s := by decide +kernel
/-- The last offset below the target pages, the ends of one page, a denied register, a reserved one, and a granted page. -/
theorem witness_PlicAccessControl :
    let s := tIn .u 0x40200000#64
    Mode.u ≠ .m ∧ 0x1FFFFC < 0x200000 ∧ 0x200000 + 0x1000 * 3 ≤ 0x203FFC ∧ 0x203FFC < 0x200000 + 0x1000 * (3 + 1) ∧
    s.cfg.targetMap.lookup 3 = some (s.hid, .u) ∧ (dataAddr s 5#5 0#12).toNat % 4 = 0 ∧
    route s.cfg (dataAddr s 5#5 0#12).toNat 4 = .plic 0x200000 ∧ hasMode s.cfg s.hart.priv = true ∧
    plicPerm s.cfg s.hart.priv s.hid 0x200000 = false ∧ plicPerm s.cfg s.hart.priv s.hid 0x203008 = true ∧
    plicReg s.cfg 0x203008 = .reserved ∧ s.cfg.targetMap.lookup 0 ≠ some (s.hid, .u) ∧ (Mode.u, (s.hid, 0)) ∉ s.cfg.plicGrants ∧
    (Mode.s, ((0 : Nat), (1 : Nat))) ∈ [(Mode.s, ((0 : Nat), (1 : Nat)))] := by decide +kernel
/-- The MSIP register of the other hart. -/
theorem witness_SoftwareInterruptRegister :
    let s := tIn .m 0x44000004#64
    (dataAddr s 5#5 0#12).toNat % 4 = 0 ∧ route s.cfg (dataAddr s 5#5 0#12).toNat 4 = .msip 1 0 ∧ s.hart.priv = .m ∧
    s.hartAt 1 = some (Hart.reset Config.default) ∧ CanAdvance s ∧ ¬ CanAdvance (tTop s) := by decide +kernel
/-- The high half of the other hart's compare register, and the low half of `mtime`. -/
theorem witness_TimerRegisters :
    let s := tIn .m 0x4400010C#64
    let u := tIn .m 0x44000200#64
    (dataAddr s 5#5 0#12).toNat % 4 = 0 ∧ s.hart.priv = .m ∧ route s.cfg (dataAddr s 5#5 0#12).toNat 4 = .timecmp 1 4 ∧
    s.hartAt 1 = some (Hart.reset Config.default) ∧
    (dataAddr u 5#5 0#12).toNat % 4 = 0 ∧ u.hart.priv = .m ∧ route u.cfg (dataAddr u 5#5 0#12).toNat 4 = .mtime 0 ∧
    CanAdvance s ∧ ¬ CanAdvance (tTop s) ∧ CanAdvance u ∧ ¬ CanAdvance (tTop u) := by decide +kernel
theorem witness_EnvironmentTraps : hasMode (tIn .u 0#64).cfg (tIn .u 0#64).hart.priv = true := by decide
/-- Each return from its own mode; MRET below M; URET without the extension N. -/
theorem witness_TrapReturns :
    [(Instr.uret, Mode.u), (.sret, .s), (.hret, .h), (.mret, .m)].all (fun p =>
      let s := tIn p.2 0#64
      decide (p.1.returnMode = some p.2) && canHandle s.cfg p.2 && modeLe p.2 s.hart.priv && ppLegal s.cfg (s.hart.status s.cfg) p.2) = true ∧
    modeLe .m (tIn .h 0#64).hart.priv = false ∧ hasMode (tIn .h 0#64).cfg (tIn .h 0#64).hart.priv = true ∧
    canHandle (tCfg .msu false) .u = false := by decide +kernel
/-- A write of `mstatus` from M-mode that is not refused, and of `sip` from S-mode; each refusal; the other reading. -/
theorem witness_CsrWriteResult :
    let s := tIn .m 0x1888#64
    csrAccess s.cfg s.hart.priv 0x300#12 true = some (.status .m) ∧ csrRefusal s.cfg s.hart (.status .m) (s.getX 5#5) = none ∧
    csrAccess s.cfg .s 0x144#12 true = some (.ip .s) ∧ CanAdvance s ∧ ¬ CanAdvance (tTop s) ∧
    csrRefusal s.cfg s.hart (.status .m) ((tIn .m 0x20000#64).getX 5#5) = some .translationBits ∧
    csrRefusal s.cfg s.hart (.status .m) ((tIn .m 0x600#64).getX 5#5) = some .unsupportedMode ∧
    csrAccess s.cfg s.hart.priv 0x342#12 true = some (.cause .m) ∧
    csrRefusal s.cfg s.hart (.cause .m) ((16#5).setWidth 64) = some .unsupportedCode ∧
    csrRefusal { s.cfg with unsupportedWrite := .free } s.hart (.cause .m) ((16#5).setWidth 64) = none := by decide +kernel
theorem witness_CsrSetClearResult :
    let s := tIn .m 0x88#64
    CanAdvance s ∧ ¬ CanAdvance (tTop s) ∧ (∀ v, csrRefusal s.cfg s.hart (.ie .m) v = none) ∧
    (5#5 : BitVec 5) ≠ 0#5 ∧ csrAccess s.cfg s.hart.priv 0x304#12 true = some (.ie .m) ∧ Csr.ie .m ≠ .status .m ∧
    csrAccess s.cfg .u 0x041#12 true = some (.epc .u) ∧ csrAccess s.cfg .m 0x244#12 true = some (.ip .h) :=
  ⟨by decide +kernel, by decide +kernel, fun _ => rfl, by decide +kernel⟩
/-- A set of HPP to 11, a set and a clear that leave `mcause` an unsupported code, and a set of MPRV whatever the reserved bits read. -/
theorem witness_CsrSetClearResult_refused :
    let s := tIn .m 0x600#64
    let u := { s with hart := { s.hart with mTrap := { s.hart.mTrap with cause := 0x1F#64 } } }
    csrRefusal s.cfg s.hart (.status .h) (csrValue s (.status .h) ||| s.getX 5#5) = some .unsupportedMode ∧
    csrRefusal s.cfg s.hart (.cause .m) (csrValue s (.cause .m) ||| (12#5).setWidth 64) = some .unsupportedCode ∧
    csrRefusal u.cfg u.hart (.cause .m) (csrValue u (.cause .m) &&& ~~~((15#5).setWidth 64)) = some .unsupportedCode ∧
    csrRefusal s.cfg s.hart (.status .m) (csrValue s (.status .m) ||| 0x20000#64) = some .translationBits := by
  refine ⟨by decide +kernel, by decide +kernel, by decide +kernel, if_pos ⟨rfl, fun h => ?_⟩⟩
  have := congrArg (fun w : Word => w.getLsbD 17) h
  simp [translationMask] at this
/-- A read-only CSR from U-mode, and a view. -/
theorem witness_CsrReadResult :
    let s := tIn .u 0#64
    csrAccess s.cfg s.hart.priv 0xC01#12 false = some .time ∧ csrAccess s.cfg s.hart.priv 0x000#12 false = some (.status .u) ∧
    CanAdvance s ∧ ¬ CanAdvance (tTop s) := by decide +kernel
/-- Each reason of an illegal access, at the ends of the debug range too, and cause codes at the ends of their ranges. -/
theorem witness_CsrChecks :
    let s := tIn .m 0x20000#64
    Instr.csrUse (.csrrs 5#5 0xFA0#12 0#5) = some (0xFA0#12, false) ∧
    [0xFA0#12, 0xFBF#12, 0x7FF#12, 0x003#12].all (fun a => decide (csrAccess s.cfg s.hart.priv a false = none)) = true ∧
    csrAccess s.cfg .s 0x300#12 false = none ∧ csrAccess s.cfg s.hart.priv 0xC00#12 true = none ∧ hasMode s.cfg s.hart.priv = true ∧
    2 ^ 31 - 1 < 2 ^ (s.cfg.xlen.bits - 1) ∧ causeLegal s.cfg 0x7FFFFFFF#64 = false ∧ causeLegal s.cfg 7#64 = true := by
  decide +kernel
theorem witness_CsrReadValues : handlerModes Config.default = [.m] ++ .h :: .s :: [.u] ∧ handlerModes Config.default = [] ++ .m :: .h :: [.s, .u] := by
  decide
theorem witness_DelegationDiscovery :
    let s := tIn .m 0xFFFFFFFF#64
    s.cfg.wf = true ∧ s.hart.priv = .m ∧ handlerBelow s.cfg .m = true ∧ (6#5 : BitVec 5) ≠ 0#5 ∧ s.getX 5#5 = allOnes s.cfg.xlen ∧
    (s.setPc 0xFFFFFFF4#64).hart.pc.toNat + 8 < 2 ^ s.cfg.xlen.bits := by decide +kernel
theorem witness_NoDelegationBitHardwired :
    CanAdvance (tIn .m 0#64) ∧ csrAccess Config.default .m 0x302#12 true = some (.edeleg .m) ∧ csrAccess Config.default .s 0x103#12 true = some (.ideleg .s) ∧
    (Hart.reset Config.default).medeleg = 0#64 ∧ (Hart.reset Config.default).mideleg = 0#64 := by decide +kernel
/-- An exception, and an interrupt at the last code of XLEN = 32. -/
theorem witness_TrapEntryEffect :
    let s := tIn .u 0#64
    hasMode s.cfg s.hart.priv = true ∧ 11 < s.cfg.xlen.bits - 1 ∧ 30 < s.cfg.xlen.bits - 1 ∧
    modeLe s.hart.priv (intTarget s.cfg s.hart 30) = true := by decide +kernel
theorem witness_TakeableRule :
    hasMode (tCfg .mu false) .h = false ∧
    modeNum (intTarget (tCfg .msu false) { Hart.reset (tCfg .msu false) with mideleg := 0x20#64 } 5) < modeNum (Hart.reset (tCfg .msu false)).priv := by
  decide +kernel
/-- A hart that takes the interrupt, and one that does not. -/
theorem witness_InterruptStep :
    let s := { tAt Config.default (fun h => { h with priv := .u, mip := 0x80#64, mie := 0x80#64 }) with sched := [.interrupt 0 7] }
    let u := (popEvent s).switchTo 0
    hasHart s 0 = true ∧ takeable s.cfg u.hart 7 = true ∧ u.hart.waiting = none ∧ hasMode s.cfg u.hart.priv = true ∧ s.cfg.localIrqOk = true ∧
    takeable Config.default (Hart.reset Config.default) 7 = false := by decide +kernel

theorem tLegal (y : Mode) (w : Word) (h : [Mode.s, .h, .m].all (fun x => ppLegal Config.default (fixMstatus Config.default w) x) = true) :
    ModesLegal Config.default { Hart.reset Config.default with priv := y, mstatus := w } := by
  simp only [List.all_cons, List.all_nil, Bool.and_true, Bool.and_eq_true] at h
  refine ⟨by cases y <;> rfl, fun x hx => ?_⟩
  cases x with
  | u => exact absurd rfl hx
  | s => exact h.1
  | h => exact h.2.1
  | m => exact h.2.2

/-- A trap into M-mode changes a hart's mode. -/
theorem witness_ModeChangesOnlyByTrapOrReturn :
    let s := { tAt Config.default (fun h => { h with priv := .u, mstatus := 0#64 }) with sched := [.interrupt 0 7] }
    let u := { s with hart := { s.hart with mip := 0x80#64, mie := 0x80#64 } }
    HartsDistinct u ∧ AllModesLegal u ∧ (∃ t, step u = .next t ∧ t.hartAt 0 = some t.hart ∧ t.hart.priv ≠ u.hart.priv) := by
  refine ⟨by unfold HartsDistinct; decide +kernel, ⟨tLegal .u 0#64 (by decide +kernel), ?_⟩,
    _, rfl, rfl, by decide +kernel⟩
  intro p hp
  have e : p = (1, Hart.reset Config.default) := by simpa [tAt, State.resetWith, Config.default] using hp
  rw [e]
  exact tLegal .m 0#64 (by decide +kernel)
/-- A CSR write in S-mode. -/
theorem witness_LowerModesKeepMachineState :
    let s := tAt Config.default (fun h => { h with priv := .s, mstatus := 0#64 })
    ModesLegal s.cfg s.hart ∧ s.hart.priv ≠ .m ∧ ∃ t, exec (.csrrwi 0#5 0x140#12 3#5) s = .next t ∧ t.hart.priv ≠ .m :=
  ⟨tLegal .s 0#64 (by decide +kernel), by decide, _, rfl, by decide +kernel⟩
theorem witness_OnlyStoresReachOut : ∃ t, exec (.addi 5#5 5#5 1#12) (tIn .u 0#64) = .next t := ⟨_, rfl⟩
/-- MTIP is set by the comparator. -/
theorem witness_TimerPendingChanges_set :
    let s := { State.reset with sched := [.compare 1] }
    HartsDistinct s ∧ ∃ t g g', step s = .next t ∧ s.hartAt 1 = some g ∧ t.hartAt 1 = some g' ∧
      g.mip.getLsbD 7 = false ∧ g'.mip.getLsbD 7 = true :=
  ⟨by unfold HartsDistinct; decide +kernel, _, _, _, rfl, rfl, rfl, by decide +kernel, by decide +kernel⟩
/-- MTIP is cleared by a store to `mtimecmp`. -/
theorem witness_TimerPendingChanges_cleared :
    let s := (((tAt Config.default (fun h => { h with mip := 0x80#64 })).setX 5#5 0x44000100#64).withFetchWord 32 (encode (.sw 0#5 0#12 5#5)).toNat)
    HartsDistinct s ∧ ∃ t g g', step s = .next t ∧ s.hartAt 0 = some g ∧ t.hartAt 0 = some g' ∧
      g.mip.getLsbD 7 = true ∧ g'.mip.getLsbD 7 = false :=
  ⟨by unfold HartsDistinct; decide +kernel, _, _, _, rfl, rfl, rfl, by decide +kernel, by decide +kernel⟩
theorem witness_TimerSteps :
    ({ State.reset with sched := [.tick], mtime := 0xFFFFFFFFFFFFFFFE#64 }).mtime.toNat < 2 ^ 64 - 1 ∧
    ({ State.reset with sched := [.tick], mtime := 0xFFFFFFFFFFFFFFFF#64 }).mtime.toNat = 2 ^ 64 - 1 ∧
    ({ State.reset with sched := [.compare 1] }).hartAt 1 = some (Hart.reset Config.default) := by decide +kernel
theorem witness_StepKeepsThePlatform : HartsDistinct { State.reset with sched := [.tick] } ∧ ∃ t, step { State.reset with sched := [.tick] } = .next t :=
  ⟨by unfold HartsDistinct; decide +kernel, _, rfl⟩
theorem witness_ExternalPending :
    let s := { State.reset with plic := tPlic [(1, 7)] 0b10#1024 [(0, 7)] }
    s.cfg.plicOk = true ∧ PlicInRange s ∧ thrOf s.cfg s.plic 0 = s.cfg.maxPri := by
  have src : ∀ n m : Nat, m < 2 ^ 32 → m.testBit 0 = false → (BitVec.ofNat 1024 m).getLsbD n = true → isSource Config.default n = true := by
    intro n m hm h0 h
    rw [BitVec.getLsbD_ofNat, Bool.and_eq_true] at h
    have hn : n < 32 := by
      by_contra hc
      have := Nat.testBit_lt_two_pow (Nat.lt_of_lt_of_le hm (Nat.pow_le_pow_right (by decide) (Nat.le_of_not_lt hc)))
      rw [this] at h; exact absurd h.2 (by decide)
    have hz : n ≠ 0 := by rintro rfl; rw [h0] at h; exact absurd h.2 (by decide)
    simp only [isSource, decide_eq_true_eq]
    exact ⟨by omega, by show n ≤ 31; omega⟩
  refine ⟨by decide +kernel, ⟨by decide +kernel, by decide +kernel, fun p hp k hk => ?_, fun k hk => ?_, by decide +kernel⟩, by decide +kernel⟩
  · have e : p = (0, 0x3FE#1024) := by simpa [tPlic] using hp
    rw [e] at hk; exact src k 0x3FE (by decide) (by decide) hk
  · exact src k 0b10 (by decide) (by decide) hk
theorem witness_ClaimStep :
    let s := { State.reset with sched := [.plicClaim 0], plic := { tPlic [(2, 1)] 0b100#1024 [] with wrQ := [(1, .prio 3 1)], claimQ := [(1, 4), (0, 0)] } }
    s.cfg.plicOk = true ∧ (∀ e ∈ s.plic.wrQ, e.1 ≠ 0) ∧ s.plic.claimQ = [(1, 4)] ++ (0, 0) :: [] ∧ (∀ e ∈ [((1 : Nat), (4 : Nat))], e.1 ≠ 0) ∧
    best s.cfg s.plic 0 = 2 := by decide +kernel
/-- A claim behind a register write of its hart, and a hart with no claim. -/
theorem witness_ClaimStep_waits :
    let s := { State.reset with sched := [.plicClaim 0], plic := { Plic.reset with wrQ := [(1, .prio 3 1), (0, .prio 3 1)], claimQ := [(0, 0)] } }
    s.sched = .plicClaim 0 :: [] ∧ (∃ e ∈ s.plic.wrQ, e.1 = 0) ∧ ∀ e ∈ Plic.reset.claimQ, e.1 ≠ 0 := by decide +kernel

theorem tCanonical (p : Plic) (h1 : StoreWf 0 p.prio) (h2 : StoreWf 0#1024 p.ie) (h3 : StoreWf 0 p.thr) (h4 : StoreWf Gateway.idle p.gateways)
    (e : List Event) : StoresCanonical { State.reset with plic := p, sched := e } :=
  ⟨⟨List.Pairwise.nil, fun _ h => nomatch h⟩, ⟨List.Pairwise.nil, fun _ h => nomatch h⟩, h1, h2, h3, h4⟩

/-- A priority write of hart 1 behind one of hart 0, at `MAX_PRI`. -/
theorem witness_RegisterWriteStep :
    let s := { State.reset with sched := [.plicWrite 1], plic := { tPlic [(2, 1)] 0b100#1024 [] with wrQ := [(0, .threshold 0 3), (1, .prio 3 7)] } }
    StoresCanonical s ∧ s.cfg.plicOk = true ∧ s.plic.wrQ = [(0, .threshold 0 3)] ++ (1, .prio 3 7) :: [] ∧
    (∀ e ∈ [((0 : Nat), PlicWrite.threshold 0 3)], e.1 ≠ 1) ∧ s.cfg.prioFixed.lookup 3 = none ∧ 7 ≤ s.cfg.maxPri ∧
    s.cfg.thrZero.contains 0 = false ∧ isSource s.cfg 31 = true := by
  refine ⟨tCanonical _ ?_ ?_ ?_ ?_ _, ?_⟩ <;> decide +kernel
/-- The same write above `MAX_PRI`: refused in the default configuration, not with a fixed priority, nor in the other reading. -/
theorem witness_RegisterWriteStep_refused :
    let s := { State.reset with sched := [.plicWrite 1], plic := { Plic.reset with wrQ := [(1, .prio 3 8)] } }
    StoresCanonical s ∧ s.plic.wrQ = [] ++ (1, .prio 3 8) :: [] ∧ refusedValue s.cfg (.prio 3 8) = some 8 ∧
    refusedValue { s.cfg with prioFixed := [(3, 2)] } (.prio 3 8) = none ∧
    refusedValue { s.cfg with highPriority := .free } (.prio 3 8) = none := by
  refine ⟨tCanonical _ ?_ ?_ ?_ ?_ _, ?_⟩ <;> decide +kernel
/-- A level source, an edge source with its queue full, and a source that may and one that may not forward. -/
theorem witness_GatewaySteps :
    let s := { State.reset with plic := { Plic.reset with gateways := [(3, ⟨false, true, 0⟩), (7, ⟨true, false, 1⟩)] } }
    (∀ e, StoresCanonical { s with sched := e }) ∧ isSource s.cfg 31 = true ∧ isSource s.cfg 7 = true ∧ kindOf s.cfg 3 = .level ∧
    kindOf s.cfg 7 ≠ .level ∧ (gatewayOf s.plic 3).inflight = false ∧ (gatewayOf s.plic 3).level = true ∧
    (gatewayOf s.plic 7).inflight = true := by
  refine ⟨fun e => tCanonical _ ?_ ?_ ?_ ?_ e, ?_⟩ <;> decide +kernel
theorem witness_AcceptStep :
    let s := { State.reset with sched := [.accept 5], plic := { Plic.reset with reqQ := [3, 5] } }
    5 < 1024 ∧ s.plic.reqQ = [3] ++ 5 :: [] ∧ 5 ∉ [3] ∧ pendingOf s.plic 5 = false ∧
    pendingOf { s.plic with ip := 0x20#1024 } 5 = true := by decide +kernel
theorem witness_CompletionStep :
    let s := { State.reset with sched := [.complete 0 3], plic := { tPlic [] 0#1024 [] with gateways := [(3, ⟨true, false, 0⟩)], complQ := [(1, 3), (0, 3)] } }
    StoresCanonical s ∧ s.plic.complQ = [(1, 3)] ++ (0, 3) :: [] ∧ (0, 3) ∉ [((1 : Nat), (3 : Nat))] := by
  refine ⟨tCanonical _ ?_ ?_ ?_ ?_ _, ?_⟩ <;> decide +kernel
theorem witness_NotifyAndLocalInterruptSteps_notify :
    let s := { State.reset with sched := [.notify 7] }
    s.cfg.targetMap.lookup 7 = some (1, .u) ∧ s.hartAt 1 = some (Hart.reset Config.default) := by decide +kernel
/-- Local interrupts at the ends of bits XLEN-1:12, and a bit that is none. -/
theorem witness_NotifyAndLocalInterruptSteps_local :
    let s := { State.resetWith { Config.default with localIrq := 0x80001000#64 } with sched := [.localIrq 1 31 true] }
    (localMask s.cfg).getLsbD 31 = true ∧ (localMask s.cfg).getLsbD 12 = true ∧ (localMask s.cfg).getLsbD 13 = false ∧
    HartsDistinct s ∧ s.hartAt 1 = some (Hart.reset s.cfg) ∧ s.cfg.localIrqOk = true ∧
    ∃ t g', step s = .next t ∧ t.hartAt 1 = some g' ∧ g'.mip.getLsbD 31 ≠ (Hart.reset s.cfg).mip.getLsbD 31 :=
  ⟨by decide +kernel, by decide +kernel, by decide +kernel, by unfold HartsDistinct; decide +kernel, by decide +kernel, by decide +kernel,
    _, _, rfl, rfl, by decide +kernel⟩
theorem witness_ResetState : 0 < Config.default.nharts ∧ (State.resetWith Config.default).hartAt 1 = some (Hart.reset Config.default) := by decide +kernel

theorem tEvery (P : Hart → Prop) (h : P (Hart.reset Config.default)) : EveryHart State.reset P := by
  refine ⟨h, fun p hp => ?_⟩
  have e : p = (1, Hart.reset Config.default) := by simpa [State.reset, State.resetWith, Config.default] using hp
  rw [e]; exact h

/-- From reset a step goes on (the word in empty memory is an illegal instruction), and reset meets each invariant. -/
theorem witness_ModesStayLegal : AllModesLegal State.reset ∧ ∃ t, step State.reset = .next t :=
  ⟨tEvery _ (tLegal .m 0#64 (by decide +kernel)), _, rfl⟩
theorem witness_PcsStayAligned : AllPcsAligned State.reset := tEvery _ (by unfold PcAligned; decide +kernel)
theorem witness_HardwiredBitsStay : AllHardwiredBits State.reset :=
  ⟨by decide +kernel, tEvery _ ⟨by decide +kernel, by decide +kernel, by decide +kernel⟩⟩
theorem witness_TrapSetupStaysLegal : AllDelegationMasked State.reset ∧ AllVectorsAligned State.reset :=
  ⟨tEvery _ (fun x => by cases x <;> decide +kernel), tEvery _ (fun x => by cases x <;> decide +kernel)⟩
theorem witness_RegistersStayInWidth : AllRegistersFit State.reset :=
  tEvery _ ⟨by decide +kernel, by decide +kernel, fun x => by cases x <;> decide +kernel⟩
theorem witness_StoresStayCanonical : StoresCanonical State.reset := tCanonical Plic.reset (by decide) (by decide) (by decide) (by decide) []
theorem witness_PlicStaysInRange : PlicInRange State.reset :=
  ⟨(fun _ h => nomatch h), (fun _ h => nomatch h), (fun _ h => nomatch h),
    (fun k h => by simp [pendingOf, State.reset, State.resetWith, Plic.reset] at h), (fun _ h => nomatch h)⟩
theorem witness_ResetMeetsInvariants : Config.default.wf = true := by decide +kernel

end Sys2Proof.Tests
end

section
/-! PROOFS. Which hart has which state when another hart becomes the current one, and what a trap writes (60_exceptions.md R200). -/

namespace Sys2Proof.Exceptions
open Sys2Proof.Machine

/-! ### Making a hart the current one -/

/-- The list of harts with the entry of number h replaced by one of a number n that was not in it. -/
theorem lookup_replace {β : Type} (h n : Nat) (b : β) {k : Nat} (hk : k ≠ h) :
    ∀ l : List (Nat × β), (∀ p ∈ l, p.1 ≠ n) →
      (l.map (fun p => if p.1 = h then (n, b) else p)).lookup k =
        if k = n then (l.lookup h).map (fun _ => b) else l.lookup k := by
  intro l
  induction l with
  | nil => simp
  | cons p l ih =>
    obtain ⟨a, v⟩ := p
    intro hn
    have ih' := ih (fun q hq => hn q (List.mem_cons_of_mem _ hq))
    have han : a ≠ n := hn (a, v) List.mem_cons_self
    rw [List.map_cons, List.lookup_cons, List.lookup_cons, List.lookup_cons, ih']
    by_cases hah : a = h
    · subst hah
      by_cases hkn : k = n
      · simp [hkn]
      · simp [hkn, beq_false_of_ne hkn, beq_false_of_ne hk]
    · rw [if_neg hah, beq_false_of_ne (Ne.symm hah)]
      by_cases hkn : k = n
      · subst hkn; simp [beq_false_of_ne (Ne.symm han)]
      · simp [hkn]

/-- Making a hart the current one changes the state of no hart. -/
theorem switchTo_hartAt {s : State} (hd : HartsDistinct s) (h k : Nat) : (s.switchTo h).hartAt k = s.hartAt k := by
  have hn : ∀ p ∈ s.parked, p.1 ≠ s.hid := fun p hp e =>
    (List.nodup_cons.mp hd).1 (List.mem_map.mpr ⟨p, hp, e⟩)
  unfold State.switchTo
  split
  · rfl
  · next hh =>
    split
    · rfl
    · next g hg =>
      unfold State.hartAt
      by_cases hk : k = h
      · subst hk; simp [hh, hg]
      · simp [hk, lookup_replace h s.hid s.hart hk s.parked hn, hg]

/-- The hart that is made the current one, if there is such a hart. -/
theorem switchTo_hid {s : State} {h : Nat} (hh : hasHart s h = true) : (s.switchTo h).hid = h := by
  unfold State.switchTo
  split
  · next e => exact e.symm
  · next e =>
    split
    · next hl => simp [hasHart, State.hartAt, e, hl] at hh
    · rfl

/-- The state of a hart that is not the current one is that of the parked hart of its number. -/
theorem hartAt_congr {s t : State} {k : Nat} (hid : t.hid = s.hid) (hp : t.parked = s.parked) (hk : k ≠ s.hid) :
    t.hartAt k = s.hartAt k := by
  simp [State.hartAt, hid, hp, hk]

/-! ### `xcause` and `mstatus` after a trap -/

/-- Interrupt ++ Exception Code as a number (60_exceptions.md R182). -/
theorem causeWord_toNat (xl : XLen) (intr : Bool) (code : Nat) (h : code < xl.bits) :
    (causeWord xl intr code).toNat = (if intr then 2 ^ (xl.bits - 1) else 0) + code := by
  have hcode : code < 2 ^ (xl.bits - 1) ∧ code < 2 ^ 64 := by
    cases xl <;> simp only [XLen.bits] at h ⊢ <;> omega
  have hlow : (BitVec.ofNat 64 code).toNat = code := by
    rw [BitVec.toNat_ofNat, Nat.mod_eq_of_lt hcode.2]
  cases intr with
  | false => simpa [causeWord] using hlow
  | true =>
    have htop : (topBit xl).toNat = 2 ^ (xl.bits - 1) * 1 := by cases xl <;> rfl
    rw [causeWord, if_pos rfl, if_pos rfl, BitVec.toNat_or, hlow, htop,
      ← Nat.two_pow_add_eq_or_of_lt hcode.1, Nat.mul_one]

/-- A trap clears the interrupt-enable bit of the mode it is taken into. -/
theorem getIE_pushStack {c : Config} {x : Mode} (w : Word) (y : Mode) : getIE (pushStack c w y x) x = false := by
  have hlt := ieBit_lt x
  simp [getIE, pushStack_bit, ppMask_low x _ (show ieBit x < 8 by omega),
    mstatusOnes_bit c (ieBit x) (by omega) (by omega)]

/-- A trap from y saves the interrupt-enable bit of y in xPIE. -/
theorem getPIE_pushStack {c : Config} {x : Mode} (w : Word) (y : Mode) (hx : canHandle c x = true) :
    getPIE (pushStack c w y x) x = getIE w y := by
  have hlt := pieBit_lt x
  simp [getPIE, pushStack_bit, ppMask_low x _ hlt, (ieBit_ne_pieBit x x).symm, (mstatusImpl_stack c x hx).2,
    mstatusOnes_bit c (pieBit x) (by omega) (by omega)]

/-- A trap from y into a mode x at least as privileged saves y in xPP. -/
theorem getPP_pushStack {c : Config} {x y : Mode} (w : Word) (hx : canHandle c x = true) (hy : hasMode c y = true)
    (hle : modeLe y x = true) : getPP (pushStack c w y x) x = y :=
  getPP_fix_setPP c _ x y hx hy hle

/-- A trap into mode x changes no bit of `mstatus` outside the three fields of x. -/
theorem pushStack_other {c : Config} {x : Mode} {w : Word} (y : Mode) (hw : fixMstatus c w = w) {i : Nat}
    (hie : i ≠ ieBit x) (hpie : i ≠ pieBit x) (hpp : (ppMask x).getLsbD i = false) :
    (pushStack c w y x).getLsbD i = w.getLsbD i := by
  rw [pushStack_bit]
  simp only [hpp, hie, hpie, Bool.false_eq_true, if_false]
  rw [← fixMstatus_bit, hw]

/-- `mstatus` as every rule reads it, after a trap. -/
theorem trapEntry_status (s : State) (intr : Bool) (code : Nat) (epc : Word) (bad : Option Word) :
    (trapEntry intr code epc bad s).hart.status s.cfg =
      pushStack s.cfg (s.hart.status s.cfg) s.hart.priv (trapTarget s intr code) :=
  fix_pushStack ..

/-! ### Taking a trap -/

/-- The registers of a hart that a trap does not name keep their values. -/
theorem trapEntry_hart_frame (s : State) (intr : Bool) (code : Nat) (epc : Word) (bad : Option Word) :
    let k := (trapEntry intr code epc bad s).hart
    k = { s.hart with
      pc := k.pc, priv := k.priv, mstatus := k.mstatus
      mTrap := k.mTrap, hTrap := k.hTrap, sTrap := k.sTrap, uTrap := k.uTrap } := by
  rw [trapEntry_eq]
  cases trapTarget s intr code <;> rfl

/-- A trap taken at the hart's own pc, from a supported mode into one at least as privileged, is the trap of R200. -/
theorem trapEntry_tookTrap {s : State} {intr : Bool} {code : Nat} (bad : Option Word) (hy : hasMode s.cfg s.hart.priv = true)
    (hcode : code < s.cfg.xlen.bits) (hle : modeLe s.hart.priv (trapTarget s intr code) = true) :
    TookTrap s (trapEntry intr code s.hart.pc bad s) intr code bad := by
  have hx := trapTarget_canHandle s intr code hy
  have regs : (trapEntry intr code s.hart.pc bad s).hart.trapRegs (trapTarget s intr code) =
      trapRecord s intr code s.hart.pc bad (s.hart.trapRegs (trapTarget s intr code)) := by
    rw [trapEntry_trapRegs, if_pos rfl]
  refine { mode := rfl, vector := rfl, hart := trapEntry_hart_frame ..
           outside := ⟨rfl, rfl, rfl, fun _ => rfl, rfl, rfl, rfl, rfl⟩
           cause := ?cause, epc := ?epc, badaddr := ?badaddr, kept := ?kept, others := ?others
           pie := ?pie, ie := ?ie, pp := ?pp, status := ?status }
  case cause => rw [trapEntry_priv, regs]; exact causeWord_toNat _ _ _ hcode
  case epc => rw [trapEntry_priv, regs]; rfl
  case badaddr => intro b hb; rw [trapEntry_priv, regs, hb]; rfl
  case kept => rw [trapEntry_priv, regs]; exact ⟨rfl, rfl⟩
  case others => intro z hz; rw [trapEntry_trapRegs]; exact if_neg hz
  case pie => rw [trapEntry_cfg, trapEntry_status]; exact getPIE_pushStack _ _ hx
  case ie => rw [trapEntry_cfg, trapEntry_status]; exact getIE_pushStack _ _
  case pp => rw [trapEntry_cfg, trapEntry_status]; exact getPP_pushStack _ hx hy hle
  case status =>
    intro i hie hpie hpp
    rw [trapEntry_cfg, trapEntry_status]
    exact pushStack_other _ (fixMstatus_idem ..) hie hpie hpp

/-- Settles O34: an exception is never handled below the mode that raised it, and of an interrupt the premise says so. -/
theorem trapEntryEffect : Obligations.TrapEntryEffect := by
  intro s intr code bad hy hcode hintr
  have hle : modeLe s.hart.priv (trapTarget s intr code) = true := by
    cases intr with
    | false => exact le_trapTarget_exception s code
    | true => exact hintr rfl
  exact ⟨hle, trapEntry_tookTrap bad hy hcode hle⟩

end Sys2Proof.Exceptions
end

section
/-! PROOFS. What a write of 0 to a delegation register leaves (60_exceptions.md R192), and the PLIC's output and Accept Request
(R232, R236). -/

namespace Sys2Proof.Exceptions
open Sys2Proof.Machine

/-! ### Delegation registers -/

/-- The advance changes no delegation register. -/
theorem advance_edeleg (s : State) (x : Mode) : s.advance.hart.edeleg x = s.hart.edeleg x := by
  rcases advance_cases s with ⟨_, e⟩ | ⟨_, e⟩ <;> rw [e] <;> cases x <;> rfl

/-- The advance changes no delegation register. -/
theorem advance_ideleg (s : State) (x : Mode) : s.advance.hart.ideleg x = s.hart.ideleg x := by
  rcases advance_cases s with ⟨_, e⟩ | ⟨_, e⟩ <;> rw [e] <;> cases x <;> rfl

/-- A write to an integer register changes no delegation register. -/
theorem setX_edeleg (s : State) (r : BitVec 5) (v : Word) (x : Mode) : (s.setX r v).hart.edeleg x = s.hart.edeleg x := by
  cases x <;> rfl

/-- A write to an integer register changes no delegation register. -/
theorem setX_ideleg (s : State) (r : BitVec 5) (v : Word) (x : Mode) : (s.setX r v).hart.ideleg x = s.hart.ideleg x := by
  cases x <;> rfl

/-- A write of 0 to an exception delegation register leaves it 0. -/
theorem edeleg_csrPut_zero (s : State) (x : Mode) : (csrPut s (.edeleg x) 0#64).hart.edeleg x = 0#64 := by
  rw [csrPut, State.setHart_hart, edeleg_setEdeleg]
  cases x with
  | u => rfl
  | _ => simp

/-- A write of 0 to an interrupt delegation register leaves it 0. -/
theorem ideleg_csrPut_zero (s : State) (x : Mode) : (csrPut s (.ideleg x) 0#64).hart.ideleg x = 0#64 := by
  rw [csrPut, State.setHart_hart, ideleg_setIdeleg]
  cases x with
  | u => rfl
  | _ => simp

/-- CSRRW x0, a, x0 writes 0 to the CSR that the checks let through, where the write is not refused and the pc can advance. -/
theorem exec_csrrw_zero {s : State} {a : BitVec 12} {r : Csr} (ha : csrAccess s.cfg s.hart.priv a true = some r)
    (hr : csrRefusal s.cfg s.hart r 0#64 = none) (hc : CanAdvance s) :
    exec (.csrrw 0#5 a 0#5) s = .next ((csrPut s r 0#64).setX 0#5 (csrValue s r)).advance := by
  have hcan : ((csrPut s r 0#64).setX 0#5 (csrValue s r)).canAdvance = true := by
    obtain ⟨k, n, e, _, hpc, _⟩ := csrPut_frame s r 0#64
    rw [canAdvance_congr (s := s) (by rw [e]; rfl) (by rw [e]; exact hpc)]
    exact (canAdvance_iff s).mpr hc
  have hx : exec (.csrrw 0#5 a 0#5) s = csrInstr 0#5 a false true (fun _ => 0#64) s := rfl
  rw [hx]
  rcases csrInstr_cases 0#5 a false true (fun _ => 0#64) s with ⟨hn, _⟩ | ⟨q, hq, ⟨hw, _⟩ | ⟨_, _, e⟩ | ⟨_, _, he, _⟩⟩
  · rw [ha] at hn; cases hn
  · cases hw
  · rw [ha] at hq
    cases hq
    rw [e]
    simp [State.complete, hcan]
  · rw [ha] at hq
    cases hq
    rw [hr] at he; cases he

/-- A chain of delegation registers whose first is 0 ends at once. -/
theorem delegChain_of_zero {d : Mode → Word} {x : Mode} (h : d x = 0#64) (code : Nat) (zs : List Mode) :
    delegChain d code x zs = x := by
  cases zs with
  | nil => rfl
  | cons z zs => simp [delegChain, h]

/-- Settles O33: the write effect of either register masks the value written, and a chain of delegation starts at M. -/
theorem noDelegationBitHardwired : Obligations.NoDelegationBitHardwired := by
  refine ⟨fun s a r x hr ha hc => ?_, fun c h intr code he hi => ?_⟩
  · rcases hr with rfl | rfl
    · refine ⟨_, exec_csrrw_zero ha rfl hc, ?_⟩
      rw [csrValue, advance_edeleg, setX_edeleg, edeleg_csrPut_zero]
    · refine ⟨_, exec_csrrw_zero ha rfl hc, ?_⟩
      rw [csrValue, advance_ideleg, setX_ideleg, ideleg_csrPut_zero]
  · refine delegChain_of_zero ?_ code _
    cases intr with
    | false => exact he
    | true => exact hi

/-! ### The external-interrupt-pending output -/

/-- A source raises the output of a target when it is pending, enabled and above the threshold. -/
theorem raises_iff (c : Config) (p : Plic) (g k : Nat) :
    raises c p g k = true ↔ pendingOf p k = true ∧ enableOf p g k = true ∧ thrOf c p g < prioOf c p k := by
  simp [raises, and_assoc]

/-- The output of a target is on when some source raises it. -/
theorem eip_iff (c : Config) (p : Plic) (g : Nat) :
    eip c p g = true ↔ ∃ k, 1 ≤ k ∧ k ≤ c.nsrc ∧ raises c p g k = true := by
  simp only [eip, List.any_eq_true, List.mem_range]
  constructor
  · rintro ⟨j, hj, hr⟩
    exact ⟨j + 1, by omega, by omega, hr⟩
  · rintro ⟨k, h1, h2, hr⟩
    refine ⟨k - 1, by omega, ?_⟩
    rwa [Nat.sub_add_cancel h1]

/-- What is read from sparse data satisfies what the default and every entry satisfy. -/
theorem storeGet_of_forall {α : Type} {d : α} {P : α → Prop} (hd : P d) {m : List (Nat × α)} (hm : ∀ p ∈ m, P p.2) (a : Nat) :
    P (storeGet d m a) := by
  induction m with
  | nil => exact hd
  | cons p m ih =>
    unfold storeGet
    split
    · exact hm p List.mem_cons_self
    · exact ih (fun q hq => hm q (List.mem_cons_of_mem _ hq))

/-- No priority is above `MAX_PRI`: neither a fixed one nor a stored one. -/
theorem prioOf_le_maxPri {c : Config} {p : Plic} (hc : c.plicOk = true) (hp : ∀ q ∈ p.prio, q.2 ≤ c.maxPri) (k : Nat) :
    prioOf c p k ≤ c.maxPri := by
  have hfix : ∀ q ∈ c.prioFixed, q.2 ≤ c.maxPri := by
    simp only [Config.plicOk, Bool.and_eq_true] at hc
    obtain ⟨⟨_, hall⟩, _⟩ := hc
    simpa using hall
  unfold prioOf
  cases hl : c.prioFixed.lookup k with
  | none => exact storeGet_of_forall (P := (· ≤ c.maxPri)) (Nat.zero_le _) hp k
  | some v => exact hfix _ (mem_of_lookup hl)

/-- Settles O45: no priority is above a threshold of `MAX_PRI`. -/
theorem externalPending : Obligations.ExternalPending := by
  refine fun s g => ⟨?_, fun hc ⟨hprio, _⟩ hthr => ?_⟩
  · rw [eip_iff]; simp only [raises_iff]
  · rw [Bool.eq_false_iff]
    intro he
    obtain ⟨k, _, _, hr⟩ := (eip_iff ..).mp he
    obtain ⟨_, _, habove⟩ := (raises_iff ..).mp hr
    have := prioOf_le_maxPri hc hprio k
    omega

/-! ### Accept Request -/

/-- A removal takes away the first entry that the test holds of. -/
theorem removeFirst_append {α : Type} (f : α → Bool) {a : α} (ha : f a = true) {pre post : List α}
    (hpre : ∀ b ∈ pre, f b = false) : removeFirst f (pre ++ a :: post) = pre ++ post := by
  induction pre with
  | nil => simp [removeFirst, ha]
  | cons b pre ih =>
    simp [removeFirst, hpre b List.mem_cons_self, ih (fun c hc => hpre c (List.mem_cons_of_mem _ hc))]

/-- Accept Request for a source with a request queued and its pending bit clear. -/
theorem doAccept_queued {s : State} {k : Nat} (hq : k ∈ s.plic.reqQ) (hp : pendingOf s.plic k = false) :
    doAccept s k =
      { s with plic := { s.plic with reqQ := removeFirst (fun j => j == k) s.plic.reqQ }.setPending k true } := by
  simp [doAccept, hq, hp]

/-- A request of a source that is pending stays queued. -/
theorem doAccept_pending {s : State} {k : Nat} (hp : pendingOf s.plic k = true) : doAccept s k = s := by
  simp [doAccept, hp]

/-- The step of a state whose schedule begins with an Accept Request. -/
theorem step_accept {s : State} {k : Nat} {rest : List Event} (hs : s.sched = .accept k :: rest) :
    step s = .next (doAccept (popEvent s) k) := by
  rw [step_eq]; simp [nextEvent, hs, runEvent]

/-- Settles O49: the request removed is the first of its source, and one bit of the pending array is set. -/
theorem acceptStep : Obligations.AcceptStep := by
  intro s k rest pre post hk hs hq hpre
  rw [step_accept hs]
  refine ⟨fun hp => ?_, fun hp => by rw [doAccept_pending (s := popEvent s) hp]⟩
  have hmem : k ∈ (popEvent s).plic.reqQ := by rw [popEvent_plic, hq]; simp
  have hrem : removeFirst (fun j => j == k) s.plic.reqQ = pre ++ post := by
    rw [hq]
    exact removeFirst_append (fun j => j == k) (beq_self_eq_true k) (fun b hb => beq_false_of_ne (fun e => hpre (e ▸ hb)))
  refine ⟨_, rfl, ?_, ?_, fun j => ?_⟩ <;> rw [doAccept_queued hmem hp]
  · simp [popEvent, hs]
  · rw [popEvent_plic, hrem]; rfl
  · exact pendingOf_setPending _ k j true hk

end Sys2Proof.Exceptions
end

section
/-! PROOFS. A hart's mode changes only by a trap upward or by a return downward, in a step of that hart (60_exceptions.md R211): every
part of a step is shown to keep the modes, or to be one trap entry or one trap return of the current hart. -/

namespace Sys2Proof.Exceptions
open Sys2Proof.Machine

/-! ### States in which every hart has the same mode -/

/-- Every hart of s is a hart of t in the same mode, and t has no other. -/
def SameModes (s t : State) : Prop := ∀ k, (t.hartAt k).map Hart.priv = (s.hartAt k).map Hart.priv

theorem SameModes.refl (s : State) : SameModes s s := fun _ => rfl

theorem SameModes.trans {s t u : State} (h : SameModes s t) (g : SameModes t u) : SameModes s u :=
  fun k => (g k).trans (h k)

/-- A change inside the current hart that keeps its mode. -/
theorem sameModes_of_eq {s t : State} (hid : t.hid = s.hid) (hp : t.parked = s.parked) (hm : t.hart.priv = s.hart.priv) :
    SameModes s t := by
  intro k
  by_cases hk : k = s.hid
  · subst hk
    rw [hartAt_self, ← hid, hartAt_self]
    exact congrArg some hm
  · rw [hartAt_congr hid hp hk]

/-- Two states with the same modes have a hart of a number in one mode. -/
theorem SameModes.priv_eq {s t : State} (h : SameModes s t) {k : Nat} {g g' : Hart} (hg : s.hartAt k = some g)
    (hg' : t.hartAt k = some g') : g'.priv = g.priv := by
  simpa [hg, hg'] using h k

/-- The advance keeps the modes. -/
theorem sameModes_advance (s : State) : SameModes s s.advance := by
  refine sameModes_of_eq (by simp) (by simp) ?_
  rcases advance_cases s with ⟨_, e⟩ | ⟨_, e⟩ <;> rw [e] <;> rfl

/-- A change of one hart that keeps its mode. -/
theorem sameModes_modHart (s : State) (h : Nat) {f : Hart → Hart} (hf : ∀ k, (f k).priv = k.priv) :
    SameModes s (s.modHart h f) := by
  intro k
  rw [modHart_hartAt]
  split
  · rw [Option.map_map, show Hart.priv ∘ f = Hart.priv from funext hf]
  · rfl

/-- A register written and the pc advanced. -/
theorem sameModes_setX_advance (s : State) (r : BitVec 5) (v : Word) : SameModes s (s.setX r v).advance :=
  (sameModes_of_eq rfl rfl rfl : SameModes s (s.setX r v)).trans (sameModes_advance _)

/-! ### What the current hart's part of a step does to the modes -/

/-- From s to t: no mode changed, the current hart took a trap at its pc, into a mode at least as privileged, or it returned from
one by a legal xRET. -/
inductive ModeStep (s t : State) : Prop where
  | same (h : SameModes s t)
  | trap (intr : Bool) (code : Nat) (bad : Option Word) (hcode : code < s.cfg.xlen.bits)
      (hle : modeLe s.hart.priv (trapTarget s intr code) = true) (ht : t = trapEntry intr code s.hart.pc bad s)
  | ret (x : Mode) (hx : xretLegal s.cfg s.hart.priv x = true) (ht : t = xretState x s)

/-- An exception at the hart's pc is never handled below the mode that raised it. -/
theorem modeStep_exception (s : State) (e : Exn) (bad : Option Word) :
    ModeStep s (trapEntry false (excCode e) s.hart.pc bad s) :=
  .trap false _ bad (Nat.lt_of_lt_of_le (excCode_lt e) (by cases s.cfg.xlen <;> decide)) (le_trapTarget_exception ..) rfl

/-- Every implemented interrupt is a bit below XLEN. -/
theorem lt_xlen_of_irqMask {c : Config} {i : Nat} (h : (irqMask c).getLsbD i = true) : i < c.xlen.bits := by
  rw [irqMask_getLsbD, localMask_getLsbD] at h
  by_cases hi : i < 12
  · exact Nat.lt_of_lt_of_le hi (by cases c.xlen <;> decide)
  · rw [levelMask_high c i (by omega)] at h
    simp only [Bool.false_or, Bool.and_eq_true, decide_eq_true_eq] at h
    exact h.2.2

/-- A takeable interrupt is implemented, and its target is at least as privileged as the current mode (60_exceptions.md R195). -/
theorem takeable_target {c : Config} {h : Hart} {i : Nat} (ht : takeable c h i = true) :
    (irqMask c).getLsbD i = true ∧ modeLe h.priv (intTarget c h i) = true := by
  simp only [takeable, Bool.and_eq_true, Hart.pending, BitVec.getLsbD_and, globallyEnabled, Bool.or_eq_true, beq_iff_eq] at ht
  obtain ⟨⟨⟨_, himpl⟩, _⟩, hen⟩ := ht
  refine ⟨himpl, ?_⟩
  rcases hen with hlt | ⟨heq, _⟩
  · exact decide_eq_true (Nat.le_of_lt (of_decide_eq_true hlt))
  · exact decide_eq_true (Nat.le_of_eq (congrArg modeNum heq))

/-- Taking an interrupt is a trap, or changes nothing. -/
theorem takeInterrupt_modeStep (s : State) (i : Nat) : ModeStep s (takeInterrupt s i) := by
  rcases takeInterrupt_cases s i with ⟨_, ht, e⟩ | e <;> rw [e]
  · obtain ⟨himpl, hle⟩ := takeable_target ht
    exact .trap true i none (lt_xlen_of_irqMask himpl) hle rfl
  · exact .same (.refl s)

/-- A CSR access changes no mode; where the checks fail it is an exception. -/
theorem csrInstr_modeStep {rd : BitVec 5} {a : BitVec 12} {reads writes : Bool} {f : Word → Word} {s t : State}
    (h : csrInstr rd a reads writes f s = .next t) : ModeStep s t := by
  rcases csrInstr_next h with ⟨_, rfl⟩ | ⟨r, s1, s2, _, h1, h2, rfl⟩
  · exact modeStep_exception s .illegal none
  · have read : SameModes s s1 := by
      rcases h1 with rfl | rfl
      · exact .refl _
      · obtain ⟨_, _, _, e⟩ := csrAfterRead_frame s r
        rw [e]; exact sameModes_of_eq rfl rfl rfl
    have write : SameModes s1 s2 := by
      rcases h2 with rfl | h2
      · exact .refl _
      · obtain ⟨_, _, rfl, _, _, hpriv, _⟩ := csrWrite_frame h2
        exact sameModes_of_eq rfl rfl hpriv
    exact .same ((read.trans write).trans (sameModes_setX_advance _ _ _))

/-- A load changes no mode, or is an exception. -/
theorem loadTo_modeStep {w : Width} {rd : BitVec 5} {a : Word} {s t : State} (h : loadTo w rd a s = .next t) : ModeStep s t := by
  rcases loadTo_next h with ⟨e, rfl⟩ | ⟨g, rfl⟩ | ⟨v, s1, hm, rfl⟩
  · exact modeStep_exception s e _
  · exact .same (sameModes_of_eq rfl rfl rfl)
  · obtain ⟨_, _, _, _, _, _, rfl, _⟩ := memRead_value_frame hm
    refine .same (.trans ?_ (sameModes_setX_advance _ _ _))
    exact sameModes_of_eq rfl rfl rfl

/-- A write to memory or to a device changes no mode of any hart. -/
theorem memWrite_sameModes {w : Width} {a : Nat} {v : Word} {s t : State} (h : memWrite s w a v = .done t) : SameModes s t := by
  rcases memWrite_done h with ⟨_, _, rfl⟩ | ⟨_, k, _, b, _, rfl⟩ | ⟨_, k, _, f, _, rfl⟩ | ⟨_, _, rfl⟩
  · exact sameModes_of_eq rfl rfl rfl
  · exact sameModes_modHart _ _ (fun _ => rfl)
  · exact sameModes_modHart _ _ (fun _ => rfl)
  · exact sameModes_of_eq rfl rfl rfl

/-- A store changes no mode, or is an exception. -/
theorem storeFrom_modeStep {w : Width} {v a : Word} {s t : State} (h : storeFrom w v a s = .next t) : ModeStep s t := by
  rcases storeFrom_next h with ⟨e, rfl⟩ | ⟨s1, hm, rfl⟩
  · exact modeStep_exception s e _
  · exact .same ((memWrite_sameModes hm).trans (sameModes_advance s1))

/-- An instruction changes no mode, or is an exception or a trap return. -/
theorem exec_modeStep {i : Instr} {s t : State} (h : exec i s = .next t) : ModeStep s t := by
  rcases exec_next h with ⟨e, bad, _, rfl⟩ | ⟨x, hx, rfl⟩ | ⟨_, _, _, _, _, _, hc⟩ | ⟨_, _, _, hl⟩ | ⟨_, _, _, hst⟩ | ⟨_, _, _, rfl⟩ |
    ⟨rd, v, _, rfl⟩ | rfl
  · exact modeStep_exception s e bad
  · exact .ret x hx rfl
  · exact csrInstr_modeStep hc
  · exact loadTo_modeStep hl
  · exact storeFrom_modeStep hst
  · exact .same (sameModes_of_eq rfl rfl rfl)
  · exact .same (sameModes_setX_advance _ _ _)
  · exact .same (sameModes_advance s)

/-- A hart that fetches takes an exception, or does what its instruction does. -/
theorem execNext_modeStep {s t : State} (h : execNext s = .next t) : ModeStep s t := by
  rcases execNext_next h with ⟨e, bad, _, rfl⟩ | ⟨_, _, hi⟩
  · exact modeStep_exception s e bad
  · exact exec_modeStep hi

/-- Finishing a claim load changes no mode. -/
theorem finishClaim_sameModes {s t : State} {w : Waiting} (h : finishClaim s w = .next t) : SameModes s t := by
  rcases finishClaim_next h with rfl | ⟨r, _, _, rfl⟩
  · exact .refl _
  · refine .trans ?_ (sameModes_setX_advance _ _ _)
    exact sameModes_of_eq rfl rfl rfl

/-! ### What an event does to the modes -/

/-- The platform's local interrupt line changes no mode. -/
theorem doLocalIrq_sameModes (s : State) (h i : Nat) (b : Bool) : SameModes s (doLocalIrq s h i b) := by
  unfold doLocalIrq
  split
  · exact sameModes_modHart _ _ (fun _ => rfl)
  · exact .refl s

/-- The notification of a target changes no mode. -/
theorem doNotify_sameModes (s : State) (g : Nat) : SameModes s (doNotify s g) := by
  rcases doNotify_cases s g with e | ⟨_, _, _, e⟩ <;> rw [e]
  · exact .refl s
  · exact sameModes_modHart _ _ (fun _ => rfl)

/-- An event changes no mode, or it is the event of some hart, which runs or takes an interrupt as the current one. -/
theorem runEvent_modes {e : Event} {s t : State} (h : runEvent e s = .next t) :
    SameModes s t ∨
    ∃ k, (e = .run k ∨ ∃ i, e = .interrupt k i) ∧ hasHart s k = true ∧ ModeStep (s.switchTo k) t := by
  rcases runEvent_next h with rfl | ⟨k, w, rfl, hk, _, hf⟩ | ⟨k, rfl, hk, _, hx⟩ | ⟨k, i, rfl, hk, rfl⟩ | ⟨_, _, rfl⟩ | ⟨k, _, rfl⟩ |
    ⟨k, b, _, rfl⟩ | ⟨k, _, rfl⟩ | ⟨k, i, b, _, rfl⟩ | ⟨k, _, rfl⟩ | ⟨k, _, rfl⟩ | ⟨k, _, rfl⟩ | ⟨k, _, rfl⟩ | ⟨k, i, _, rfl⟩ | ⟨k, _, rfl⟩
  · exact .inl (.refl _)
  · exact .inr ⟨k, .inl rfl, hk, .same (finishClaim_sameModes hf)⟩
  · exact .inr ⟨k, .inl rfl, hk, execNext_modeStep hx⟩
  · exact .inr ⟨k, .inr ⟨i, rfl⟩, hk, takeInterrupt_modeStep _ i⟩
  all_goals left
  · exact sameModes_of_eq rfl rfl rfl
  · exact sameModes_modHart _ _ (fun q => by split <;> rfl)
  · obtain ⟨_, e⟩ := doLine_frame s k b; rw [e]; exact sameModes_of_eq rfl rfl rfl
  · obtain ⟨_, e⟩ := doEdge_frame s k; rw [e]; exact sameModes_of_eq rfl rfl rfl
  · exact doLocalIrq_sameModes s k i b
  · obtain ⟨_, _, e⟩ := doForward_frame s k; rw [e]; exact sameModes_of_eq rfl rfl rfl
  · obtain ⟨_, _, e⟩ := doAccept_frame s k; rw [e]; exact sameModes_of_eq rfl rfl rfl
  · obtain ⟨_, _, _, _, _, e⟩ := doWrite_frame s k; rw [e]; exact sameModes_of_eq rfl rfl rfl
  · obtain ⟨_, _, _, e⟩ := doClaim_frame s k; rw [e]; exact sameModes_of_eq rfl rfl rfl
  · obtain ⟨_, _, e⟩ := doComplete_frame s k i; rw [e]; exact sameModes_of_eq rfl rfl rfl
  · exact doNotify_sameModes s k

/-! ### How a mode changes -/

/-- From g to g' a hart was trapped into a more privileged mode, at that mode's vector. -/
def TrappedUp (c : Config) (g g' : Hart) : Prop :=
  modeLt g.priv g'.priv = true ∧ g'.pc = align4 (g.trapRegs g'.priv).tvec ∧
    (g'.trapRegs g'.priv).epc = align4 g.pc ∧ getPP (g'.status c) g'.priv = g.priv

/-- From g to g' a hart returned into a less privileged mode, at the address that the returning mode x saved. -/
def ReturnedDown (c : Config) (g g' : Hart) : Prop :=
  modeLt g'.priv g.priv = true ∧ ∃ x, canHandle c x = true ∧ modeLe x g.priv = true ∧ modeLe g'.priv x = true ∧
    getPP (g.status c) x = g'.priv ∧ g'.pc = align4 (g.trapRegs x).epc

theorem modeLe_trans {x y z : Mode} (h : modeLe x y = true) (g : modeLe y z = true) : modeLe x z = true :=
  decide_eq_true (Nat.le_trans (of_decide_eq_true h) (of_decide_eq_true g))

theorem modeLt_of_le_of_ne {x y : Mode} (h : modeLe x y = true) (hne : x ≠ y) : modeLt x y = true :=
  decide_eq_true (Nat.lt_of_le_of_ne (of_decide_eq_true h) (fun e => hne (modeNum_inj e)))

/-- The previous mode that a supported mode x saved is at most x, where the xPP fields are legal (10_state.md R27). -/
theorem getPP_le {c : Config} {h : Hart} (hl : ModesLegal c h) {x : Mode} (hx : hasMode c x = true) :
    modeLe (getPP (h.status c) x) x = true := by
  obtain ⟨_, hpp⟩ := hl
  by_cases hu : x = .u
  · subst hu; rfl
  · have hmem : getPP (h.status c) x ∈ supportedUpTo c x := by simpa [ppLegal, hx] using hpp x hu
    obtain ⟨_, hle⟩ := Bool.and_eq_true_iff.mp (List.mem_filter.mp hmem).2
    exact hle

/-- A trap that changes the mode, from a supported one, goes up. -/
theorem trapEntry_trappedUp {s : State} {intr : Bool} {code : Nat} {bad : Option Word} (hy : hasMode s.cfg s.hart.priv = true)
    (hcode : code < s.cfg.xlen.bits) (hle : modeLe s.hart.priv (trapTarget s intr code) = true)
    (hne : trapTarget s intr code ≠ s.hart.priv) :
    TrappedUp s.cfg s.hart (trapEntry intr code s.hart.pc bad s).hart :=
  have took := trapEntry_tookTrap bad hy hcode hle
  ⟨modeLt_of_le_of_ne hle hne.symm, took.vector, took.epc, took.pp⟩

/-- A legal return that changes the mode goes down. -/
theorem xretState_returnedDown {s : State} {x : Mode} (hl : ModesLegal s.cfg s.hart)
    (hx : xretLegal s.cfg s.hart.priv x = true) (hne : (xretState x s).hart.priv ≠ s.hart.priv) :
    ReturnedDown s.cfg s.hart (xretState x s).hart := by
  obtain ⟨hcan, hxle⟩ := Bool.and_eq_true_iff.mp hx
  have hpp := getPP_le hl (canHandle_hasMode hcan)
  exact ⟨modeLt_of_le_of_ne (modeLe_trans hpp hxle) hne, x, hcan, hxle, hpp, rfl, rfl⟩

/-- A hart whose mode changes in the current hart's part of a step is the current hart, trapped up or returned down. -/
theorem ModeStep.change {s t : State} (h : ModeStep s t) (hl : ModesLegal s.cfg s.hart) {k : Nat} {g g' : Hart}
    (hg : s.hartAt k = some g) (hg' : t.hartAt k = some g') (hne : g'.priv ≠ g.priv) :
    k = s.hid ∧ (TrappedUp s.cfg g g' ∨ ReturnedDown s.cfg g g') := by
  have current : t.hid = s.hid → t.parked = s.parked → k = s.hid ∧ g = s.hart ∧ g' = t.hart := by
    intro hid hp
    by_cases hk : k = s.hid
    · subst hk
      rw [hartAt_self] at hg
      rw [← hid, hartAt_self] at hg'
      exact ⟨rfl, (Option.some.inj hg).symm, (Option.some.inj hg').symm⟩
    · rw [hartAt_congr hid hp hk, hg] at hg'
      cases hg'
      exact absurd rfl hne
  cases h with
  | same hs => exact absurd (hs.priv_eq hg hg') hne
  | trap intr code bad hcode hle ht =>
    subst ht
    obtain ⟨rfl, rfl, rfl⟩ := current rfl rfl
    exact ⟨rfl, .inl (trapEntry_trappedUp hl.1 hcode hle hne)⟩
  | ret x hx ht =>
    subst ht
    obtain ⟨rfl, rfl, rfl⟩ := current rfl rfl
    exact ⟨rfl, .inr (xretState_returnedDown hl hx hne)⟩

/-- Every hart of the machine after reset is in the reset state. -/
theorem resetWith_hartAt {c : Config} {k : Nat} {g : Hart} (h : (State.resetWith c).hartAt k = some g) : g = Hart.reset c := by
  unfold State.hartAt at h
  split at h
  · exact (Option.some.inj h).symm
  · obtain ⟨_, _, e⟩ := List.mem_map.mp (mem_of_lookup h)
    exact (congrArg Prod.snd e).symm

/-- Settles O38: a mode changes only in the part of a step that the current hart takes, there only by a trap or a return, and making
a hart the current one changes the state of no hart. -/
theorem modeChangesOnlyByTrapOrReturn : Obligations.ModeChangesOnlyByTrapOrReturn := by
  refine ⟨fun s t k g g' hd hl hs hg hg' hne => ?_, fun c k g hg => by rw [resetWith_hartAt hg]; rfl⟩
  rw [step_eq] at hs
  rcases runEvent_modes hs with same | ⟨j, hev, hj, hm⟩
  · exact absurd (same.priv_eq (s := popEvent s) hg hg') hne
  · have hcfg : ((popEvent s).switchTo j).cfg = s.cfg := by simp
    have hlj : ModesLegal ((popEvent s).switchTo j).cfg ((popEvent s).switchTo j).hart := by
      rw [hcfg]; exact (switchTo_everyHart (popEvent s) j hl).1
    have hgj : ((popEvent s).switchTo j).hartAt k = some g := by
      rw [switchTo_hartAt (s := popEvent s) hd]; exact hg
    obtain ⟨hk, hchange⟩ := hm.change hlj hgj hg' hne
    rw [switchTo_hid hj] at hk
    rw [hcfg] at hchange
    subst hk
    exact ⟨hev, hchange⟩

end Sys2Proof.Exceptions
end

section
/-! PROOFS. Decoding and encoding are inverse (30_encoding.md): the rows of the opcode table are shown to be disjoint, so that the
row that matches a word is the one its decoding uses. -/

namespace Sys2Proof.Encoding

/-! ### Words from their parts -/

/-- Two adjacent fields of a word are one field. -/
theorem join {w : BitVec 32} {s t m n : Nat} (h : t = s + n) :
    w.extractLsb' t m ++ w.extractLsb' s n = w.extractLsb' s (m + n) :=
  BitVec.extractLsb'_append_extractLsb'_eq_extractLsb' h

/-- The four bytes of a word, put together, are the word. -/
theorem wordOfBytes_bytesOfWord (w : BitVec 32) :
    wordOfBytes (w.extractLsb' 0 8) (w.extractLsb' 8 8) (w.extractLsb' 16 8) (w.extractLsb' 24 8) = w := by
  unfold wordOfBytes
  rw [join (by rfl), join (by rfl), join (by rfl)]
  exact BitVec.extractLsb'_eq_self

/-- The bytes of a word decode as the word does. -/
theorem decodeBytes_bytesOfWord (xl : XLen) (w : BitVec 32) : decodeBytes xl (bytesOfWord w) = decode xl w := by
  rw [bytesOfWord, decodeBytes, wordOfBytes_bytesOfWord]

/-- The fields of the I formats make up the word. -/
theorem encodeI_fields (w : BitVec 32) :
    encodeI (csrField w) (rs1Field w) (w.extractLsb' 12 3) (rdField w) (w.extractLsb' 0 7) = w := by
  unfold encodeI csrField rs1Field rdField
  rw [join (by rfl), join (by rfl), join (by rfl), join (by rfl)]
  exact BitVec.extractLsb'_eq_self

/-- The fields of the U format make up the word. -/
theorem encodeU_fields (w : BitVec 32) : encodeU (immU w) (rdField w) (w.extractLsb' 0 7) = w := by
  unfold encodeU immU rdField
  rw [join (by rfl), join (by rfl)]
  exact BitVec.extractLsb'_eq_self

/-- The fields of the S format make up the word. -/
theorem encodeS_fields (w : BitVec 32) :
    encodeS (immS w) (rs2Field w) (rs1Field w) (w.extractLsb' 12 3) (w.extractLsb' 0 7) = w := by
  have hi : (immS w).extractLsb' 5 7 = w.extractLsb' 25 7 := BitVec.extractLsb'_append_eq_left
  have lo : (immS w).extractLsb' 0 5 = w.extractLsb' 7 5 := BitVec.extractLsb'_append_eq_right
  unfold encodeS
  rw [hi, lo, rs2Field, rs1Field, join (by rfl), join (by rfl), join (by rfl), join (by rfl), join (by rfl)]
  exact BitVec.extractLsb'_eq_self

/-- The fields of the B format make up the word. -/
theorem encodeB_fields (w : BitVec 32) :
    encodeB (immB w) (rs2Field w) (rs1Field w) (w.extractLsb' 12 3) (w.extractLsb' 0 7) = w := by
  have f1 : (immB w).extractLsb' 12 1 = w.extractLsb' 31 1 :=
    (extract_high _ _ _ _ (by decide)).trans <| (extract_high _ _ _ _ (by decide)).trans <|
      (extract_high _ _ _ _ (by decide)).trans <| (extract_high _ _ _ _ (by decide)).trans BitVec.extractLsb'_eq_self
  have f2 : (immB w).extractLsb' 5 6 = w.extractLsb' 25 6 :=
    (extract_high _ _ _ _ (by decide)).trans <| (extract_high _ _ _ _ (by decide)).trans <|
      (extract_low _ _ _ _ (by decide)).trans BitVec.extractLsb'_eq_self
  have f3 : (immB w).extractLsb' 1 4 = w.extractLsb' 8 4 :=
    (extract_high _ _ _ _ (by decide)).trans <| (extract_low _ _ _ _ (by decide)).trans BitVec.extractLsb'_eq_self
  have f4 : (immB w).extractLsb' 11 1 = w.extractLsb' 7 1 :=
    (extract_high _ _ _ _ (by decide)).trans <| (extract_high _ _ _ _ (by decide)).trans <|
      (extract_high _ _ _ _ (by decide)).trans <| (extract_low _ _ _ _ (by decide)).trans BitVec.extractLsb'_eq_self
  unfold encodeB
  rw [f1, f2, f3, f4, rs2Field, rs1Field, join (by rfl), join (by rfl), join (by rfl), join (by rfl), join (by rfl),
    join (by rfl), join (by rfl)]
  exact BitVec.extractLsb'_eq_self

/-- A field that a mask keeps is the pattern's. -/
theorem field_of_mask {w m p : BitVec 32} (s n : Nat) (hm : m.extractLsb' s n = BitVec.allOnes n) (h : w &&& m = p) :
    w.extractLsb' s n = p.extractLsb' s n := by
  rw [← h, BitVec.extractLsb'_and, hm, BitVec.and_allOnes]

/-! ### The rows of the opcode table -/

/-- Two rows whose patterns differ in a bit that both masks keep. -/
def rowsConflict (r q : OpcodeRow) : Bool := r.pattern &&& q.mask != q.pattern &&& r.mask

/-- No word matches two such rows. -/
theorem not_matches_both {r q : OpcodeRow} (h : rowsConflict r q = true) (w : BitVec 32) :
    ¬ (r.matches w = true ∧ q.matches w = true) := by
  rintro ⟨hr, hq⟩
  have hr' : w &&& r.mask = r.pattern := by simpa [OpcodeRow.matches] using hr
  have hq' : w &&& q.mask = q.pattern := by simpa [OpcodeRow.matches] using hq
  have e : r.pattern &&& q.mask = q.pattern &&& r.mask := by
    rw [← hr', ← hq', BitVec.and_assoc, BitVec.and_assoc, BitVec.and_comm r.mask]
  simp [rowsConflict, e] at h

/-- Every two rows of the table differ so: a finite check of the table. -/
theorem opcodeRows_conflict (xl : XLen) : (opcodeRows xl).Pairwise (fun r q => rowsConflict r q = true) := by
  cases xl <;> decide

/-- The row that a search finds for a word is the only one the word matches. -/
theorem find?_opcodeRows {xl : XLen} {w : BitVec 32} {r : OpcodeRow} :
    (opcodeRows xl).find? (fun q => q.matches w) = some r ↔ r ∈ opcodeRows xl ∧ r.matches w = true := by
  have first : ∀ l : List OpcodeRow, l.Pairwise (fun r q => rowsConflict r q = true) → r ∈ l → r.matches w = true →
      l.find? (fun q => q.matches w) = some r := by
    intro l hl hr hm
    induction l with
    | nil => cases hr
    | cons q l ih =>
      obtain ⟨hq, hl⟩ := List.pairwise_cons.mp hl
      rcases List.mem_cons.mp hr with rfl | hr
      · exact List.find?_cons_of_pos hm
      · have : q.matches w = false := Bool.eq_false_iff.mpr (fun h => not_matches_both (hq r hr) w ⟨h, hm⟩)
        rw [List.find?_cons, this, ih hl hr]
  exact ⟨fun h => ⟨List.mem_of_find?_eq_some h, List.find?_some (p := fun q : OpcodeRow => q.matches w) h⟩,
    fun h => first _ (opcodeRows_conflict xl) h.1 h.2⟩

/-- A word decodes to what the row it matches builds. -/
theorem decode_eq_ok {xl : XLen} {w : BitVec 32} {i : Instr} :
    decode xl w = .ok i ↔ w.extractLsb' 0 2 = 3#2 ∧ ∃ r ∈ opcodeRows xl, r.matches w = true ∧ r.build w = i := by
  unfold decode
  constructor
  · intro h
    split at h
    · next h2 =>
      split at h
      · next r hr =>
        obtain ⟨hm, hw⟩ := find?_opcodeRows.mp hr
        exact ⟨h2, r, hm, hw, by simpa using h⟩
      · cases h
    · cases h
  · rintro ⟨h2, r, hr, hm, hb⟩
    rw [if_pos h2, find?_opcodeRows.mpr ⟨hr, hm⟩, ← hb]

/-- Settles O3: two rows conflict in a bit that both masks keep, for each pair of the table. -/
theorem opcodeRowsDisjoint : Obligations.OpcodeRowsDisjoint := fun xl =>
  ⟨by cases xl <;> rfl, (opcodeRows_conflict xl).imp (fun h w => not_matches_both h w), fun _ _ => decode_eq_ok⟩

/-! ### Decoding what was encoded -/

/-- A row of the table, by its place, that matches a word and builds an instruction. -/
theorem row_at {xl : XLen} {w : BitVec 32} {i : Instr} (k : Nat) {r : OpcodeRow} (hr : (opcodeRows xl)[k]? = some r)
    (hm : w &&& r.mask = r.pattern) (hb : r.build w = i) : ∃ r ∈ opcodeRows xl, r.matches w = true ∧ r.build w = i :=
  ⟨r, List.mem_of_getElem? hr, by simp [OpcodeRow.matches, hm], hb⟩

/-- The encoding of a well-formed instruction matches a row that builds the instruction. -/
theorem encode_row {xl : XLen} {i : Instr} (hi : i.wf xl = true) :
    ∃ r ∈ opcodeRows xl, r.matches (encode i) = true ∧ r.build (encode i) = i := by
  cases i with
  | ecall => exact row_at 0 rfl rfl rfl
  | ebreak => exact row_at 1 rfl rfl rfl
  | uret => exact row_at 2 rfl rfl rfl
  | sret => exact row_at 3 rfl rfl rfl
  | hret => exact row_at 4 rfl rfl rfl
  | mret => exact row_at 5 rfl rfl rfl
  | csrrw => exact row_at 6 rfl (encodeI_mask ..) (by simp [encode])
  | csrrs => exact row_at 7 rfl (encodeI_mask ..) (by simp [encode])
  | csrrc => exact row_at 8 rfl (encodeI_mask ..) (by simp [encode])
  | csrrwi => exact row_at 9 rfl (encodeI_mask ..) (by simp [encode])
  | csrrsi => exact row_at 10 rfl (encodeI_mask ..) (by simp [encode])
  | csrrci => exact row_at 11 rfl (encodeI_mask ..) (by simp [encode])
  | lui => exact row_at 12 rfl (encodeU_mask ..) (by simp [encode])
  | addi => exact row_at 13 rfl (encodeI_mask ..) (by simp [encode])
  | slli rd rs1 shamt =>
    refine row_at 14 rfl ?_ (by simp [encode])
    cases xl with
    | rv32 => exact encodeShift_mask32 _ _ _ _ _ (of_decide_eq_true hi)
    | rv64 => exact encodeShift_mask64 ..
  | lw => exact row_at 15 rfl (encodeI_mask ..) (by simp [encode])
  | sw => exact row_at 16 rfl (encodeS_mask ..) (by simp [encode])
  | blt rs1 rs2 off =>
    have hoff : off.getLsbD 0 = false := by simpa [Instr.wf, offsetOk] using hi
    exact row_at 17 rfl (encodeB_mask ..) (by simp [encode, immB_encodeB _ _ _ _ _ hoff])

/-- Every encoded word ends in 11 (30_encoding.md R110). -/
theorem encode_low (i : Instr) : (encode i).extractLsb' 0 2 = 3#2 := by
  cases i with
  | ecall | ebreak | uret | sret | hret | mret => rfl
  | lui => exact low_encodeU ..
  | sw => exact low_encodeS ..
  | blt => exact low_encodeB ..
  | _ => exact low_encodeI ..

/-- Settles O1: the encoding matches the instruction's own row, and no other row can be found for it. -/
theorem decodeInvertsEncode : Obligations.DecodeInvertsEncode := fun xl i hi => by
  rw [decodeBytes_bytesOfWord]
  exact decode_eq_ok.mpr ⟨encode_low i, encode_row hi⟩

/-! ### Encoding what was decoded -/

/-- With XLEN = 32 the mask of SLLI keeps bit 25, so the shift amount is below 32; bits 31:26 are 0 for both XLENs. -/
theorem slli_fields {xl : XLen} {w : BitVec 32} (h : w &&& slliMask xl = 0x00001013#32) :
    shamtOk xl (shamtField w) = true ∧ csrField w = 0#6 ++ shamtField w ∧ w.extractLsb' 12 3 = 0b001#3 ∧
      w.extractLsb' 0 7 = 0b0010011#7 := by
  have top : w.extractLsb' 26 6 = 0#6 := field_of_mask 26 6 (by cases xl <;> decide) h
  refine ⟨?_, ?_, field_of_mask 12 3 (by cases xl <;> decide) h, field_of_mask 0 7 (by cases xl <;> decide) h⟩
  · cases xl with
    | rv64 => exact decide_eq_true (shamtField w).isLt
    | rv32 =>
      have b : w.extractLsb' 25 1 = 0#1 := field_of_mask 25 1 (by decide) h
      have e : shamtField w = 0#1 ++ w.extractLsb' 20 5 := by rw [← b, join (by rfl)]; rfl
      refine decide_eq_true ?_
      have := (w.extractLsb' 20 5).isLt
      rw [e, BitVec.toNat_append]
      simpa [XLen.bits] using this
  · rw [← top, shamtField, join (by rfl)]; rfl

/-- A word that matches a row of the table is the encoding of what the row builds, which is well formed. -/
theorem row_encode {xl : XLen} {w : BitVec 32} {r : OpcodeRow} (hr : r ∈ opcodeRows xl) (hm : r.matches w = true) :
    encode (r.build w) = w ∧ (r.build w).wf xl = true := by
  have hw : w &&& r.mask = r.pattern := by simpa [OpcodeRow.matches] using hm
  have whole : ∀ p : BitVec 32, w &&& 0xFFFFFFFF#32 = p → p = w := fun p h => by rw [← h]; exact BitVec.and_allOnes
  have fI : ∀ (f : BitVec 3) (op : BitVec 7), w &&& 0x0000707F#32 = encodeI 0#12 0#5 f 0#5 op →
      encodeI (csrField w) (rs1Field w) f (rdField w) op = w := by
    intro f op h
    have hf : w.extractLsb' 12 3 = f :=
      (field_of_mask 12 3 (by decide) h).trans <| (extract_high _ _ _ _ (by decide)).trans <|
        (extract_high _ _ _ _ (by decide)).trans BitVec.extractLsb'_append_eq_right
    have hop : w.extractLsb' 0 7 = op := (field_of_mask 0 7 (by decide) h).trans BitVec.extractLsb'_append_eq_right
    rw [← hf, ← hop]; exact encodeI_fields w
  simp only [opcodeRows, systemRows, supportRows, List.cons_append, List.nil_append, List.mem_cons, List.not_mem_nil,
    or_false] at hr
  rcases hr with rfl | rfl | rfl | rfl | rfl | rfl | rfl | rfl | rfl | rfl | rfl | rfl | rfl | rfl | rfl | rfl | rfl | rfl
  iterate 6 (· exact ⟨whole _ hw, rfl⟩)
  iterate 6 (· exact ⟨fI _ _ hw, rfl⟩)
  · have hop : w.extractLsb' 0 7 = 0b0110111#7 := field_of_mask 0 7 (by decide) hw
    exact ⟨by rw [encode, ← hop]; exact encodeU_fields w, rfl⟩
  · exact ⟨fI _ _ hw, rfl⟩
  · obtain ⟨hs, hc, hf, hop⟩ := slli_fields hw
    exact ⟨by rw [encode, ← hc, ← hf, ← hop]; exact encodeI_fields w, hs⟩
  · exact ⟨fI _ _ hw, rfl⟩
  · have hf : w.extractLsb' 12 3 = 0b010#3 := field_of_mask 12 3 (by decide) hw
    have hop : w.extractLsb' 0 7 = 0b0100011#7 := field_of_mask 0 7 (by decide) hw
    exact ⟨by rw [encode, ← hf, ← hop]; exact encodeS_fields w, rfl⟩
  · have hf : w.extractLsb' 12 3 = 0b100#3 := field_of_mask 12 3 (by decide) hw
    have hop : w.extractLsb' 0 7 = 0b1100011#7 := field_of_mask 0 7 (by decide) hw
    refine ⟨by rw [encode, ← hf, ← hop]; exact encodeB_fields w, ?_⟩
    have even : (immB w).getLsbD 0 = false := by rw [immB, BitVec.getLsbD_append]; rfl
    simp only [Instr.wf, offsetOk, even, Bool.not_false]

/-- Settles O2: the row that a word matches fixes its opcode and function bits, and the fields give the rest of the word. -/
theorem encodeInvertsDecode : Obligations.EncodeInvertsDecode := by
  intro xl w i h
  obtain ⟨_, r, hr, hm, rfl⟩ := decode_eq_ok.mp h
  exact row_encode hr hm

/-- Settles O4: each word is looked up in the table. -/
theorem sampleWordsDecode : Obligations.SampleWordsDecode := by
  intro xl
  cases xl <;> decide

end Sys2Proof.Encoding
end

section
/-! PROOFS. The shapes that every instruction's result has: an exception taken, a register written and the pc advanced, a refusal
where the pc overflows; and with them the support subset (43_support_subset.md) and the environment calls. -/

namespace Sys2Proof.Instructions
open Sys2Proof.Machine Sys2Proof.Exceptions

/-! ### Exceptions -/

/-- An exception raised in a supported mode is the trap of R200, at the hart's own pc. -/
theorem raise_tookTrap {s : State} (e : Exn) (bad : Option Word) (hy : hasMode s.cfg s.hart.priv = true) :
    ∃ t, raise e bad s = .next t ∧ TookTrap s t false (excCode e) bad :=
  ⟨_, raise_eq .., trapEntry_tookTrap bad hy (Nat.lt_of_lt_of_le (excCode_lt e) (by cases s.cfg.xlen <;> decide))
    (le_trapTarget_exception ..)⟩

/-! ### Registers and the pc -/

@[simp] theorem getX_zero (s : State) : s.getX 0#5 = 0#64 := rfl

theorem getX_setX (s : State) (r q : BitVec 5) (v : Word) :
    (s.setX r v).getX q = if q = r ∧ q ≠ 0#5 then v else s.getX q := by
  by_cases hq : q = r
  · subst hq
    by_cases h0 : q = 0#5
    · subst h0; rfl
    · rw [if_pos ⟨rfl, h0⟩]; exact getReg_putReg_same _ _ _ h0
  · rw [if_neg (fun h => hq h.1)]; exact getReg_putReg_other _ _ _ _ hq

/-- The registers depend on the current hart's only. -/
theorem getX_congr {s t : State} (h : t.hart.x = s.hart.x) (q : BitVec 5) : t.getX q = s.getX q := by
  rw [State.getX, State.getX, h]

/-- The advance changes nothing of the hart but the pc. -/
theorem advance_hart (s : State) : s.advance.hart = { s.hart with pc := s.advance.hart.pc } := by
  rcases advance_cases s with ⟨_, e⟩ | ⟨_, e⟩ <;> rw [e] <;> rfl

@[simp] theorem advance_x (s : State) : s.advance.hart.x = s.hart.x := by rw [advance_hart]

@[simp] theorem getX_advance (s : State) (q : BitVec 5) : s.advance.getX q = s.getX q := getX_congr (advance_x s) q

/-- The advance, or any change of the current hart alone, leaves everything else as it was. -/
theorem advance_outside (s : State) : OutsideUnchanged s s.advance := by
  constructor <;> simp

/-- The advance adds 4 to the pc where the sum is below 2^XLEN, of every state with the same parameters and pc. -/
theorem advance_pcAdvanced {s u : State} (hc : u.cfg = s.cfg) (hp : u.hart.pc = s.hart.pc) : PcAdvanced s u.advance := by
  intro hlt
  have hfits : pcFits u.cfg.xlen u.hart.pc = true := by rw [hc, hp]; exact decide_eq_true hlt
  have h64 : s.hart.pc.toNat + 4 < 2 ^ 64 :=
    Nat.lt_of_lt_of_le hlt (Nat.pow_le_pow_right (by decide) (by cases s.cfg.xlen <;> decide))
  rcases advance_cases u with ⟨_, e⟩ | ⟨hn, _⟩
  · rw [e, State.setPc_hart, hp, BitVec.toNat_add]
    exact Nat.mod_eq_of_lt h64
  · rw [hfits] at hn; cases hn

/-- An instruction that ends with the default advance completes where the advance has a meaning. -/
theorem complete_of_canAdvance {s u : State} (hc : u.cfg = s.cfg) (hp : u.hart.pc = s.hart.pc) (h : CanAdvance s) :
    u.complete = .next u.advance := by
  have hcan : u.canAdvance = true := by rw [canAdvance_congr hc hp]; exact (canAdvance_iff s).mpr h
  rw [State.complete, if_pos hcan]

/-- Where the advance has no meaning the instruction is refused (10_state.md R22, D7). -/
theorem complete_refused {s u : State} (hc : u.cfg = s.cfg) (hp : u.hart.pc = s.hart.pc) (h : ¬ CanAdvance s) :
    u.complete = .refused .pcOverflow := by
  have hcan : ¬ u.canAdvance = true := by rw [canAdvance_congr hc hp]; exact fun hs => h ((canAdvance_iff s).mp hs)
  rw [State.complete, if_neg hcan]

/-- A register written and the pc advanced, nothing else. -/
theorem setX_advance_wroteRegister (s : State) (rd : BitVec 5) (v : Word) : WroteRegister s (s.setX rd v).advance rd v where
  registers q := by rw [getX_advance, getX_setX]
  pc := advance_pcAdvanced (s := s) rfl rfl
  hart := by rw [OnlyRegistersAndPc, advance_hart]; simp
  outside := by constructor <;> simp

/-- The end of an instruction that writes v to rd. -/
theorem setX_complete (s : State) (rd : BitVec 5) (v : Word) :
    (CanAdvance s → ∃ t, (s.setX rd v).complete = .next t ∧ WroteRegister s t rd v) ∧
    (¬ CanAdvance s → (s.setX rd v).complete = .refused .pcOverflow) :=
  ⟨fun h => ⟨_, complete_of_canAdvance (s := s) rfl rfl h, setX_advance_wroteRegister s rd v⟩,
    fun h => complete_refused (s := s) rfl rfl h⟩

/-- Past the top of the address space the advance is to a free multiple of 4 (notes/assumptions/13.md). -/
theorem advance_overflow {s : State} (h : 2 ^ s.cfg.xlen.bits ≤ s.hart.pc.toNat + 4) :
    s.advance = (s.setPc (align4 s.free)).drawn := by
  rcases advance_cases s with ⟨hf, _⟩ | ⟨_, e⟩
  · exact absurd (of_decide_eq_true hf) (Nat.not_lt.mpr h)
  · exact e

/-- Settles O8: the pc after an overflow is a free value cut to XLEN bits, its low two bits cleared. -/
theorem registersAndPc : Obligations.RegistersAndPc := by
  refine ⟨fun s r q v => ⟨rfl, getX_setX s r q v⟩,
    fun s => ⟨fun h => complete_of_canAdvance (s := s) rfl rfl h, fun h => complete_refused (s := s) rfl rfl h⟩,
    fun s h => ⟨?_, ?_, advance_hart s, advance_outside s⟩⟩
  · rw [advance_overflow h]; exact align4_mod _
  · rw [advance_overflow h]; exact (fits_iff _ _).mp (align4_fits (trunc_fits _ _))

/-! ### Arithmetic modulo 2^XLEN -/

/-- A number modulo 2^64 is the number modulo 2^XLEN, modulo 2^XLEN. -/
theorem mod_xlen (xl : XLen) (n : Nat) : n % 2 ^ 64 % 2 ^ xl.bits = n % 2 ^ xl.bits :=
  Nat.mod_mod_of_dvd n (Nat.pow_dvd_pow 2 (by cases xl <;> decide))

/-- The sum of a register and a signed field, modulo 2^XLEN. -/
theorem addX_sext_toNat (xl : XLen) (a : Word) {n : Nat} (v : BitVec n) (hn : n ≤ 32) :
    ((addX xl a (sext xl v)).toNat : Int) = (a.toNat + v.toInt) % 2 ^ xl.bits := by
  have e : ((2 ^ xl.bits : Nat) : Int) = 2 ^ xl.bits := by push_cast; rfl
  rw [addX, trunc_toNat, BitVec.toNat_add, mod_xlen, Int.natCast_mod, e, Int.natCast_add, sext_toNat xl v hn, Int.add_emod_emod]

/-- Settles O9: the 32-bit immediate, sign-extended. -/
theorem luiResult : Obligations.LuiResult := by
  intro s rd imm
  obtain ⟨done, refused⟩ := setX_complete s rd (immUpper s imm)
  refine ⟨fun h => ?_, refused⟩
  obtain ⟨t, ht, hw⟩ := done h
  exact ⟨t, _, ht, sext_toNat _ _ (Nat.le_refl 32), hw⟩

/-- Settles O10: the sum of a register and the signed immediate. -/
theorem addiResult : Obligations.AddiResult := by
  intro s rd rs1 imm
  obtain ⟨done, refused⟩ := setX_complete s rd (addX s.cfg.xlen (s.getX rs1) (imm12 s imm))
  refine ⟨fun h => ?_, refused⟩
  obtain ⟨t, ht, hw⟩ := done h
  exact ⟨t, _, ht, addX_sext_toNat _ _ _ (by decide), hw⟩

/-- A shift left, cut to XLEN bits. -/
theorem trunc_shiftLeft_toNat (xl : XLen) (v : Word) (n : Nat) :
    (trunc xl (v <<< n)).toNat = v.toNat * 2 ^ n % 2 ^ xl.bits := by
  rw [trunc_toNat, BitVec.toNat_shiftLeft, Nat.shiftLeft_eq, mod_xlen]

/-- Settles O11: a shift amount below XLEN writes rd, another raises Illegal instruction. -/
theorem slliResult : Obligations.SlliResult := by
  intro s rd rs1 shamt
  have legal : shamt.toNat < s.cfg.xlen.bits → exec (.slli rd rs1 shamt) s =
      (s.setX rd (trunc s.cfg.xlen (s.getX rs1 <<< shamt.toNat))).complete := fun h => if_pos h
  have illegal : s.cfg.xlen.bits ≤ shamt.toNat → exec (.slli rd rs1 shamt) s = raiseIllegal s :=
    fun h => if_neg (Nat.not_lt.mpr h)
  obtain ⟨done, refused⟩ := setX_complete s rd (trunc s.cfg.xlen (s.getX rs1 <<< shamt.toNat))
  refine ⟨fun hs h => ?_, fun hs h => ?_, fun hs hy => ?_⟩
  · obtain ⟨t, ht, hw⟩ := done h
    exact ⟨t, _, by rw [legal hs, ht], trunc_shiftLeft_toNat .., hw⟩
  · rw [legal hs, refused h]
  · rw [illegal hs]; exact raise_tookTrap .illegal none hy

/-- Whether an address is a multiple of n. -/
theorem aligned_iff (a : Word) (n : Nat) : aligned a n = true ↔ a.toNat % n = 0 := beq_iff_eq

/-- Settles O12: the three outcomes of the comparison and of the target's alignment. -/
theorem bltResult : Obligations.BltResult := by
  intro s rs1 rs2 off
  have notTaken : signedVal s.cfg.xlen (s.getX rs2) ≤ signedVal s.cfg.xlen (s.getX rs1) →
      exec (.blt rs1 rs2 off) s = s.complete := fun h => if_neg (Int.not_lt.mpr h)
  have taken : signedVal s.cfg.xlen (s.getX rs1) < signedVal s.cfg.xlen (s.getX rs2) →
      exec (.blt rs1 rs2 off) s = if aligned (branchTarget s off) 4 then .next (s.setPc (branchTarget s off))
        else raise .fetchMisaligned (some (branchTarget s off)) s := fun h => if_pos h
  refine ⟨fun hle h => ?_, fun hle h => ?_, fun hlt ha => ?_, fun hlt ha hy => ?_⟩
  · exact ⟨s.advance, by rw [notTaken hle]; exact complete_of_canAdvance (s := s) rfl rfl h, getX_advance s,
      advance_pcAdvanced rfl rfl, by rw [OnlyRegistersAndPc, advance_hart], advance_outside s⟩
  · rw [notTaken hle]; exact complete_refused (s := s) rfl rfl h
  · exact ⟨s.setPc (branchTarget s off), by rw [taken hlt, if_pos ((aligned_iff ..).mpr ha)], fun _ => rfl, rfl, rfl,
      ⟨rfl, rfl, rfl, fun _ => rfl, rfl, rfl, rfl, rfl⟩⟩
  · rw [taken hlt, if_neg (fun h => ha ((aligned_iff ..).mp h))]
    exact raise_tookTrap .fetchMisaligned _ hy

/-- Settles O25: both raise their exception whatever the state. -/
theorem environmentTraps : Obligations.EnvironmentTraps := fun s hy =>
  ⟨raise_tookTrap (.envCall s.hart.priv) none hy, raise_tookTrap .breakpoint none hy⟩

/-- Settles O16: the alignment is checked before the access. -/
theorem misalignedDataTraps : Obligations.MisalignedDataTraps := by
  intro s r rs1 imm ha hy
  have mis : aligned (dataAddr s rs1 imm) (widthBytes .word) = false :=
    Bool.eq_false_iff.mpr (fun h => ha ((aligned_iff ..).mp h))
  have lw : exec (.lw r imm rs1) s = raise .loadMisaligned (some (dataAddr s rs1 imm)) s := if_neg (by simp [mis])
  have sw : exec (.sw r imm rs1) s = raise .storeMisaligned (some (dataAddr s rs1 imm)) s := if_neg (by simp [mis])
  rw [lw, sw]
  exact ⟨raise_tookTrap .loadMisaligned _ hy, raise_tookTrap .storeMisaligned _ hy⟩

end Sys2Proof.Instructions
end

section
/-! PROOFS. The step of a hart: which hart an event names, what it fetches, and the exceptions of the fetch (30_encoding.md R117,
10_state.md R22). -/

namespace Sys2Proof.Fetching
open Sys2Proof.Machine Sys2Proof.Exceptions Sys2Proof.Instructions

/-! ### The event of the next step -/

theorem nextEvent_of_sched {s : State} {e : Event} {rest : List Event} (h : s.sched = e :: rest) : nextEvent s = e := by
  simp [nextEvent, h]

/-- The step of a state whose schedule names an event. -/
theorem step_of_sched {s : State} {e : Event} {rest : List Event} (h : s.sched = e :: rest) : step s = runEvent e (popEvent s) := by
  rw [step_eq, nextEvent_of_sched h]

theorem popEvent_of_sched {s : State} {e : Event} {rest : List Event} (h : s.sched = e :: rest) :
    popEvent s = { s with sched := rest } := by
  simp [popEvent, h]

theorem popEvent_of_idle {s : State} (h : s.sched = []) : popEvent s = s := by
  cases s; cases h; rfl

theorem runEvent_run {s : State} {h : Nat} (hh : hasHart s h = true) : runEvent (.run h) s = runHart (s.switchTo h) := if_pos hh

/-- With nothing scheduled a hart that is not held executes. -/
theorem step_of_idle {s : State} (hs : s.sched = []) (hw : s.hart.waiting = none) : step s = execNext s := by
  have hn : nextEvent s = .run s.hid := by simp [nextEvent, hs, defaultEvent, hw]
  have hh : hasHart s s.hid = true := by simp [hasHart]
  rw [step_eq, hn, popEvent_of_idle hs, runEvent_run hh, switchTo_self]
  simp [runHart, hw]

/-! ### The fetch -/

theorem fetch_of_text {s : State} (ha : s.hart.pc.toNat % 4 = 0) (ht : inRegions s.cfg.text s.hart.pc.toNat 4 = true) :
    fetch s = .bytes (fourBytes s.mem s.hart.pc.toNat) := by
  simp [fetch, (aligned_iff ..).mpr ha, ht]

/-- A hart whose pc fetches an instruction executes it. -/
theorem execNext_of_decode {s : State} {i : Instr} (ha : s.hart.pc.toNat % 4 = 0)
    (ht : inRegions s.cfg.text s.hart.pc.toNat 4 = true)
    (hd : decodeBytes s.cfg.xlen (fourBytes s.mem s.hart.pc.toNat) = .ok i) : execNext s = exec i s := by
  simp [execNext, fetch_of_text ha ht, hd]

/-- Four bytes that decode make up a word whose decoding they are. -/
theorem decodeBytes_ok {xl : XLen} {bs : List Byte} {i : Instr} (h : decodeBytes xl bs = .ok i) : i.wf xl = true := by
  unfold decodeBytes at h
  split at h
  · exact (Encoding.encodeInvertsDecode _ _ _ h).2
  · cases h

/-- Making a hart the current one exchanges two numbers, so the numbers stay distinct. -/
theorem switchTo_distinct {s : State} (hd : HartsDistinct s) (h : Nat) : HartsDistinct (s.switchTo h) := by
  obtain ⟨hout, hnd⟩ := List.nodup_cons.mp hd
  unfold State.switchTo
  split
  · exact hd
  · next hne =>
    split
    · exact hd
    · have numbers : (s.parked.map (fun p => if p.1 = h then (s.hid, s.hart) else p)).map (fun p => p.1) =
          (s.parked.map (fun p => p.1)).map (fun n => if n = h then s.hid else n) := by
        rw [List.map_map, List.map_map]
        exact List.map_congr_left (fun p _ => by by_cases hp : p.1 = h <;> simp [hp])
      unfold HartsDistinct
      rw [numbers]
      refine List.nodup_cons.mpr ⟨fun hm => ?_, hnd.map_on (fun n hn m hm e => ?_)⟩
      · obtain ⟨n, _, e⟩ := List.mem_map.mp hm
        split at e
        · exact hne e.symm
        · next hn => exact hn e
      · split at e <;> split at e
        · next h1 h2 => rw [h1, h2]
        · exact absurd (e ▸ hm) hout
        · exact absurd (e ▸ hn) hout
        · exact e

/-- Settles O5: the event names the hart, which is made the current one, and its pc is in the program text. -/
theorem stepRunsDecoded : Obligations.StepRunsDecoded := by
  refine ⟨fun s h rest i hs hh hw ha ht hd => ⟨decodeBytes_ok hd, ?_⟩, fun s i hs hw ha ht hd => ?_, fun s h hd hh => ?_⟩
  · rw [step_of_sched hs, runEvent_run (s := popEvent s) hh, runHart, hw]
    exact execNext_of_decode ha (by simpa using ht) (by simpa using hd)
  · rw [step_of_idle hs hw]; exact execNext_of_decode ha ht hd
  · exact ⟨switchTo_hid hh, switchTo_distinct hd h, switchTo_hartAt hd h⟩

/-! ### Words that are no instruction, and fetches that give none -/

/-- A word that ends otherwise than in 11, or that matches no row, decodes to no instruction. -/
theorem decode_error {xl : XLen} {w : BitVec 32} (h : w.extractLsb' 0 2 ≠ 3#2 ∨ ∀ r ∈ opcodeRows xl, r.matches w = false) :
    ∃ e, decode xl w = .error e := by
  cases hd : decode xl w with
  | error e => exact ⟨e, rfl⟩
  | ok i =>
    obtain ⟨h2, r, hr, hm, _⟩ := Encoding.decode_eq_ok.mp hd
    rcases h with h | h
    · exact absurd h2 h
    · rw [h r hr] at hm; cases hm

/-- Settles O7: a hart with nothing scheduled fetches, and each of the three ways to fail has its exception. -/
theorem fetchTraps : Obligations.FetchTraps := by
  refine ⟨fun s w hs hw ha ht hb hy hbad => ?_, fun s hs hw hy => ⟨fun ha => ?_, fun ha ht => ⟨fun hp => ?_, fun hp => ?_⟩⟩⟩
  · obtain ⟨e, he⟩ := decode_error hbad
    have : execNext s = raiseIllegal s := by
      simp [execNext, fetch_of_text ha ht, hb, Encoding.decodeBytes_bytesOfWord, he]
    rw [step_of_idle hs hw, this]
    exact raise_tookTrap .illegal none hy
  · have : execNext s = raise .fetchMisaligned (some s.hart.pc) s := by simp [execNext, fetch, aligned, ha]
    rw [step_of_idle hs hw, this]
    exact raise_tookTrap .fetchMisaligned _ hy
  all_goals
    have unmapped : execNext s = refuseFetch s := by simp [execNext, fetch, aligned, ha, ht]
    rw [step_of_idle hs hw, unmapped, refuseFetch, hp]
  exact raise_tookTrap .fetchFault _ hy

/-! ### An instruction placed where the next step fetches -/

/-- A byte of a number is the field of eight bits at its place. -/
theorem byte_of_toNat {n : Nat} (v : BitVec n) (k : Nat) : BitVec.ofNat 8 (v.toNat / 256 ^ k) = v.extractLsb' (8 * k) 8 := by
  have e : 256 ^ k = 2 ^ (8 * k) := by rw [Nat.pow_mul]
  apply BitVec.eq_of_toNat_eq
  rw [BitVec.toNat_ofNat, BitVec.extractLsb'_toNat, Nat.shiftRight_eq_div_pow, e]

/-- The four bytes at an address where a word was stored are the word's. -/
theorem fourBytes_writeBytes {m : Memory} (hm : Memory.wf m) (a : Nat) (w : BitVec 32) :
    fourBytes (writeBytes m a 4 w.toNat) a = bytesOfWord w := by
  have byte : ∀ k, k < 4 → readByte (writeBytes m a 4 w.toNat) (a + k) = w.extractLsb' (8 * k) 8 :=
    fun k hk => (readByte_writeBytes_same 4 m a _ k hm hk).trans (byte_of_toNat w k)
  have first : readByte (writeBytes m a 4 w.toNat) a = w.extractLsb' 0 8 := byte 0 (by decide)
  simp [fourBytes, bytesOfWord, first, byte 1, byte 2, byte 3]

/-- Settles O6: the reset pc lies in the default program text, and the bytes stored there decode to the instruction. -/
theorem placedWordRuns : Obligations.PlacedWordRuns := by
  intro i hi
  have hmod : (encode i).toNat % 2 ^ 32 = (encode i).toNat := Nat.mod_eq_of_lt (encode i).isLt
  have hdec : decodeBytes Config.default.xlen (bytesOfWord (encode i)) = .ok i := Encoding.decodeInvertsEncode _ i hi
  constructor
  · rw [decodeTableWord, hmod, BitVec.ofNat_toNat, BitVec.setWidth_eq, hdec]; rfl
  · have hmem : (State.reset.withFetchWord 32 (encode i).toNat).mem = writeBytes State.reset.mem 0x80000000 4 (encode i).toNat := by
      rw [State.withFetchWord, hmod]; rfl
    rw [step_of_idle rfl rfl]
    have hpc : State.reset.hart.pc.toNat % 4 = 0 := by decide
    have htext : inRegions State.reset.cfg.text State.reset.hart.pc.toNat 4 = true := by decide
    refine execNext_of_decode hpc htext ?_
    rw [hmem]
    exact (congrArg _ (fourBytes_writeBytes (reset_memory_wf _) _ _)).trans hdec

end Sys2Proof.Fetching
end

section
/-! PROOFS. Properties of a hart that every step keeps. A step changes a hart in nine ways: a trap, a trap return, a read of a counter, a
CSR write, a register write, a new pc, the start or end of a claim load, a bit of `mip`, `mtimecmp`. A property that each of these
keeps is kept by every step. -/

namespace Sys2Proof.Invariants
open Sys2Proof.Machine Sys2Proof.Exceptions Sys2Proof.Instructions

/-! ### The nine ways to change a hart -/

/-- Where the property P of a hart contains that the registers are XLEN-bit values, v is an XLEN-bit value. -/
def FitsIf (P : Config → Hart → Prop) (c : Config) (v : Word) : Prop := (∀ h, P c h → RegistersFit c h) → fits c.xlen v

/-- A property of a hart that each way to change a hart keeps, under a condition W on the configuration. -/
structure HartInvariant (W : Config → Prop) (P : Config → Hart → Prop) : Prop where
  trap : ∀ (s : State) (intr : Bool) (code : Nat) (bad : Option Word), W s.cfg → P s.cfg s.hart → code < s.cfg.xlen.bits →
    modeLe s.hart.priv (trapTarget s intr code) = true → (∀ b, bad = some b → FitsIf P s.cfg b) →
    P s.cfg (trapEntry intr code s.hart.pc bad s).hart
  ret : ∀ (s : State) (x : Mode), W s.cfg → P s.cfg s.hart → xretLegal s.cfg s.hart.priv x = true → P s.cfg (xretState x s).hart
  counters : ∀ c h cy ins, P c h → P c { h with cycle := cy, instret := ins }
  csr : ∀ (s : State) (r : Csr) (v : Word), W s.cfg → P s.cfg s.hart → csrRefusal s.cfg s.hart r v = none → FitsIf P s.cfg v →
    P s.cfg (csrPut s r v).hart
  reg : ∀ c h rd v, P c h → FitsIf P c v → P c { h with x := putReg h.x rd v }
  pc : ∀ c h v, P c h → (h.pc.toNat % 4 = 0 → v.toNat % 4 = 0) → FitsIf P c v → P c { h with pc := v }
  waiting : ∀ c h w, P c h → P c { h with waiting := w }
  mip : ∀ c h i b, W c → ((irqMask c).getLsbD i = true ∨ ∃ t k x, c.targetMap.lookup t = some (k, x) ∧ i = eipBit x) →
    P c h → P c (h.driveMip i b)
  timecmp : ∀ c h v, P c h → P c { h with mtimecmp := v }

/-! ### Values that fit -/

/-- The bits of a mask below XLEN are an XLEN-bit value, whatever else is cut by the mask. -/
theorem and_mask_fits {xl : XLen} {m : Word} (hm : fits xl m) (v : Word) : fits xl (v &&& m) := by
  rw [BitVec.and_comm]; exact and_fits hm v

/-- A value below 2^32 is an XLEN-bit value for both XLENs. -/
theorem fits_of_lt {xl : XLen} {v : Word} (h : v.toNat < 2 ^ 32) : fits xl v :=
  (fits_iff xl v).mpr (Nat.lt_of_lt_of_le h (Nat.pow_le_pow_right (by decide) (by cases xl <;> decide)))

theorem setWidth32_fits (xl : XLen) (v : BitVec 32) : fits xl (v.setWidth 64) := by
  refine fits_of_lt ?_
  rw [BitVec.toNat_setWidth, Nat.mod_eq_of_lt (Nat.lt_of_lt_of_le v.isLt (by decide))]
  exact v.isLt

theorem topBit_fits (xl : XLen) : fits xl (topBit xl) := by cases xl <;> decide

theorem fieldMask_fits (c : Config) (x : Mode) : fits c.xlen (fieldMask c x) := by
  refine fits_of_lt ?_
  cases x <;> simp only [fieldMask] <;> split <;> decide

theorem stackMask_fits (c : Config) (x : Mode) : fits c.xlen (stackMask c x) := by
  have f := fieldMask_fits c
  cases x with
  | u => exact f .u
  | s => exact or_fits (f .u) (f .s)
  | h => exact or_fits (or_fits (f .u) (f .s)) (f .h)
  | m => exact or_fits (or_fits (or_fits (f .u) (f .s)) (f .h)) (f .m)

theorem mstatusOnes_fits (c : Config) : fits c.xlen (mstatusOnes c) := by
  refine fits_of_lt ?_
  unfold mstatusOnes; split <;> decide

/-- `mstatus` as every rule reads it is an XLEN-bit value. -/
theorem status_fits (c : Config) (h : Hart) : fits c.xlen (h.status c) :=
  or_fits (and_mask_fits (or_fits (or_fits (stackMask_fits c .m) (fits_of_lt (by decide))) (topBit_fits _)) _) (mstatusOnes_fits c)

theorem irqMask_fits (c : Config) : fits c.xlen (irqMask c) := by
  refine or_fits (fits_of_lt ?_) (and_fits (trunc_fits _ _) _)
  rw [levelMask_eq]; cases c.modes <;> decide

/-- What is read of a CSR is an XLEN-bit value, where the registers are. -/
theorem csrValue_fits {s : State} (h : RegistersFit s.cfg s.hart) (r : Csr) : fits s.cfg.xlen (csrValue s r) := by
  obtain ⟨_, _, hregs⟩ := h
  have pend : fits s.cfg.xlen (s.hart.pending s.cfg) := and_mask_fits (irqMask_fits _) _
  have enab : fits s.cfg.xlen (s.hart.enabled s.cfg) := and_mask_fits (irqMask_fits _) _
  have resv : ∀ w, fits s.cfg.xlen (w &&& irqReserved s.cfg) := and_mask_fits (trunc_fits _ _)
  cases r with
  | status x =>
    cases x with
    | m => exact or_fits (status_fits ..) (and_mask_fits (by cases s.cfg.xlen <;> decide) _)
    | _ => exact and_fits (status_fits ..) _
  | ip x =>
    cases x with
    | m => exact or_fits pend (resv _)
    | _ => exact and_fits pend _
  | ie x =>
    cases x with
    | m => exact or_fits enab (resv _)
    | _ => exact and_fits enab _
  | edeleg x => exact (hregs x).1
  | ideleg x => exact (hregs x).2.1
  | epc x => exact align4_fits (hregs x).2.2.1
  | cause x => exact (hregs x).2.2.2.1
  | tvec x => exact align4_fits (hregs x).2.2.2.2.1
  | scratch x => exact (hregs x).2.2.2.2.2.1
  | badaddr x => exact (hregs x).2.2.2.2.2.2
  | cycle | instret | time => exact trunc_fits _ _
  | cycleh | instreth | timeh => exact setWidth32_fits _ _
  | fflags | frm | fcsr => exact fits_of_lt (v := 0#64) (by decide)

/-- The part of it that is state is one too. -/
theorem csrHeld_fits {s : State} (h : RegistersFit s.cfg s.hart) (r : Csr) : fits s.cfg.xlen (csrHeld s r) := by
  unfold csrHeld
  split
  · exact status_fits ..
  · exact and_mask_fits (irqMask_fits _) _
  · exact and_mask_fits (irqMask_fits _) _
  · exact csrValue_fits h _

theorem loadExtend_fits (xl : XLen) (w : Width) (v : Word) : fits xl (loadExtend xl w v) := by
  cases w <;> exact trunc_fits _ _

/-! ### Every step keeps such a property -/

section
variable {W : Config → Prop} {P : Config → Hart → Prop} (I : HartInvariant W P)
include I

theorem HartInvariant.advance {s : State} {c : Config} (hc : s.cfg = c) (h : P c s.hart) : P c s.advance.hart := by
  subst hc
  rcases advance_cases s with ⟨hf, e⟩ | ⟨_, e⟩ <;> rw [e]
  · have hlt : s.hart.pc.toNat + 4 < 2 ^ s.cfg.xlen.bits := of_decide_eq_true hf
    have hnat : (s.hart.pc + 4#64).toNat = s.hart.pc.toNat + 4 := by
      rw [BitVec.toNat_add]
      exact Nat.mod_eq_of_lt (Nat.lt_of_lt_of_le hlt (Nat.pow_le_pow_right (by decide) (by cases s.cfg.xlen <;> decide)))
    exact I.pc _ _ _ h (fun ha => by rw [hnat]; omega) (fun _ => (fits_iff ..).mpr (by rw [hnat]; exact hlt))
  · exact I.pc _ _ _ h (fun _ => align4_mod _) (fun _ => align4_fits (trunc_fits _ _))

theorem HartInvariant.setX_advance {s : State} {c : Config} (hc : s.cfg = c) (h : P c s.hart) (rd : BitVec 5) {v : Word}
    (hv : FitsIf P c v) : P c (s.setX rd v).advance.hart :=
  I.advance (s := s.setX rd v) hc (I.reg _ _ rd v h hv)

theorem HartInvariant.exception {s : State} (hW : W s.cfg) (h : P s.cfg s.hart) (e : Exn) {bad : Option Word}
    (hbad : ∀ b, bad = some b → FitsIf P s.cfg b) : P s.cfg (trapEntry false (excCode e) s.hart.pc bad s).hart :=
  I.trap s false _ bad hW h (Nat.lt_of_lt_of_le (excCode_lt e) (by cases s.cfg.xlen <;> decide)) (le_trapTarget_exception ..) hbad

/-- A CSR instruction traps, or reads, writes, and writes rd. -/
theorem HartInvariant.csrInstr {rd : BitVec 5} {a : BitVec 12} {reads writes : Bool} {f : Word → Word} {s t : State} (hW : W s.cfg)
    (h : P s.cfg s.hart)
    (hf : ∀ old, (∀ r, fits s.cfg.xlen (s.getX r)) → fits s.cfg.xlen old → fits s.cfg.xlen (f old))
    (ht : Machine.csrInstr rd a reads writes f s = .next t) : P s.cfg t.hart := by
  rcases csrInstr_next ht with ⟨_, rfl⟩ | ⟨r, s1, s2, _, h1, h2, rfl⟩
  · exact I.exception hW h .illegal (fun b hb => nomatch hb)
  · have read : s1.cfg = s.cfg ∧ P s.cfg s1.hart := by
      rcases h1 with rfl | rfl
      · exact ⟨rfl, h⟩
      · obtain ⟨_, _, _, e⟩ := csrAfterRead_frame s r
        rw [e]; exact ⟨rfl, I.counters _ _ _ _ h⟩
    obtain ⟨hc1, hp1⟩ := read
    have write : s2.cfg = s.cfg ∧ P s.cfg s2.hart := by
      rcases h2 with rfl | h2
      · exact ⟨hc1, hp1⟩
      · obtain ⟨hn, rfl⟩ := (csrWrite_ok _ _ _ _).mp h2
        obtain ⟨_, _, e, _⟩ := csrPut_frame s1 r (f (csrHeld s r))
        refine ⟨by rw [e]; exact hc1, ?_⟩
        have := I.csr s1 r _ (by rw [hc1]; exact hW) (by rw [hc1]; exact hp1) hn
          (by rw [hc1]; exact fun hP => hf _ (hP _ h).1 (csrHeld_fits (hP _ h) r))
        rwa [hc1] at this
    exact I.setX_advance write.1 write.2 rd (fun hP => csrValue_fits (hP _ h) r)

/-- A load traps, starts a claim load, or writes rd. -/
theorem HartInvariant.loadTo {w : Width} {rd : BitVec 5} {a : Word} {s t : State} (hW : W s.cfg) (h : P s.cfg s.hart)
    (ha : fits s.cfg.xlen a) (ht : Machine.loadTo w rd a s = .next t) : P s.cfg t.hart := by
  rcases loadTo_next ht with ⟨e, rfl⟩ | ⟨g, rfl⟩ | ⟨v, s1, hm, rfl⟩
  · exact I.exception hW h e (fun b hb _ => Option.some.inj hb ▸ ha)
  · exact I.waiting _ _ _ h
  · obtain ⟨_, _, _, _, _, _, rfl, _⟩ := memRead_value_frame hm
    refine I.setX_advance ?_ ?_ rd (fun _ => loadExtend_fits _ _ _)
    · rfl
    · exact h

/-- A store traps, or sets MSIP or `mtimecmp` of a hart, or reaches no hart, and advances. -/
theorem HartInvariant.storeFrom {w : Width} {v a : Word} {s t : State} (hW : W s.cfg) (h : P s.cfg s.hart)
    (ha : fits s.cfg.xlen a) (ht : Machine.storeFrom w v a s = .next t) : P s.cfg t.hart := by
  have drive : ∀ i b, (irqMask s.cfg).getLsbD i = true → P s.cfg (s.hart.driveMip i b) :=
    fun i b hi => I.mip _ _ _ _ hW (.inl hi) h
  rcases storeFrom_next ht with ⟨e, rfl⟩ | ⟨s1, hm, rfl⟩
  · exact I.exception hW h e (fun b hb _ => Option.some.inj hb ▸ ha)
  · rcases memWrite_done hm with ⟨_, _, rfl⟩ | ⟨_, k, _, b, _, rfl⟩ | ⟨_, k, _, f, _, rfl⟩ | ⟨_, _, rfl⟩
    · exact I.advance rfl h
    · refine I.advance (modHart_cfg ..) ?_
      rcases modHart_hart s k (fun x => x.driveMip 3 b) with e | e <;> rw [e]
      · exact h
      · exact drive 3 b (irqMask_msip_mtip _).1
    · refine I.advance (modHart_cfg ..) ?_
      rcases modHart_hart s k (fun x => x.setTimecmp (f x)) with e | e <;> rw [e]
      · exact h
      · rw [setTimecmp_eq]; exact I.timecmp _ _ _ (drive 7 false (irqMask_msip_mtip _).2)
    · exact I.advance rfl h

/-- An instruction keeps the property of the hart that executes it. -/
theorem HartInvariant.exec {i : Instr} {s t : State} (hW : W s.cfg) (h : P s.cfg s.hart) (ht : Machine.exec i s = .next t) :
    P s.cfg t.hart := by
  rcases exec_next ht with ⟨e, bad, hb, rfl⟩ | ⟨x, hx, rfl⟩ | ⟨rd, a, r, w, f, hf, hc⟩ | ⟨rd, a, ⟨ha, _⟩, hl⟩ |
    ⟨v, a, ⟨ha, _⟩, hst⟩ | ⟨a, hal, hfit, rfl⟩ | ⟨rd, v, hv, rfl⟩ | rfl
  · exact I.exception hW h e (fun b hbad _ => hb b hbad)
  · exact I.ret s x hW h hx
  · exact I.csrInstr hW h hf hc
  · exact I.loadTo hW h ha hl
  · exact I.storeFrom hW h ha hst
  · exact I.pc _ _ _ h (fun _ => (aligned_iff ..).mp hal) (fun _ => hfit)
  · exact I.setX_advance rfl h rd (fun _ => hv)
  · exact I.advance rfl h

/-- Every step keeps, of every hart, a property that each way to change a hart keeps. -/
theorem HartInvariant.kept : KeptByStep (fun s => W s.cfg ∧ EveryHart s (P s.cfg)) := by
  refine everyHart_kept P W (fun s t hW h _ ht => ?_) (fun s t w hW h ht => ?_) (fun s i hW h ht => ?_) I.mip I.timecmp
  · rcases execNext_next ht with ⟨e, bad, hb, rfl⟩ | ⟨i, _, hi⟩
    · exact I.exception hW h e (fun b hbad hP => by rw [hb b hbad]; exact (hP _ h).2.1)
    · exact I.exec hW h hi
  · rcases finishClaim_next ht with rfl | ⟨r, _, _, rfl⟩
    · exact h
    · refine I.setX_advance ?_ ?_ w.rd (fun _ => trunc_fits _ _)
      · rfl
      · exact I.waiting _ _ none h
  · obtain ⟨himpl, hle⟩ := takeable_target ht
    exact I.trap s true i none hW h (lt_xlen_of_irqMask himpl) hle (fun b hb => nomatch hb)

end

/-- The same for a property that needs no condition on the configuration. -/
theorem HartInvariant.kept_everyHart {P : Config → Hart → Prop} (I : HartInvariant (fun _ => True) P) :
    KeptByStep (fun s => EveryHart s (P s.cfg)) :=
  fun s t h hs => (I.kept s t ⟨trivial, h⟩ hs).2

/-! ### The pc -/

/-- Every way to change a hart keeps its pc a multiple of 4: a trap and a return clear the low two bits. -/
theorem pcAligned_invariant : HartInvariant (fun _ => True) (fun _ => PcAligned) where
  trap _ _ _ _ _ _ _ _ _ := align4_mod _
  ret _ _ _ _ _ := align4_mod _
  counters _ _ _ _ h := h
  csr s r v _ h _ _ := by
    obtain ⟨k, n, e, _, hpc, _⟩ := csrPut_frame s r v
    rw [e, PcAligned, hpc]; exact h
  reg _ _ _ _ h _ := h
  pc _ _ _ h hv _ := hv h
  waiting _ _ _ h := h
  mip _ _ _ _ _ _ h := h
  timecmp _ _ _ h := h

/-- Settles O55. -/
theorem pcsStayAligned : Obligations.PcsStayAligned := pcAligned_invariant.kept_everyHart

end Sys2Proof.Invariants
end

section
/-! PROOFS. What a CSR write does to a hart, said once for all CSRs (41_csr_access.md R142), and the bits of `mstatus` after a trap, a
return and a write. -/

namespace Sys2Proof.Invariants
open Sys2Proof.Machine Sys2Proof.Exceptions Sys2Proof.Instructions

/-! ### Words that agree on a mask -/

/-- Two words that agree on the bits of a mask are equal under it. -/
theorem and_congr_of_bits {v w m : Word} (h : ∀ i, m.getLsbD i = true → v.getLsbD i = w.getLsbD i) : v &&& m = w &&& m := by
  apply BitVec.eq_of_getLsbD_eq
  intro i _
  rw [BitVec.getLsbD_and, BitVec.getLsbD_and]
  cases hm : m.getLsbD i with
  | false => simp
  | true => rw [h i hm]

/-- A word within a mask has no bit outside it. -/
theorem within_iff {v m : Word} : v &&& m = v ↔ ∀ i, v.getLsbD i = true → m.getLsbD i = true := by
  constructor
  · intro h i hi
    rw [← h, BitVec.getLsbD_and, Bool.and_eq_true] at hi
    exact hi.2
  · intro h
    apply BitVec.eq_of_getLsbD_eq
    intro i _
    rw [BitVec.getLsbD_and]
    cases hv : v.getLsbD i with
    | false => rfl
    | true => rw [h i hv]; rfl

/-- A bit of the first of two masks that have no bit in common is none of the second. -/
theorem getLsbD_of_disjoint {v m : Word} (h : v &&& m = 0#64) {i : Nat} (hv : v.getLsbD i = true) : m.getLsbD i = false := by
  have := congrArg (fun w => w.getLsbD i) h
  simpa [BitVec.getLsbD_and, hv] using this

/-- A masked write of a word within a larger mask stays within it. -/
theorem merge_within {m old v w : Word} (ho : old &&& w = old) (hm : m &&& w = m) : merge m old v &&& w = merge m old v := by
  rw [within_iff] at ho hm ⊢
  intro i hi
  rw [merge_getLsbD] at hi
  split at hi
  · next h => exact hm i h
  · exact ho i hi

/-! ### The xPP fields -/

theorem mem_supportedUpTo {c : Config} {x z : Mode} : z ∈ supportedUpTo c x ↔ hasMode c z = true ∧ modeLe z x = true := by
  have all : z ∈ [Mode.u, .s, .h, .m] := by cases z <;> simp
  simp [supportedUpTo, List.mem_filter, all]

/-- The field xPP is legal when the mode it holds is supported and at most x. -/
theorem ppLegal_iff {c : Config} {w : Word} {x : Mode} :
    ppLegal c w x = true ↔ (hasMode c x = true → hasMode c (getPP w x) = true ∧ modeLe (getPP w x) x = true) := by
  rw [ppLegal, Bool.or_eq_true, List.contains_iff_mem, mem_supportedUpTo]
  cases hasMode c x <;> simp

/-- No two modes share a bit of their xPP fields. -/
theorem ppMask_disjoint {x z : Mode} (h : z ≠ x) : ppMask z &&& ppMask x = 0#64 := by
  cases z <;> cases x <;> first | rfl | exact absurd rfl h

/-- The xPP fields stand above bit 7. -/
theorem le_of_ppMask {x : Mode} {i : Nat} (h : (ppMask x).getLsbD i = true) : 8 ≤ i := by
  by_contra hi
  rw [ppMask_low x i (by omega)] at h
  cases h

/-- The field sPP holds S or U, which are both supported where S is (10_state.md R27). -/
theorem ppLegal_s (c : Config) (w : Word) : ppLegal c w .s = true := by
  refine ppLegal_iff.mpr (fun hs => ?_)
  have hu : hasMode c .u = true := by
    unfold hasMode at hs ⊢
    cases hm : c.modes <;> simp [hm] at hs ⊢
  simp only [getPP]
  split
  · exact ⟨hs, rfl⟩
  · exact ⟨hu, rfl⟩

/-- `mstatus` as every rule reads it has its hard-wired bits at their values. -/
theorem status_fixed (c : Config) (h : Hart) : fixMstatus c (h.status c) = h.status c := fixMstatus_idem ..

/-- A trap into x changes no other mode's xPP. -/
theorem getPP_pushStack_other {c : Config} {x z : Mode} {w : Word} (y : Mode) (hw : fixMstatus c w = w) (hz : z ≠ x) :
    getPP (pushStack c w y x) z = getPP w z := by
  refine getPP_congr z (fun i hi => ?_)
  have h8 := le_of_ppMask hi
  have := ieBit_lt x
  have := pieBit_lt x
  exact pushStack_other y hw (by omega) (by omega) (getLsbD_of_disjoint (ppMask_disjoint hz) hi)

/-- A return from mode x changes three fields of `mstatus`: the IE bit of the mode returned to, and PIE and PP of x. -/
theorem popStack_other {c : Config} {x : Mode} {w : Word} (hw : fixMstatus c w = w) {i : Nat} (hie : i ≠ ieBit (getPP w x))
    (hpie : i ≠ pieBit x) (hpp : (ppMask x).getLsbD i = false) : (popStack c w x).getLsbD i = w.getLsbD i := by
  rw [popStack_bit]
  simp only [hpp, hie, hpie, Bool.false_eq_true, if_false]
  rw [← fixMstatus_bit, hw]

theorem getPP_popStack_other {c : Config} {x z : Mode} {w : Word} (hw : fixMstatus c w = w) (hz : z ≠ x) :
    getPP (popStack c w x) z = getPP w z := by
  refine getPP_congr z (fun i hi => ?_)
  have h8 := le_of_ppMask hi
  have := ieBit_lt (getPP w x)
  have := pieBit_lt x
  exact popStack_other hw (by omega) (by omega) (getLsbD_of_disjoint (ppMask_disjoint hz) hi)

/-- The mode that a return leaves in xPP is supported and at most x. -/
theorem bottomMode_legal {c : Config} {x : Mode} (hx : hasMode c x = true) :
    hasMode c (bottomMode c) = true ∧ modeLe (bottomMode c) x = true := by
  unfold bottomMode
  split
  · next hu => exact ⟨hu, by cases x <;> rfl⟩
  · next hu =>
    refine ⟨rfl, ?_⟩
    cases x with
    | m => rfl
    | _ => unfold hasMode at hx hu; cases hm : c.modes <;> simp [hm] at hx hu

/-- A return leaves the bottom mode in xPP. -/
theorem getPP_popStack {c : Config} {x : Mode} (w : Word) (hx : canHandle c x = true) :
    getPP (popStack c w x) x = bottomMode c := by
  obtain ⟨hb, hle⟩ := bottomMode_legal (canHandle_hasMode hx)
  exact getPP_fix_setPP c _ x _ hx hb hle

/-! ### `mstatus` after a write -/

/-- Every bit that a write of a status register changes is implemented. -/
theorem statusWriteMask_impl (c : Config) (x : Mode) : statusWriteMask c x &&& mstatusImpl c = statusWriteMask c x := by
  rw [within_iff]
  intro i hi
  simp only [mstatusImpl, stackMask, BitVec.getLsbD_or, Bool.or_eq_true]
  cases x <;> simp only [statusWriteMask, stackMask, BitVec.getLsbD_or, Bool.or_eq_true] at hi <;> tauto

/-- The bits of `mstatus` after a write, outside MPP and HPP: those of the mask are new, the others old. -/
theorem statusWord_getLsbD {c : Config} {mask old : Word} (v : Word) (n : Nat) {i : Nat} (hm : mask &&& mstatusImpl c = mask)
    (ho : fixMstatus c old = old) (hi : i < 9 ∨ 12 < i) :
    (statusWord c mask old v n).getLsbD i = if mask.getLsbD i then v.getLsbD i else old.getLsbD i := by
  have hpp : ∀ x : Mode, x = .m ∨ x = .h → (ppMask x).getLsbD i = false := by
    have bits : ∀ x : Mode, x = .m ∨ x = .h → ppMask x &&& ~~~0x1E00#64 = 0#64 := by
      rintro x (rfl | rfl) <;> rfl
    have mid : ∀ j : Fin 64, (0x1E00#64).getLsbD j = true → 9 ≤ j.val ∧ j.val ≤ 12 := by decide
    intro x hx
    rw [Bool.eq_false_iff]
    intro h
    have hlt := BitVec.lt_of_getLsbD h
    have h2 := getLsbD_of_disjoint (bits x hx) h
    simp only [BitVec.getLsbD_not, hlt, decide_true, Bool.true_and, Bool.not_eq_false'] at h2
    have := mid ⟨i, hlt⟩ h2
    simp only at this
    omega
  unfold statusWord
  rw [(settlePP_spec c .h _ _ (settlePP_spec c .m _ _ (fixMstatus_idem c _) (by decide)).2.2.2 (by decide)).2.1 i (hpp _ (.inr rfl)),
    (settlePP_spec c .m _ _ (fixMstatus_idem c _) (by decide)).2.1 i (hpp _ (.inl rfl)), fixMstatus_bit, merge_getLsbD]
  split
  · next h =>
    rw [within_iff.mp hm i h, mstatusOnes_bit c i (by omega) (by omega)]; simp
  · rw [← fixMstatus_bit, ho]

/-- After a write every xPP field is legal: MPP and HPP are settled, sPP cannot be illegal. -/
theorem statusWord_ppLegal (c : Config) (mask old v : Word) (n : Nat) {z : Mode} (hz : z ≠ .u) :
    ppLegal c (statusWord c mask old v n) z = true := by
  have m := settlePP_spec c .m n _ (fixMstatus_idem c (merge mask old v)) (by decide)
  obtain ⟨mlegal, _, _, mfix⟩ := m
  obtain ⟨hlegal, hother, _, _⟩ := settlePP_spec c .h (n + 1) _ mfix (by decide)
  cases z with
  | u => exact absurd rfl hz
  | s => exact ppLegal_s c _
  | h => exact hlegal
  | m =>
    have same : getPP (statusWord c mask old v n) .m = getPP (settlePP c .m n (fixMstatus c (merge mask old v))) .m :=
      getPP_congr .m (fun i hi => hother i (getLsbD_of_disjoint (ppMask_disjoint (by decide)) hi))
    rw [ppLegal, same]; exact mlegal

/-! ### A CSR write, for all CSRs -/

/-- The mode under whose letter a CSR stands, if there is one (10_state.md R55). -/
def csrOwner : Csr → Option Mode
  | .status x | .edeleg x | .ideleg x | .ie x | .tvec x | .scratch x | .epc x | .cause x | .badaddr x | .ip x => some x
  | .cycle | .time | .instret | .cycleh | .timeh | .instreth | .fflags | .frm | .fcsr => none

/-- What a write of v to a CSR of mode x does to a hart h, with parameters c and n draws made. -/
inductive CsrChange (c : Config) (h : Hart) (v : Word) (n : Nat) (r : Csr) : Hart → Prop where
  | status (x : Mode) (hr : r = .status x) :
      CsrChange c h v n r { h with mstatus := statusWord c (statusWriteMask c x) (h.status c) v n }
  | mip (m : Word) (hm : m &&& mipWriteMask c = m) : CsrChange c h v n r { h with mip := merge m h.mip v }
  | mie (m : Word) (hm : m &&& irqMask c = m) : CsrChange c h v n r { h with mie := merge m h.mie v }
  | edeleg (x : Mode) (w : Word) (hr : r = .edeleg x) : CsrChange c h v n r (h.setEdeleg x (v &&& edelegMask c x &&& w))
  | ideleg (x : Mode) (w : Word) (hr : r = .ideleg x) : CsrChange c h v n r (h.setIdeleg x (v &&& idelegMask c x &&& w))
  | trap (x : Mode) (q : TrapRegs) (hr : csrOwner r = some x) (epc : q.epc = (h.trapRegs x).epc ∨ q.epc = align4 v)
      (cause : q.cause = (h.trapRegs x).cause ∨ q.cause = causeAfterWrite c v n)
      (tvec : q.tvec = (h.trapRegs x).tvec ∨ q.tvec = align4 v) (scratch : q.scratch = (h.trapRegs x).scratch ∨ q.scratch = v)
      (badaddr : q.badaddr = (h.trapRegs x).badaddr ∨ q.badaddr = v) : CsrChange c h v n r (h.setTrapRegs x q)
  | none : CsrChange c h v n r h

/-- The bits of `mip` that a write of a view changes are among those of `mip` itself (10_state.md R43). -/
theorem viewWriteMask_within (c : Config) (x : Mode) (w : Word) :
    viewWriteMask c x &&& levelMask c &&& w &&& mipWriteMask c = viewWriteMask c x &&& levelMask c &&& w := by
  have low : viewWriteMask c x &&& 0x077#64 = viewWriteMask c x := by
    cases x with
    | m => unfold viewWriteMask mipWriteMask; rw [levelMask_eq]; cases c.modes <;> rfl
    | h | s | u => simp only [viewWriteMask]; decide
  rw [within_iff] at low ⊢
  intro i hi
  simp only [BitVec.getLsbD_and, Bool.and_eq_true] at hi
  obtain ⟨⟨hv, hl⟩, _⟩ := hi
  rw [mipWriteMask, BitVec.getLsbD_and, low i hv, hl]; rfl

/-- What a CSR write does to the hart. -/
theorem csrPut_change (s : State) (r : Csr) (v : Word) : CsrChange s.cfg s.hart v s.draws r (csrPut s r v).hart := by
  cases r with
  | status x => exact .status x rfl
  | ip x =>
    cases x with
    | m => exact .mip _ BitVec.and_self
    | _ => exact .mip _ (viewWriteMask_within ..)
  | ie x =>
    have sub : ∀ w, irqMask s.cfg &&& w &&& irqMask s.cfg = irqMask s.cfg &&& w := fun w => by
      rw [BitVec.and_comm, ← BitVec.and_assoc, BitVec.and_self]
    cases x with
    | m => exact .mie _ BitVec.and_self
    | _ => exact .mie _ (sub _)
  | edeleg x => exact .edeleg x _ rfl
  | ideleg x => exact .ideleg x _ rfl
  | tvec x => exact .trap x _ rfl (.inl rfl) (.inl rfl) (.inr rfl) (.inl rfl) (.inl rfl)
  | scratch x => exact .trap x _ rfl (.inl rfl) (.inl rfl) (.inl rfl) (.inr rfl) (.inl rfl)
  | epc x => exact .trap x _ rfl (.inr rfl) (.inl rfl) (.inl rfl) (.inl rfl) (.inl rfl)
  | cause x => exact .trap x _ rfl (.inl rfl) (.inr rfl) (.inl rfl) (.inl rfl) (.inl rfl)
  | badaddr x => exact .trap x _ rfl (.inl rfl) (.inl rfl) (.inl rfl) (.inl rfl) (.inr rfl)
  | cycle | time | instret | cycleh | timeh | instreth | fflags | frm | fcsr => exact .none

end Sys2Proof.Invariants
end

section
/-! PROOFS. The five invariants of a hart (10_state.md sections 1 to 5), each shown to be kept by the nine ways to change a hart. -/

namespace Sys2Proof.Invariants
open Sys2Proof.Machine Sys2Proof.Exceptions Sys2Proof.Instructions

/-! ### Modes -/

/-- A change that keeps the mode and `mstatus` keeps them legal. -/
theorem modesLegal_congr {c : Config} {h k : Hart} (hp : k.priv = h.priv) (hs : k.mstatus = h.mstatus) (hl : ModesLegal c h) :
    ModesLegal c k := by
  unfold ModesLegal Hart.status at hl ⊢
  rwa [hp, hs]

/-- A CSR write changes no mode, and settles the xPP fields that it reaches. -/
theorem modesLegal_csrChange {c : Config} {h k : Hart} {v : Word} {n : Nat} {r : Csr} (hk : CsrChange c h v n r k)
    (hl : ModesLegal c h) : ModesLegal c k := by
  cases hk with
  | status x _ =>
    refine ⟨hl.1, fun z hz => ?_⟩
    rw [Hart.status, fix_statusWord]
    exact statusWord_ppLegal _ _ _ _ _ hz
  | mip | mie | none => exact modesLegal_congr rfl rfl hl
  | edeleg x => exact modesLegal_congr (Hart.setEdeleg_priv ..) (Hart.setEdeleg_mstatus ..) hl
  | ideleg x => exact modesLegal_congr (Hart.setIdeleg_priv ..) (Hart.setIdeleg_mstatus ..) hl
  | trap x q => exact modesLegal_congr (Hart.setTrapRegs_priv ..) (Hart.setTrapRegs_mstatus ..) hl

/-- A trap records the mode it came from, which is supported and at most the mode it is taken into; a return goes to the mode
recorded; a write settles the fields that it reaches. -/
theorem modesLegal_invariant : HartInvariant (fun _ => True) ModesLegal where
  trap s intr code bad _ hl _ hle _ := by
    obtain ⟨hy, hpp⟩ := hl
    have hx := trapTarget_canHandle s intr code hy
    refine ⟨canHandle_hasMode hx, fun z hz => ppLegal_iff.mpr (fun hhas => ?_)⟩
    rw [trapEntry_status]
    by_cases hzx : z = trapTarget s intr code
    · subst hzx
      rw [getPP_pushStack _ hx hy hle]; exact ⟨hy, hle⟩
    · rw [getPP_pushStack_other _ (status_fixed ..) hzx]
      exact ppLegal_iff.mp (hpp z hz) hhas
  ret s x _ hl hx := by
    obtain ⟨_, hpp⟩ := hl
    have hcan := (Bool.and_eq_true_iff.mp hx).1
    have hhas := canHandle_hasMode hcan
    have legal : hasMode s.cfg (getPP (s.hart.status s.cfg) x) = true := by
      by_cases hu : x = .u
      · subst hu; exact hhas
      · exact (ppLegal_iff.mp (hpp x hu) hhas).1
    refine ⟨legal, fun z hz => ppLegal_iff.mpr (fun hz' => ?_)⟩
    have hst : (xretState x s).hart.status s.cfg = popStack s.cfg (s.hart.status s.cfg) x := fix_popStack ..
    rw [hst]
    by_cases hzx : z = x
    · subst hzx
      rw [getPP_popStack _ hcan]; exact bottomMode_legal hz'
    · rw [getPP_popStack_other (status_fixed ..) hzx]
      exact ppLegal_iff.mp (hpp z hz) hz'
  counters _ _ _ _ h := h
  csr s r v _ hl _ _ := modesLegal_csrChange (csrPut_change s r v) hl
  reg _ _ _ _ h _ := h
  pc _ _ _ h _ _ := h
  waiting _ _ _ h := h
  mip _ _ _ _ _ _ h := h
  timecmp _ _ _ h := h

/-- Settles O54. -/
theorem modesStayLegal : Obligations.ModesStayLegal := modesLegal_invariant.kept_everyHart

/-! ### Hard-wired bits -/

/-- The fields VM, PUM and MPRV are none of the fields that a trap, a return or a write of a view changes. -/
theorem translationMask_other {i : Nat} (h : translationMask.getLsbD i = true) :
    12 < i ∧ ∀ x : Mode, i ≠ ieBit x ∧ i ≠ pieBit x ∧ (ppMask x).getLsbD i = false := by
  have high : ∀ j : Fin 64, translationMask.getLsbD j = true → 12 < j.val := by decide
  have hi : 12 < i := high ⟨i, BitVec.lt_of_getLsbD h⟩ h
  refine ⟨hi, fun x => ⟨?_, ?_, ?_⟩⟩
  · have := ieBit_lt x; omega
  · have := pieBit_lt x; omega
  · exact getLsbD_of_disjoint (by cases x <;> decide) h

/-- VM, PUM and MPRV are no bits of the views of `mstatus`. -/
theorem statusWriteMask_translation (c : Config) {x : Mode} (hx : x ≠ .m) {i : Nat} (h : translationMask.getLsbD i = true) :
    (statusWriteMask c x).getLsbD i = false := by
  have low : statusWriteMask c x &&& 0x1FFF#64 = statusWriteMask c x := by
    obtain ⟨xl, modes, n, _⟩ := c
    cases x <;> first
      | exact absurd rfl hx
      | (cases modes <;> cases n <;> simp [statusWriteMask, stackMask, fieldMask, hasN, hasMode])
  have below : ∀ j : Fin 64, (0x1FFF#64).getLsbD j = true → j.val ≤ 12 := by decide
  rw [Bool.eq_false_iff]
  intro hi
  have := below ⟨i, BitVec.lt_of_getLsbD h⟩ (within_iff.mp low i hi)
  have := (translationMask_other h).1
  simp only at *
  omega

/-- A bit driven in an implemented position keeps `mip` within the implemented bits. -/
theorem driveMip_within {c : Config} {h : Hart} {i : Nat} (hi : (irqMask c).getLsbD i = true) (b : Bool)
    (hm : h.mip &&& irqMask c = h.mip) : (h.driveMip i b).mip &&& irqMask c = (h.driveMip i b).mip := by
  rw [within_iff] at hm ⊢
  intro j hj
  rw [Hart.driveMip_mip, setBit_getLsbD _ _ _ _ (BitVec.lt_of_getLsbD hi)] at hj
  split at hj
  · next e => rw [e]; exact hi
  · exact hm j hj

/-- A target is mapped to a supported mode, whose xEIP bit is implemented. -/
theorem irqMask_of_target {c : Config} (hc : c.wf = true) {t k : Nat} {x : Mode} (ht : c.targetMap.lookup t = some (k, x)) :
    (irqMask c).getLsbD (eipBit x) = true := by
  simp only [Config.wf, Config.targetMapOk, Bool.and_eq_true, List.all_eq_true] at hc
  obtain ⟨⟨⟨⟨_, ⟨hall, _⟩, _⟩, _⟩, _⟩, _⟩ := hc
  exact (irqMask_level c x (hall _ (mem_of_lookup ht)).2).2.2

/-- A change that keeps `mstatus`, `mip` and `mie` keeps their hard-wired bits. -/
theorem hardwired_congr {c : Config} {h k : Hart} (hs : k.mstatus = h.mstatus) (hp : k.mip = h.mip) (he : k.mie = h.mie)
    (hl : HardwiredBits c h) : HardwiredBits c k := by
  unfold HardwiredBits at hl ⊢
  rwa [hs, hp, he]

/-- A new `mstatus` with its hard-wired bits at their values and VM, PUM and MPRV as before. -/
theorem hardwired_mstatus {c : Config} {h : Hart} (hl : HardwiredBits c h) {w : Word} (hw : fixMstatus c w = w)
    (ht : w &&& translationMask = h.mstatus &&& translationMask) : HardwiredBits c { h with mstatus := w } :=
  ⟨hw, ht.trans hl.2.1, hl.2.2⟩

/-- A write of `mstatus` that is not refused leaves VM, PUM and MPRV 0, and no view has them. -/
theorem hardwired_csrChange {c : Config} {h k : Hart} {v : Word} {n : Nat} {r : Csr} (hk : CsrChange c h v n r k)
    (hr : csrRefusal c h r v = none) (hl : HardwiredBits c h) : HardwiredBits c k := by
  obtain ⟨hfix, htr, hmip, hmie⟩ := hl
  cases hk with
  | status x hx =>
    subst hx
    refine hardwired_mstatus ⟨hfix, htr, hmip, hmie⟩ (fix_statusWord ..) ?_
    refine and_congr_of_bits (fun i hi => ?_)
    have old : h.mstatus.getLsbD i = false := getLsbD_of_disjoint (by rw [BitVec.and_comm]; exact htr) hi
    have hs : h.status c = h.mstatus := hfix
    rw [statusWord_getLsbD v n (statusWriteMask_impl c x) (status_fixed c h) (.inr (translationMask_other hi).1), hs]
    by_cases hx : x = .m
    · subst hx
      have new : v.getLsbD i = false := getLsbD_of_disjoint (by rw [BitVec.and_comm]; exact csrRefusal_none_status hr) hi
      rw [new, old, ite_self]
    · rw [statusWriteMask_translation c hx hi]; rfl
  | mip m hm =>
    have sub : mipWriteMask c &&& irqMask c = mipWriteMask c := by
      rw [within_iff]
      intro i hi
      rw [mipWriteMask, BitVec.getLsbD_and, Bool.and_eq_true] at hi
      rw [irqMask_getLsbD, hi.2]; rfl
    refine ⟨hfix, htr, merge_within hmip ?_, hmie⟩
    rw [within_iff] at hm sub ⊢
    exact fun i hi => sub i (hm i hi)
  | mie m hm => exact ⟨hfix, htr, hmip, merge_within hmie hm⟩
  | edeleg x =>
    exact hardwired_congr (Hart.setEdeleg_mstatus ..) (Hart.setEdeleg_mip ..) (Hart.setEdeleg_mie ..) ⟨hfix, htr, hmip, hmie⟩
  | ideleg x =>
    exact hardwired_congr (Hart.setIdeleg_mstatus ..) (Hart.setIdeleg_mip ..) (Hart.setIdeleg_mie ..) ⟨hfix, htr, hmip, hmie⟩
  | trap x q =>
    exact hardwired_congr (Hart.setTrapRegs_mstatus ..) (Hart.setTrapRegs_mip ..) (Hart.setTrapRegs_mie ..) ⟨hfix, htr, hmip, hmie⟩
  | none => exact ⟨hfix, htr, hmip, hmie⟩

/-- The stack operations put the hard-wired bits at their values and leave VM, PUM and MPRV alone. -/
theorem hardwired_invariant : HartInvariant (fun c => c.wf = true) HardwiredBits where
  trap s intr code bad _ hl _ _ _ := by
    have hs : s.hart.status s.cfg = s.hart.mstatus := hl.1
    refine hardwired_congr (h := { s.hart with mstatus := pushStack s.cfg (s.hart.status s.cfg) s.hart.priv (trapTarget s intr code) })
      rfl (trapEntry_mip ..) (trapEntry_mie ..) (hardwired_mstatus hl (fix_pushStack ..) (and_congr_of_bits (fun i hi => ?_)))
    obtain ⟨_, other⟩ := translationMask_other hi
    obtain ⟨hie, hpie, hpp⟩ := other (trapTarget s intr code)
    rw [pushStack_other _ (status_fixed ..) hie hpie hpp, hs]
  ret s x _ hl _ := by
    have hs : s.hart.status s.cfg = s.hart.mstatus := hl.1
    refine hardwired_mstatus (w := popStack s.cfg (s.hart.status s.cfg) x) hl (fix_popStack ..)
      (and_congr_of_bits (fun i hi => ?_))
    obtain ⟨_, other⟩ := translationMask_other hi
    rw [popStack_other (status_fixed ..) (other _).1 (other x).2.1 (other x).2.2, hs]
  counters _ _ _ _ h := h
  csr s r v _ hl hr _ := hardwired_csrChange (csrPut_change s r v) hr hl
  reg _ _ _ _ h _ := h
  pc _ _ _ h _ _ := h
  waiting _ _ _ h := h
  mip c h i b hc hi hl := by
    have himpl : (irqMask c).getLsbD i = true := by
      rcases hi with hi | ⟨t, k, x, ht, rfl⟩
      · exact hi
      · exact irqMask_of_target hc ht
    exact ⟨hl.1, hl.2.1, driveMip_within himpl b hl.2.2.1, hl.2.2.2⟩
  timecmp _ _ _ h := h

/-- Settles O56. -/
theorem hardwiredBitsStay : Obligations.HardwiredBitsStay := hardwired_invariant.kept

/-! ### Delegation registers and trap vectors -/

theorem trapEntry_edeleg (i : Bool) (c : Nat) (e : Word) (b : Option Word) (s : State) (x : Mode) :
    (trapEntry i c e b s).hart.edeleg x = s.hart.edeleg x := by
  refine Eq.trans ?_ (edeleg_setTrapRegs s.hart (trapTarget s i c) x (trapRecord s i c e b (s.hart.trapRegs (trapTarget s i c))))
  cases x <;> rfl

theorem trapEntry_ideleg (i : Bool) (c : Nat) (e : Word) (b : Option Word) (s : State) (x : Mode) :
    (trapEntry i c e b s).hart.ideleg x = s.hart.ideleg x := by
  refine Eq.trans ?_ (ideleg_setTrapRegs s.hart (trapTarget s i c) x (trapRecord s i c e b (s.hart.trapRegs (trapTarget s i c))))
  cases x <;> rfl

/-- A change that keeps every delegation register keeps it within its mask. -/
theorem masked_congr {c : Config} {h k : Hart} (hl : DelegationMasked c h)
    (he : ∀ x, k.edeleg x = h.edeleg x := by intro x; cases x <;> rfl)
    (hi : ∀ x, k.ideleg x = h.ideleg x := by intro x; cases x <;> rfl) : DelegationMasked c k :=
  fun x => by rw [he, hi]; exact hl x

/-- A word cut by a mask stays within the mask whatever else cuts it. -/
theorem cut_within (v m w : Word) : v &&& m &&& w &&& m = v &&& m &&& w := by
  rw [within_iff]
  intro i hi
  simp only [BitVec.getLsbD_and, Bool.and_eq_true] at hi
  exact hi.1.2

/-- A CSR write cuts what it puts into a delegation register by the register's mask. -/
theorem masked_csrChange {c : Config} {h k : Hart} {v : Word} {n : Nat} {r : Csr} (hk : CsrChange c h v n r k)
    (hl : DelegationMasked c h) : DelegationMasked c k := by
  cases hk with
  | status | mip | mie | none => exact masked_congr hl
  | edeleg x w =>
    intro y
    rw [edeleg_setEdeleg, ideleg_setEdeleg]
    refine ⟨?_, (hl y).2⟩
    split
    · next hy => rw [hy.1]; exact cut_within ..
    · exact (hl y).1
  | ideleg x w =>
    intro y
    rw [ideleg_setIdeleg, edeleg_setIdeleg]
    refine ⟨(hl y).1, ?_⟩
    split
    · next hy => rw [hy.1]; exact cut_within ..
    · exact (hl y).2
  | trap x q => exact masked_congr hl (edeleg_setTrapRegs h x · q) (ideleg_setTrapRegs h x · q)

theorem masked_invariant : HartInvariant (fun _ => True) DelegationMasked where
  trap s intr code bad _ hl _ _ _ := masked_congr hl (trapEntry_edeleg intr code _ bad s) (trapEntry_ideleg intr code _ bad s)
  ret _ _ _ hl _ := masked_congr hl
  counters _ _ _ _ hl := masked_congr hl
  csr s r v _ hl _ _ := masked_csrChange (csrPut_change s r v) hl
  reg _ _ _ _ hl _ := masked_congr hl
  pc _ _ _ hl _ _ := masked_congr hl
  waiting _ _ _ hl := masked_congr hl
  mip _ _ _ _ _ _ hl := masked_congr hl
  timecmp _ _ _ hl := masked_congr hl

/-- A change that keeps every trap register keeps their low two bits. -/
theorem vectors_congr {h k : Hart} (hl : VectorsAligned h)
    (hr : ∀ x, k.trapRegs x = h.trapRegs x := by intro x; cases x <;> rfl) : VectorsAligned k :=
  fun x => by rw [hr]; exact hl x

/-- A change of the trap registers of one mode whose new `xepc` and `xtvec` are aligned. -/
theorem vectors_setTrapRegs {h : Hart} (hl : VectorsAligned h) (x : Mode) {q : TrapRegs} (he : align4 q.epc = q.epc)
    (ht : align4 q.tvec = q.tvec) : VectorsAligned (h.setTrapRegs x q) := by
  intro y
  by_cases hy : y = x
  · subst hy; rw [Hart.trapRegs_setTrapRegs_same]; exact ⟨he, ht⟩
  · rw [Hart.trapRegs_setTrapRegs_other _ _ _ _ hy]; exact hl y

/-- A CSR write clears the low two bits of what it puts into `xepc` or `xtvec`. -/
theorem vectors_csrChange {c : Config} {h k : Hart} {v : Word} {n : Nat} {r : Csr} (hk : CsrChange c h v n r k)
    (hl : VectorsAligned h) : VectorsAligned k := by
  cases hk with
  | status | mip | mie | none => exact vectors_congr hl
  | edeleg x => exact vectors_congr hl (trapRegs_setEdeleg h x · _)
  | ideleg x => exact vectors_congr hl (trapRegs_setIdeleg h x · _)
  | trap x q _ epc _ tvec =>
    have aligned : ∀ {w old : Word}, (w = old ∨ w = align4 v) → align4 old = old → align4 w = w := by
      rintro w old (rfl | rfl) ho
      · exact ho
      · exact align4_align4 v
    exact vectors_setTrapRegs hl x (aligned epc (hl x).1) (aligned tvec (hl x).2)

theorem vectors_invariant : HartInvariant (fun _ => True) (fun _ => VectorsAligned) where
  trap s intr code bad _ hl _ _ _ := by
    have hq := vectors_setTrapRegs hl (trapTarget s intr code)
      (q := trapRecord s intr code s.hart.pc bad (s.hart.trapRegs (trapTarget s intr code))) (align4_align4 _) (hl _).2
    exact vectors_congr hq
  ret _ _ _ hl _ := vectors_congr hl
  counters _ _ _ _ hl := vectors_congr hl
  csr s r v _ hl _ _ := vectors_csrChange (csrPut_change s r v) hl
  reg _ _ _ _ hl _ := vectors_congr hl
  pc _ _ _ hl _ _ := vectors_congr hl
  waiting _ _ _ hl := vectors_congr hl
  mip _ _ _ _ _ _ hl := vectors_congr hl
  timecmp _ _ _ hl := vectors_congr hl

/-- Settles O57: two invariants, each kept on its own. -/
theorem trapSetupStaysLegal : Obligations.TrapSetupStaysLegal := fun s t h hs =>
  ⟨masked_invariant.kept_everyHart s t h.1 hs, vectors_invariant.kept_everyHart s t h.2 hs⟩

/-! ### Register widths -/

/-- The trap registers of a mode hold XLEN-bit values. -/
def TrapRegsFit (xl : XLen) (q : TrapRegs) : Prop :=
  fits xl q.epc ∧ fits xl q.cause ∧ fits xl q.tvec ∧ fits xl q.scratch ∧ fits xl q.badaddr

theorem registersFit_iff {c : Config} {h : Hart} : RegistersFit c h ↔
    (∀ r, fits c.xlen (getReg h.x r)) ∧ fits c.xlen h.pc ∧ (∀ x, fits c.xlen (h.edeleg x)) ∧ (∀ x, fits c.xlen (h.ideleg x)) ∧
      ∀ x, TrapRegsFit c.xlen (h.trapRegs x) := by
  constructor
  · rintro ⟨hx, hpc, hm⟩
    exact ⟨hx, hpc, fun x => (hm x).1, fun x => (hm x).2.1, fun x => (hm x).2.2⟩
  · rintro ⟨hx, hpc, he, hi, hr⟩
    exact ⟨hx, hpc, fun x => ⟨he x, hi x, hr x⟩⟩

/-- A change that keeps the integer registers, the delegation registers and the trap registers, with an XLEN-bit pc. -/
theorem registersFit_congr {c : Config} {h k : Hart} (hl : RegistersFit c h) (hpc : fits c.xlen k.pc)
    (hx : k.x = h.x := by rfl)
    (he : ∀ x, k.edeleg x = h.edeleg x := by intro x; cases x <;> rfl)
    (hi : ∀ x, k.ideleg x = h.ideleg x := by intro x; cases x <;> rfl)
    (hr : ∀ x, k.trapRegs x = h.trapRegs x := by intro x; cases x <;> rfl) : RegistersFit c k := by
  obtain ⟨lx, _, le, li, lr⟩ := registersFit_iff.mp hl
  exact registersFit_iff.mpr ⟨fun r => by rw [hx]; exact lx r, hpc, fun x => by rw [he]; exact le x, fun x => by rw [hi]; exact li x,
    fun x => by rw [hr]; exact lr x⟩

/-- A change of the trap registers of one mode to XLEN-bit values. -/
theorem registersFit_setTrapRegs {c : Config} {h : Hart} (hl : RegistersFit c h) (x : Mode) {q : TrapRegs}
    (hq : TrapRegsFit c.xlen q) : RegistersFit c (h.setTrapRegs x q) := by
  obtain ⟨lx, lpc, le, li, lr⟩ := registersFit_iff.mp hl
  refine registersFit_iff.mpr ⟨fun r => by rw [Hart.setTrapRegs_x]; exact lx r, by rw [Hart.setTrapRegs_pc]; exact lpc,
    fun y => by rw [edeleg_setTrapRegs]; exact le y, fun y => by rw [ideleg_setTrapRegs]; exact li y, fun y => ?_⟩
  by_cases hy : y = x
  · subst hy; rw [Hart.trapRegs_setTrapRegs_same]; exact hq
  · rw [Hart.trapRegs_setTrapRegs_other _ _ _ _ hy]; exact lr y

/-- The cause of a trap is an XLEN-bit value. -/
theorem causeWord_fits {xl : XLen} (intr : Bool) {code : Nat} (h : code < xl.bits) : fits xl (causeWord xl intr code) := by
  rw [fits_iff, causeWord_toNat xl intr code h]
  cases xl <;> cases intr <;> simp only [XLen.bits] at h ⊢ <;> simp <;> omega

/-- A CSR write of an XLEN-bit value leaves XLEN-bit values: a code that is not legal is replaced by one cut to XLEN bits. -/
theorem registersFit_csrChange {c : Config} {h k : Hart} {v : Word} {n : Nat} {r : Csr} (hk : CsrChange c h v n r k)
    (hv : fits c.xlen v) (hl : RegistersFit c h) : RegistersFit c k := by
  obtain ⟨lx, lpc, le, li, lr⟩ := registersFit_iff.mp hl
  cases hk with
  | status | mip | mie | none => exact registersFit_congr hl lpc
  | edeleg x w =>
    refine registersFit_iff.mpr ⟨fun r => by rw [Hart.setEdeleg_x]; exact lx r, by rw [Hart.setEdeleg_pc]; exact lpc,
      fun y => ?_, fun y => by rw [ideleg_setEdeleg]; exact li y, fun y => by rw [trapRegs_setEdeleg]; exact lr y⟩
    rw [edeleg_setEdeleg]
    split
    · exact and_fits (and_fits hv _) _
    · exact le y
  | ideleg x w =>
    refine registersFit_iff.mpr ⟨fun r => by rw [Hart.setIdeleg_x]; exact lx r, by rw [Hart.setIdeleg_pc]; exact lpc,
      fun y => by rw [edeleg_setIdeleg]; exact le y, fun y => ?_, fun y => by rw [trapRegs_setIdeleg]; exact lr y⟩
    rw [ideleg_setIdeleg]
    split
    · exact and_fits (and_fits hv _) _
    · exact li y
  | trap x q _ epc cause tvec scratch badaddr =>
    have either : ∀ {w old new : Word}, (w = old ∨ w = new) → fits c.xlen old → fits c.xlen new → fits c.xlen w := by
      rintro w old new (rfl | rfl) ho hn
      · exact ho
      · exact hn
    have code : fits c.xlen (causeAfterWrite c v n) := by
      unfold causeAfterWrite
      split
      · exact hv
      · exact or_fits (and_fits (trunc_fits _ _) _) (and_fits hv _)
    obtain ⟨l1, l2, l3, l4, l5⟩ := lr x
    exact registersFit_setTrapRegs hl x ⟨either epc l1 (align4_fits hv), either cause l2 code, either tvec l3 (align4_fits hv),
      either scratch l4 hv, either badaddr l5 hv⟩

theorem registersFit_invariant : HartInvariant (fun _ => True) RegistersFit where
  trap s intr code bad _ hl hcode _ hbad := by
    obtain ⟨_, lpc, _, _, lr⟩ := registersFit_iff.mp hl
    obtain ⟨_, _, ltvec, lscratch, _⟩ := lr (trapTarget s intr code)
    have bad_fits : fits s.cfg.xlen (bad.getD s.free) := by
      cases bad with
      | none => exact trunc_fits _ _
      | some b => exact hbad b rfl (fun _ h => h)
    have hq := registersFit_setTrapRegs hl (trapTarget s intr code)
      (q := trapRecord s intr code s.hart.pc bad (s.hart.trapRegs (trapTarget s intr code)))
      ⟨align4_fits lpc, causeWord_fits intr hcode, ltvec, lscratch, bad_fits⟩
    exact registersFit_congr hq (align4_fits ltvec)
  ret s x _ hl _ := registersFit_congr hl (align4_fits (hl.2.2 x).2.2.1)
  counters _ _ _ _ hl := registersFit_congr hl hl.2.1
  csr s r v _ hl _ hv := registersFit_csrChange (csrPut_change s r v) (hv (fun _ h => h)) hl
  reg c h rd v hl hv := by
    refine ⟨fun q => ?_, hl.2⟩
    by_cases hq : q = rd
    · subst hq
      by_cases h0 : q = 0#5
      · subst h0; exact hl.1 _
      · simp only [getReg_putReg_same _ _ _ h0]; exact hv (fun _ h => h)
    · simp only [getReg_putReg_other _ _ _ _ hq]; exact hl.1 q
  pc _ _ _ hl _ hv := registersFit_congr hl (hv (fun _ h => h))
  waiting _ _ _ hl := registersFit_congr hl hl.2.1
  mip _ _ _ _ _ _ hl := registersFit_congr hl hl.2.1
  timecmp _ _ _ hl := registersFit_congr hl hl.2.1

/-- Settles O58. -/
theorem registersStayInWidth : Obligations.RegistersStayInWidth := registersFit_invariant.kept_everyHart

end Sys2Proof.Invariants
end

section
/-! PROOFS. What an instruction reaches outside its own hart: nothing, unless it is an LW or an SW, and there what the read or the
write of memory reaches (10_state.md R33, 20_memory.md R97). -/

namespace Sys2Proof.Effects
open Sys2Proof.Machine Sys2Proof.Exceptions Sys2Proof.Instructions Sys2Proof.Invariants

/-! ### Changes of the current hart alone -/

/-- From s to t nothing changed but the current hart and the count of draws. -/
def HartOnly (s t : State) : Prop := ∃ k n, t = { s with hart := k, draws := n }

theorem HartOnly.refl (s : State) : HartOnly s s := ⟨_, _, rfl⟩

theorem HartOnly.trans {s t u : State} (h : HartOnly s t) (g : HartOnly t u) : HartOnly s u := by
  obtain ⟨k, n, rfl⟩ := h
  obtain ⟨k', n', rfl⟩ := g
  exact ⟨k', n', rfl⟩

theorem HartOnly.outside {s t : State} (h : HartOnly s t) : OutsideUnchanged s t := by
  obtain ⟨k, n, rfl⟩ := h
  exact ⟨rfl, rfl, rfl, fun _ => rfl, rfl, rfl, rfl, rfl⟩

theorem hartOnly_advance (s : State) : HartOnly s s.advance := by
  rcases advance_cases s with ⟨_, e⟩ | ⟨_, e⟩ <;> rw [e] <;> exact ⟨_, _, rfl⟩

theorem hartOnly_setX_advance (s : State) (r : BitVec 5) (v : Word) : HartOnly s (s.setX r v).advance :=
  HartOnly.trans (t := s.setX r v) ⟨_, _, rfl⟩ (hartOnly_advance _)

theorem hartOnly_trapEntry (i : Bool) (c : Nat) (e : Word) (b : Option Word) (s : State) : HartOnly s (trapEntry i c e b s) :=
  ⟨_, _, rfl⟩

theorem hartOnly_csrAfterRead (s : State) (r : Csr) : HartOnly s (csrAfterRead s r) := by
  obtain ⟨_, _, _, e⟩ := csrAfterRead_frame s r
  rw [e]; exact ⟨_, _, rfl⟩

theorem hartOnly_csrPut (s : State) (r : Csr) (v : Word) : HartOnly s (csrPut s r v) := by
  obtain ⟨k, n, e, _⟩ := csrPut_frame s r v
  rw [e]; exact ⟨k, n, rfl⟩

/-- A CSR instruction reaches its own hart only. -/
theorem hartOnly_csrInstr {rd : BitVec 5} {a : BitVec 12} {reads writes : Bool} {f : Word → Word} {s t : State}
    (h : csrInstr rd a reads writes f s = .next t) : HartOnly s t := by
  rcases csrInstr_next h with ⟨_, rfl⟩ | ⟨r, s1, s2, _, h1, h2, rfl⟩
  · exact hartOnly_trapEntry ..
  · have read : HartOnly s s1 := by
      rcases h1 with rfl | rfl
      · exact .refl _
      · exact hartOnly_csrAfterRead s r
    have write : HartOnly s1 s2 := by
      rcases h2 with rfl | h2
      · exact .refl _
      · obtain ⟨_, rfl⟩ := (csrWrite_ok _ _ _ _).mp h2
        exact hartOnly_csrPut ..
    exact (read.trans write).trans (hartOnly_setX_advance ..)

/-! ### Loads and stores -/

/-- What a read that gives a value does: it performs the hart's own queued register writes, changes nothing, or is recorded in RAM. -/
theorem memRead_value {s t : State} {w : Width} {a : Nat} {v : Word} (h : memRead s w a = .value v t) :
    t = afterOwnWrites s ∨ t = s ∨
      (route s.cfg a (widthBytes w) = .ram ∧ t = { s with ramUse := noteUse s.ramUse s.hid false a (widthBytes w) }) := by
  have timer : ∀ off n, timerRead s w off n = .value v t → t = s := by
    intro off n h
    unfold timerRead at h
    split at h
    · cases h; rfl
    · split at h
      · cases h; rfl
      · split at h <;> cases h; rfl
  unfold memRead at h
  split at h
  · split at h
    · cases h
    · unfold plicRead at h
      split at h
      case h_5 => cases h
      case h_6 => cases h
      all_goals
        unfold coreRead at h
        split at h <;> cases h
        exact .inl rfl
  · split at h
    · cases h
    · split at h <;> cases h; exact .inr (.inl rfl)
  · split at h
    · cases h
    · exact .inr (.inl (timer _ _ h))
  · split at h
    · cases h
    · exact .inr (.inl (timer _ _ h))
  · next hr => split at h <;> cases h; exact .inr (.inr ⟨hr, rfl⟩)
  · cases h

/-- What the load of an LW leaves outside its hart: a claim sent, the hart's own queued writes performed, or an access to RAM
recorded. -/
inductive LoadEffect (s : State) (a : Nat) : State → Prop where
  | claim (g : Nat) : LoadEffect s a { s with plic := { s.plic with claimQ := s.plic.claimQ ++ [(s.hid, g)] } }
  | core : LoadEffect s a (afterOwnWrites s)
  | ram (hr : route s.cfg a 4 = .ram) : LoadEffect s a { s with ramUse := noteUse s.ramUse s.hid false a 4 }

/-- What an instruction that goes on does outside its own hart. -/
theorem exec_effect {i : Instr} {s t : State} (h : exec i s = .next t) :
    HartOnly s t ∨
    (∃ rd imm rs1 u, i = .lw rd imm rs1 ∧ LoadEffect s (dataAddr s rs1 imm).toNat u ∧ HartOnly u t) ∨
    (∃ rs2 imm rs1 v u, i = .sw rs2 imm rs1 ∧ memWrite s .word (dataAddr s rs1 imm).toNat v = .done u ∧ t = u.advance) := by
  rcases exec_next h with ⟨e, bad, _, rfl⟩ | ⟨x, _, rfl⟩ | ⟨rd, a, r, w, f, _, hc⟩ | ⟨rd, a, ⟨_, imm, rs1, hi, rfl⟩, hl⟩ |
    ⟨v, a, ⟨_, rs2, imm, rs1, hi, rfl⟩, hst⟩ | ⟨a, _, _, rfl⟩ | ⟨rd, v, _, rfl⟩ | rfl
  · exact .inl (hartOnly_trapEntry ..)
  · exact .inl ⟨_, _, rfl⟩
  · exact .inl (hartOnly_csrInstr hc)
  · rcases loadTo_next hl with ⟨e, rfl⟩ | ⟨g, rfl⟩ | ⟨v, s1, hm, rfl⟩
    · exact .inl (hartOnly_trapEntry ..)
    · exact .inr (.inl ⟨rd, imm, rs1, _, hi, .claim g, _, _, rfl⟩)
    · rcases memRead_value hm with rfl | rfl | ⟨hr, rfl⟩
      · exact .inr (.inl ⟨rd, imm, rs1, _, hi, .core, hartOnly_setX_advance ..⟩)
      · exact .inl (hartOnly_setX_advance ..)
      · exact .inr (.inl ⟨rd, imm, rs1, _, hi, .ram hr, hartOnly_setX_advance ..⟩)
  · rcases storeFrom_next hst with ⟨e, rfl⟩ | ⟨s1, hm, rfl⟩
    · exact .inl (hartOnly_trapEntry ..)
    · exact .inr (.inr ⟨rs2, imm, rs1, v, s1, hi, hm, rfl⟩)
  · exact .inl ⟨_, _, rfl⟩
  · exact .inl (hartOnly_setX_advance ..)
  · exact .inl (hartOnly_advance s)

end Sys2Proof.Effects
end

section
/-! PROOFS. Properties of RAM, its record and the PLIC that every step keeps. A step changes them in seven ways: a message queue, a
record, a byte of RAM, a register write, a pending bit, the requests, a gateway. -/

namespace Sys2Proof.Effects
open Sys2Proof.Machine Sys2Proof.Exceptions Sys2Proof.Instructions Sys2Proof.Invariants

/-- A property of the platform that each of these ways keeps. -/
structure PlatformInvariant (Q : State → Prop) : Prop where
  frame : ∀ {s t : State}, Q s → t.cfg = s.cfg → t.mem = s.mem → t.ramUse = s.ramUse →
    t.plic = { s.plic with wrQ := t.plic.wrQ, claimQ := t.plic.claimQ, respQ := t.plic.respQ, complQ := t.plic.complQ } → Q t
  note : ∀ (s : State) (h : Nat) (st : Bool) (a n : Nat), Q s → Q { s with ramUse := noteUse s.ramUse h st a n }
  store : ∀ (s : State) (a n v : Nat), Q s → Q { s with mem := writeBytes s.mem a n v }
  write : ∀ (s : State) (n : Nat) (q : PlicWrite), Q s → Q { s with plic := applyWrite s.cfg n s.plic q }
  pending : ∀ (s : State) (k : Nat) (b : Bool), Q s → (b = true → k ∈ s.plic.reqQ) → Q { s with plic := s.plic.setPending k b }
  requests : ∀ (s : State) (l : List Nat), Q s → (∀ k ∈ l, k ∈ s.plic.reqQ ∨ isSource s.cfg k = true) →
    Q { s with plic := { s.plic with reqQ := l } }
  gateway : ∀ (s : State) (k : Nat) (g : Gateway), Q s → Q { s with plic := s.plic.setGateway k g }

section
variable {Q : State → Prop} (I : PlatformInvariant Q)
include I

theorem PlatformInvariant.hartOnly {s t : State} (h : HartOnly s t) (hs : Q s) : Q t := by
  obtain ⟨k, n, rfl⟩ := h
  exact I.frame hs rfl rfl rfl rfl

theorem PlatformInvariant.modHart (s : State) (k : Nat) (f : Hart → Hart) (hs : Q s) : Q (s.modHart k f) :=
  I.frame hs (by simp) (by simp) (by simp) (by simp)

theorem PlatformInvariant.doWrite (s : State) (h : Nat) (hs : Q s) : Q (doWrite s h) := by
  unfold Machine.doWrite
  split
  · exact hs
  · next e _ =>
    have popped : Q { s with plic := { s.plic with wrQ := removeFirst (fun d => d.1 == h) s.plic.wrQ } } :=
      I.frame hs rfl rfl rfl rfl
    exact I.frame (I.write _ s.draws e.2 popped) rfl rfl rfl rfl

theorem PlatformInvariant.afterOwnWrites {s : State} (hs : Q s) : Q (afterOwnWrites s) := by
  have drain : ∀ (h n : Nat) (s : State), Q s → Q (drainWrites h n s) := by
    intro h n
    induction n with
    | zero => exact fun _ hs => hs
    | succ n ih => exact fun s hs => ih _ (I.doWrite s h hs)
  exact drain _ _ s hs

theorem PlatformInvariant.memWrite {s u : State} {w : Width} {a : Nat} {v : Word} (h : memWrite s w a v = .done u) (hs : Q s) :
    Q u := by
  rcases memWrite_done h with ⟨_, _, rfl⟩ | ⟨_, k, _, b, _, rfl⟩ | ⟨_, k, _, f, _, rfl⟩ | ⟨_, _, rfl⟩
  · exact I.frame hs rfl rfl rfl rfl
  · exact I.modHart _ _ _ hs
  · exact I.modHart _ _ _ hs
  · exact I.note { s with mem := _ } _ _ _ _ (I.store s a _ _ hs)

theorem PlatformInvariant.exec {i : Instr} {s t : State} (h : exec i s = .next t) (hs : Q s) : Q t := by
  rcases exec_effect h with ho | ⟨_, _, _, u, _, hu, ho⟩ | ⟨_, _, _, _, u, _, hm, rfl⟩
  · exact I.hartOnly ho hs
  · refine I.hartOnly ho ?_
    cases hu with
    | claim g => exact I.frame hs rfl rfl rfl rfl
    | core => exact I.afterOwnWrites hs
    | ram _ => exact I.note _ _ _ _ _ hs
  · exact I.hartOnly (hartOnly_advance u) (I.memWrite hm hs)

theorem PlatformInvariant.doClaim (s : State) (h : Nat) (hs : Q s) : Q (doClaim s h) := by
  unfold Machine.doClaim answerClaim
  split
  · exact hs
  · split
    · exact hs
    · dsimp only
      split
      · exact I.frame hs rfl rfl rfl rfl
      · refine I.frame (I.pending { s with plic := { s.plic with claimQ := _, respQ := _ } } _ false ?_ (fun h => nomatch h))
          rfl rfl rfl rfl
        exact I.frame hs rfl rfl rfl rfl

theorem PlatformInvariant.doAccept (s : State) (k : Nat) (hs : Q s) : Q (doAccept s k) := by
  unfold Machine.doAccept
  split
  · next hk =>
    have hmem : k ∈ s.plic.reqQ := by simpa using (Bool.and_eq_true_iff.mp hk).1
    exact I.requests { s with plic := s.plic.setPending k true } _ (I.pending s k true hs (fun _ => hmem))
      (fun j hj => .inl (mem_removeFirst _ hj))
  · exact hs

theorem PlatformInvariant.doForward (s : State) (k : Nat) (hs : Q s) : Q (doForward s k) := by
  unfold Machine.doForward
  split
  · next hk =>
    have hsrc : isSource s.cfg k = true := by
      simp only [canForward, Bool.and_eq_true] at hk
      exact hk.1.1
    refine I.gateway { s with plic := { s.plic with reqQ := s.plic.reqQ ++ [k] } } k _ (I.requests s _ hs (fun j hj => ?_))
    rcases List.mem_append.mp hj with hj | hj
    · exact .inl hj
    · rw [List.mem_singleton.mp hj]; exact .inr hsrc
  · exact hs

theorem PlatformInvariant.doComplete (s : State) (t k : Nat) (hs : Q s) : Q (doComplete s t k) := by
  have popped : Q { s with plic := { s.plic with complQ := removeFirst (fun e => e == (t, k)) s.plic.complQ } } :=
    I.frame hs rfl rfl rfl rfl
  unfold Machine.doComplete completed
  split
  · split
    · exact I.gateway _ _ _ popped
    · exact popped
  · exact hs

/-- Every step keeps a property of the platform that the seven ways keep. -/
theorem PlatformInvariant.kept : KeptByStep Q := by
  intro s t hs h
  rw [step_eq] at h
  have hp : Q (popEvent s) := I.frame hs rfl rfl rfl rfl
  have sw : ∀ k, Q ((popEvent s).switchTo k) := fun k => I.frame hp (by simp) (by simp) (by simp) (by simp)
  rcases runEvent_next h with rfl | ⟨k, w, _, _, _, hf⟩ | ⟨k, _, _, _, hx⟩ | ⟨k, i, _, _, rfl⟩ | ⟨_, _, rfl⟩ | ⟨k, _, rfl⟩ |
    ⟨k, b, _, rfl⟩ | ⟨k, _, rfl⟩ | ⟨k, i, b, _, rfl⟩ | ⟨k, _, rfl⟩ | ⟨k, _, rfl⟩ | ⟨k, _, rfl⟩ | ⟨k, _, rfl⟩ | ⟨k, i, _, rfl⟩ | ⟨k, _, rfl⟩
  · exact hp
  · rcases finishClaim_next hf with rfl | ⟨r, _, _, rfl⟩
    · exact sw k
    · refine I.hartOnly (hartOnly_setX_advance ..) (I.frame (sw k) rfl rfl rfl rfl)
  · rcases execNext_next hx with ⟨_, _, _, rfl⟩ | ⟨i, _, hi⟩
    · exact I.hartOnly (hartOnly_trapEntry ..) (sw k)
    · exact I.exec hi (sw k)
  · rcases takeInterrupt_cases ((popEvent s).switchTo k) i with ⟨_, _, e⟩ | e <;> rw [e]
    · exact I.hartOnly (hartOnly_trapEntry ..) (sw k)
    · exact sw k
  · exact I.frame hp rfl rfl rfl rfl
  · exact I.modHart _ _ _ hp
  · unfold doLine; split
    · exact I.gateway _ _ _ hp
    · exact hp
  · unfold doEdge; split
    · exact I.gateway _ _ _ hp
    · exact hp
  · unfold doLocalIrq; split
    · exact I.modHart _ _ _ hp
    · exact hp
  · exact I.doForward _ _ hp
  · exact I.doAccept _ _ hp
  · exact I.doWrite _ _ hp
  · exact I.doClaim _ _ hp
  · exact I.doComplete _ _ _ hp
  · rcases doNotify_cases (popEvent s) k with e | ⟨_, _, _, e⟩ <;> rw [e]
    · exact hp
    · exact I.modHart _ _ _ hp

end

/-! ### The canonical form -/

/-- Recording an access keeps the record canonical. -/
theorem noteUse_wf (h : Nat) (st : Bool) (n : Nat) : ∀ (m : List (Nat × RamUse)) (a : Nat), StoreWf RamUse.none m →
    StoreWf RamUse.none (noteUse m h st a n) := by
  induction n with
  | zero => exact fun _ _ hm => hm
  | succ n ih => exact fun m a hm => ih _ _ (storePut_wf _ _ _ _ hm)

theorem storesCanonical_invariant : PlatformInvariant StoresCanonical where
  frame := by
    rintro s t ⟨hm, hu, hrest⟩ _ em eu ep
    unfold StoresCanonical
    rw [em, eu, ep]; exact ⟨hm, hu, hrest⟩
  note s h st a n hs := ⟨hs.1, noteUse_wf h st n _ _ hs.2.1, hs.2.2⟩
  store s a n v hs := ⟨writeBytes_wf n _ _ _ hs.1, hs.2⟩
  write s n q hs := by
    obtain ⟨hm, hu, hprio, hie, hthr, hgw⟩ := hs
    cases q with
    | prio k v =>
      unfold applyWrite
      dsimp only
      split
      · exact ⟨hm, hu, hprio, hie, hthr, hgw⟩
      · exact ⟨hm, hu, storePut_wf _ _ _ _ hprio, hie, hthr, hgw⟩
    | enable g w v => exact ⟨hm, hu, hprio, storePut_wf _ _ _ _ hie, hthr, hgw⟩
    | threshold g v =>
      unfold applyWrite
      dsimp only
      split
      · exact ⟨hm, hu, hprio, hie, hthr, hgw⟩
      · exact ⟨hm, hu, hprio, hie, storePut_wf _ _ _ _ hthr, hgw⟩
  pending _ _ _ hs _ := hs
  requests _ _ hs _ := hs
  gateway s k g hs := by
    obtain ⟨hm, hu, hprio, hie, hthr, hgw⟩ := hs
    exact ⟨hm, hu, hprio, hie, hthr, storePut_wf _ _ _ _ hgw⟩

/-- Settles O59. -/
theorem storesStayCanonical : Obligations.StoresStayCanonical := storesCanonical_invariant.kept

/-! ### The ranges of the PLIC -/

/-- The bits that the mask of the sources keeps are those of the sources. -/
theorem sourceMask_getLsbD (c : Config) (k : Nat) : (sourceMask c).getLsbD k = (decide (k < 1024) && isSource c k) := by
  have one : (1#1024).getLsbD k = decide (k = 0) := by simp [BitVec.getLsbD_one]
  rw [sourceMask, BitVec.getLsbD_and, BitVec.getLsbD_not, BitVec.getLsbD_ofNat, Nat.testBit_two_pow_sub_one, one, isSource]
  by_cases hk : k < 1024
  · by_cases h0 : k = 0
    · simp [h0]
    · simp [hk, h0, Nat.one_le_iff_ne_zero]
  · simp [hk]

/-- A pending bit that is set after a change of one bit was set before, or is the one set. -/
theorem pendingOf_setPending_true {p : Plic} {s k : Nat} {b : Bool} (h : pendingOf (p.setPending s b) k = true) :
    pendingOf p k = true ∨ (b = true ∧ k = s) := by
  unfold pendingOf Plic.setPending at h
  cases b with
  | false =>
    simp only [Bool.false_eq_true, if_false, BitVec.getLsbD_and, Bool.and_eq_true] at h
    exact .inl h.1
  | true =>
    simp only [if_true, BitVec.getLsbD_or, Bool.or_eq_true] at h
    rcases h with h | h
    · exact .inl h
    · rw [← BitVec.twoPow_eq, BitVec.getLsbD_twoPow] at h
      simp only [Bool.and_eq_true, decide_eq_true_eq] at h
      exact .inr ⟨rfl, h.2.symm⟩

/-- A value written to a priority or threshold leaves one up to `MAX_PRI`. -/
theorem legalPri_le (c : Config) (v n : Nat) : legalPri c v n ≤ c.maxPri := by
  unfold legalPri
  split
  · assumption
  · exact Nat.lt_succ_iff.mp (Nat.mod_lt _ (Nat.succ_pos _))

theorem plicInRange_invariant : PlatformInvariant PlicInRange where
  frame := by
    rintro s t hs ec _ _ ep
    have hip : ∀ k, pendingOf t.plic k = pendingOf s.plic k := fun k => by rw [ep]; rfl
    unfold PlicInRange at hs ⊢
    simp only [hip]
    rw [ec, ep]; exact hs
  note _ _ _ _ _ hs := hs
  store _ _ _ _ hs := hs
  write s n q hs := by
    obtain ⟨hprio, hthr, hie, hip, hreq⟩ := hs
    cases q with
    | prio k v =>
      unfold applyWrite
      dsimp only
      split
      · exact ⟨hprio, hthr, hie, hip, hreq⟩
      · refine ⟨fun p hp => ?_, hthr, hie, hip, hreq⟩
        rcases mem_storePut _ hp with h | ⟨rfl, _⟩
        · exact hprio p h
        · exact legalPri_le _ _ _
    | enable g w v =>
      refine ⟨hprio, hthr, fun p hp j hj => ?_, hip, hreq⟩
      rcases mem_storePut _ hp with h | ⟨rfl, _⟩
      · exact hie p h j hj
      · rw [BitVec.getLsbD_and, sourceMask_getLsbD, Bool.and_eq_true, Bool.and_eq_true] at hj
        exact hj.2.2
    | threshold g v =>
      unfold applyWrite
      dsimp only
      split
      · exact ⟨hprio, hthr, hie, hip, hreq⟩
      · refine ⟨hprio, fun p hp => ?_, hie, hip, hreq⟩
        rcases mem_storePut _ hp with h | ⟨rfl, _⟩
        · exact hthr p h
        · exact legalPri_le _ _ _
  pending s k b hs hk := by
    obtain ⟨hprio, hthr, hie, hip, hreq⟩ := hs
    refine ⟨hprio, hthr, hie, fun j hj => ?_, hreq⟩
    rcases pendingOf_setPending_true hj with h | ⟨hb, rfl⟩
    · exact hip j h
    · exact hreq _ (hk hb)
  requests s l hs hl := by
    obtain ⟨hprio, hthr, hie, hip, hreq⟩ := hs
    exact ⟨hprio, hthr, hie, hip, fun k hk => (hl k hk).elim (hreq k) id⟩
  gateway _ _ _ hs := hs

/-- Settles O60. -/
theorem plicStaysInRange : Obligations.PlicStaysInRange := plicInRange_invariant.kept

end Sys2Proof.Effects
end

section
/-! PROOFS. What no instruction and no step changes: other harts, memory and the platform (00_scope.md R3, 10_state.md R33, 60_exceptions.md
R221, R222). -/

namespace Sys2Proof.Effects
open Sys2Proof.Machine Sys2Proof.Exceptions Sys2Proof.Instructions Sys2Proof.Invariants Sys2Proof.Fetching

/-! ### The bits of `mip` that only devices drive -/

/-- A bit of `mip` that no CSR write changes: MSIP, MTIP, the external bits and the platform's (10_state.md R33). -/
def DeviceBit (b : Nat) : Prop := b = 3 ∨ b = 7 ∨ 8 ≤ b

/-- From h to k neither `mtimecmp` nor a device's bit of `mip` changed. -/
def DevicesKept (h k : Hart) : Prop :=
  k.mtimecmp = h.mtimecmp ∧ ∀ b, DeviceBit b → k.mip.getLsbD b = h.mip.getLsbD b

theorem devicesKept_of_eq {h k : Hart} (ht : k.mtimecmp = h.mtimecmp) (hm : k.mip = h.mip) : DevicesKept h k :=
  ⟨ht, fun _ _ => by rw [hm]⟩

theorem mipWriteMask_device (c : Config) {b : Nat} (hb : DeviceBit b) : (mipWriteMask c).getLsbD b = false := by
  have clear : ∀ j : Fin 64, (0x077#64).getLsbD j = true → j.val ≠ 3 ∧ j.val ≠ 7 ∧ j.val < 8 := by decide
  have hlow : (0x077#64).getLsbD b = false := by
    rw [Bool.eq_false_iff]
    intro h
    obtain ⟨h3, h7, h8⟩ := clear ⟨b, BitVec.lt_of_getLsbD h⟩ h
    rcases hb with hb | hb | hb
    · exact h3 hb
    · exact h7 hb
    · simp only at h8; omega
  rw [mipWriteMask, BitVec.getLsbD_and, hlow, Bool.false_and]

/-- A CSR write changes neither `mtimecmp` nor a device's bit. -/
theorem devicesKept_csrChange {c : Config} {h k : Hart} {v : Word} {n : Nat} {r : Csr} (hk : CsrChange c h v n r k) :
    DevicesKept h k := by
  cases hk with
  | status | mie | none => exact devicesKept_of_eq rfl rfl
  | mip m hm =>
    refine ⟨rfl, fun b hb => ?_⟩
    have hout : m.getLsbD b = false := by
      rw [Bool.eq_false_iff]
      intro h
      have := within_iff.mp hm b h
      rw [mipWriteMask_device c hb] at this; cases this
    simp [merge_getLsbD, hout]
  | edeleg x => exact devicesKept_of_eq (Hart.setEdeleg_mtimecmp ..) (Hart.setEdeleg_mip ..)
  | ideleg x => exact devicesKept_of_eq (Hart.setIdeleg_mtimecmp ..) (Hart.setIdeleg_mip ..)
  | trap x q => exact devicesKept_of_eq (Hart.setTrapRegs_mtimecmp ..) (Hart.setTrapRegs_mip ..)

theorem devicesKept_advance (s : State) : DevicesKept s.hart s.advance.hart := by
  rw [advance_hart]; exact devicesKept_of_eq rfl rfl

theorem devicesKept_trapEntry (i : Bool) (c : Nat) (e : Word) (b : Option Word) (s : State) :
    DevicesKept s.hart (trapEntry i c e b s).hart :=
  devicesKept_of_eq (Hart.setTrapRegs_mtimecmp ..) (trapEntry_mip ..)

theorem devicesKept_csrInstr {rd : BitVec 5} {a : BitVec 12} {reads writes : Bool} {f : Word → Word} {s t : State}
    (h : csrInstr rd a reads writes f s = .next t) : DevicesKept s.hart t.hart := by
  rcases csrInstr_next h with ⟨_, rfl⟩ | ⟨r, s1, s2, _, h1, h2, rfl⟩
  · exact devicesKept_trapEntry ..
  · have read : s1.hart.mtimecmp = s.hart.mtimecmp ∧ s1.hart.mip = s.hart.mip := by
      rcases h1 with rfl | rfl
      · exact ⟨rfl, rfl⟩
      · obtain ⟨_, _, _, e⟩ := csrAfterRead_frame s r
        rw [e]; exact ⟨rfl, rfl⟩
    have write : DevicesKept s1.hart s2.hart := by
      rcases h2 with rfl | h2
      · exact devicesKept_of_eq rfl rfl
      · obtain ⟨_, rfl⟩ := (csrWrite_ok _ _ _ _).mp h2
        exact devicesKept_csrChange (csrPut_change ..)
    obtain ⟨at1, am1⟩ := devicesKept_advance (s2.setX rd (csrValue s r))
    refine ⟨?_, fun b hb => ?_⟩
    · rw [at1]; exact write.1.trans read.1
    · rw [am1 b hb]; exact (write.2 b hb).trans (by rw [read.2])

/-- No instruction but SW changes `mtimecmp` or a device's bit of `mip`. -/
theorem exec_devicesKept {i : Instr} {s t : State} (h : exec i s = .next t) :
    (∃ rs2 imm rs1, i = .sw rs2 imm rs1) ∨ DevicesKept s.hart t.hart := by
  rcases exec_next h with ⟨e, bad, _, rfl⟩ | ⟨x, _, rfl⟩ | ⟨rd, a, r, w, f, _, hc⟩ | ⟨rd, a, _, hl⟩ |
    ⟨v, a, ⟨_, rs2, imm, rs1, hi, _⟩, _⟩ | ⟨a, _, _, rfl⟩ | ⟨rd, v, _, rfl⟩ | rfl
  · exact .inr (devicesKept_trapEntry ..)
  · exact .inr (devicesKept_of_eq rfl rfl)
  · exact .inr (devicesKept_csrInstr hc)
  · right
    rcases loadTo_next hl with ⟨e, rfl⟩ | ⟨g, rfl⟩ | ⟨v, s1, hm, rfl⟩
    · exact devicesKept_trapEntry ..
    · exact devicesKept_of_eq rfl rfl
    · obtain ⟨_, _, _, _, _, _, rfl, _⟩ := memRead_value_frame hm
      exact devicesKept_advance _
  · exact .inl ⟨rs2, imm, rs1, hi⟩
  · exact .inr (devicesKept_of_eq rfl rfl)
  · exact .inr (devicesKept_advance (s.setX rd v))
  · exact .inr (devicesKept_advance s)

/-- Settles O40: outside its hart an instruction does what `exec_effect` says, inside what `exec_devicesKept` says. -/
theorem onlyStoresReachOut : Obligations.OnlyStoresReachOut := by
  intro s t i h
  have inside : (∃ rs2 imm rs1, i = .sw rs2 imm rs1) ∨ DevicesKept s.hart t.hart := exec_devicesKept h
  rcases exec_effect h with ho | ⟨rd, imm, rs1, u, rfl, hu, ho⟩ | ⟨rs2, imm, rs1, v, u, rfl, hm, rfl⟩
  · have out := ho.outside
    exact ⟨out.cfg, out.hid, out.mtime, out.sched, inside.imp_right (fun hk => ⟨out.parked, out.mem, hk.1, hk.2⟩),
      .inr (.inr out.plic), .inr out.ramUse⟩
  · have out := ho.outside
    have load : u.cfg = s.cfg ∧ u.hid = s.hid ∧ u.mtime = s.mtime ∧ u.sched = s.sched ∧ u.parked = s.parked ∧ u.mem = s.mem ∧
        (route s.cfg (dataAddr s rs1 imm).toNat 4 = .ram ∨ u.ramUse = s.ramUse) := by
      cases hu with
      | claim g => exact ⟨rfl, rfl, rfl, rfl, rfl, rfl, .inr rfl⟩
      | core =>
        obtain ⟨_, _, _, _, _, e⟩ := afterOwnWrites_frame s
        rw [e]; exact ⟨rfl, rfl, rfl, rfl, rfl, rfl, .inr rfl⟩
      | ram hr => exact ⟨rfl, rfl, rfl, rfl, rfl, rfl, .inl hr⟩
    obtain ⟨ecfg, ehid, etime, esched, epark, emem, euse⟩ := load
    refine ⟨out.cfg.trans ecfg, out.hid.trans ehid, out.mtime.trans etime, out.sched.trans esched,
      inside.imp_right (fun hk => ⟨out.parked.trans epark, fun a => by rw [out.mem, emem], hk.1, hk.2⟩),
      .inr (.inl ⟨rd, imm, rs1, rfl⟩), ?_⟩
    exact euse.imp (fun hr => ⟨rd, imm, rs1, .inl rfl, hr⟩) (fun hu => out.ramUse.trans hu)
  · have isSw : ∃ r i r', Instr.sw rs2 imm rs1 = .sw r i r' := ⟨rs2, imm, rs1, rfl⟩
    have store : u.cfg = s.cfg ∧ u.hid = s.hid ∧ u.mtime = s.mtime ∧ u.sched = s.sched ∧
        (route s.cfg (dataAddr s rs1 imm).toNat 4 = .ram ∨ u.ramUse = s.ramUse) := by
      rcases memWrite_done hm with ⟨_, _, rfl⟩ | ⟨_, _, _, _, _, rfl⟩ | ⟨_, _, _, _, _, rfl⟩ | ⟨hr, _, rfl⟩
      · exact ⟨rfl, rfl, rfl, rfl, .inr rfl⟩
      · simp
      · simp
      · exact ⟨rfl, rfl, rfl, rfl, .inl hr⟩
    obtain ⟨ecfg, ehid, etime, esched, euse⟩ := store
    refine ⟨by simpa using ecfg, by simpa using ehid, by simpa using etime, by simpa using esched, .inl isSw, .inl isSw, ?_⟩
    exact euse.imp (fun hr => ⟨rs2, imm, rs1, .inr rfl, hr⟩) (fun hu => by simpa using hu)

/-! ### The platform under a step -/

/-- From s to t the harts have the numbers they had. -/
def SameNumbers (s t : State) : Prop := t.hid = s.hid ∧ t.parked.map (fun p => p.1) = s.parked.map (fun p => p.1)

theorem lookup_isSome {β : Type} (l : List (Nat × β)) (k : Nat) : (l.lookup k).isSome = decide (k ∈ l.map (fun p => p.1)) := by
  induction l with
  | nil => rfl
  | cons p l ih =>
    obtain ⟨a, b⟩ := p
    by_cases h : k = a
    · simp [h]
    · rw [List.lookup_cons, beq_false_of_ne h, ih]; simp [h]

theorem hartAt_isSome (s : State) (k : Nat) : (s.hartAt k).isSome = decide (k ∈ s.hid :: s.parked.map (fun p => p.1)) := by
  unfold State.hartAt
  by_cases h : k = s.hid
  · simp [h]
  · rw [if_neg h, lookup_isSome]; simp [h]

/-- From s to t the parameters, the harts' numbers and the order of time are kept. -/
def KeepsPlatform (s t : State) : Prop :=
  t.cfg = s.cfg ∧ s.mtime.toNat ≤ t.mtime.toNat ∧
    (HartsDistinct s → HartsDistinct t ∧ ∀ k, (s.hartAt k).isSome = (t.hartAt k).isSome)

theorem KeepsPlatform.trans {s t u : State} (h : KeepsPlatform s t) (g : KeepsPlatform t u) : KeepsPlatform s u :=
  ⟨g.1.trans h.1, Nat.le_trans h.2.1 g.2.1, fun hd =>
    have ⟨ht, hs⟩ := h.2.2 hd
    have ⟨hu, hk⟩ := g.2.2 ht
    ⟨hu, fun k => (hs k).trans (hk k)⟩⟩

theorem keepsPlatform_of_numbers {s t : State} (hc : t.cfg = s.cfg) (hm : s.mtime.toNat ≤ t.mtime.toNat) (hn : SameNumbers s t) :
    KeepsPlatform s t := by
  obtain ⟨hid, hp⟩ := hn
  refine ⟨hc, hm, fun hd => ⟨?_, fun k => ?_⟩⟩
  · unfold HartsDistinct; rw [hid, hp]; exact hd
  · rw [hartAt_isSome, hartAt_isSome, hid, hp]

/-- A change outside the parameters, the timer and the set of harts. -/
theorem keepsPlatform_of_eq {s t : State} (hc : t.cfg = s.cfg) (hm : t.mtime = s.mtime) (hid : t.hid = s.hid)
    (hp : t.parked = s.parked) : KeepsPlatform s t :=
  keepsPlatform_of_numbers hc (by rw [hm]) ⟨hid, by rw [hp]⟩

theorem HartOnly.keepsPlatform {s t : State} (h : HartOnly s t) : KeepsPlatform s t :=
  keepsPlatform_of_eq h.outside.cfg h.outside.mtime h.outside.hid h.outside.parked

theorem keepsPlatform_modHart (s : State) (h : Nat) (f : Hart → Hart) : KeepsPlatform s (s.modHart h f) := by
  refine keepsPlatform_of_numbers (by simp) (by simp) ⟨by simp, ?_⟩
  unfold State.modHart
  split
  · rfl
  · rw [List.map_map]
    exact List.map_congr_left (fun p _ => by simp only [Function.comp_apply]; split <;> rfl)

theorem keepsPlatform_switchTo (s : State) (h : Nat) : KeepsPlatform s (s.switchTo h) :=
  ⟨by simp, by simp, fun hd => ⟨switchTo_distinct hd h, fun k => by rw [switchTo_hartAt hd]⟩⟩

theorem exec_keepsPlatform {i : Instr} {s t : State} (h : exec i s = .next t) : KeepsPlatform s t := by
  rcases exec_effect h with ho | ⟨_, _, _, u, _, hu, ho⟩ | ⟨_, _, _, _, u, _, hm, rfl⟩
  · exact ho.keepsPlatform
  · refine KeepsPlatform.trans ?_ ho.keepsPlatform
    cases hu with
    | claim g => exact keepsPlatform_of_eq rfl rfl rfl rfl
    | core =>
      obtain ⟨_, _, _, _, _, e⟩ := afterOwnWrites_frame s
      rw [e]; exact keepsPlatform_of_eq rfl rfl rfl rfl
    | ram _ => exact keepsPlatform_of_eq rfl rfl rfl rfl
  · refine KeepsPlatform.trans ?_ (hartOnly_advance u).keepsPlatform
    rcases memWrite_done hm with ⟨_, _, rfl⟩ | ⟨_, _, _, _, _, rfl⟩ | ⟨_, _, _, _, _, rfl⟩ | ⟨_, _, rfl⟩
    · exact keepsPlatform_of_eq rfl rfl rfl rfl
    · exact keepsPlatform_modHart ..
    · exact keepsPlatform_modHart ..
    · exact keepsPlatform_of_eq rfl rfl rfl rfl

/-- Settles O43: of the events only the tick writes `mtime`, below 2^64 - 1, and only the choice of the current hart moves harts. -/
theorem stepKeepsThePlatform : Obligations.StepKeepsThePlatform := by
  intro s t h
  rw [step_eq] at h
  have pop : KeepsPlatform s (popEvent s) := keepsPlatform_of_eq rfl rfl rfl rfl
  refine pop.trans ?_
  generalize popEvent s = s at h
  have sw := keepsPlatform_switchTo s
  rcases runEvent_next h with rfl | ⟨k, w, _, _, _, hf⟩ | ⟨k, _, _, _, hx⟩ | ⟨k, i, _, _, rfl⟩ | ⟨_, hm, rfl⟩ | ⟨k, _, rfl⟩ |
    ⟨k, b, _, rfl⟩ | ⟨k, _, rfl⟩ | ⟨k, i, b, _, rfl⟩ | ⟨k, _, rfl⟩ | ⟨k, _, rfl⟩ | ⟨k, _, rfl⟩ | ⟨k, _, rfl⟩ | ⟨k, i, _, rfl⟩ | ⟨k, _, rfl⟩
  · exact (HartOnly.refl _).keepsPlatform
  · refine (sw k).trans ?_
    rcases finishClaim_next hf with rfl | ⟨r, _, _, rfl⟩
    · exact (HartOnly.refl _).keepsPlatform
    · refine KeepsPlatform.trans ?_ (hartOnly_setX_advance ..).keepsPlatform
      exact keepsPlatform_of_eq rfl rfl rfl rfl
  · refine (sw k).trans ?_
    rcases execNext_next hx with ⟨_, _, _, rfl⟩ | ⟨i, _, hi⟩
    · exact (hartOnly_trapEntry ..).keepsPlatform
    · exact exec_keepsPlatform hi
  · refine (sw k).trans ?_
    rcases takeInterrupt_cases (s.switchTo k) i with ⟨_, _, e⟩ | e <;> rw [e]
    · exact (hartOnly_trapEntry ..).keepsPlatform
    · exact (HartOnly.refl _).keepsPlatform
  · refine keepsPlatform_of_numbers rfl ?_ ⟨rfl, rfl⟩
    have hlt : s.mtime.toNat ≠ 2 ^ 64 - 1 := fun e => hm (BitVec.eq_of_toNat_eq e)
    have := s.mtime.isLt
    simp only [BitVec.toNat_add, BitVec.toNat_ofNat]
    omega
  · exact keepsPlatform_modHart ..
  · obtain ⟨_, e⟩ := doLine_frame s k b; rw [e]; exact keepsPlatform_of_eq rfl rfl rfl rfl
  · obtain ⟨_, e⟩ := doEdge_frame s k; rw [e]; exact keepsPlatform_of_eq rfl rfl rfl rfl
  · unfold doLocalIrq
    split
    · exact keepsPlatform_modHart ..
    · exact (HartOnly.refl _).keepsPlatform
  · obtain ⟨_, _, e⟩ := doForward_frame s k; rw [e]; exact keepsPlatform_of_eq rfl rfl rfl rfl
  · obtain ⟨_, _, e⟩ := doAccept_frame s k; rw [e]; exact keepsPlatform_of_eq rfl rfl rfl rfl
  · obtain ⟨_, _, _, _, _, e⟩ := doWrite_frame s k; rw [e]; exact keepsPlatform_of_eq rfl rfl rfl rfl
  · obtain ⟨_, _, _, e⟩ := doClaim_frame s k; rw [e]; exact keepsPlatform_of_eq rfl rfl rfl rfl
  · obtain ⟨_, _, e⟩ := doComplete_frame s k i; rw [e]; exact keepsPlatform_of_eq rfl rfl rfl rfl
  · rcases doNotify_cases s k with e | ⟨_, _, _, e⟩ <;> rw [e]
    · exact (HartOnly.refl _).keepsPlatform
    · exact keepsPlatform_modHart ..

end Sys2Proof.Effects
end

section
/-! PROOFS. Who changes a device's bit of `mip`: the comparator and the timer registers MTIP (60_exceptions.md R222), the platform its
local bits (10_state.md R41), and nothing else either. -/

namespace Sys2Proof.Effects
open Sys2Proof.Machine Sys2Proof.Exceptions Sys2Proof.Instructions Sys2Proof.Invariants Sys2Proof.Fetching

/-- From s to t bit i of no hart's `mip` changed. -/
def KeepsBit (i : Nat) (s t : State) : Prop :=
  ∀ k, (t.hartAt k).map (fun h => h.mip.getLsbD i) = (s.hartAt k).map (fun h => h.mip.getLsbD i)

theorem KeepsBit.refl (i : Nat) (s : State) : KeepsBit i s s := fun _ => rfl

theorem KeepsBit.trans {i : Nat} {s t u : State} (h : KeepsBit i s t) (g : KeepsBit i t u) : KeepsBit i s u :=
  fun k => (g k).trans (h k)

theorem KeepsBit.bit_eq {i : Nat} {s t : State} (h : KeepsBit i s t) {k : Nat} {g g' : Hart} (hg : s.hartAt k = some g)
    (hg' : t.hartAt k = some g') : g'.mip.getLsbD i = g.mip.getLsbD i := by
  simpa [hg, hg'] using h k

theorem keepsBit_of_eq {i : Nat} {s t : State} (hid : t.hid = s.hid) (hp : t.parked = s.parked)
    (hm : t.hart.mip.getLsbD i = s.hart.mip.getLsbD i) : KeepsBit i s t := by
  intro k
  by_cases hk : k = s.hid
  · subst hk
    rw [hartAt_self, ← hid, hartAt_self]
    exact congrArg some hm
  · rw [hartAt_congr hid hp hk]

theorem keepsBit_modHart {i : Nat} (s : State) (h : Nat) {f : Hart → Hart}
    (hf : ∀ k, (f k).mip.getLsbD i = k.mip.getLsbD i) : KeepsBit i s (s.modHart h f) := by
  intro k
  rw [modHart_hartAt]
  split
  · rw [Option.map_map]; exact congrFun (congrArg Option.map (funext hf)) _
  · rfl

theorem keepsBit_driveMip (s : State) (h : Nat) {i j : Nat} (b : Bool) (hj : j < 64) (hne : i ≠ j) :
    KeepsBit i s (s.modHart h (fun k => k.driveMip j b)) :=
  keepsBit_modHart s h (fun k => by rw [Hart.driveMip_mip, setBit_getLsbD _ _ _ _ hj, if_neg hne])

theorem keepsBit_advance (i : Nat) (s : State) : KeepsBit i s s.advance :=
  keepsBit_of_eq (by simp) (by simp) (by rw [advance_hart])

/-- In s an SW of a hart in M-mode changed the timer compare register of hart k, and t is the state after it. -/
def TimecmpStored (j : Instr) (k : Nat) (s t : State) : Prop :=
  s.hart.priv = .m ∧ (∃ rs2 imm rs1 off, j = .sw rs2 imm rs1 ∧ route s.cfg (dataAddr s rs1 imm).toNat 4 = .timecmp k off) ∧
    ∃ f : Hart → BitVec 64, t = (s.modHart k (fun x => x.setTimecmp (f x))).advance

/-- An instruction keeps a device's bit other than MSIP, or it is a store to a timer compare register. -/
theorem exec_keepsBit {i : Nat} (hi : i = 7 ∨ 12 ≤ i) {j : Instr} {s t : State} (h : exec j s = .next t) :
    KeepsBit i s t ∨ ∃ k, TimecmpStored j k s t := by
  have dev : DeviceBit i := by unfold DeviceBit; omega
  obtain ⟨_, hid, _, _, inside, _, _⟩ := onlyStoresReachOut s t j h
  rcases inside with ⟨rs2, imm, rs1, rfl⟩ | ⟨hp, _, _, hm⟩
  · rcases storeFrom_next (show storeFrom .word _ (dataAddr s rs1 imm) s = .next t from h) with ⟨e, rfl⟩ | ⟨u, hw, rfl⟩
    · exact .inl (keepsBit_of_eq (by simp) (by simp) (by rw [trapEntry_mip]))
    · rcases memWrite_done hw with ⟨_, _, rfl⟩ | ⟨_, k, off, b, _, rfl⟩ | ⟨hm, k, off, f, hr, rfl⟩ | ⟨_, _, rfl⟩
      · exact .inl (keepsBit_of_eq (by simp) (by simp) (by rw [advance_hart]))
      · exact .inl ((keepsBit_driveMip s k (j := 3) b (by omega) (by omega)).trans (keepsBit_advance i _))
      · exact .inr ⟨k, hm, ⟨rs2, imm, rs1, off, rfl, hr⟩, f, rfl⟩
      · exact .inl (keepsBit_of_eq (by simp) (by simp) (by rw [advance_hart]))
  · exact .inl (keepsBit_of_eq hid hp (hm i dev))

/-- In a step of hart h the stored timer compare register is hart k's. -/
def RunStores (h k : Nat) (s t : State) : Prop :=
  nextEvent s = .run h ∧ hasHart (popEvent s) h = true ∧ ((popEvent s).switchTo h).hart.waiting = none ∧
    ∃ j, decodeBytes s.cfg.xlen (fourBytes s.mem ((popEvent s).switchTo h).hart.pc.toNat) = .ok j ∧
      TimecmpStored j k ((popEvent s).switchTo h) t

/-- MTIP and the bits above 11 are changed only by the comparator, by the platform and by a store to a timer compare register. -/
theorem step_keepsBit {i : Nat} (hi : i = 7 ∨ 12 ≤ i) {s t : State} (hd : HartsDistinct s) (h : step s = .next t) :
    KeepsBit i (popEvent s) t ∨ (∃ k, nextEvent s = .compare k ∧ t = doCompare (popEvent s) k) ∨
    (∃ k j b, nextEvent s = .localIrq k j b ∧ t = doLocalIrq (popEvent s) k j b) ∨ ∃ h k, RunStores h k s t := by
  have dev : DeviceBit i := by unfold DeviceBit; omega
  rw [step_eq] at h
  have sw : ∀ k, KeepsBit i (popEvent s) ((popEvent s).switchTo k) := fun k j => by
    rw [switchTo_hartAt (s := popEvent s) hd]
  have hartOnly : ∀ {u v : State}, HartOnly u v → v.hart.mip = u.hart.mip → KeepsBit i u v :=
    fun ho hm => keepsBit_of_eq ho.outside.hid ho.outside.parked (by rw [hm])
  have same : ∀ {v : State}, v.hid = s.hid → v.parked = s.parked → v.hart = s.hart → KeepsBit i (popEvent s) v :=
    fun a b c => keepsBit_of_eq a b (by rw [c]; rfl)
  rcases runEvent_next h with rfl | ⟨k, w, _, _, _, hf⟩ | ⟨k, he, hk, hw, hx⟩ | ⟨k, i, _, _, rfl⟩ | ⟨_, hm, rfl⟩ | ⟨k, he, rfl⟩ |
    ⟨k, b, _, rfl⟩ | ⟨k, _, rfl⟩ | ⟨k, j, b, he, rfl⟩ | ⟨k, _, rfl⟩ | ⟨k, _, rfl⟩ | ⟨k, _, rfl⟩ | ⟨k, _, rfl⟩ | ⟨k, i, _, rfl⟩ | ⟨k, _, rfl⟩
  · exact .inl (KeepsBit.refl _ _)
  · left
    refine (sw k).trans ?_
    rcases finishClaim_next hf with rfl | ⟨r, _, _, rfl⟩
    · exact KeepsBit.refl _ _
    · exact keepsBit_of_eq (by simp) (by simp) (by rw [advance_hart]; simp)
  · rcases execNext_next hx with ⟨_, _, _, rfl⟩ | ⟨j, hj, hi'⟩
    · exact .inl ((sw k).trans (hartOnly (hartOnly_trapEntry ..) (trapEntry_mip ..)))
    · rcases exec_keepsBit hi hi' with hkb | ⟨k', hs⟩
      · exact .inl ((sw k).trans hkb)
      · exact .inr (.inr (.inr ⟨k, k', he, hk, hw, j, by simpa using hj, hs⟩))
  · left
    refine (sw k).trans ?_
    rcases takeInterrupt_cases ((popEvent s).switchTo k) i with ⟨_, _, e⟩ | e <;> rw [e]
    · exact hartOnly (hartOnly_trapEntry ..) (trapEntry_mip ..)
    · exact KeepsBit.refl _ _
  · exact .inl (same rfl rfl rfl)
  · exact .inr (.inl ⟨k, he, rfl⟩)
  · obtain ⟨_, e⟩ := doLine_frame (popEvent s) k b; rw [e]; exact .inl (same rfl rfl rfl)
  · obtain ⟨_, e⟩ := doEdge_frame (popEvent s) k; rw [e]; exact .inl (same rfl rfl rfl)
  · exact .inr (.inr (.inl ⟨k, j, b, he, rfl⟩))
  · obtain ⟨_, _, e⟩ := doForward_frame (popEvent s) k; rw [e]; exact .inl (same rfl rfl rfl)
  · obtain ⟨_, _, e⟩ := doAccept_frame (popEvent s) k; rw [e]; exact .inl (same rfl rfl rfl)
  · obtain ⟨_, _, _, _, _, e⟩ := doWrite_frame (popEvent s) k; rw [e]; exact .inl (same rfl rfl rfl)
  · obtain ⟨_, _, _, e⟩ := doClaim_frame (popEvent s) k; rw [e]; exact .inl (same rfl rfl rfl)
  · obtain ⟨_, _, e⟩ := doComplete_frame (popEvent s) k i; rw [e]; exact .inl (same rfl rfl rfl)
  · left
    rcases doNotify_cases (popEvent s) k with e | ⟨h', x, _, e⟩ <;> rw [e]
    · exact KeepsBit.refl _ _
    · have hx : 8 ≤ eipBit x ∧ eipBit x < 12 := by cases x <;> decide
      exact keepsBit_driveMip _ _ _ (by omega) (by omega)

/-- The hart that a change of one hart leaves at k is its image, if k is that hart. -/
theorem modHart_at {s : State} {h k : Nat} {f : Hart → Hart} {g g' : Hart} (hg : s.hartAt k = some g)
    (hg' : (s.modHart h f).hartAt k = some g') : g' = if k = h then f g else g := by
  rw [modHart_hartAt] at hg'
  split at hg'
  · next hk => rw [if_pos hk]; subst hk; rw [hg] at hg'; exact (Option.some.inj hg').symm
  · next hk => rw [if_neg hk]; rw [hg] at hg'; exact (Option.some.inj hg').symm

/-- A bit that the comparator changed is MTIP, set, at the hart whose comparator it is. -/
theorem doCompare_bit {s : State} {h k i : Nat} {g g' : Hart} (hg : s.hartAt k = some g) (hg' : (doCompare s h).hartAt k = some g')
    (hne : g'.mip.getLsbD i ≠ g.mip.getLsbD i) : k = h ∧ i = 7 ∧ g'.mip.getLsbD 7 = true ∧ g.mtimecmp.toNat ≤ s.mtime.toNat := by
  have e := modHart_at hg hg'
  by_cases hk : k = h
  · rw [if_pos hk] at e
    split at e
    · next hc =>
      have bit : ∀ b, g'.mip.getLsbD b = if b = 7 then true else g.mip.getLsbD b := fun b => by
        rw [e, Hart.driveMip_mip, setBit_getLsbD _ _ _ _ (by decide)]
      have h7 : i = 7 := by
        by_contra hn; exact hne (by rw [bit, if_neg hn])
      refine ⟨hk, h7, by rw [bit]; rfl, ?_⟩
      unfold compareEnabled at hc
      exact BitVec.ule_iff_toNat_le.mp (Bool.and_eq_true _ _ ▸ hc).1
    · exact absurd (by rw [e]) hne
  · rw [if_neg hk] at e; exact absurd (by rw [e]) hne

/-- A bit that the platform changed is the one it drove, at the hart it drove it at. -/
theorem doLocalIrq_bit {s : State} {h j k i : Nat} {b : Bool} {g g' : Hart} (hg : s.hartAt k = some g)
    (hg' : (doLocalIrq s h j b).hartAt k = some g') (hne : g'.mip.getLsbD i ≠ g.mip.getLsbD i) :
    k = h ∧ i = j ∧ b = g'.mip.getLsbD i ∧ (localMask s.cfg).getLsbD j = true := by
  unfold doLocalIrq at hg'
  split at hg'
  · next hl =>
    have e := modHart_at hg hg'
    by_cases hk : k = h
    · rw [if_pos hk] at e
      have bit : ∀ c, g'.mip.getLsbD c = if c = j then b else g.mip.getLsbD c := fun c => by
        rw [e, Hart.driveMip_mip, setBit_getLsbD _ _ _ _ (BitVec.lt_of_getLsbD hl)]
      have hj : i = j := by
        by_contra hn; exact hne (by rw [bit, if_neg hn])
      exact ⟨hk, hj, by rw [bit, if_pos hj], hl⟩
    · rw [if_neg hk] at e; exact absurd (by rw [e]) hne
  · rw [hg] at hg'; cases hg'; exact absurd rfl hne

theorem setTimecmp_bit (g : Hart) (v : BitVec 64) (b : Nat) :
    (g.setTimecmp v).mip.getLsbD b = if b = 7 then false else g.mip.getLsbD b := by
  rw [show (g.setTimecmp v).mip = setBit g.mip 7 false from rfl, setBit_getLsbD _ _ _ _ (by decide)]

/-- A bit that a store to a timer compare register changed is MTIP, cleared, at the register's hart. -/
theorem timecmpStored_bit {j : Instr} {s t : State} {h k i : Nat} {g g' : Hart} (hs : TimecmpStored j h s t)
    (hg : s.hartAt k = some g) (hg' : t.hartAt k = some g') (hne : g'.mip.getLsbD i ≠ g.mip.getLsbD i) :
    k = h ∧ i = 7 ∧ g'.mip.getLsbD 7 = false := by
  obtain ⟨_, _, f, rfl⟩ := hs
  obtain ⟨m, hm⟩ : ∃ m, (s.modHart h (fun x => x.setTimecmp (f x))).hartAt k = some m := by
    rw [modHart_hartAt, hg]; split <;> exact ⟨_, rfl⟩
  have adv : ∀ b, g'.mip.getLsbD b = m.mip.getLsbD b := fun b => (keepsBit_advance b _).bit_eq hm hg'
  have e := modHart_at hg hm
  by_cases hk : k = h
  · rw [if_pos hk] at e
    have bit : ∀ c, g'.mip.getLsbD c = if c = 7 then false else g.mip.getLsbD c := fun c => by
      rw [adv, e, setTimecmp_bit]
    refine ⟨hk, ?_, by rw [bit]; rfl⟩
    by_contra hn; exact hne (by rw [bit, if_neg hn])
  · rw [if_neg hk] at e; exact absurd (by rw [adv, e]) hne

/-! ### The obligations -/

/-- Settles O41: the cases of `step_keepsBit` for bit 7. -/
theorem timerPendingChanges : Obligations.TimerPendingChanges := by
  intro s t k g g' hd h hg hg'
  have hg : (popEvent s).hartAt k = some g := hg
  have changed : g'.mip.getLsbD 7 ≠ g.mip.getLsbD 7 →
      (g'.mip.getLsbD 7 = true ∧ nextEvent s = .compare k ∧ g.mtimecmp.toNat ≤ s.mtime.toNat) ∨
      (g'.mip.getLsbD 7 = false ∧ ∃ h, RunStores h k s t) := by
    intro hne
    rcases step_keepsBit (.inl rfl) hd h with hk | ⟨j, he, rfl⟩ | ⟨h', j, b, he, rfl⟩ | ⟨h', j, hr⟩
    · exact absurd (hk.bit_eq hg hg') hne
    · obtain ⟨rfl, _, h1, h2⟩ := doCompare_bit hg hg' hne
      exact .inl ⟨h1, he, h2⟩
    · obtain ⟨_, rfl, _, hl⟩ := doLocalIrq_bit hg hg' hne
      rw [localMask_getLsbD] at hl; simp at hl
    · obtain ⟨_, _, _, _, _, hs⟩ := id hr
      have hq : ((popEvent s).switchTo h').hartAt k = some g := by rw [switchTo_hartAt (s := popEvent s) hd]; exact hg
      obtain ⟨rfl, _, h1⟩ := timecmpStored_bit hs hq hg' hne
      exact .inr ⟨h1, h', hr⟩
  refine ⟨fun h0 h1 => ?_, fun h1 h0 => ?_⟩
  · rcases changed (by rw [h0, h1]; decide) with ⟨_, hc⟩ | ⟨hf, _⟩
    · exact hc
    · rw [h1] at hf; cases hf
  · rcases changed (by rw [h0, h1]; decide) with ⟨ht, _⟩ | ⟨_, h', he, hk, hw, j, hj, hm, ⟨rs2, imm, rs1, off, rfl, hr⟩, _⟩
    · rw [h0] at ht; cases ht
    · have cur := hartAt_self ((popEvent s).switchTo h')
      rw [switchTo_hid hk, switchTo_hartAt (s := popEvent s) hd] at cur
      exact ⟨h', _, rs2, imm, rs1, off, he, cur, hm, hw, hj, by simpa using hr⟩

/-- Driving a bit of a hart's `mip` changes that bit of that hart. -/
theorem modHart_driveMip (s : State) (h : Nat) {j : Nat} (v : Bool) (hj : j < 64) {k : Nat} {q : Hart} (hq : s.hartAt k = some q) :
    ∃ q', (s.modHart h (fun x => x.driveMip j v)).hartAt k = some q' ∧ q' = { q with mip := q'.mip } ∧
      ∀ b, q'.mip.getLsbD b = if k = h ∧ b = j then v else q.mip.getLsbD b := by
  rw [modHart_hartAt, hq]
  by_cases hk : k = h
  · refine ⟨q.driveMip j v, by rw [if_pos hk]; rfl, rfl, fun b => ?_⟩
    rw [Hart.driveMip_mip, setBit_getLsbD _ _ _ _ hj]; simp [hk]
  · exact ⟨q, by rw [if_neg hk], rfl, fun b => by simp [hk]⟩

/-- The comparator sets MTIP exactly when `mtime` has reached `mtimecmp`. -/
theorem compare_bit (s : State) (q : Hart) (b : Nat) :
    (if compareEnabled s q then q.driveMip 7 true else q).mip.getLsbD b =
      if b = 7 ∧ q.mtimecmp.toNat ≤ s.mtime.toNat then true else q.mip.getLsbD b := by
  unfold compareEnabled
  rw [BitVec.ule_eq_decide]
  by_cases ht : q.mtimecmp.toNat ≤ s.mtime.toNat
  · cases h7 : q.mip.getLsbD 7
    · simp [ht, setBit_getLsbD]
    · by_cases hb : b = 7
      · simp [hb, h7]
      · simp [hb]
  · simp [ht]

/-- Settles O42: the comparator's step drives MTIP where it is enabled. -/
theorem timerSteps : Obligations.TimerSteps := by
  intro s rest
  refine ⟨fun hs ht => ?_, fun hs ht => ?_, fun h g hs hg => ?_⟩
  · have hne : s.mtime ≠ BitVec.allOnes 64 := fun e => by rw [e] at ht; exact absurd ht (by decide)
    refine ⟨{ popEvent s with mtime := s.mtime + 1#64 }, ?_, by rw [popEvent_of_sched hs], ?_⟩
    · rw [step_of_sched hs]; exact if_neg hne
    · simp only [BitVec.toNat_add, BitVec.toNat_ofNat]; omega
  · rw [step_of_sched hs]
    exact if_pos (BitVec.eq_of_toNat_eq ht)
  · refine ⟨doCompare (popEvent s) h, by rw [step_of_sched hs]; rfl, ?_⟩
    refine ⟨by simp [doCompare], by simp [doCompare], by simp [doCompare], by simp [doCompare], by simp [doCompare],
      by simp [doCompare], by simp [doCompare, popEvent_of_sched hs], fun k q hq => ?_⟩
    have hq : (popEvent s).hartAt k = some q := hq
    unfold doCompare
    rw [modHart_hartAt, hq]
    by_cases hk : k = h
    · have hgq : g = q := by rw [hk] at hq; exact Option.some.inj (hg.symm.trans hq)
      refine ⟨if compareEnabled (popEvent s) q then q.driveMip 7 true else q, by rw [if_pos hk]; rfl, by split <;> rfl, fun b => ?_⟩
      rw [compare_bit, hgq]; simp only [hk, true_and]; rfl
    · exact ⟨q, by rw [if_neg hk], rfl, fun b => by simp [hk]⟩

/-- Settles O51: a notification and a platform step drive one bit; `step_keepsBit` says what else could change one above 11. -/
theorem notifyAndLocalInterruptSteps : Obligations.NotifyAndLocalInterruptSteps := by
  refine ⟨fun s g h x rest hs hl => ?_, fun s h i v rest hs => ⟨fun hm => ?_, fun hm => ?_⟩, ?_⟩
  · refine ⟨(popEvent s).modHart h (fun k => k.driveMip (eipBit x) (eip s.cfg s.plic g)), ?_, by simp, by simp, by simp, by simp,
      by simp, by simp, by simp [popEvent_of_sched hs], fun k q hq => ?_⟩
    · rw [step_of_sched hs]; simp [runEvent, doNotify, hl]
    · exact modHart_driveMip (popEvent s) h _ (by cases x <;> decide) hq
  · refine ⟨(popEvent s).modHart h (fun k => k.driveMip i v), ?_, by simp, by simp, by simp, by simp,
      by simp, by simp, by simp [popEvent_of_sched hs], fun k q hq => ?_⟩
    · rw [step_of_sched hs]; simp [runEvent, doLocalIrq, hm]
    · exact modHart_driveMip (popEvent s) h _ (BitVec.lt_of_getLsbD hm) hq
  · rw [step_of_sched hs]; simp [runEvent, doLocalIrq, hm]
  · intro s t k i g g' hd h hg hg' hi hne
    have hg : (popEvent s).hartAt k = some g := hg
    rcases step_keepsBit (.inr hi) hd h with hk | ⟨j, he, rfl⟩ | ⟨h', j, b, he, rfl⟩ | ⟨h', j, _, _, _, _, _, hs⟩
    · exact absurd (hk.bit_eq hg hg') hne
    · obtain ⟨_, h7, _⟩ := doCompare_bit hg hg' hne; omega
    · obtain ⟨rfl, rfl, hb, hl⟩ := doLocalIrq_bit hg hg' hne
      exact ⟨by simpa using hl, by rw [he, hb]⟩
    · have hq : ((popEvent s).switchTo h').hartAt k = some g := by rw [switchTo_hartAt (s := popEvent s) hd]; exact hg
      obtain ⟨_, h7, _⟩ := timecmpStored_bit hs hq hg' hne; omega

end Sys2Proof.Effects
end

section
/-! PROOFS. Where traps go and when interrupts are taken (60_exceptions.md R191, R195, R198), trap returns (40_trap_return.md), and the
machine after reset (10_state.md R63). -/

namespace Sys2Proof.Traps
open Sys2Proof.Machine Sys2Proof.Exceptions Sys2Proof.Instructions Sys2Proof.Invariants Sys2Proof.Fetching Sys2Proof.Effects

/-! ### Targets -/

theorem modeNum_modeMax (x y : Mode) : modeNum (modeMax x y) = max (modeNum x) (modeNum y) := by
  unfold modeMax modeLe
  by_cases h : modeNum x ≤ modeNum y
  · simp [h]
  · simp [h]; omega

/-- Settles O35: the chain of delegation registers over the handler modes of each configuration. -/
theorem delegationTarget : Obligations.DelegationTarget := by
  intro c h intr code y
  refine ⟨fun d hd => ?_, rfl, modeNum_modeMax ..⟩
  rw [delegTarget, handlerModes_eq, ← hd]
  cases c.modes <;> cases c.nExt <;> rfl

theorem takeable_iff (c : Config) (h : Hart) (i : Nat) :
    takeable c h i = true ↔
      h.mip.getLsbD i = true ∧ h.mie.getLsbD i = true ∧ (irqMask c).getLsbD i = true ∧
      (modeNum h.priv < modeNum (intTarget c h i) ∨
        (h.priv = intTarget c h i ∧ getIE (h.status c) (intTarget c h i) = true)) := by
  simp only [takeable, globallyEnabled, Hart.pending, Hart.enabled, BitVec.getLsbD_and, modeLt, Bool.and_eq_true, Bool.or_eq_true,
    decide_eq_true_eq, beq_iff_eq]
  tauto

/-- Settles O36. -/
theorem takeableRule : Obligations.TakeableRule := by
  intro c h i
  have noBit : ∀ j, (irqMask c).getLsbD j = false → takeable c h j = false := by
    intro j hj
    rw [Bool.eq_false_iff, Ne, takeable_iff, hj]
    rintro ⟨_, _, hf, _⟩; cases hf
  refine ⟨takeable_iff c h i, fun x hx => ?_, fun hlt => ?_⟩
  · obtain ⟨h0, h4, h8⟩ := irqMask_no_level c x hx
    exact ⟨noBit _ h0, noBit _ h4, noBit _ h8⟩
  · rw [Bool.eq_false_iff, Ne, takeable_iff]
    rintro ⟨_, _, _, hup | ⟨heq, _⟩⟩
    · omega
    · rw [heq] at hlt; omega

/-- Settles O37: a takeable interrupt meets the premises of the trap entry (O34). -/
theorem interruptStep : Obligations.InterruptStep := by
  intro s h i rest hs hh
  have run : step s = .next (takeInterrupt ((popEvent s).switchTo h) i) := by
    rw [step_of_sched hs]; exact if_pos hh
  rw [run]
  have hc : ((popEvent s).switchTo h).cfg = s.cfg := by simp
  rw [← hc]
  generalize (popEvent s).switchTo h = u
  refine ⟨fun ht hw hy hl => ⟨_, rfl, ?_⟩, fun hn => ?_⟩
  · obtain ⟨himpl, hle⟩ := takeable_target ht
    have taken : takeInterrupt u i = trapEntry true i u.hart.pc none u := by simp [takeInterrupt, ht, hw]
    rw [taken]
    exact trapEntry_tookTrap none hy (lt_xlen_of_irqMask himpl) hle
  · have kept : takeInterrupt u i = u := by
      rcases hn with hf | hw
      · simp [takeInterrupt, hf]
      · simp [takeInterrupt, Option.isNone_iff_eq_none, hw]
    rw [kept]

/-! ### Returns -/

theorem exec_of_returnMode {i : Instr} {x : Mode} (h : i.returnMode = some x) (s : State) : exec i s = xret x s := by
  cases i <;> simp [Instr.returnMode] at h <;> subst h <;> rfl

/-- The IE bit of a supported mode is writable, but that of U without the extension N. -/
theorem mstatusImpl_ie {c : Config} {y : Mode} (hy : hasMode c y = true) :
    (mstatusImpl c).getLsbD (ieBit y) = (y != .u || hasN c) := by
  by_cases hh : canHandle c y = true
  · rw [(mstatusImpl_stack c y hh).1]
    cases y with
    | u => exact (Bool.or_eq_true _ _ ▸ Or.inr hh : (Mode.u != .u || hasN c) = true).symm
    | _ => rfl
  · cases y with
    | u =>
      have hn : hasN c = false := Bool.eq_false_iff.mpr hh
      rw [(mstatusImpl_noUser c hn).1, hn]; rfl
    | m => exact absurd rfl hh
    | h => exact absurd hy hh
    | s => exact absurd hy hh

/-- A return into a mode from which it is legal does what R130 says. -/
theorem xretState_returned {s : State} {x : Mode} (hx : canHandle s.cfg x = true)
    (hpp : ppLegal s.cfg (s.hart.status s.cfg) x = true) : Returned s (xretState x s) x := by
  have hst : (xretState x s).hart.status s.cfg = popStack s.cfg (s.hart.status s.cfg) x := fix_popStack ..
  have hy : hasMode s.cfg (getPP (s.hart.status s.cfg) x) = true := (ppLegal_iff.mp hpp (canHandle_hasMode hx)).1
  have hie := ieBit_lt (getPP (s.hart.status s.cfg) x)
  have hpie := pieBit_lt x
  exact {
    mode := rfl
    pc := rfl
    ie := by
      show getIE ((xretState x s).hart.status s.cfg) (getPP (s.hart.status s.cfg) x) = _
      rw [hst, getIE, popStack_bit, ppMask_low _ _ (by omega), if_neg (ieBit_ne_pieBit _ x), mstatusImpl_ie hy,
        mstatusOnes_bit _ _ (by omega) (by omega)]
      simp [xretState]
    pie := by
      show getPIE ((xretState x s).hart.status s.cfg) x = true
      rw [hst, getPIE, popStack_bit, ppMask_low _ _ (by omega), (mstatusImpl_stack _ _ hx).2]
      simp
    pp := fun _ => by
      show getPP ((xretState x s).hart.status s.cfg) x = _
      rw [hst, getPP_popStack _ hx]; rfl
    status := fun i h1 h2 h3 => by
      show ((xretState x s).hart.status s.cfg).getLsbD i = _
      rw [hst, popStack_other (status_fixed ..) h1 h2 h3]
    hart := rfl
    outside := ⟨rfl, rfl, rfl, fun _ => rfl, rfl, rfl, rfl, rfl⟩ }

/-- Settles O26. -/
theorem trapReturns : Obligations.TrapReturns := by
  intro s i x hi
  rw [exec_of_returnMode hi]
  refine ⟨fun hx hle hpp => ⟨_, if_pos ?_, xretState_returned hx hpp⟩, fun hn hy => ?_⟩
  · rw [xretLegal, hx, hle]; rfl
  · have hl : xretLegal s.cfg s.hart.priv x = false := by
      rcases hn with h | h <;> simp [xretLegal, h]
    rw [xret, hl]
    exact raise_tookTrap .illegal none hy

/-! ### Reset -/

/-- The status word after reset holds only what is hard-wired to one. -/
theorem reset_status (c : Config) : (Hart.reset c).status c = mstatusOnes c := by
  show fixMstatus c (fixMstatus c 0#64) = _
  rw [fixMstatus_idem, fixMstatus, BitVec.zero_and, BitVec.zero_or]

theorem reset_translation (c : Config) : mstatusOnes c &&& translationMask = 0#64 := by
  unfold mstatusOnes; split <;> decide

theorem takeable_reset (c : Config) (i : Nat) : takeable c (Hart.reset c) i = false := by
  rw [Bool.eq_false_iff, Ne, takeable_iff]
  rintro ⟨hm, _⟩
  rw [show (Hart.reset c).mip = 0#64 from rfl] at hm
  simp at hm

/-- Settles O52. -/
theorem resetState : Obligations.ResetState := by
  intro c hn
  refine ⟨fun k => ?_, fun k g hg => ?_, fun k => ⟨by simp [State.resetWith, Plic.reset, pendingOf], rfl⟩, rfl, rfl, rfl, rfl, rfl⟩
  · rw [hartAt_isSome]
    congr 1
    simp only [State.resetWith, List.map_map, List.mem_cons, List.mem_map, List.mem_range, Function.comp_apply, eq_iff_iff]
    constructor
    · rintro (rfl | ⟨j, hj, rfl⟩) <;> omega
    · intro hk
      rcases Nat.eq_zero_or_pos k with h0 | h0
      · exact .inl h0
      · exact .inr ⟨k - 1, by omega, by omega⟩
  · rw [resetWith_hartAt hg]
    refine ⟨rfl, rfl, ?_, ?_, BitVec.zero_and, takeable_reset c⟩
    · rw [getIE, reset_status, mstatusOnes_bit _ _ (by decide) (by decide)]
    · rw [reset_status, reset_translation]

theorem reset_modesLegal (c : Config) : ModesLegal c (Hart.reset c) := by
  refine ⟨rfl, fun x hx => ?_⟩
  rw [reset_status, ppLegal_iff]
  unfold mstatusOnes hasMode
  cases x with
  | u => exact absurd rfl hx
  | _ => cases c.modes <;> decide

theorem reset_everyHart {c : Config} {P : Hart → Prop} (h : P (Hart.reset c)) : EveryHart (State.resetWith c) P := by
  refine ⟨h, fun p hp => ?_⟩
  obtain ⟨_, _, rfl⟩ := List.mem_map.mp hp
  exact h

theorem reset_trapRegs (c : Config) (x : Mode) : (Hart.reset c).trapRegs x = TrapRegs.reset := by cases x <;> rfl
theorem reset_edeleg (c : Config) (x : Mode) : (Hart.reset c).edeleg x = 0#64 := by cases x <;> rfl
theorem reset_ideleg (c : Config) (x : Mode) : (Hart.reset c).ideleg x = 0#64 := by cases x <;> rfl

theorem fits_zero (xl : XLen) : fits xl 0#64 := by cases xl <;> decide

theorem storeWf_nil {α : Type} [DecidableEq α] (d : α) : StoreWf d [] := ⟨List.Pairwise.nil, fun _ hp => nomatch hp⟩

/-- Settles O53. -/
theorem resetMeetsInvariants : Obligations.ResetMeetsInvariants := by
  intro c hwf
  have pcOk : c.resetPc.toNat % 4 = 0 ∧ fits c.xlen c.resetPc := by
    have hr : c.resetPcOk = true := by
      unfold Config.wf at hwf; rw [Bool.and_eq_true] at hwf; exact hwf.2
    unfold Config.resetPcOk at hr
    simp only [Bool.and_eq_true, beq_iff_eq, decide_eq_true_eq] at hr
    obtain ⟨⟨h4, hx⟩, _⟩ := hr
    exact ⟨h4, (fits_iff ..).mpr hx⟩
  have z := fits_zero c.xlen
  refine ⟨reset_everyHart (reset_modesLegal c), reset_everyHart pcOk.1, ⟨hwf, reset_everyHart ?_⟩, reset_everyHart fun x => ?_,
    reset_everyHart fun x => ?_, reset_everyHart ⟨fun r => ?_, pcOk.2, fun x => ?_⟩, ?_, ?_, ?_⟩
  · refine ⟨fixMstatus_idem .., ?_, BitVec.zero_and, BitVec.zero_and⟩
    have := reset_translation c
    rwa [← reset_status, Hart.status, show (Hart.reset c).mstatus = fixMstatus c 0#64 from rfl, fixMstatus_idem] at this
  · rw [reset_edeleg, reset_ideleg]; exact ⟨BitVec.zero_and, BitVec.zero_and⟩
  · rw [reset_trapRegs]; exact ⟨rfl, rfl⟩
  · have : getReg (Hart.reset c).x r = 0#64 := by
      unfold getReg Hart.reset; simp
    rw [this]; exact z
  · rw [reset_edeleg, reset_ideleg, reset_trapRegs]; exact ⟨z, z, z, z, z, z, z⟩
  · exact ⟨reset_memory_wf c, storeWf_nil _, storeWf_nil _, storeWf_nil _, storeWf_nil _, storeWf_nil _⟩
  · refine ⟨by simp [State.resetWith, Plic.reset], by simp [State.resetWith, Plic.reset], by simp [State.resetWith, Plic.reset],
      by simp [State.resetWith, Plic.reset, pendingOf], by simp [State.resetWith, Plic.reset]⟩
  · unfold HartsDistinct
    simp only [State.resetWith, List.map_map, List.nodup_cons, List.mem_map, List.mem_range, Function.comp_apply]
    refine ⟨fun ⟨_, _, h⟩ => absurd h (Nat.succ_ne_zero _), ?_⟩
    exact List.Nodup.map (fun a b h => Nat.succ.inj h) List.nodup_range

end Sys2Proof.Traps
end

section
/-! PROOFS. The PLIC: which interrupt a claim gets, and the steps of the core and of the gateways (60_exceptions.md R231 to R239). -/

namespace Sys2Proof.PlicSteps
open Sys2Proof.Machine Sys2Proof.Exceptions Sys2Proof.Invariants Sys2Proof.Fetching Sys2Proof.Effects

/-! ### The best interrupt -/

/-- b is the best active source among 1 to n: no source if none is active, else of the largest priority, and the first of these. -/
def BestAmong (c : Config) (p : Plic) (g n b : Nat) : Prop :=
  (b = 0 → ∀ s, 1 ≤ s → s ≤ n → active c p g s = false) ∧
  (b ≠ 0 → b ≤ n ∧ active c p g b = true ∧
    ∀ s, 1 ≤ s → s ≤ n → active c p g s = true → prioOf c p s < prioOf c p b ∨ (prioOf c p s = prioOf c p b ∧ b ≤ s))

theorem bestUpTo_best (c : Config) (p : Plic) (g n : Nat) : BestAmong c p g n (bestUpTo c p g n) := by
  induction n with
  | zero => exact ⟨fun _ s h1 h0 => by omega, fun h => absurd rfl h⟩
  | succ n ih =>
    obtain ⟨none, some⟩ := ih
    rw [bestUpTo]
    generalize bestUpTo c p g n = b at *
    have split : ∀ s, s ≤ n + 1 → s ≤ n ∨ s = n + 1 := fun s h => by omega
    unfold better
    by_cases ha : active c p g (n + 1) = true
    · by_cases hw : b = 0 ∨ prioOf c p b < prioOf c p (n + 1)
      · rw [if_pos (by simpa [ha] using hw)]
        refine ⟨fun h => by omega, fun _ => ⟨Nat.le_refl _, ha, fun s h1 hs hact => ?_⟩⟩
        rcases split s hs with hs | rfl
        · rcases hw with h0 | hlt
          · rw [none h0 s h1 hs] at hact; cases hact
          · by_cases hb : b = 0
            · rw [none hb s h1 hs] at hact; cases hact
            · left
              rcases (some hb).2.2 s h1 hs hact with h | ⟨h, _⟩ <;> omega
        · exact .inr ⟨rfl, Nat.le_refl _⟩
      · rw [if_neg (by simpa [ha] using hw)]
        obtain ⟨hb, hge⟩ := not_or.mp hw
        obtain ⟨hbn, hba, hbest⟩ := some hb
        refine ⟨fun h => absurd h hb, fun _ => ⟨by omega, hba, fun s h1 hs hact => ?_⟩⟩
        rcases split s hs with hs | rfl
        · exact hbest s h1 hs hact
        · omega
    · rw [if_neg (by simp [ha])]
      refine ⟨fun h s h1 hs => ?_, fun h => ?_⟩
      · rcases split s hs with hs | rfl
        · exact none h s h1 hs
        · exact Bool.eq_false_iff.mpr ha
      · obtain ⟨hbn, hba, hbest⟩ := some h
        refine ⟨by omega, hba, fun s h1 hs hact => ?_⟩
        rcases split s hs with hs | rfl
        · exact hbest s h1 hs hact
        · exact absurd hact ha

theorem active_iff (c : Config) (p : Plic) (g s : Nat) :
    active c p g s = true ↔ pendingOf p s = true ∧ enableOf p g s = true ∧ 0 < prioOf c p s ∧
      (c.claimUsesThreshold = true → thrOf c p g < prioOf c p s) := by
  cases h : c.claimUsesThreshold <;> simp [active, h, and_assoc]

/-- Settles O44. -/
theorem bestInterrupt : Obligations.BestInterrupt := by
  intro c p g act hact
  have act_iff : ∀ s, act s ↔ 1 ≤ s ∧ s ≤ c.nsrc ∧ active c p g s = true := fun s => by rw [hact, active_iff]
  obtain ⟨none, some⟩ := bestUpTo_best c p g c.nsrc
  refine ⟨⟨fun h s hs => ?_, fun h => ?_⟩, fun hb => ?_⟩
  · obtain ⟨h1, hn, ha⟩ := (act_iff s).mp hs
    rw [none h s h1 hn] at ha; cases ha
  · by_contra hb
    obtain ⟨hn, ha, _⟩ := some hb
    exact h _ ((act_iff _).mpr ⟨Nat.pos_of_ne_zero hb, hn, ha⟩)
  · obtain ⟨hn, ha, hbest⟩ := some hb
    refine ⟨(act_iff _).mpr ⟨Nat.pos_of_ne_zero hb, hn, ha⟩, fun s hs => ?_⟩
    obtain ⟨h1, hsn, hsa⟩ := (act_iff s).mp hs
    exact hbest s h1 hsn hsa

/-- The interrupt that a claim gets is pending. -/
theorem best_pending {c : Config} {p : Plic} {g : Nat} (h : best c p g ≠ 0) : pendingOf p (best c p g) = true := by
  obtain ⟨_, some⟩ := bestUpTo_best c p g c.nsrc
  obtain ⟨_, ha, _⟩ := some h
  exact ((active_iff ..).mp ha).1

theorem nsrc_le {c : Config} (h : c.plicOk = true) : c.nsrc ≤ 1023 := by
  simp only [Config.plicOk, Bool.and_eq_true, decide_eq_true_eq] at h
  omega

/-- Every source has its bit. -/
theorem best_lt {c : Config} (h : c.plicOk = true) (p : Plic) (g : Nat) : best c p g < 1024 :=
  Nat.lt_of_le_of_lt (bestUpTo_le ..) (Nat.lt_succ_of_le (nsrc_le h))

/-- The choice reads only the registers of the core. -/
theorem best_congr {p q : Plic} (c : Config) (g : Nat) (hprio : q.prio = p.prio) (hip : q.ip = p.ip) (hie : q.ie = p.ie)
    (hthr : q.thr = p.thr) : best c q g = best c p g := by
  have hprio : ∀ s, prioOf c q s = prioOf c p s := fun s => by unfold prioOf; rw [hprio]
  have hact : ∀ s, active c q g s = active c p g s := fun s => by
    unfold active pendingOf enableOf enablesOf thrOf; rw [hip, hie, hthr, hprio]
  have upTo : ∀ n, bestUpTo c q g n = bestUpTo c p g n := by
    intro n
    induction n with
    | zero => rfl
    | succ n ih => simp only [bestUpTo, better, ih, hact, hprio]
  exact upTo _

/-! ### Queues -/

/-- The first entry of a hart is found behind the entries of others. -/
theorem find?_hart {β : Type} {pre post : List (Nat × β)} {h : Nat} {b : β} (hpre : ∀ e ∈ pre, e.1 ≠ h) :
    (pre ++ (h, b) :: post).find? (fun e => e.1 == h) = some (h, b) := by
  rw [List.find?_append, List.find?_eq_none.mpr (fun e he => by simpa using hpre e he)]
  simp

theorem removeFirst_hart {β : Type} {pre post : List (Nat × β)} {h : Nat} {b : β} (hpre : ∀ e ∈ pre, e.1 ≠ h) :
    removeFirst (fun e => e.1 == h) (pre ++ (h, b) :: post) = pre ++ post :=
  removeFirst_append (fun e : Nat × β => e.1 == h) (beq_self_eq_true h) (fun e he => beq_false_of_ne (hpre e he))

/-! ### Process Claim -/

/-- The pending bits after a claim was answered. -/
theorem pendingOf_answerClaim {c : Config} (hc : c.plicOk = true) (p : Plic) (h g k : Nat) :
    pendingOf (answerClaim c p h g) k = if k = best c p g ∧ best c p g ≠ 0 then false else pendingOf p k := by
  unfold answerClaim
  dsimp only
  split
  · next h0 => simp only [h0]; simp [pendingOf]
  · next h0 => rw [pendingOf_setPending _ _ _ _ (best_lt hc ..)]; simp only [ne_eq, h0, not_false_eq_true, and_true]; rfl

/-- Answering a claim queues the response and changes no other queue or register. -/
theorem answerClaim_frame (c : Config) (p : Plic) (h g : Nat) :
    answerClaim c p h g = { p with ip := (answerClaim c p h g).ip, respQ := p.respQ ++ [⟨h, g, best c p g⟩] } := by
  unfold answerClaim Plic.setPending
  dsimp only
  split <;> rfl

/-- The core answers the oldest claim of a hart that has no register write queued. -/
theorem doClaim_answers {s : State} {h g : Nat} {pre post : List (Nat × Nat)} (hw : ∀ e ∈ s.plic.wrQ, e.1 ≠ h)
    (hq : s.plic.claimQ = pre ++ (h, g) :: post) (hpre : ∀ e ∈ pre, e.1 ≠ h) :
    doClaim s h = { s with plic := answerClaim s.cfg { s.plic with claimQ := pre ++ post } h g } := by
  have hany : s.plic.wrQ.any (fun e => e.1 == h) = false := by
    rw [List.any_eq_false]; intro e he; simpa using hw e he
  unfold doClaim
  rw [hany, hq, find?_hart hpre, removeFirst_hart hpre]
  rfl

/-- Settles O46. -/
theorem claimStep : Obligations.ClaimStep := by
  refine ⟨fun s h g rest pre post hc hs hw hq hpre => ?_, fun s h rest hs hwait => ?_⟩
  · have hd : step s = .next (doClaim (popEvent s) h) := by rw [step_of_sched hs]; rfl
    have same : best s.cfg { s.plic with claimQ := pre ++ post } g = best s.cfg s.plic g := best_congr _ _ rfl rfl rfl rfl
    have pend := pendingOf_answerClaim hc { s.plic with claimQ := pre ++ post } h g
    have frame := answerClaim_frame s.cfg { s.plic with claimQ := pre ++ post } h g
    rw [same] at pend frame
    rw [hd, doClaim_answers (s := popEvent s) hw hq hpre]
    simp only [popEvent_cfg, popEvent_plic]
    generalize answerClaim s.cfg { s.plic with claimQ := pre ++ post } h g = p at pend frame
    refine ⟨_, rfl, by rw [popEvent_of_sched hs], frame, pend, fun hb g' heq => ?_⟩
    have hp := best_pending (c := s.cfg) (p := p) (g := g') (fun h0 => hb (heq.symm.trans h0))
    rw [show best s.cfg p g' = best s.cfg s.plic g from heq, pend, if_pos ⟨rfl, hb⟩] at hp
    cases hp
  · have hd : step s = .next (doClaim (popEvent s) h) := by rw [step_of_sched hs]; rfl
    rw [hd, doClaim_waits (s := popEvent s) hwait]

/-! ### Gateways -/

theorem gatewayOf_setGateway {p : Plic} (hp : StoreWf Gateway.idle p.gateways) (s : Nat) (g : Gateway) (k : Nat) :
    gatewayOf (p.setGateway s g) k = if k = s then g else gatewayOf p k := by
  unfold gatewayOf Plic.setGateway
  split
  · next h => rw [h]; exact storeGet_storePut_same _ _ _ _ hp
  · next h => exact storeGet_storePut_other _ _ _ _ _ h

/-- Settles O48. -/
theorem gatewaySteps : Obligations.GatewaySteps := by
  intro s k rest hst hk
  have hwf : StoreWf Gateway.idle s.plic.gateways := hst.2.2.2.2.2
  refine ⟨fun b hs hl => ?_, fun hs hl => ?_, fun hs hi hrdy => ?_, fun hs hno => ?_⟩
  · have hd : step s = .next (doLine (popEvent s) k b) := by rw [step_of_sched hs]; rfl
    rw [hd, doLine, popEvent_cfg, popEvent_plic, if_pos (by rw [hk, hl]; rfl)]
    exact ⟨_, rfl, by rw [popEvent_of_sched hs]; rfl, gatewayOf_setGateway hwf k _⟩
  · have hd : step s = .next (doEdge (popEvent s) k) := by rw [step_of_sched hs]; rfl
    rw [hd, doEdge, popEvent_cfg, popEvent_plic, if_pos (by simpa [hk] using hl)]
    exact ⟨_, rfl, by rw [popEvent_of_sched hs]; rfl, gatewayOf_setGateway hwf k _⟩
  · have hd : step s = .next (doForward (popEvent s) k) := by rw [step_of_sched hs]; rfl
    have hcan : canForward s.cfg s.plic k = true := by
      rcases hrdy with ⟨h1, h2⟩ | ⟨h1, h2⟩ <;> simp [canForward, hk, hi, h1, h2]
    rw [hd, doForward, popEvent_cfg, popEvent_plic, if_pos hcan]
    exact ⟨_, rfl, by rw [popEvent_of_sched hs]; rfl,
      gatewayOf_setGateway (p := { s.plic with reqQ := s.plic.reqQ ++ [k] }) hwf k _⟩
  · have hd : step s = .next (doForward (popEvent s) k) := by rw [step_of_sched hs]; rfl
    have hcan : canForward s.cfg s.plic k = false := by
      rcases hno with h | ⟨h1, h2⟩ | ⟨h1, h2⟩
      · simp [canForward, h]
      · simp [canForward, h1, h2]
      · simp [canForward, h1, h2]
    rw [hd, doForward, popEvent_cfg, popEvent_plic, hcan]; rfl

/-- A completion clears the in-flight mark of its source's gateway; clearing a mark that is clear changes nothing. -/
theorem gatewayOf_completed {p : Plic} (c : Config) (hp : StoreWf Gateway.idle p.gateways) (g k j : Nat) :
    gatewayOf (completed c p g k) j =
      if j = k ∧ 1 ≤ k ∧ k ≤ c.nsrc ∧ enableOf p g k = true then { gatewayOf p k with inflight := false } else gatewayOf p j := by
  have src : isSource c k = decide (1 ≤ k ∧ k ≤ c.nsrc) := rfl
  unfold completed
  by_cases hen : 1 ≤ k ∧ k ≤ c.nsrc ∧ enableOf p g k = true
  · obtain ⟨h1, hn, he⟩ := hen
    simp only [src, h1, hn, he, and_self, decide_true, Bool.true_and, and_true]
    cases hi : (gatewayOf p k).inflight
    · simp only [Bool.false_eq_true, if_false]
      split
      · next hj => rw [hj, ← hi]
      · rfl
    · rw [if_pos rfl]; exact gatewayOf_setGateway hp ..
  · have hno : (isSource c k && enableOf p g k && (gatewayOf p k).inflight) = false := by
      rw [src]
      by_contra h
      simp only [Bool.not_eq_false, Bool.and_eq_true, decide_eq_true_eq] at h
      exact hen ⟨h.1.1.1, h.1.1.2, h.1.2⟩
    rw [hno, if_neg (fun h => hen h.2 : ¬(j = k ∧ _))]; rfl

/-- Settles O50. -/
theorem completionStep : Obligations.CompletionStep := by
  intro s g k rest pre post hst hs hq hpre
  have hwf : StoreWf Gateway.idle s.plic.gateways := hst.2.2.2.2.2
  have hd : step s = .next (doComplete (popEvent s) g k) := by rw [step_of_sched hs]; rfl
  have hrem : removeFirst (fun e => e == (g, k)) s.plic.complQ = pre ++ post := by
    rw [hq]
    exact removeFirst_append (fun e : Nat × Nat => e == (g, k)) (beq_self_eq_true _)
      (fun b hb => beq_false_of_ne (fun e => hpre (e ▸ hb)))
  have hc : doComplete (popEvent s) g k =
      { popEvent s with plic := completed s.cfg { s.plic with complQ := pre ++ post } g k } := by
    rw [doComplete, popEvent_cfg, popEvent_plic, hrem, hq]; simp
  rw [hd, hc]
  exact ⟨_, rfl, by rw [popEvent_of_sched hs]; unfold completed; split <;> rfl,
    gatewayOf_completed (p := { s.plic with complQ := pre ++ post }) s.cfg hwf g k⟩

/-! ### Write Register -/

/-- Word w replaced in a 1024-bit array. -/
theorem setWord32_getLsbD (a : BitVec 1024) (w : Nat) (v : BitVec 32) {k : Nat} (hk : k < 1024) :
    (setWord32 a w v).getLsbD k = if k / 32 = w then v.getLsbD (k % 32) else a.getLsbD k := by
  unfold setWord32
  simp only [BitVec.getLsbD_or, BitVec.getLsbD_and, BitVec.getLsbD_not, BitVec.getLsbD_shiftLeft, BitVec.getLsbD_setWidth,
    BitVec.getLsbD_allOnes, hk, decide_true, Bool.true_and]
  by_cases h1 : k < 32 * w
  · rw [if_neg (by omega)]; simp [h1]
  · have h2 : k - 32 * w < 1024 := by omega
    by_cases h3 : k - 32 * w < 32
    · rw [if_pos (by omega), show k % 32 = k - 32 * w by omega]; simp [h1, h2, h3]
    · rw [if_neg (by omega), BitVec.getLsbD_of_ge v _ (by omega)]; simp [h1, h2, h3]

/-- The priorities after a register write. -/
theorem prioOf_applyWrite {c : Config} {p : Plic} (hp : StoreWf 0 p.prio) (n : Nat) (q : PlicWrite) (k : Nat) :
    prioOf c (applyWrite c n p q) k =
      match q with
      | .prio j v => if k = j ∧ c.prioFixed.lookup k = none then legalPri c v n else prioOf c p k
      | .enable .. => prioOf c p k
      | .threshold .. => prioOf c p k := by
  cases q with
  | prio j v =>
    unfold applyWrite prioOf
    by_cases hk : k = j
    · subst hk
      cases hl : c.prioFixed.lookup k with
      | none => simpa [hl] using storeGet_storePut_same 0 p.prio k (legalPri c v n) hp
      | some y => simp
    · simp only [hk, false_and, if_false]
      split
      · rfl
      · rw [storeGet_storePut_other 0 _ _ _ _ hk]
  | enable g w v => rfl
  | threshold g v => unfold applyWrite; dsimp only; split <;> rfl

/-- The thresholds after a register write. -/
theorem thrOf_applyWrite {c : Config} {p : Plic} (hp : StoreWf 0 p.thr) (n : Nat) (q : PlicWrite) (g : Nat) :
    thrOf c (applyWrite c n p q) g =
      match q with
      | .threshold j v => if g = j ∧ c.thrZero.contains g = false then legalPri c v n else thrOf c p g
      | .enable .. => thrOf c p g
      | .prio .. => thrOf c p g := by
  cases q with
  | threshold j v =>
    unfold applyWrite thrOf
    by_cases hg : g = j
    · subst hg
      cases hz : c.thrZero.contains g with
      | false =>
        simp only [hz, Bool.false_eq_true, if_false, and_self, if_true]
        exact storeGet_storePut_same 0 p.thr g (legalPri c v n) hp
      | true => simp
    · simp only [hg, false_and, if_false]
      split
      · rfl
      · split
        · rfl
        · exact storeGet_storePut_other 0 _ _ _ _ hg
  | enable g w v => rfl
  | prio g v => unfold applyWrite; dsimp only; split <;> rfl

/-- The enables of the sources after a register write. -/
theorem enableOf_applyWrite {c : Config} {p : Plic} (hp : StoreWf 0#1024 p.ie) (n : Nat) (q : PlicWrite) (g k : Nat) :
    enableOf (applyWrite c n p q) g k =
      match q with
      | .enable j w v =>
        if g = j then decide (k < 1024) && (isSource c k && if k / 32 = w then v.getLsbD (k % 32) else enableOf p g k)
        else enableOf p g k
      | .threshold .. => enableOf p g k
      | .prio .. => enableOf p g k := by
  cases q with
  | enable j w v =>
    unfold applyWrite enableOf
    dsimp only
    by_cases hg : g = j
    · subst hg
      rw [if_pos rfl]
      have same : enablesOf { p with ie := storePut 0#1024 p.ie g (setWord32 (enablesOf p g) w v &&& sourceMask c) } g =
          setWord32 (enablesOf p g) w v &&& sourceMask c := storeGet_storePut_same _ _ _ _ hp
      rw [same, BitVec.getLsbD_and, sourceMask_getLsbD]
      by_cases hk : k < 1024
      · rw [setWord32_getLsbD _ _ _ hk]; simp [hk, Bool.and_comm]
      · simp [hk]
    · rw [if_neg hg]
      exact congrArg (fun a => BitVec.getLsbD a k) (storeGet_storePut_other 0#1024 _ _ _ _ hg)
  | prio g v => unfold applyWrite; dsimp only; split <;> rfl
  | threshold g v => unfold applyWrite; dsimp only; split <;> rfl

theorem legalPri_of_le {c : Config} {v : Nat} (n : Nat) (h : v ≤ c.maxPri) : legalPri c v n = v := if_pos h

theorem refusedValue_iff (c : Config) (q : PlicWrite) (v : Nat) :
    refusedValue c q = some v ↔
      c.highPriority = .refuse ∧ c.maxPri < v ∧
      ((∃ k, q = .prio k v ∧ c.prioFixed.lookup k = none) ∨ (∃ g, q = .threshold g v ∧ c.thrZero.contains g = false)) := by
  cases q with
  | prio k u =>
    simp only [refusedValue, Option.ite_none_right_eq_some, Option.some.injEq, PlicWrite.prio.injEq, reduceCtorEq, false_and,
      exists_false, or_false]
    constructor
    · rintro ⟨⟨h1, h2, h3⟩, rfl⟩; exact ⟨h1, h3, k, ⟨rfl, rfl⟩, h2⟩
    · rintro ⟨h1, h3, _, ⟨rfl, rfl⟩, h2⟩; exact ⟨⟨h1, h2, h3⟩, rfl⟩
  | enable g w u => simp [refusedValue]
  | threshold g u =>
    simp only [refusedValue, Option.ite_none_right_eq_some, Option.some.injEq, PlicWrite.threshold.injEq, reduceCtorEq, false_and,
      exists_false, false_or]
    constructor
    · rintro ⟨⟨h1, h2, h3⟩, rfl⟩; exact ⟨h1, h3, g, ⟨rfl, rfl⟩, h2⟩
    · rintro ⟨h1, h3, _, ⟨rfl, rfl⟩, h2⟩; exact ⟨⟨h1, h2, h3⟩, rfl⟩

/-- Settles O47: the accessors after `applyWrite`, one lemma each, read off at the queued write. -/
theorem registerWriteStep : Obligations.RegisterWriteStep := by
  intro s h rest pre post q hst hc hs hq hpre
  obtain ⟨_, _, hprio, hie, hthr, _⟩ := hst
  have found : s.plic.wrQ.find? (fun e => e.1 == h) = some (h, q) := by rw [hq]; exact find?_hart hpre
  have hd : step s = writeRegister (popEvent s) h := by rw [step_of_sched hs]; rfl
  have hw : doWrite (popEvent s) h =
      { popEvent s with plic := applyWrite s.cfg s.draws { s.plic with wrQ := pre ++ post } q, draws := s.draws + 1 } := by
    unfold doWrite
    rw [popEvent_plic, found, hq, removeFirst_hart hpre]; rfl
  refine ⟨refusedValue_iff s.cfg q, fun v hv => ?_, fun hv => ?_⟩
  · rw [hd, writeRegister, popEvent_plic, found]; simp [hv]
  · rw [hd, writeRegister, popEvent_plic, found]
    simp only [Option.bind_some, popEvent_cfg, hv]
    rw [hw]
    have prio := prioOf_applyWrite (c := s.cfg) (p := { s.plic with wrQ := pre ++ post }) hprio s.draws q
    have thr := thrOf_applyWrite (c := s.cfg) (p := { s.plic with wrQ := pre ++ post }) hthr s.draws q
    have en := enableOf_applyWrite (c := s.cfg) (p := { s.plic with wrQ := pre ++ post }) hie s.draws q
    obtain ⟨pr, ie, th, frame⟩ := applyWrite_frame s.cfg s.draws { s.plic with wrQ := pre ++ post } q
    generalize applyWrite s.cfg s.draws { s.plic with wrQ := pre ++ post } q = p at prio thr en frame
    refine ⟨_, rfl, by rw [popEvent_of_sched hs], ?_, ?_, ?_, ?_, ?_, ?_, ?_, ?_, ?_⟩
    · show p = _
      rw [frame]
    · intro k hk
      refine (prio k).trans ?_
      cases q with
      | prio j v => exact if_neg (fun h => hk v (by rw [h.1]))
      | _ => rfl
    · intro g hg
      refine (thr g).trans ?_
      cases q with
      | threshold j v => exact if_neg (fun h => hg v (by rw [h.1]))
      | _ => rfl
    · intro g k hk hsrc
      have hk1024 : k < 1024 := by
        have := nsrc_le hc
        simp only [isSource, decide_eq_true_eq] at hsrc; omega
      refine (en g k).trans ?_
      cases q with
      | enable j w v =>
        dsimp only
        split
        · next hj => rw [if_neg (hk w v (by rw [hj])), hsrc]; simp only [hk1024, decide_true, Bool.true_and]; rfl
        · rfl
      | _ => rfl
    · rintro k v rfl hl
      have e : prioOf s.cfg p k = legalPri s.cfg v s.draws := (prio k).trans (if_pos ⟨rfl, hl⟩)
      exact ⟨fun hle => e.trans (legalPri_of_le _ hle), by show prioOf s.cfg p k ≤ _; rw [e]; exact legalPri_le ..⟩
    · rintro k v y rfl hl
      show prioOf s.cfg p k = y
      unfold prioOf; rw [hl]; rfl
    · rintro g v rfl hz
      have e : thrOf s.cfg p g = legalPri s.cfg v s.draws := (thr g).trans (if_pos ⟨rfl, hz⟩)
      exact ⟨fun hle => e.trans (legalPri_of_le _ hle), by show thrOf s.cfg p g ≤ _; rw [e]; exact legalPri_le ..⟩
    · rintro g v rfl hz
      exact if_pos hz
    · rintro g w v b rfl hw32 hb
      refine (en g (32 * w + b)).trans ?_
      dsimp only
      rw [if_pos rfl, if_pos (by omega), show (32 * w + b) % 32 = b by omega, Bool.and_comm (isSource ..)]
      simp only [show 32 * w + b < 1024 by omega, decide_true, Bool.true_and]

end Sys2Proof.PlicSteps
end

section
/-! PROOFS. Loads and stores: how the result of `MemRead` and `MemWrite` ends the instruction, the accesses to RAM, and the refused
accesses (43_support_subset.md R170, R171; 20_memory.md R81 to R100). -/

namespace Sys2Proof.Accesses
open Sys2Proof.Machine Sys2Proof.Exceptions Sys2Proof.Instructions Sys2Proof.Effects

/-! ### How an access ends the instruction -/

section
variable {s : State} {r rs1 : BitVec 5} {imm : BitVec 12} (ha : (dataAddr s rs1 imm).toNat % 4 = 0)
include ha

theorem dataAddr_aligned : aligned (dataAddr s rs1 imm) (widthBytes .word) = true := (aligned_iff ..).mpr ha

theorem lw_value {v : Word} {u : State} (h : memRead s .word (dataAddr s rs1 imm).toNat = .value v u) :
    exec (.lw r imm rs1) s = (u.setX r (sext s.cfg.xlen (v.setWidth 32))).complete := by
  show loadTo .word r _ s = _
  rw [loadTo, dataAddr_aligned ha, h]; rfl

theorem lw_claim {g : Nat} {u : State} (h : memRead s .word (dataAddr s rs1 imm).toNat = .claim g u) :
    exec (.lw r imm rs1) s = .next (u.setHart { u.hart with waiting := some ⟨g, r⟩ }) := by
  show loadTo .word r _ s = _
  rw [loadTo, dataAddr_aligned ha, h]; rfl

theorem lw_highPriority {v : Nat} (h : memRead s .word (dataAddr s rs1 imm).toNat = .highPriority v) :
    exec (.lw r imm rs1) s = .refused (.highPriority v) := by
  show loadTo .word r _ s = _
  rw [loadTo, dataAddr_aligned ha, h]; rfl

theorem lw_race (h : memRead s .word (dataAddr s rs1 imm).toNat = .race) :
    exec (.lw r imm rs1) s = .fault (.ramRace (dataAddr s rs1 imm).toNat) := by
  show loadTo .word r _ s = _
  rw [loadTo, dataAddr_aligned ha, h]; rfl

theorem sw_done {u : State} (h : memWrite s .word (dataAddr s rs1 imm).toNat (s.getX r) = .done u) :
    exec (.sw r imm rs1) s = u.complete := by
  show storeFrom .word _ _ s = _
  rw [storeFrom, dataAddr_aligned ha, h]; rfl

theorem sw_text (h : memWrite s .word (dataAddr s rs1 imm).toNat (s.getX r) = .text) :
    exec (.sw r imm rs1) s = .refused (.storeToText (dataAddr s rs1 imm).toNat) := by
  show storeFrom .word _ _ s = _
  rw [storeFrom, dataAddr_aligned ha, h]; rfl

theorem sw_race (h : memWrite s .word (dataAddr s rs1 imm).toNat (s.getX r) = .race) :
    exec (.sw r imm rs1) s = .fault (.ramRace (dataAddr s rs1 imm).toNat) := by
  show storeFrom .word _ _ s = _
  rw [storeFrom, dataAddr_aligned ha, h]; rfl

omit ha in
/-- A refused access is the access-fault exception or the stop, as the configuration says. -/
theorem refuseAccess_refuses {x : Exn} (hy : hasMode s.cfg s.hart.priv = true) (e : AccessError) (a : Word) :
    RefusesAccess s (refuseAccess s x e a) (excCode x) e a := by
  refine ⟨fun hb => ?_, fun hb => ?_⟩
  · rw [refuseAccess, hb]; exact raise_tookTrap x (some a) hy
  · rw [refuseAccess, hb]

theorem lw_bad {e : AccessError} (hy : hasMode s.cfg s.hart.priv = true)
    (h : memRead s .word (dataAddr s rs1 imm).toNat = .bad e) :
    RefusesAccess s (exec (.lw r imm rs1) s) 5 e (dataAddr s rs1 imm) := by
  have hx : exec (.lw r imm rs1) s = refuseAccess s .loadFault e (dataAddr s rs1 imm) := by
    show loadTo .word r _ s = _
    rw [loadTo, dataAddr_aligned ha, h]; rfl
  rw [hx]; exact refuseAccess_refuses hy e _

theorem sw_bad {e : AccessError} (hy : hasMode s.cfg s.hart.priv = true)
    (h : memWrite s .word (dataAddr s rs1 imm).toNat (s.getX r) = .bad e) :
    RefusesAccess s (exec (.sw r imm rs1) s) 7 e (dataAddr s rs1 imm) := by
  have hx : exec (.sw r imm rs1) s = refuseAccess s .storeFault e (dataAddr s rs1 imm) := by
    show storeFrom .word _ _ s = _
    rw [storeFrom, dataAddr_aligned ha, h]; rfl
  rw [hx]; exact refuseAccess_refuses hy e _

end

/-! ### `MemRead` and `MemWrite` by what stands at the address -/

section
variable {s : State} {a off h : Nat} {v : Word}

theorem memRead_plic (hr : route s.cfg a 4 = .plic off) (ho : off % 4 = 0) (hp : plicPerm s.cfg s.hart.priv s.hid off = true) :
    memRead s .word a = plicRead s off := by
  simp [memRead, widthBytes, hr, plicCheck, ho, hp]

theorem memRead_plicDenied (hr : route s.cfg a 4 = .plic off) (ho : off % 4 = 0)
    (hp : plicPerm s.cfg s.hart.priv s.hid off = false) : memRead s .word a = .bad .plicDenied := by
  simp [memRead, widthBytes, hr, plicCheck, ho, hp]

theorem memRead_msip (hr : route s.cfg a 4 = .msip h 0) (hm : s.hart.priv = .m) :
    memRead s .word a = .value (if (s.hartAt h).any (fun k => k.mip.getLsbD 3) then 1#64 else 0#64) s := by
  simp [memRead, widthBytes, hr, hm]

theorem memRead_msipDenied (hr : route s.cfg a 4 = .msip h off) (hm : s.hart.priv ≠ .m) :
    memRead s .word a = .bad .msipDenied := by
  simp [memRead, widthBytes, hr, hm]

theorem memRead_timecmp (hr : route s.cfg a 4 = .timecmp h off) (hm : s.hart.priv = .m) :
    memRead s .word a = timerRead s .word off ((s.hartAt h).elim 0#64 (fun k => k.mtimecmp)) := by
  simp [memRead, widthBytes, hr, hm]

theorem memRead_mtime (hr : route s.cfg a 4 = .mtime off) (hm : s.hart.priv = .m) :
    memRead s .word a = timerRead s .word off s.mtime := by
  simp [memRead, widthBytes, hr, hm]

theorem memRead_timerDenied (hr : route s.cfg a 4 = .timecmp h off ∨ route s.cfg a 4 = .mtime off) (hm : s.hart.priv ≠ .m) :
    memRead s .word a = .bad .timerDenied := by
  rcases hr with hr | hr <;> simp [memRead, widthBytes, hr, hm]

theorem memRead_ram (hr : route s.cfg a 4 = .ram) (hf : raceFree s.ramUse s.hid false a 4 = true) :
    memRead s .word a =
      .value (BitVec.ofNat 64 (readBytes s.mem a 4)) { s with ramUse := noteUse s.ramUse s.hid false a 4 } := by
  simp [memRead, widthBytes, hr, hf]

theorem memRead_race (hr : route s.cfg a 4 = .ram) (hf : raceFree s.ramUse s.hid false a 4 = false) :
    memRead s .word a = .race := by
  simp [memRead, widthBytes, hr, hf]

theorem memRead_nowhere (hr : route s.cfg a 4 = .nowhere) : memRead s .word a = .bad .unmapped := by
  simp [memRead, widthBytes, hr]

theorem memWrite_plic (hr : route s.cfg a 4 = .plic off) (ho : off % 4 = 0) (hp : plicPerm s.cfg s.hart.priv s.hid off = true) :
    memWrite s .word a v = plicStore s off (loHalf v) := by
  simp [memWrite, widthBytes, hr, plicCheck, ho, hp]

theorem memWrite_plicDenied (hr : route s.cfg a 4 = .plic off) (ho : off % 4 = 0)
    (hp : plicPerm s.cfg s.hart.priv s.hid off = false) : memWrite s .word a v = .bad .plicDenied := by
  simp [memWrite, widthBytes, hr, plicCheck, ho, hp]

theorem memWrite_msip (hr : route s.cfg a 4 = .msip h 0) (hm : s.hart.priv = .m) :
    memWrite s .word a v = .done (s.modHart h (fun k => k.driveMip 3 (v.getLsbD 0))) := by
  simp [memWrite, widthBytes, hr, hm]

theorem memWrite_msipDenied (hr : route s.cfg a 4 = .msip h off) (hm : s.hart.priv ≠ .m) :
    memWrite s .word a v = .bad .msipDenied := by
  simp [memWrite, widthBytes, hr, hm]

theorem memWrite_timecmp (hr : route s.cfg a 4 = .timecmp h off) (hm : s.hart.priv = .m) :
    memWrite s .word a v = timecmpWrite s .word h off v := by
  simp [memWrite, widthBytes, hr, hm]

theorem memWrite_mtime (hr : route s.cfg a 4 = .mtime off) (hm : s.hart.priv = .m) :
    memWrite s .word a v = .bad .timeReadOnly := by
  simp [memWrite, widthBytes, hr, hm]

theorem memWrite_timerDenied (hr : route s.cfg a 4 = .timecmp h off ∨ route s.cfg a 4 = .mtime off) (hm : s.hart.priv ≠ .m) :
    memWrite s .word a v = .bad .timerDenied := by
  rcases hr with hr | hr <;> simp [memWrite, widthBytes, hr, hm]

theorem memWrite_ram (hr : route s.cfg a 4 = .ram) (ht : meetsRegions s.cfg.text a 4 = false)
    (hf : raceFree s.ramUse s.hid true a 4 = true) :
    memWrite s .word a v =
      .done { s with mem := writeBytes s.mem a 4 v.toNat, ramUse := noteUse s.ramUse s.hid true a 4 } := by
  simp [memWrite, widthBytes, hr, ht, hf]

theorem memWrite_race (hr : route s.cfg a 4 = .ram) (ht : meetsRegions s.cfg.text a 4 = false)
    (hf : raceFree s.ramUse s.hid true a 4 = false) : memWrite s .word a v = .race := by
  simp [memWrite, widthBytes, hr, ht, hf]

theorem memWrite_text (hr : route s.cfg a 4 = .ram) (ht : meetsRegions s.cfg.text a 4 = true) :
    memWrite s .word a v = .text := by
  simp [memWrite, widthBytes, hr, ht]

theorem memWrite_nowhere (hr : route s.cfg a 4 = .nowhere) : memWrite s .word a v = .bad .unmapped := by
  simp [memWrite, widthBytes, hr]

end

/-! ### RAM -/

/-- The value of a concatenation. -/
theorem append_toNat {m n : Nat} (x : BitVec m) (y : BitVec n) : (x ++ y).toNat = x.toNat * 2 ^ n + y.toNat := by
  rw [BitVec.toNat_append, ← Nat.shiftLeft_add_eq_or_of_lt y.isLt, Nat.shiftLeft_eq]

/-- The four bytes read, as a word. -/
theorem readBytes_word (m : Memory) (a : Nat) :
    (BitVec.ofNat 64 (readBytes m a 4)).setWidth 32 =
      wordOfBytes (readByte m a) (readByte m (a + 1)) (readByte m (a + 2)) (readByte m (a + 3)) := by
  have h0 := (readByte m a).isLt
  have h1 := (readByte m (a + 1)).isLt
  have h2 := (readByte m (a + 2)).isLt
  have h3 := (readByte m (a + 3)).isLt
  apply BitVec.eq_of_toNat_eq
  rw [wordOfBytes, BitVec.toNat_setWidth, BitVec.toNat_ofNat, append_toNat, append_toNat, append_toNat]
  simp only [readBytes, Nat.add_assoc, Nat.reduceAdd]
  omega

theorem recorded_noteUse {s t : State} {st : Bool} {a n : Nat} (hw : StoreWf RamUse.none s.ramUse)
    (h : t.ramUse = noteUse s.ramUse s.hid st a n) : RecordedAccess s t st a n := by
  intro b k w
  unfold MayTouch
  rw [h, useAllows_noteUse _ _ _ _ _ hw]

/-- After an access that left the hart alone, the register write and the advance. -/
theorem setX_advance_of {s u : State} (r : BitVec 5) (v : Word) (hc : u.cfg = s.cfg) (hh : u.hart = s.hart) :
    RegisterWritten s (u.setX r v).advance r v ∧ PcAdvanced s (u.setX r v).advance ∧ OnlyRegistersAndPc s (u.setX r v).advance := by
  have hp : (u.setX r v).hart.pc = s.hart.pc := by rw [← hh]; rfl
  refine ⟨fun q => ?_, advance_pcAdvanced hc hp, ?_⟩
  · rw [getX_advance, getX_setX, getX_congr (congrArg Hart.x hh)]
  · rw [OnlyRegistersAndPc, advance_hart]; simp [hh]

/-- After an access that left the hart alone, the advance. -/
theorem advance_of {s u : State} (hc : u.cfg = s.cfg) (hh : u.hart = s.hart) :
    RegistersKept s u.advance ∧ PcAdvanced s u.advance ∧ OnlyRegistersAndPc s u.advance := by
  refine ⟨fun q => ?_, advance_pcAdvanced hc (congrArg Hart.pc hh), ?_⟩
  · rw [getX_advance, getX_congr (congrArg Hart.x hh)]
  · rw [OnlyRegistersAndPc, advance_hart, hh]

/-- Settles O14: the read and its record, then a register write. -/
theorem loadFromRam : Obligations.LoadFromRam := by
  intro s rd rs1 imm ha hr hf
  have hx := lw_value (r := rd) ha (memRead_ram hr hf)
  rw [readBytes_word] at hx
  rw [hx]
  refine ⟨complete_refused (s := s) rfl rfl, fun hc =>
    ⟨_, _, complete_of_canAdvance (s := s) rfl rfl hc, sext_toNat _ _ (Nat.le_refl 32), ?_, fun hw => recorded_noteUse hw (by simp)⟩⟩
  obtain ⟨regs, pc, hart⟩ := setX_advance_of (s := s)
    (u := { s with ramUse := noteUse s.ramUse s.hid false (dataAddr s rs1 imm).toNat 4 }) rd _ rfl rfl
  exact ⟨regs, pc, hart, by constructor <;> simp⟩

/-- Settles O15: the write and its record, then the advance. -/
theorem storeToRam : Obligations.StoreToRam := by
  intro s rs2 rs1 imm hm ha hr ht hf
  rw [sw_done (r := rs2) ha (memWrite_ram hr ht hf)]
  refine ⟨complete_refused (s := s) rfl rfl, fun hc => ⟨_, complete_of_canAdvance (s := s) rfl rfl hc, fun k hk => ?_, fun b hb => ?_, ?_⟩⟩
  · rw [advance_mem]
    exact (readByte_writeBytes_same 4 _ _ _ _ hm hk).trans (Fetching.byte_of_toNat _ k)
  · rw [advance_mem]
    exact readByte_writeBytes_other _ _ _ _ _ hb
  · obtain ⟨regs, pc, hart⟩ := advance_of (s := s)
      (u := { s with
        mem := writeBytes s.mem (dataAddr s rs1 imm).toNat 4 (s.getX rs2).toNat
        ramUse := noteUse s.ramUse s.hid true (dataAddr s rs1 imm).toNat 4 }) rfl rfl
    exact ⟨regs, pc, hart, by simp, by simp, by simp, by simp, by simp, by simp, fun hw => recorded_noteUse hw (by simp)⟩

/-! ### Refused accesses -/

/-- Settles O17. -/
theorem refusedAccesses : Obligations.RefusedAccesses := by
  refine ⟨fun s r rs1 imm ha hy => ⟨fun hr => ?_, fun hr => ⟨fun hf => ?_, fun ht => ?_, fun ht hf => ?_⟩⟩,
    fun s r rs1 imm h off ha hy => ⟨fun hm => ⟨fun hr => ?_, fun hr => ?_⟩, fun hm hr => ?_⟩, fun s store a n => ?_, fun c k b store => ?_⟩
  · exact ⟨lw_bad ha hy (memRead_nowhere hr), sw_bad ha hy (memWrite_nowhere hr)⟩
  · exact lw_race ha (memRead_race hr hf)
  · exact sw_text ha (memWrite_text hr ht)
  · exact sw_race ha (memWrite_race hr ht hf)
  · exact ⟨lw_bad ha hy (memRead_msipDenied hr hm), sw_bad ha hy (memWrite_msipDenied hr hm)⟩
  · exact ⟨lw_bad ha hy (memRead_timerDenied hr hm), sw_bad ha hy (memWrite_timerDenied hr hm)⟩
  · exact sw_bad ha hy (memWrite_mtime hr hm)
  · rw [Bool.eq_false_iff, Ne, raceFree_iff]
    unfold MayTouch
    push Not
    rfl
  · cases store <;> rfl

/-! ### Who may reach the PLIC -/

theorem plicPerm_iff (c : Config) (y : Mode) (h off : Nat) :
    plicPerm c y h off = true ↔ y = .m ∨ 0x200000 ≤ off ∧
      (c.targetMap.lookup ((off - 0x200000) / 0x1000) = some (h, y) ∨ (y, (h, (off - 0x200000) / 0x1000)) ∈ c.plicGrants) := by
  simp [plicPerm]

/-- Settles O22. -/
theorem plicAccessControl : Obligations.PlicAccessControl := by
  refine ⟨fun c y h off => ⟨(plicPerm_iff ..).mpr (.inl rfl), fun hy ho => ?_, fun g h1 h2 => ?_⟩,
    fun s r rs1 imm off ha hr ho hy => ⟨fun hp => ?_, fun hp hres => ?_⟩⟩
  · rw [Bool.eq_false_iff, Ne, plicPerm_iff]
    rintro (hm | ⟨hle, _⟩)
    · exact hy hm
    · omega
  · have page : (off - 0x200000) / 0x1000 = g := by omega
    refine ⟨fun hg => (plicPerm_iff ..).mpr (.inr ⟨by omega, page ▸ hg⟩), fun hy hn hng => ?_⟩
    rw [Bool.eq_false_iff, Ne, plicPerm_iff, page]
    rintro (hm | ⟨_, hl | hg⟩)
    · exact hy hm
    · exact hn hl
    · exact hng hg
  · exact ⟨lw_bad ha hy (memRead_plicDenied hr ho hp), sw_bad ha hy (memWrite_plicDenied hr ho hp)⟩
  · exact ⟨lw_bad ha hy ((memRead_plic hr ho hp).trans (by simp [plicRead, hres])),
      sw_bad ha hy ((memWrite_plic hr ho hp).trans (by simp [plicStore, hres]))⟩

end Sys2Proof.Accesses
end

section
/-! PROOFS. Loads and stores of the device registers: MSIP, the timer registers and the PLIC's (20_memory.md R85 to R96; 60_exceptions.md
R233, R250 to R255). -/

namespace Sys2Proof.Accesses
open Sys2Proof.Machine Sys2Proof.Exceptions Sys2Proof.Instructions Sys2Proof.Effects Sys2Proof.Fetching Sys2Proof.PlicSteps

/-! ### A store to a register of a hart -/

/-- From s to t a store changed hart h by f, and the pc of the storing hart advanced. -/
structure StoredAtHart (s t : State) (h : Nat) (f : Hart → Hart) : Prop where
  registers : RegistersKept s t
  pc : PcAdvanced s t
  harts : ∀ k q, s.hartAt k = some q → ∃ q', t.hartAt k = some q' ∧
    q' = { (if k = h then f q else q) with pc := q'.pc } ∧ (k ≠ s.hid → q'.pc = q.pc)
  frame : t.cfg = s.cfg ∧ t.hid = s.hid ∧ t.mem = s.mem ∧ t.ramUse = s.ramUse ∧ t.mtime = s.mtime ∧ t.plic = s.plic ∧ t.sched = s.sched

/-- The advance changes the pc of the current hart and of no other. -/
theorem hartAt_advance {u : State} {k : Nat} {q : Hart} (hq : u.hartAt k = some q) :
    ∃ q', u.advance.hartAt k = some q' ∧ q' = { q with pc := q'.pc } ∧ (k ≠ u.hid → q'.pc = q.pc) := by
  by_cases hk : k = u.hid
  · subst hk
    rw [hartAt_self] at hq
    have hc : u.advance.hartAt u.hid = some u.advance.hart := by
      rw [show u.hid = u.advance.hid from (advance_hid u).symm, hartAt_self]
    exact ⟨_, hc, by rw [← Option.some.inj hq]; exact advance_hart u, fun h => absurd rfl h⟩
  · exact ⟨q, (hartAt_congr (by simp) (by simp) hk).trans hq, rfl, fun _ => rfl⟩

theorem modHart_congr {α : Type} {p : Hart → α} {f : Hart → Hart} (s : State) (h : Nat) (hf : ∀ k, p (f k) = p k) :
    p (s.modHart h f).hart = p s.hart := by
  unfold State.modHart
  split
  · exact hf _
  · rfl

/-- A store to a register of hart h, by a change that leaves registers and pc alone. -/
theorem modHart_advance_stored (s : State) (h : Nat) {f : Hart → Hart} (hx : ∀ k, (f k).x = k.x) (hp : ∀ k, (f k).pc = k.pc) :
    StoredAtHart s (s.modHart h f).advance h f where
  registers q := by rw [getX_advance, getX_congr (modHart_congr s h hx)]
  pc := advance_pcAdvanced (by simp) (modHart_congr s h hp)
  harts k q hq := by
    have hm : (s.modHart h f).hartAt k = some (if k = h then f q else q) := by
      rw [modHart_hartAt, hq]; split <;> rfl
    obtain ⟨q', hq', e, hpc⟩ := hartAt_advance hm
    refine ⟨q', hq', e, fun hk => ?_⟩
    rw [hpc (by simpa using hk)]
    split
    · exact hp q
    · rfl
  frame := by simp

/-- The end of an instruction whose store changes hart h. -/
theorem modHart_complete (s : State) (h : Nat) {f : Hart → Hart} (hp : ∀ k, (f k).pc = k.pc) :
    (CanAdvance s → (s.modHart h f).complete = .next (s.modHart h f).advance) ∧
    (¬ CanAdvance s → (s.modHart h f).complete = .refused .pcOverflow) :=
  ⟨complete_of_canAdvance (by simp) (modHart_congr s h hp), complete_refused (by simp) (modHart_congr s h hp)⟩

/-! ### MSIP -/

/-- A bit, as a loaded word. -/
theorem sext_bit (xl : XLen) (b : Bool) : sext xl ((if b = true then 1#64 else 0#64).setWidth 32) = if b = true then 1#64 else 0#64 := by
  cases xl <;> cases b <;> decide

/-- Settles O23. -/
theorem softwareInterruptRegister : Obligations.SoftwareInterruptRegister := by
  intro s r rs1 imm h g ha hr hm hg
  have lw := lw_value (r := r) ha (memRead_msip hr hm)
  rw [hg, Option.any_some, sext_bit] at lw
  have sw := sw_done (r := r) ha (memWrite_msip hr hm)
  have stored := modHart_advance_stored s h (f := fun k => k.driveMip 3 ((s.getX r).getLsbD 0)) (fun _ => rfl) (fun _ => rfl)
  obtain ⟨done, refused⟩ := modHart_complete s h (f := fun k => k.driveMip 3 ((s.getX r).getLsbD 0)) (fun _ => rfl)
  obtain ⟨ldone, lrefused⟩ := setX_complete s r (if g.mip.getLsbD 3 then 1#64 else 0#64)
  rw [lw, sw]
  refine ⟨fun hn => ⟨lrefused hn, refused hn⟩, ldone, fun hc => ⟨_, done hc, stored.registers, stored.pc, fun k q hq => ?_, stored.frame⟩⟩
  obtain ⟨q', hq', e, hpc⟩ := stored.harts k q hq
  refine ⟨q', hq', fun i => ?_, ?_, hpc⟩
  · rw [e]
    by_cases hk : k = h
    · simp only [hk, if_true, true_and, Hart.driveMip_mip, setBit_getLsbD _ _ _ _ (show 3 < 64 by decide)]
    · simp only [hk, if_false, false_and]
  · rw [e]; split <;> rfl

/-! ### The timer registers -/

/-- A read of a half of a timer register. -/
theorem timerRead_half {s : State} {off : Nat} (ho : off = 0 ∨ off = 4) (v : BitVec 64) :
    timerRead s .word off v = .value ((v.extractLsb' (8 * off) 32).setWidth 64) s := by
  rcases ho with rfl | rfl <;> rfl

/-- `mtimecmp` with the half at an offset replaced. -/
def replaceHalf (off : Nat) (w : BitVec 64) (v : Word) : BitVec 64 :=
  if off = 0 then hiHalf w ++ loHalf v else loHalf v ++ loHalf w

/-- The half that was written, and the other. -/
theorem replaceHalf_halves {off : Nat} (ho : off = 0 ∨ off = 4) (w : BitVec 64) (v : Word) :
    (replaceHalf off w v).extractLsb' (8 * off) 32 = v.setWidth 32 ∧
    (replaceHalf off w v).extractLsb' (32 - 8 * off) 32 = w.extractLsb' (32 - 8 * off) 32 := by
  have whole : ∀ x : BitVec 32, x.extractLsb' 0 32 = x := fun x => BitVec.extractLsb'_eq_self
  have lo : loHalf v = v.setWidth 32 := by rw [loHalf, BitVec.setWidth_eq_extractLsb' (by decide)]
  rcases ho with rfl | rfl
  · refine ⟨?_, ?_⟩
    · show (hiHalf w ++ loHalf v).extractLsb' 0 32 = _
      rw [extract_low _ _ _ _ (by decide), whole, lo]
    · show (hiHalf w ++ loHalf v).extractLsb' 32 32 = _
      rw [extract_high _ _ _ _ (by decide), whole]; rfl
  · refine ⟨?_, ?_⟩
    · show (loHalf v ++ loHalf w).extractLsb' 32 32 = _
      rw [extract_high _ _ _ _ (by decide), whole, lo]
    · show (loHalf v ++ loHalf w).extractLsb' 0 32 = _
      rw [extract_low _ _ _ _ (by decide), whole]; rfl

theorem timecmpWrite_half {s : State} {off : Nat} (ho : off = 0 ∨ off = 4) (h : Nat) (v : Word) :
    timecmpWrite s .word h off v = .done (s.modHart h (fun k => k.setTimecmp (replaceHalf off k.mtimecmp v))) := by
  rcases ho with rfl | rfl <;> rfl

theorem setWidth_loaded (v : BitVec 32) : (v.setWidth 64).setWidth 32 = v :=
  BitVec.setWidth_setWidth_of_le v (by decide)

/-- Settles O24. -/
theorem timerRegisters : Obligations.TimerRegisters := by
  intro s r rs1 imm off ha hm ho
  refine ⟨fun h g hr hg => ?_, fun hr => ?_⟩
  · have lw := lw_value (r := r) ha ((memRead_timecmp hr hm).trans (timerRead_half ho _))
    rw [hg, setWidth_loaded] at lw
    have sw := sw_done (r := r) ha ((memWrite_timecmp hr hm).trans (timecmpWrite_half ho h _))
    have stored := modHart_advance_stored s h (f := fun k => k.setTimecmp (replaceHalf off k.mtimecmp (s.getX r))) (fun _ => rfl) (fun _ => rfl)
    obtain ⟨done, refused⟩ :=
      modHart_complete s h (f := fun k => k.setTimecmp (replaceHalf off k.mtimecmp (s.getX r))) (fun _ => rfl)
    obtain ⟨ldone, lrefused⟩ := setX_complete s r (sext s.cfg.xlen (g.mtimecmp.extractLsb' (8 * off) 32))
    rw [lw, sw]
    refine ⟨fun hn => ⟨lrefused hn, refused hn⟩, ldone, fun hc => ⟨_, done hc, stored.registers, stored.pc, fun k q hq => ?_, stored.frame⟩⟩
    obtain ⟨q', hq', e, hpc⟩ := stored.harts k q hq
    by_cases hk : k = h
    · rw [if_pos hk] at e
      refine ⟨q', hq', fun i => ?_, fun _ => ?_, fun hn => absurd hk hn, by rw [e]; rfl, hpc⟩
      · rw [e]; simp only [hk, true_and, setTimecmp_bit]
      · rw [e]; exact replaceHalf_halves ho q.mtimecmp (s.getX r)
    · rw [if_neg hk] at e
      exact ⟨q', hq', fun i => by rw [e]; simp [hk], fun h => absurd h hk, fun _ => by rw [e], by rw [e], hpc⟩
  · have lw := lw_value (r := r) ha ((memRead_mtime hr hm).trans (timerRead_half ho _))
    rw [setWidth_loaded] at lw
    obtain ⟨ldone, lrefused⟩ := setX_complete s r (sext s.cfg.xlen (s.mtime.extractLsb' (8 * off) 32))
    rw [lw]
    exact ⟨lrefused, ldone⟩

/-! ### Stores to the PLIC -/

theorem loHalf_toNat (v : Word) : (loHalf v).toNat = v.toNat % 2 ^ 32 := by simp [loHalf]

theorem loHalf_eq (v : Word) : loHalf v = v.setWidth 32 := by rw [loHalf, BitVec.setWidth_eq_extractLsb' (by decide)]

/-- The PLIC after a store of v to a register: the message that it posts. -/
theorem plicStore_done {s : State} {off : Nat} {v : Word} {p : Plic}
    (h : (∃ src, plicReg s.cfg off = .prio src ∧ p = { s.plic with wrQ := s.plic.wrQ ++ [(s.hid, .prio src (v.toNat % 2 ^ 32))] }) ∨
      (∃ g w, plicReg s.cfg off = .enableWord g w ∧
        p = { s.plic with wrQ := s.plic.wrQ ++ [(s.hid, .enable g w (v.setWidth 32))] }) ∨
      (∃ g, plicReg s.cfg off = .threshold g ∧ p = { s.plic with wrQ := s.plic.wrQ ++ [(s.hid, .threshold g (v.toNat % 2 ^ 32))] }) ∨
      (∃ g, plicReg s.cfg off = .claim g ∧ p = { s.plic with complQ := s.plic.complQ ++ [(g, v.toNat % 2 ^ 32)] }) ∨
      (∃ w, plicReg s.cfg off = .pendingWord w ∧ s.cfg.ignorePendingWrite = true ∧ p = s.plic)) :
    plicStore s off (loHalf v) = .done { s with plic := p } := by
  rcases h with ⟨_, hr, rfl⟩ | ⟨_, _, hr, rfl⟩ | ⟨_, hr, rfl⟩ | ⟨_, hr, rfl⟩ | ⟨_, hr, hi, rfl⟩
  · simp [plicStore, hr, postWrite, loHalf_toNat]
  · simp [plicStore, hr, postWrite, loHalf_eq]
  · simp [plicStore, hr, postWrite, loHalf_toNat]
  · simp [plicStore, hr, loHalf_toNat]
  · simp [plicStore, hr, hi]

/-- Settles O19. -/
theorem storePlicRegister : Obligations.StorePlicRegister := by
  intro s rs2 rs1 imm off ha hr ho hp hy
  refine ⟨fun p hpost => ?_, fun w hw hi => sw_bad ha hy ((memWrite_plic hr ho hp).trans (by simp [plicStore, hw, hi]))⟩
  rw [sw_done (r := rs2) ha ((memWrite_plic hr ho hp).trans (plicStore_done hpost))]
  refine ⟨complete_refused (s := s) rfl rfl, fun hc => ⟨_, complete_of_canAdvance (s := s) rfl rfl hc, by simp, ?_⟩⟩
  obtain ⟨regs, pc, hart⟩ := advance_of (s := s) (u := { s with plic := p }) rfl rfl
  exact ⟨regs, pc, hart, by constructor <;> simp⟩

end Sys2Proof.Accesses
end

section
/-! PROOFS. Loads of PLIC registers, and the claim protocol from the load to the response (60_exceptions.md sections 10 and 11;
20_memory.md R96). -/

namespace Sys2Proof.Accesses
open Sys2Proof.Machine Sys2Proof.Exceptions Sys2Proof.Instructions Sys2Proof.Effects Sys2Proof.Fetching Sys2Proof.PlicSteps

/-! ### The hart's own writes -/

/-- The core's writes do not read the schedule. -/
theorem doWrite_sched (s : State) (q : List Event) (h : Nat) : doWrite { s with sched := q } h = { doWrite s h with sched := q } := by
  unfold doWrite
  dsimp only
  split <;> rfl

theorem drainWrites_sched (q : List Event) (h n : Nat) : ∀ s : State,
    drainWrites h n { s with sched := q } = { drainWrites h n s with sched := q } := by
  induction n with
  | zero => intro s; rfl
  | succ n ih => intro s; rw [drainWrites, drainWrites, doWrite_sched, ih]

theorem afterOwnWrites_sched (s : State) (q : List Event) : afterOwnWrites { s with sched := q } = { afterOwnWrites s with sched := q } :=
  drainWrites_sched ..

/-- The core performing the hart's oldest write first changes nothing of what a read finds. -/
theorem afterOwnWrites_after_step {s u : State} (h : step { s with sched := [.plicWrite s.hid] } = .next u) :
    (afterOwnWrites u).plic = (afterOwnWrites s).plic := by
  have hu : u = doWrite { s with sched := [] } s.hid := by
    rw [step_of_sched (e := .plicWrite s.hid) (rest := []) rfl] at h
    rcases writeRegister_cases { s with sched := [] } s.hid with e | ⟨_, _, _, _, e⟩
    · exact (Host.Outcome.next.inj (e.symm.trans h)).symm
    · exact absurd (e.symm.trans h) (by simp)
  rw [hu, show s.hid = ({ s with sched := [] } : State).hid from rfl, afterOwnWrites_doWrite, afterOwnWrites_sched]

/-- A read that waits for a write which R234 refuses names a value above `MAX_PRI`. -/
theorem ownRefusedValue_gt {s : State} {v : Nat} (h : ownRefusedValue s = some v) : s.cfg.maxPri < v := by
  obtain ⟨e, _, he⟩ := List.exists_of_findSome?_eq_some h
  split at he
  · exact refusedValue_gt he
  · cases he

/-! ### The value of a register -/

/-- What the four bytes of a register of the core say about the core p. -/
structure ReadsRegister (c : Config) (off : Nat) (p : Plic) (v : BitVec 32) : Prop where
  prio : ∀ src, plicReg c off = .prio src → v.toNat = prioOf c p src % 2 ^ 32
  pending : ∀ w, plicReg c off = .pendingWord w → ∀ b, b < 32 → v.getLsbD b = pendingOf p (32 * w + b)
  enable : ∀ g w, plicReg c off = .enableWord g w → ∀ b, b < 32 → v.getLsbD b = enableOf p g (32 * w + b)
  threshold : ∀ g, plicReg c off = .threshold g → v.toNat = thrOf c p g % 2 ^ 32

theorem getWord32_getLsbD (a : BitVec 1024) (w : Nat) {b : Nat} (hb : b < 32) : (getWord32 a w).getLsbD b = a.getLsbD (32 * w + b) := by
  simp [getWord32, hb]

/-- A read of a register that is neither reserved nor a claim register reads the core. -/
theorem plicRead_core {s : State} {off : Nat} (hr : plicReg s.cfg off ≠ .reserved) (hc : ∀ g, plicReg s.cfg off ≠ .claim g) :
    ∃ f : Plic → BitVec 32, plicRead s off = coreRead s f ∧ ∀ p, ReadsRegister s.cfg off p (f p) := by
  unfold plicRead
  cases hreg : plicReg s.cfg off with
  | prio src =>
    refine ⟨_, rfl, fun p => ⟨fun j hj => ?_, fun _ hj => ?_, fun _ _ hj => ?_, fun _ hj => ?_⟩⟩ <;> rw [hreg] at hj <;> cases hj
    exact BitVec.toNat_ofNat ..
  | pendingWord w =>
    refine ⟨_, rfl, fun p => ⟨fun j hj => ?_, fun _ hj b hb => ?_, fun _ _ hj => ?_, fun _ hj => ?_⟩⟩ <;> rw [hreg] at hj <;> cases hj
    exact getWord32_getLsbD _ _ hb
  | enableWord g w =>
    refine ⟨_, rfl, fun p => ⟨fun j hj => ?_, fun _ hj => ?_, fun _ _ hj b hb => ?_, fun _ hj => ?_⟩⟩ <;> rw [hreg] at hj <;> cases hj
    exact getWord32_getLsbD _ _ hb
  | threshold g =>
    refine ⟨_, rfl, fun p => ⟨fun j hj => ?_, fun _ hj => ?_, fun _ _ hj => ?_, fun _ hj => ?_⟩⟩ <;> rw [hreg] at hj <;> cases hj
    exact BitVec.toNat_ofNat ..
  | claim g => exact absurd hreg (hc g)
  | reserved => exact absurd hreg hr

/-- Settles O18: the read is of the core after the hart's own writes. -/
theorem loadPlicRegister : Obligations.LoadPlicRegister := by
  intro s rd rs1 imm off ha hr ho hp hres hcl
  obtain ⟨f, hread, hval⟩ := plicRead_core hres hcl
  have hmem : memRead s .word (dataAddr s rs1 imm).toNat = coreRead s f := (memRead_plic hr ho hp).trans hread
  have hcore : ownRefusedValue s = none →
      coreRead s f = .value ((f (afterOwnWrites s).plic).setWidth 64) (afterOwnWrites s) := fun h => by rw [coreRead, h]
  obtain ⟨pr, ie, th, q, d, frame⟩ := afterOwnWrites_frame s
  have hc : (afterOwnWrites s).cfg = s.cfg := by rw [frame]
  have hh : (afterOwnWrites s).hart = s.hart := by rw [frame]
  have hpc : ∀ v, ((afterOwnWrites s).setX rd v).hart.pc = s.hart.pc := fun v => by
    show (afterOwnWrites s).hart.pc = _
    rw [hh]
  refine ⟨fun ⟨e, he, hid, hv⟩ => ?_, fun hn hadv => ?_, fun hn hadv => ?_⟩
  · cases hown : ownRefusedValue s with
    | none => exact absurd ((ownRefusedValue_none s).mp hown e he hid) hv
    | some v => exact ⟨v, ownRefusedValue_gt hown, lw_highPriority ha (by rw [hmem, coreRead, hown])⟩
  · rw [lw_value ha (hmem.trans (hcore ((ownRefusedValue_none s).mpr hn)))]
    exact complete_refused (s := s) hc (hpc _) hadv
  · have lw := lw_value (r := rd) ha (hmem.trans (hcore ((ownRefusedValue_none s).mpr hn)))
    rw [setWidth_loaded] at lw
    rw [lw]
    obtain ⟨regs, pc, hart⟩ := setX_advance_of rd (sext s.cfg.xlen (f (afterOwnWrites s).plic)) hc hh
    have hplic : ∀ v, ((afterOwnWrites s).setX rd v).advance.plic = (afterOwnWrites s).plic := fun v => by simp
    refine ⟨_, f (afterOwnWrites s).plic, complete_of_canAdvance (s := s) hc (hpc _) hadv, regs, pc, hart, ?_, ?_, ?_,
      hplic _, ?_, ?_⟩
    · rw [hplic, frame]
    · rw [hplic]; exact drainWrites_wrQ _ _ _ List.countP_le_length
    · intro hnone
      rw [hplic, afterOwnWrites, drainWrites_none _ hnone]
    · intro u hu
      rw [hplic, afterOwnWrites_after_step hu]
    · rw [hplic]
      obtain ⟨v1, v2, v3, v4⟩ := hval (afterOwnWrites s).plic
      rw [frame]
      exact ⟨by simp, by simp, by simp, by simp, by simp, by simp, by simp, by simpa only [frame] using v1,
        by simpa only [frame] using v2, by simpa only [frame] using v3, by simpa only [frame] using v4⟩

/-! ### Claims -/

/-- The machine with the response to a claim load taken from the queue, and its hart let go. -/
def claimDone (s : State) (q : List ClaimResponse) : State :=
  { s with plic := { s.plic with respQ := q }, hart := { s.hart with waiting := none } }

theorem answers_iff (h g : Nat) (r : ClaimResponse) : answers h g r = true ↔ r.hart = h ∧ r.target = g := by
  simp [answers]

/-- A hart whose response has come ends its load with the id. -/
theorem finishClaim_response {s : State} {w : Waiting} {pre post : List ClaimResponse} {id : Nat}
    (hq : s.plic.respQ = pre ++ ⟨s.hid, w.target, id⟩ :: post) (hpre : ∀ r ∈ pre, ¬ (r.hart = s.hid ∧ r.target = w.target)) :
    finishClaim s w = ((claimDone s (pre ++ post)).setX w.rd (sext s.cfg.xlen (BitVec.ofNat 32 id))).complete := by
  have none : ∀ r ∈ pre, answers s.hid w.target r = false := fun r hr =>
    Bool.eq_false_iff.mpr (fun h => hpre r hr ((answers_iff ..).mp h))
  have this : answers s.hid w.target ⟨s.hid, w.target, id⟩ = true := (answers_iff ..).mpr ⟨rfl, rfl⟩
  have found : s.plic.respQ.find? (answers s.hid w.target) = some ⟨s.hid, w.target, id⟩ := by
    rw [hq, List.find?_append, List.find?_eq_none.mpr (fun r hr => by simp [none r hr])]
    simp [this]
  have removed : removeFirst (answers s.hid w.target) s.plic.respQ = pre ++ post := by
    rw [hq]; exact removeFirst_append _ this none
  unfold finishClaim
  rw [found, removed]; rfl

/-- A small id, sign-extended, is the id. -/
theorem sext_id (xl : XLen) {id : Nat} (h : id < 2 ^ 31) : sext xl (BitVec.ofNat 32 id) = BitVec.ofNat 64 id := by
  apply BitVec.eq_of_toNat_eq
  have hi : ((sext xl (BitVec.ofNat 32 id)).toNat : Int) = id := by
    rw [sext_toNat _ _ (Nat.le_refl 32), BitVec.toInt_eq_toNat_of_lt (by rw [BitVec.toNat_ofNat]; omega), BitVec.toNat_ofNat,
      Nat.mod_eq_of_lt (by omega)]
    refine Int.emod_eq_of_lt (by omega) ?_
    cases xl <;> simp only [XLen.bits] <;> omega
  rw [BitVec.toNat_ofNat, Nat.mod_eq_of_lt (by omega)]
  exact_mod_cast hi

/-- The step of a hart that is held by a claim load. -/
theorem step_waiting {s : State} {w : Waiting} (hn : nextEvent s = .run s.hid) (hw : s.hart.waiting = some w) :
    step s = finishClaim (popEvent s) w := by
  have hh : hasHart (popEvent s) s.hid = true := by
    show ((popEvent s).hartAt (popEvent s).hid).isSome = true
    rw [hartAt_self]; rfl
  rw [step_eq, hn, runEvent_run hh]
  have self : (popEvent s).switchTo s.hid = popEvent s := switchTo_self (popEvent s)
  rw [self, runHart, popEvent_hart, hw]

/-- The end of a claim load: rd and the pc, the response taken, and nothing else. -/
theorem claimDone_complete {s : State} (q : List ClaimResponse) (rd : BitVec 5) (v : Word) :
    (¬ CanAdvance s → ((claimDone s q).setX rd v).complete = .refused .pcOverflow) ∧
    (CanAdvance s → ∃ t : State, ((claimDone s q).setX rd v).complete = .next t ∧ RegisterWritten s t rd v ∧ PcAdvanced s t ∧
      t.hart = { s.hart with x := t.hart.x, pc := t.hart.pc, waiting := none } ∧ t.plic = { s.plic with respQ := q } ∧
      OutsideUnchanged s { t with plic := s.plic }) := by
  refine ⟨complete_refused (s := s) rfl rfl, fun hc => ⟨_, complete_of_canAdvance (s := s) rfl rfl hc, fun r => ?_,
    advance_pcAdvanced rfl rfl, ?_, by simp [claimDone], by constructor <;> simp [claimDone]⟩⟩
  · rw [getX_advance, getX_setX]; rfl
  · rw [advance_hart]; simp [claimDone]

theorem lw_claimRegister {s : State} {rd rs1 : BitVec 5} {imm : BitVec 12} {off g : Nat} (ha : (dataAddr s rs1 imm).toNat % 4 = 0)
    (hr : route s.cfg (dataAddr s rs1 imm).toNat 4 = .plic off) (ho : off % 4 = 0)
    (hp : plicPerm s.cfg s.hart.priv s.hid off = true) (hg : plicReg s.cfg off = .claim g) :
    exec (.lw rd imm rs1) s = .next { s with
      plic := { s.plic with claimQ := s.plic.claimQ ++ [(s.hid, g)] }, hart := { s.hart with waiting := some ⟨g, rd⟩ } } := by
  have hread : plicRead s off = .claim g { s with plic := { s.plic with claimQ := s.plic.claimQ ++ [(s.hid, g)] } } := by
    rw [plicRead, hg]
  exact lw_claim ha ((memRead_plic hr ho hp).trans hread)

/-- Settles O20. -/
theorem claimLoadWaits : Obligations.ClaimLoadWaits := by
  refine ⟨fun s rd rs1 imm off g ha hr ho hp hg => ⟨_, lw_claimRegister ha hr ho hp hg, rfl, rfl, by constructor <;> intros <;> rfl⟩,
    fun s w rest hs hw hnone => ?_, fun s w rest pre post id hs hw hid hq hpre => ?_⟩
  · rw [step_waiting (nextEvent_of_sched hs) hw]
    have none : s.plic.respQ.find? (answers s.hid w.target) = none :=
      List.find?_eq_none.mpr (fun r hr h => hnone r hr ((answers_iff ..).mp h))
    unfold finishClaim
    rw [popEvent_plic, popEvent_hid, none]
  · rw [step_waiting (nextEvent_of_sched hs) hw, finishClaim_response (s := popEvent s) hq hpre, popEvent_cfg, sext_id _ hid]
    obtain ⟨refused, done⟩ := claimDone_complete (s := popEvent s) (pre ++ post) w.rd (BitVec.ofNat 64 id)
    exact ⟨refused, done⟩

/-- With nothing scheduled, the core answers the claim of a hart that is held and has no response yet and no write queued. -/
theorem step_idle_claim {s : State} {w : Waiting} {pre : List (Nat × Nat)} {g : Nat} (hs : s.sched = []) (hw : s.hart.waiting = some w)
    (hresp : ∀ r ∈ s.plic.respQ, ¬ (r.hart = s.hid ∧ r.target = w.target)) (hwr : ∀ e ∈ s.plic.wrQ, e.1 ≠ s.hid)
    (hq : s.plic.claimQ = pre ++ [(s.hid, g)]) (hpre : ∀ e ∈ pre, e.1 ≠ s.hid) :
    step s = .next { s with plic := answerClaim s.cfg { s.plic with claimQ := pre } s.hid g } := by
  have noResp : s.plic.respQ.any (answers s.hid w.target) = false :=
    List.any_eq_false.mpr (fun r hr h => hresp r hr ((answers_iff ..).mp h))
  have noWrite : s.plic.wrQ.any (fun e => e.1 == s.hid) = false :=
    List.any_eq_false.mpr (fun e he h => hwr e he (by simpa using h))
  have hn : nextEvent s = .plicClaim s.hid := by simp [nextEvent, hs, defaultEvent, hw, noResp, noWrite]
  rw [step_eq, hn, popEvent_of_idle hs]
  show Host.Outcome.next (doClaim s s.hid) = _
  rw [doClaim_answers hwr hq hpre, List.append_nil]

/-- With nothing scheduled, a hart that is held and has its response ends its load. -/
theorem step_idle_response {s : State} {w : Waiting} {pre : List ClaimResponse} {id : Nat} (hs : s.sched = [])
    (hw : s.hart.waiting = some w) (hq : s.plic.respQ = pre ++ [⟨s.hid, w.target, id⟩])
    (hpre : ∀ r ∈ pre, ¬ (r.hart = s.hid ∧ r.target = w.target)) :
    step s = ((claimDone s pre).setX w.rd (sext s.cfg.xlen (BitVec.ofNat 32 id))).complete := by
  have resp : s.plic.respQ.any (answers s.hid w.target) = true :=
    List.any_eq_true.mpr ⟨⟨s.hid, w.target, id⟩, by rw [hq]; simp, (answers_iff ..).mpr ⟨rfl, rfl⟩⟩
  have hn : nextEvent s = .run s.hid := by simp [nextEvent, hs, defaultEvent, hw, resp]
  rw [step_waiting hn hw, popEvent_of_idle hs, finishClaim_response hq hpre, List.append_nil]

/-- Settles O21: the load, the core's answer and the end of the load, each by its own lemma. -/
theorem claimProtocol : Obligations.ClaimProtocol := by
  intro s rd rs1 imm off g hok hs ha hr ho hp hg hwr hcl hresp hw hc
  obtain ⟨t1, ht1⟩ : ∃ t1 : State, t1 = { s with
      plic := { s.plic with claimQ := s.plic.claimQ ++ [(s.hid, g)] }, hart := { s.hart with waiting := some ⟨g, rd⟩ } } := ⟨_, rfl⟩
  obtain ⟨t2, ht2⟩ : ∃ t2 : State, t2 = { s with
      plic := answerClaim s.cfg s.plic s.hid g, hart := { s.hart with waiting := some ⟨g, rd⟩ } } := ⟨_, rfl⟩
  have load : exec (.lw rd imm rs1) s = .next t1 := by rw [ht1]; exact lw_claimRegister ha hr ho hp hg
  have answer : step t1 = .next t2 := by
    rw [ht1, ht2]
    exact step_idle_claim (s := { s with
      plic := { s.plic with claimQ := s.plic.claimQ ++ [(s.hid, g)] }, hart := { s.hart with waiting := some ⟨g, rd⟩ } })
      hs rfl hresp hwr rfl hcl
  have frame := answerClaim_frame s.cfg s.plic s.hid g
  have pend := pendingOf_answerClaim hok s.plic s.hid g
  have small : best s.cfg s.plic g < 2 ^ 31 := Nat.lt_trans (best_lt hok ..) (by decide)
  have queued : t2.plic.respQ = s.plic.respQ ++ [⟨t2.hid, g, best s.cfg s.plic g⟩] := by rw [ht2]; exact congrArg Plic.respQ frame
  have done : step t2 = ((claimDone t2 s.plic.respQ).setX rd (BitVec.ofNat 64 (best s.cfg s.plic g))).complete := by
    rw [step_idle_response (s := t2) (w := ⟨g, rd⟩) (by rw [ht2]; exact hs) (by rw [ht2]) queued (by rw [ht2]; exact hresp),
      sext_id _ small]
  obtain ⟨_, completes⟩ := claimDone_complete (s := t2) s.plic.respQ rd (BitVec.ofNat 64 (best s.cfg s.plic g))
  obtain ⟨t3, ht3, regs, pc, hart, plic, out⟩ := completes (by rw [ht2]; exact hc)
  refine ⟨t1, t2, t3, load, answer, done.trans ht3, fun q => ?_, ?_, ?_, ?_, fun k => ?_, ?_⟩
  · rw [regs q, ht2]; rfl
  · rw [ht2] at pc; exact pc
  · rw [OnlyRegistersAndPc, hart, ht2, ← hw]
  · rw [plic, ht2, frame]
  · rw [← pend, plic, ht2]; rfl
  · rw [ht2] at out
    exact ⟨out.cfg, out.hid, out.parked, out.mem, out.ramUse, out.mtime, rfl, out.sched⟩

end Sys2Proof.Accesses
end

section
/-! PROOFS. The address map: sums of addresses, what stands at an address, and the registers of the PLIC window (20_memory.md R80, R81,
R87, R90 to R92). -/

namespace Sys2Proof.Addresses
open Sys2Proof.Machine Sys2Proof.Instructions Sys2Proof.PlicSteps

/-! ### Regions -/

/-- An address lies in a region. -/
abbrev Holds (r : Region) (a : Nat) : Prop := r.base ≤ a ∧ a < r.base + r.size

/-- Of two disjoint regions an address lies in one at most. -/
theorem not_holds_of_disjoint {r q : Region} {a : Nat} (h : r.disjoint q = true ∨ q.disjoint r = true) (hr : Holds r a) : ¬ Holds q a := by
  unfold Region.disjoint Holds at *
  simp only [decide_eq_true_eq] at h
  omega

/-- The region of the i-th of the registers of a size. -/
abbrev registers (size : Nat) (bs : List Nat) : List Region := bs.map (fun b => ⟨b, size⟩)

theorem findReg_none {size a : Nat} : ∀ {bs : List Nat} {i : Nat}, (∀ r ∈ registers size bs, ¬ Holds r a) → findReg size a bs i = none := by
  intro bs
  induction bs with
  | nil => intro _ _; rfl
  | cons b bs ih =>
    intro i h
    rw [findReg, if_neg (h ⟨b, size⟩ (by simp))]
    exact ih (fun r hr => h r (List.mem_cons_of_mem _ hr))

/-- Of registers that do not overlap the one that holds an address is found. -/
theorem findReg_some {size a : Nat} : ∀ {bs : List Nat} {i h b : Nat},
    (registers size bs).Pairwise (fun r q => r.disjoint q = true) → bs[h]? = some b → Holds ⟨b, size⟩ a →
    findReg size a bs i = some (i + h, a - b) := by
  intro bs
  induction bs with
  | nil => intro i h b _ hb; simp at hb
  | cons c bs ih =>
    intro i h b hp hb ha
    obtain ⟨hc, hp⟩ := List.pairwise_cons.mp hp
    cases h with
    | zero =>
      have hcb : c = b := by simpa using hb
      rw [findReg, hcb]; exact if_pos ha
    | succ h =>
      have hb : bs[h]? = some b := by simpa using hb
      have hne : ¬ Holds ⟨c, size⟩ a :=
        not_holds_of_disjoint (.inr (hc _ (List.mem_map_of_mem (List.mem_of_getElem? hb)))) ha
      rw [findReg, if_neg hne, ih hp hb ha, Nat.add_right_comm, Nat.add_assoc]

/-! ### The regions of a configuration -/

/-- The PLIC window. -/
abbrev window (c : Config) : Region := ⟨c.plicBase, plicWindow⟩

theorem deviceRegions_eq (c : Config) : c.deviceRegions =
    window c :: (registers 4 c.msipAddr ++ registers 8 c.mtimecmpAddr ++ registers 8 c.mtimeAddr.toList) := by
  unfold Config.deviceRegions
  cases c.mtimeAddr <;> rfl

/-- That the regions of a configuration do not overlap, kind by kind. -/
structure Disjoint (c : Config) : Prop where
  plic : ∀ r ∈ registers 4 c.msipAddr ++ registers 8 c.mtimecmpAddr ++ registers 8 c.mtimeAddr.toList, (window c).disjoint r = true
  msip : (registers 4 c.msipAddr).Pairwise (fun r q => r.disjoint q = true)
  timecmp : (registers 8 c.mtimecmpAddr).Pairwise (fun r q => r.disjoint q = true)
  msip_timecmp : ∀ r ∈ registers 4 c.msipAddr, ∀ q ∈ registers 8 c.mtimecmpAddr, r.disjoint q = true
  timers : ∀ r ∈ registers 4 c.msipAddr ++ registers 8 c.mtimecmpAddr, ∀ q ∈ registers 8 c.mtimeAddr.toList, r.disjoint q = true
  ram : ∀ r ∈ c.deviceRegions, ∀ q ∈ c.ram, r.disjoint q = true

theorem disjoint_of_wf {c : Config} (h : c.wf = true) : Disjoint c := by
  have hr : c.regionsOk = true := by
    unfold Config.wf at h
    simp only [Bool.and_eq_true] at h
    exact h.1.1.2
  unfold Config.regionsOk at hr
  simp only [Bool.and_eq_true, decide_eq_true_eq] at hr
  obtain ⟨⟨hp, _⟩, _⟩ := hr
  obtain ⟨hd, _, hram⟩ := List.pairwise_append.mp hp
  rw [deviceRegions_eq] at hd
  obtain ⟨hplic, hrest⟩ := List.pairwise_cons.mp hd
  obtain ⟨hmt, _, htimers⟩ := List.pairwise_append.mp hrest
  obtain ⟨hm, ht, hcross⟩ := List.pairwise_append.mp hmt
  exact ⟨hplic, hm, ht, hcross, htimers, hram⟩

/-! ### Routing -/

section
variable {c : Config} {a : Nat}

theorem route_outside (n : Nat) (h : ∀ r ∈ c.deviceRegions, ¬ Holds r a) :
    route c a n = if inRegions c.ram a n then .ram else .nowhere := by
  rw [deviceRegions_eq] at h
  have hp : ¬ Holds (window c) a := h _ List.mem_cons_self
  have rest : ∀ r, r ∈ registers 4 c.msipAddr ++ registers 8 c.mtimecmpAddr ++ registers 8 c.mtimeAddr.toList → ¬ Holds r a :=
    fun r hr => h r (List.mem_cons_of_mem _ hr)
  rw [route, if_neg hp, findReg_none (fun r hr => rest r (by simp only [List.mem_append]; tauto)),
    findReg_none (fun r hr => rest r (by simp only [List.mem_append]; tauto)),
    findReg_none (fun r hr => rest r (by simp only [List.mem_append]; tauto))]

theorem route_window {off : Nat} (n : Nat) (ho : off < plicWindow) (ha : a = c.plicBase + off) : route c a n = .plic off := by
  rw [route, if_pos (by omega)]; congr 1; omega

variable (hd : Disjoint c)
include hd

/-- An address in another device's region is outside the PLIC window. -/
theorem not_window {r : Region} (hr : r ∈ registers 4 c.msipAddr ++ registers 8 c.mtimecmpAddr ++ registers 8 c.mtimeAddr.toList)
    (ha : Holds r a) : ¬ Holds (window c) a :=
  not_holds_of_disjoint (.inr (hd.plic r hr)) ha

theorem route_msip {h b off : Nat} (n : Nat) (hb : c.msipAddr[h]? = some b) (ho : off < 4) (ha : a = b + off) :
    route c a n = .msip h off := by
  have here : Holds ⟨b, 4⟩ a := by unfold Holds; dsimp only; omega
  have mem : (⟨b, 4⟩ : Region) ∈ registers 4 c.msipAddr := List.mem_map_of_mem (List.mem_of_getElem? hb)
  rw [route, if_neg (not_window hd (by simp only [List.mem_append]; tauto) here), findReg_some hd.msip hb here, ha,
    Nat.add_sub_cancel_left, Nat.zero_add]

theorem route_timecmp {h b off : Nat} (n : Nat) (hb : c.mtimecmpAddr[h]? = some b) (ho : off < 8) (ha : a = b + off) :
    route c a n = .timecmp h off := by
  have here : Holds ⟨b, 8⟩ a := by unfold Holds; dsimp only; omega
  have mem : (⟨b, 8⟩ : Region) ∈ registers 8 c.mtimecmpAddr := List.mem_map_of_mem (List.mem_of_getElem? hb)
  have noMsip : ∀ r ∈ registers 4 c.msipAddr, ¬ Holds r a := fun r hr =>
    not_holds_of_disjoint (.inr (hd.msip_timecmp r hr _ mem)) here
  rw [route, if_neg (not_window hd (by simp only [List.mem_append]; tauto) here), findReg_none noMsip,
    findReg_some hd.timecmp hb here, ha, Nat.add_sub_cancel_left, Nat.zero_add]

theorem route_mtime {b off : Nat} (n : Nat) (hb : c.mtimeAddr = some b) (ho : off < 8) (ha : a = b + off) :
    route c a n = .mtime off := by
  have here : Holds ⟨b, 8⟩ a := by unfold Holds; dsimp only; omega
  have mem : (⟨b, 8⟩ : Region) ∈ registers 8 c.mtimeAddr.toList := by rw [hb]; simp
  have other : ∀ r ∈ registers 4 c.msipAddr ++ registers 8 c.mtimecmpAddr, ¬ Holds r a := fun r hr =>
    not_holds_of_disjoint (.inr (hd.timers r hr _ mem)) here
  rw [route, if_neg (not_window hd (by simp only [List.mem_append]; tauto) here),
    findReg_none (fun r hr => other r (by simp only [List.mem_append]; tauto)),
    findReg_none (fun r hr => other r (by simp only [List.mem_append]; tauto)),
    findReg_some (h := 0) (b := b) (by rw [hb]; simp) (by rw [hb]; rfl) here, ha, Nat.add_sub_cancel_left]

theorem route_ram {n : Nat} (hn : 0 < n) (h : inRegions c.ram a n = true) : route c a n = .ram := by
  obtain ⟨q, hq, hqa⟩ := (inRegions_iff ..).mp h a (Nat.le_refl _) (by omega)
  rw [route_outside n (fun r hr => not_holds_of_disjoint (.inr (hd.ram r hr q hq)) hqa), if_pos h]

end

/-! ### The PLIC register map -/

section
variable {c : Config} {off : Nat}

theorem plicReg_prio {s : Nat} (hc : c.plicOk = true) (h1 : 1 ≤ s) (hs : s ≤ c.nsrc) (ho : off = 4 * s) : plicReg c off = .prio s := by
  have := nsrc_le hc
  rw [plicReg, if_pos (by omega), show off / 4 = s by omega, if_pos (by simp [isSource, h1, hs])]

theorem plicReg_pendingWord {w : Nat} (hw : w < 32) (ho : off = 0x1000 + 4 * w) : plicReg c off = .pendingWord w := by
  rw [plicReg, if_neg (by omega), if_pos (by omega), show (off - 0x1000) / 4 = w by omega]

theorem ntgt_le (hc : c.plicOk = true) : c.ntgt ≤ 15808 := by
  simp only [Config.plicOk, Bool.and_eq_true, decide_eq_true_eq] at hc
  omega

theorem plicReg_enableWord {t w : Nat} (hc : c.plicOk = true) (ht : t < c.ntgt) (hw : w < 32) (ho : off = 0x2000 + 0x80 * t + 4 * w) :
    plicReg c off = .enableWord t w := by
  have := ntgt_le hc
  rw [plicReg, if_neg (by omega), if_neg (by omega), if_neg (by omega), if_pos (by omega), show (off - 0x2000) / 0x80 = t by omega,
    if_pos ht, show (off - 0x2000) % 0x80 / 4 = w by omega]

theorem plicReg_threshold {t : Nat} (ht : t < c.ntgt) (ho : off = 0x200000 + 0x1000 * t) : plicReg c off = .threshold t := by
  rw [plicReg, if_neg (by omega), if_neg (by omega), if_neg (by omega), if_neg (by omega), if_neg (by omega),
    show (off - 0x200000) / 0x1000 = t by omega, if_neg (by omega), if_pos (by omega)]

theorem plicReg_claim {t : Nat} (ht : t < c.ntgt) (ho : off = 0x200004 + 0x1000 * t) : plicReg c off = .claim t := by
  rw [plicReg, if_neg (by omega), if_neg (by omega), if_neg (by omega), if_neg (by omega), if_neg (by omega),
    show (off - 0x200000) / 0x1000 = t by omega, if_neg (by omega), if_neg (by omega), if_pos (by omega)]

theorem plicReg_reserved (hc : c.plicOk = true) (h4 : off % 4 = 0)
    (h : off = 0 ∨ (4 * c.nsrc < off ∧ off < 0x1000) ∨ (0x1080 ≤ off ∧ off < 0x2000) ∨
      (0x2000 + 0x80 * c.ntgt ≤ off ∧ off < 0x200000) ∨ 0x200000 + 0x1000 * c.ntgt ≤ off ∨
      (0x200000 ≤ off ∧ 8 ≤ off % 0x1000)) : plicReg c off = .reserved := by
  have := ntgt_le hc
  have := nsrc_le hc
  unfold plicReg
  split
  · rw [if_neg (by unfold isSource; rw [decide_eq_true_eq]; omega)]
  · split
    · omega
    · split
      · rfl
      · split
        · rw [if_neg (by omega)]
        · split
          · rfl
          · split
            · rfl
            · rw [if_neg (by omega), if_neg (by omega)]

end

/-- Settles O13. -/
theorem addressMap : Obligations.AddressMap := by
  refine ⟨fun s rs1 imm off => ⟨addX_sext_toNat _ _ _ (by decide), addX_sext_toNat _ _ _ (by decide)⟩, fun c a n hwf hn => ?_,
    fun rs a n => inRegions_iff rs n a, fun c off hc _ h4 => ?_⟩
  · have hd := disjoint_of_wf hwf
    refine ⟨fun off ho ha => route_window n ho ha, fun h b off hb ho ha => route_msip hd n hb ho ha,
      fun h b off hb ho ha => route_timecmp hd n hb ho ha, fun b off hb ho ha => route_mtime hd n hb ho ha, route_ram hd hn,
      fun hram hout => ?_⟩
    have outside : ∀ r ∈ c.deviceRegions, ¬ Holds r a := fun r hr h => by
      have := hout r hr
      unfold Holds at h; omega
    rw [route_outside n outside, hram]; rfl
  · exact ⟨fun s h1 hs ho => plicReg_prio hc h1 hs ho, fun w hw ho => plicReg_pendingWord hw ho,
      fun t w ht hw ho => plicReg_enableWord hc ht hw ho, fun t ht ho => plicReg_threshold ht ho, fun t ht ho => plicReg_claim ht ho,
      plicReg_reserved hc h4⟩

end Sys2Proof.Addresses
end

section
/-! PROOFS. The CSR instructions: the read, the write and its effect on the hart (41_csr_access.md R142 to R148). -/

namespace Sys2Proof.CsrAccesses
open Sys2Proof.Machine Sys2Proof.Exceptions Sys2Proof.Instructions Sys2Proof.Invariants Sys2Proof.Effects

/-! ### Numbers and owners -/

theorem mem_of_csrOfNum {a : BitVec 12} {r : Csr} (h : csrOfNum a = some r) : (a.toNat, r) ∈ csrTable := mem_of_lookup h

/-- A CSR that a write reaches stands under some mode's letter: the counters are read-only, the floating-point CSRs do not exist. -/
theorem csrOwner_of_write {c : Config} {y : Mode} {a : BitVec 12} {r : Csr} (h : csrAccess c y a true = some r) :
    ∃ x, csrOwner r = some x := by
  obtain ⟨_, _, hro, hnum, hex⟩ := csrAccess_some h
  have table : ∀ p ∈ csrTable, (csrOwner p.2).isSome = true ∨ p.1 / 1024 = 3 ∨ p.2 = .fflags ∨ p.2 = .frm ∨ p.2 = .fcsr := by
    decide +kernel
  rcases table _ (mem_of_csrOfNum hnum) with ho | hnr | hf | hf | hf
  · exact Option.isSome_iff_exists.mp ho
  · rw [(csrReadOnly_iff a).mpr hnr] at hro; exact absurd (hro rfl) (by decide)
  all_goals
    subst hf
    exact absurd (show false = true from hex) (by decide)

/-- A read of a CSR under a mode's letter changes only the count of draws. -/
theorem csrAfterRead_owned {s : State} {r : Csr} {x : Mode} (h : csrOwner r = some x) :
    ∃ n, csrAfterRead s r = { s with draws := n } := by
  cases r with
  | status y | ip y | ie y => cases y <;> exact ⟨_, rfl⟩
  | cycle | time | instret | cycleh | timeh | instreth | fflags | frm | fcsr => cases h
  | _ => exact ⟨_, rfl⟩

/-! ### What a write does -/

/-- A settled field keeps what was written where that is legal. -/
theorem getPP_settlePP {c : Config} {x z : Mode} (n : Nat) {w : Word} (hw : fixMstatus c w = w) (hx : x ≠ .u)
    (hl : ppLegal c w z = true) : getPP (settlePP c x n w) z = getPP w z := by
  obtain ⟨_, hother, hkeep, _⟩ := settlePP_spec c x n w hw hx
  by_cases hz : z = x
  · rw [hkeep (hz ▸ hl)]
  · exact getPP_congr z (fun i hi => hother i (getLsbD_of_disjoint (ppMask_disjoint hz) hi))

/-- Every xPP field holds after a write what was written, where that is legal. -/
theorem getPP_statusWord {c : Config} {mask old v : Word} {z : Mode} (n : Nat)
    (hl : ppLegal c (fixMstatus c (merge mask old v)) z = true) :
    getPP (statusWord c mask old v n) z = getPP (fixMstatus c (merge mask old v)) z := by
  have first := getPP_settlePP n (fixMstatus_idem c (merge mask old v)) (show Mode.m ≠ .u by decide) hl
  have fixed := (settlePP_spec c .m n _ (fixMstatus_idem c (merge mask old v)) (by decide)).2.2.2
  have hl' : ppLegal c (settlePP c .m n (fixMstatus c (merge mask old v))) z = true := by
    unfold ppLegal at hl ⊢; rw [first]; exact hl
  exact (getPP_settlePP (n + 1) fixed (by decide) hl').trans first

/-- Every bit of XLEN is visible to M. -/
theorem visMask_m (c : Config) (h : Hart) : visMask c h .m = allOnes c.xlen := by
  unfold visMask
  cases (handlerModes c).tail <;> rfl

theorem visMaskExc_m (c : Config) (h : Hart) : visMaskExc c h .m = allOnes c.xlen := by
  unfold visMaskExc
  cases (handlerModes c).tail <;> rfl

theorem allOnes_getLsbD (xl : XLen) (i : Nat) : (allOnes xl).getLsbD i = decide (i < xl.bits) := by
  have : xl.bits ≤ 64 := by cases xl <;> decide
  rw [allOnes, trunc_getLsbD, BitVec.getLsbD_allOnes]
  by_cases hi : i < xl.bits
  · simp [hi]; omega
  · simp [hi]

theorem lt_of_levelMask {c : Config} {i : Nat} (h : (levelMask c).getLsbD i = true) : i < 12 := by
  by_contra hi
  rw [levelMask_high c i (by omega)] at h; cases h

/-- The bits of `mip` that a write reaches are bits of supported levels that the mode sees. -/
theorem mipMask_m (c : Config) (h : Hart) (i : Nat) :
    (viewWriteMask c .m).getLsbD i =
      ((viewWriteMask c .m).getLsbD i && (levelMask c).getLsbD i && (visMask c h .m).getLsbD i) := by
  rw [visMask_m, allOnes_getLsbD]
  by_cases hi : (levelMask c).getLsbD i = true
  · have : i < c.xlen.bits := Nat.lt_of_lt_of_le (lt_of_levelMask hi) (by cases c.xlen <;> decide)
    simp [hi, this]
  · simp [viewWriteMask, mipWriteMask, hi]

theorem mieMask_m (c : Config) (h : Hart) (i : Nat) :
    (irqMask c).getLsbD i = ((irqMask c).getLsbD i && (visMask c h .m).getLsbD i) := by
  rw [visMask_m, allOnes_getLsbD]
  by_cases hi : (irqMask c).getLsbD i = true
  · simp [hi, lt_xlen_of_irqMask hi]
  · simp [hi]

/-- The write effect of a CSR under a mode's letter is the one of its row of R142. -/
theorem csrPut_wrote (s : State) {r : Csr} (v : Word) {x : Mode} (ho : csrOwner r = some x) :
    CsrWrote s.cfg s.hart (csrPut s r v).hart v r := by
  cases r with
  | status y =>
    have hst : (csrPut s (.status y) v).hart.status s.cfg =
        statusWord s.cfg (statusWriteMask s.cfg y) (s.hart.status s.cfg) v s.draws := fix_statusWord ..
    refine ⟨fun i hi => ?_, fun z hz => ?_, fun z hz => ?_, rfl⟩ <;> rw [hst]
    · exact statusWord_getLsbD v _ (statusWriteMask_impl ..) (status_fixed ..) hi
    · exact getPP_statusWord _ hz
    · exact statusWord_ppLegal _ _ _ _ _ hz
  | ip y =>
    cases y with
    | m => exact ⟨fun i => by rw [← mipMask_m]; exact merge_getLsbD .., rfl⟩
    | _ => exact ⟨fun i => by rw [← BitVec.getLsbD_and, ← BitVec.getLsbD_and]; exact merge_getLsbD .., rfl⟩
  | ie y =>
    cases y with
    | m => exact ⟨fun i => by rw [← mieMask_m]; exact merge_getLsbD .., rfl⟩
    | _ => exact ⟨fun i => by rw [← BitVec.getLsbD_and]; exact merge_getLsbD .., rfl⟩
  | cause y =>
    have new : ((csrPut s (.cause y) v).hart.trapRegs y).cause = causeAfterWrite s.cfg v s.draws := by
      cases y <;> rfl
    refine ⟨fun hl => ?_, ?_, ?_⟩
    · rw [new]; exact if_pos hl
    · rw [new]; exact causeAfterWrite_top ..
    · rw [new]; rfl
  | edeleg y | ideleg y | tvec y | scratch y | epc y | badaddr y => exact rfl
  | cycle | time | instret | cycleh | timeh | instreth | fflags | frm | fcsr => cases ho

/-! ### The instructions -/

/-- From s to t a CSR instruction read v0 into rd and wrote v to the CSR r, and did nothing else. -/
def CsrDone (s t : State) (rd : BitVec 5) (v0 v : Word) (r : Csr) : Prop :=
  RegisterWritten s t rd v0 ∧ PcAdvanced s t ∧ OutsideUnchanged s t ∧
    ∃ k, CsrWrote s.cfg s.hart k v r ∧ t.hart = { k with x := t.hart.x, pc := t.hart.pc }

/-- A CSR instruction that writes: the refusal of the value, the refusal of the advance, or the read and the write. -/
theorem csrInstr_write {s : State} {rd : BitVec 5} {a : BitVec 12} {reads writes : Bool} {f : Word → Word} {r : Csr} {v : Word}
    (hw : writes = true) (ha : csrAccess s.cfg s.hart.priv a true = some r) (hv : SameWrite s.cfg r (f (csrHeld s r)) v) :
    (∀ e, csrRefusal s.cfg s.hart r v = some e → csrInstr rd a reads writes f s = .refused e) ∧
    (csrRefusal s.cfg s.hart r v = none → ¬ CanAdvance s → csrInstr rd a reads writes f s = .refused .pcOverflow) ∧
    (csrRefusal s.cfg s.hart r v = none → CanAdvance s →
      ∃ t : State, csrInstr rd a reads writes f s = .next t ∧ CsrDone s t rd (csrValue s r) v r) := by
  subst hw
  obtain ⟨x, hx⟩ := csrOwner_of_write ha
  rcases csrInstr_cases rd a reads true f s with ⟨hn, _⟩ | ⟨q, hq, ⟨hw, _⟩ | ⟨_, hok, hi⟩ | ⟨_, e, he, hi⟩⟩
  · rw [ha] at hn; cases hn
  · cases hw
  · rw [ha] at hq; cases hq
    rw [hv.refusal] at hok
    obtain ⟨d, hd⟩ : ∃ n, (if reads then csrAfterRead s r else s) = { s with draws := n } := by
      cases reads with
      | false => exact ⟨s.draws, rfl⟩
      | true => exact csrAfterRead_owned hx
    rw [hd, SameWrite.put (s := { s with draws := d }) hv] at hi
    have wrote := csrPut_wrote { s with draws := d } v hx
    obtain ⟨k, n, frame, kx, kpc, _⟩ := csrPut_frame { s with draws := d } r v
    rw [frame] at hi wrote
    rw [hi]
    refine ⟨fun e he => ?_, fun _ => complete_refused (s := s) rfl kpc, fun _ hc =>
      ⟨_, complete_of_canAdvance (s := s) rfl kpc hc, fun q => ?_, advance_pcAdvanced rfl kpc, by constructor <;> simp, k, wrote, ?_⟩⟩
    · rw [hok] at he; cases he
    · rw [getX_advance, getX_setX, getX_congr (s := s) (t := { s with hart := k, draws := n }) kx]
    · rw [advance_hart]; simp
  · rw [ha] at hq; cases hq
    rw [hv.refusal] at he
    rw [hi]
    refine ⟨fun e' he' => ?_, fun hn => ?_, fun hn => ?_⟩
    · rw [he] at he'; cases he'; rfl
    · rw [he] at hn; cases hn
    · rw [he] at hn; cases hn

/-- Settles O27. -/
theorem csrWriteResult : Obligations.CsrWriteResult := by
  intro s i rd src a r v hi ha
  rcases hi with ⟨rfl, rfl⟩ | ⟨rfl, rfl⟩
  · exact csrInstr_write (f := fun _ => s.getX src) rfl ha (.inl rfl)
  · exact csrInstr_write (f := fun _ => src.setWidth 64) rfl ha (.inl rfl)

/-- Settles O28: the write is computed from the part of the read value that is state. -/
theorem csrSetClearResult : Obligations.CsrSetClearResult := by
  intro s i rd src a r m v h0 ha h
  have hw : (src != 0#5) = true := bne_iff_ne.mpr h0
  have set := csrInstr_write (rd := rd) (reads := true) (f := fun old => old ||| m) hw ha (csrHeld_sameWrite s r m).1
  have clear := csrInstr_write (rd := rd) (reads := true) (f := fun old => old &&& ~~~m) hw ha (csrHeld_sameWrite s r m).2
  rcases h with ⟨⟨rfl, rfl⟩ | ⟨rfl, rfl⟩, rfl⟩ | ⟨⟨rfl, rfl⟩ | ⟨rfl, rfl⟩, rfl⟩
  · exact set
  · exact set
  · exact clear
  · exact clear

/-- A CSR instruction that only reads. -/
theorem csrInstr_read {s : State} {rd : BitVec 5} {a : BitVec 12} {f : Word → Word} {r : Csr}
    (ha : csrAccess s.cfg s.hart.priv a false = some r) :
    (¬ CanAdvance s → csrInstr rd a true false f s = .refused .pcOverflow) ∧
    (CanAdvance s →
      ∃ t : State, csrInstr rd a true false f s = .next t ∧ RegisterWritten s t rd (csrValue s r) ∧ PcAdvanced s t ∧
        OutsideUnchanged s t ∧
        t.hart = { s.hart with x := t.hart.x, pc := t.hart.pc, cycle := t.hart.cycle, instret := t.hart.instret }) := by
  rcases csrInstr_cases rd a true false f s with ⟨hn, _⟩ | ⟨q, hq, ⟨_, hi⟩ | ⟨hw, _⟩ | ⟨hw, _⟩⟩
  · rw [ha] at hn; cases hn
  · rw [ha] at hq; cases hq
    obtain ⟨cy, ins, n, frame⟩ := csrAfterRead_frame s r
    rw [if_pos rfl, frame] at hi
    rw [hi]
    refine ⟨complete_refused (s := s) rfl rfl, fun hc =>
      ⟨_, complete_of_canAdvance (s := s) rfl rfl hc, fun q => ?_, advance_pcAdvanced rfl rfl, by constructor <;> simp, ?_⟩⟩
    · rw [getX_advance, getX_setX]; rfl
    · rw [advance_hart]; simp
  · cases hw
  · cases hw

/-- Settles O29. -/
theorem csrReadResult : Obligations.CsrReadResult := by
  intro s i rd a r hi ha
  have reads : ∃ f, exec i s = csrInstr rd a true false f s := by
    rcases hi with rfl | rfl | rfl | rfl
    · exact ⟨fun old => old ||| s.getX 0#5, rfl⟩
    · exact ⟨fun old => old ||| zimmWord 0#5, rfl⟩
    · exact ⟨fun old => old &&& ~~~s.getX 0#5, rfl⟩
    · exact ⟨fun old => old &&& ~~~zimmWord 0#5, rfl⟩
  obtain ⟨f, hf⟩ := reads
  rw [hf]
  exact csrInstr_read ha

end Sys2Proof.CsrAccesses
end

section
/-! PROOFS. The state of M below M (60_exceptions.md R211; 10_state.md R54), and the discovery of the delegation masks (10_state.md
R46). -/

namespace Sys2Proof.CsrAccesses
open Sys2Proof.Machine Sys2Proof.Exceptions Sys2Proof.Instructions Sys2Proof.Invariants Sys2Proof.Effects

/-! ### Who may reach M's CSRs -/

/-- The mode under whose letter a CSR stands is the one in bits 9:8 of its number. -/
theorem csrMode_of_owner {a : BitVec 12} {r : Csr} {x : Mode} (h : csrOfNum a = some r) (ho : csrOwner r = some x) : csrMode a = x := by
  have table : ∀ p ∈ csrTable, (csrOwner p.2).all (fun x => decide (p.1 / 256 % 4 = modeNum x)) = true := by decide +kernel
  have num := table _ (mem_of_csrOfNum h)
  rw [ho] at num
  exact modeNum_inj ((modeNum_csrMode a).trans (of_decide_eq_true num))

/-- A mode below M reaches no CSR of M. -/
theorem owner_ne_m {c : Config} {y : Mode} {a : BitVec 12} {writes : Bool} {r : Csr} {x : Mode} (hy : y ≠ .m)
    (h : csrAccess c y a writes = some r) (ho : csrOwner r = some x) : x ≠ .m := by
  obtain ⟨_, hle, _, hnum, _⟩ := csrAccess_some h
  rw [csrMode_of_owner hnum ho] at hle
  rintro rfl
  cases y with
  | m => exact hy rfl
  | _ => cases hle

/-! ### What is kept of M's state -/

/-- The M fields of `mstatus`: MIE, MPIE and MPP. -/
def MachineBit (b : Nat) : Prop := b = 3 ∨ b = 7 ∨ b = 11 ∨ b = 12

/-- From h to k M's trap registers, delegation registers and status fields are as before. -/
def MachineKept (c : Config) (h k : Hart) : Prop :=
  k.mTrap = h.mTrap ∧ k.medeleg = h.medeleg ∧ k.mideleg = h.mideleg ∧
    ∀ b, MachineBit b → (k.status c).getLsbD b = (h.status c).getLsbD b

theorem machineKept_of_eq {c : Config} {h k : Hart} (ht : k.mTrap = h.mTrap) (he : k.medeleg = h.medeleg) (hi : k.mideleg = h.mideleg)
    (hs : k.mstatus = h.mstatus) : MachineKept c h k :=
  ⟨ht, he, hi, fun _ _ => by rw [Hart.status, Hart.status, hs]⟩

theorem MachineKept.trans {c : Config} {g h k : Hart} (p : MachineKept c g h) (q : MachineKept c h k) : MachineKept c g k := by
  obtain ⟨pt, pe, pi, pb⟩ := p
  obtain ⟨qt, qe, qi, qb⟩ := q
  exact ⟨qt.trans pt, qe.trans pe, qi.trans pi, fun b hb => (qb b hb).trans (pb b hb)⟩

theorem machineKept_advance (c : Config) (s : State) : MachineKept c s.hart s.advance.hart := by
  rw [advance_hart]; exact machineKept_of_eq rfl rfl rfl rfl

/-- No other mode's fields are among them. -/
theorem machineBit_other {x : Mode} (hx : x ≠ .m) {b : Nat} (hb : MachineBit b) :
    b ≠ ieBit x ∧ b ≠ pieBit x ∧ (ppMask x).getLsbD b = false := by
  rcases hb with rfl | rfl | rfl | rfl <;> cases x <;> first | exact absurd rfl hx | decide

/-- A status view of a lower mode reaches none of them. -/
theorem statusWriteMask_machine (c : Config) {x : Mode} (hx : x ≠ .m) {b : Nat} (hb : MachineBit b) :
    (statusWriteMask c x).getLsbD b = false := by
  have field : ∀ y, y ≠ .m → (fieldMask c y).getLsbD b = false := by
    have bits : ∀ p : Bool, ∀ w : Word, w = 0x0011#64 ∨ w = 0x0122#64 ∨ w = 0x0644#64 → (if p = true then w else 0#64).getLsbD b = false := by
      intro p w hw
      split
      · rcases hw with rfl | rfl | rfl <;> rcases hb with rfl | rfl | rfl | rfl <;> rfl
      · exact BitVec.getLsbD_zero
    intro y hy
    cases y with
    | m => exact absurd rfl hy
    | h => exact bits _ _ (by simp)
    | s => exact bits _ _ (by simp)
    | u => exact bits _ _ (by simp)
  have u := field .u (by decide)
  have s := field .s (by decide)
  have h := field .h (by decide)
  cases x with
  | m => exact absurd rfl hx
  | h => simp only [statusWriteMask, stackMask, BitVec.getLsbD_or, u, s, h, Bool.or_self]
  | s => simp only [statusWriteMask, stackMask, BitVec.getLsbD_or, u, s, Bool.or_self]
  | u => exact u

/-- A write of a lower mode's status view keeps M's fields, where MPP is legal. -/
theorem statusWord_machine {c : Config} {old : Word} (v : Word) (n : Nat) {x : Mode} (hx : x ≠ .m) (ho : fixMstatus c old = old)
    (hl : ppLegal c old .m = true) {b : Nat} (hb : MachineBit b) :
    (statusWord c (statusWriteMask c x) old v n).getLsbD b = old.getLsbD b := by
  have merged : ∀ j, MachineBit j → (fixMstatus c (merge (statusWriteMask c x) old v)).getLsbD j = old.getLsbD j := fun j hj => by
    rw [fixMstatus_bit, merge_getLsbD, statusWriteMask_machine c hx hj]
    simp only [Bool.false_eq_true, if_false]
    rw [← fixMstatus_bit, ho]
  have mpp : ∀ j : Fin 64, (ppMask .m).getLsbD j = true → MachineBit j.val := by
    have bits : ∀ j : Fin 64, (ppMask .m).getLsbD j = true → j.val = 11 ∨ j.val = 12 := by decide
    exact fun j hj => .inr (.inr (bits j hj))
  have legal : ppLegal c (fixMstatus c (merge (statusWriteMask c x) old v)) .m = true := by
    have same : getPP (fixMstatus c (merge (statusWriteMask c x) old v)) .m = getPP old .m :=
      getPP_congr .m (fun i hi => merged i (mpp ⟨i, BitVec.lt_of_getLsbD hi⟩ hi))
    unfold ppLegal at hl ⊢; rw [same]; exact hl
  obtain ⟨_, _, hkeep, _⟩ := settlePP_spec c .m n _ (fixMstatus_idem c (merge (statusWriteMask c x) old v)) (by decide)
  rw [statusWord, hkeep legal]
  obtain ⟨_, hother, _, _⟩ := settlePP_spec c .h (n + 1) _ (fixMstatus_idem c (merge (statusWriteMask c x) old v)) (by decide)
  rw [hother b (machineBit_other (by decide) hb).2.2, merged b hb]

/-- A CSR write below M keeps M's state. -/
theorem machineKept_csrChange {c : Config} {h k : Hart} {v : Word} {n : Nat} {r : Csr} (hl : ppLegal c (h.status c) .m = true)
    (hr : ∀ x, csrOwner r = some x → x ≠ .m) (hk : CsrChange c h v n r k) : MachineKept c h k := by
  cases hk with
  | status x hx =>
    refine ⟨rfl, rfl, rfl, fun b hb => ?_⟩
    refine (congrArg (fun w => BitVec.getLsbD w b) (fix_statusWord c (statusWriteMask c x) (h.status c) v n)).trans ?_
    exact statusWord_machine v n (hr x (by rw [hx]; rfl)) (status_fixed ..) hl hb
  | mip | mie | none => exact machineKept_of_eq rfl rfl rfl rfl
  | edeleg x w hx =>
    have hne := hr x (by rw [hx]; rfl)
    cases x with
    | m => exact absurd rfl hne
    | _ => exact machineKept_of_eq rfl rfl rfl rfl
  | ideleg x w hx =>
    have hne := hr x (by rw [hx]; rfl)
    cases x with
    | m => exact absurd rfl hne
    | _ => exact machineKept_of_eq rfl rfl rfl rfl
  | trap x q hx =>
    have hne := hr x hx
    cases x with
    | m => exact absurd rfl hne
    | _ => exact machineKept_of_eq rfl rfl rfl rfl

/-- A trap into a mode below M keeps M's state. -/
theorem machineKept_trapEntry {s : State} {i : Bool} {code : Nat} {epc : Word} {bad : Option Word}
    (h : (trapEntry i code epc bad s).hart.priv ≠ .m) : MachineKept s.cfg s.hart (trapEntry i code epc bad s).hart := by
  have hx : trapTarget s i code ≠ .m := h
  refine ⟨?_, trapEntry_edeleg i code epc bad s .m, trapEntry_ideleg i code epc bad s .m, fun b hb => ?_⟩
  · exact (trapEntry_trapRegs i code epc bad s .m).trans (if_neg (Ne.symm hx))
  · obtain ⟨h1, h2, h3⟩ := machineBit_other hx hb
    rw [trapEntry_status]; exact pushStack_other _ (status_fixed ..) h1 h2 h3

/-- A return of a mode below M keeps M's state. -/
theorem machineKept_xret {s : State} {x : Mode} (hl : ModesLegal s.cfg s.hart) (hx : xretLegal s.cfg s.hart.priv x = true)
    (hp : s.hart.priv ≠ .m) : MachineKept s.cfg s.hart (xretState x s).hart := by
  obtain ⟨hcan, hle⟩ := Bool.and_eq_true_iff.mp hx
  have below : ∀ y, modeLe y s.hart.priv = true → y ≠ .m := by
    rintro y hy rfl
    cases hpriv : s.hart.priv with
    | m => exact hp hpriv
    | _ => rw [hpriv] at hy; cases hy
  have hback := modeLe_trans (getPP_le hl (canHandle_hasMode hcan)) hle
  refine ⟨rfl, rfl, rfl, fun b hb => ?_⟩
  rw [show (xretState x s).hart.status s.cfg = popStack s.cfg (s.hart.status s.cfg) x from fix_popStack ..]
  exact popStack_other (status_fixed ..) (machineBit_other (below _ hback) hb).1 (machineBit_other (below _ hle) hb).2.1
    (machineBit_other (below _ hle) hb).2.2

theorem machineKept_csrInstr {rd : BitVec 5} {a : BitVec 12} {reads writes : Bool} {f : Word → Word} {s t : State}
    (hl : ModesLegal s.cfg s.hart) (hp : s.hart.priv ≠ .m) (h : csrInstr rd a reads writes f s = .next t) (ht : t.hart.priv ≠ .m) :
    MachineKept s.cfg s.hart t.hart := by
  rcases csrInstr_next h with ⟨_, rfl⟩ | ⟨r, s1, s2, ha, h1, h2, rfl⟩
  · exact machineKept_trapEntry ht
  · have read : s1.cfg = s.cfg ∧ s1.hart.mstatus = s.hart.mstatus ∧ MachineKept s.cfg s.hart s1.hart := by
      rcases h1 with rfl | rfl
      · exact ⟨rfl, rfl, machineKept_of_eq rfl rfl rfl rfl⟩
      · obtain ⟨_, _, _, e⟩ := csrAfterRead_frame s r
        rw [e]; exact ⟨rfl, rfl, machineKept_of_eq rfl rfl rfl rfl⟩
    obtain ⟨hc, hs, hread⟩ := read
    have write : MachineKept s.cfg s1.hart s2.hart := by
      rcases h2 with rfl | h2
      · exact machineKept_of_eq rfl rfl rfl rfl
      · obtain ⟨_, rfl⟩ := (csrWrite_ok _ _ _ _).mp h2
        have hmpp : ppLegal s1.cfg (s1.hart.status s1.cfg) .m = true := by
          rw [hc, Hart.status, hs]; exact hl.2 .m (by decide)
        exact hc ▸ machineKept_csrChange hmpp (fun x hx => owner_ne_m hp ha hx) (csrPut_change s1 r _)
    refine (hread.trans write).trans ?_
    exact machineKept_advance s.cfg (s2.setX rd (csrValue s r))

/-- Settles O39: each way for an instruction to go on keeps M's state, below M and not into M. -/
theorem lowerModesKeepMachineState : Obligations.LowerModesKeepMachineState := by
  intro s t i hl hp h ht
  have hc : t.cfg = s.cfg := (onlyStoresReachOut s t i h).1
  rw [hc]
  show MachineKept s.cfg s.hart t.hart
  rcases exec_next h with ⟨e, bad, _, rfl⟩ | ⟨x, hx, rfl⟩ | ⟨rd, a, r, w, f, _, hcsr⟩ | ⟨rd, a, _, hload⟩ | ⟨v, a, _, hstore⟩ |
    ⟨a, _, _, rfl⟩ | ⟨rd, v, _, rfl⟩ | rfl
  · exact machineKept_trapEntry ht
  · exact machineKept_xret hl hx hp
  · exact machineKept_csrInstr hl hp hcsr ht
  · rcases loadTo_next hload with ⟨e, rfl⟩ | ⟨g, rfl⟩ | ⟨v, s1, hm, rfl⟩
    · exact machineKept_trapEntry ht
    · exact machineKept_of_eq rfl rfl rfl rfl
    · obtain ⟨_, _, _, _, _, _, rfl, _⟩ := memRead_value_frame hm
      exact machineKept_advance s.cfg _
  · rcases storeFrom_next hstore with ⟨e, rfl⟩ | ⟨s1, hm, rfl⟩
    · exact machineKept_trapEntry ht
    · rcases memWrite_done hm with ⟨_, _, rfl⟩ | ⟨hpm, _⟩ | ⟨hpm, _⟩ | ⟨_, _, rfl⟩
      · exact machineKept_advance s.cfg _
      · exact absurd hpm hp
      · exact absurd hpm hp
      · exact machineKept_advance s.cfg _
  · exact machineKept_of_eq rfl rfl rfl rfl
  · exact machineKept_advance s.cfg (s.setX rd v)
  · exact machineKept_advance s.cfg s

/-! ### The delegation masks -/

/-- The masks of a configuration that the spec allows have bits only in the registers' fields. -/
theorem masks_of_wf {c : Config} (h : c.wf = true) :
    c.medelegMask &&& 0xFFF#64 = c.medelegMask ∧ c.midelegMask &&& (0xFFF#64 ||| localMask c) = c.midelegMask := by
  have hm : c.masksOk = true ∧ c.localIrqOk = true := by
    unfold Config.wf at h
    simp only [Bool.and_eq_true] at h
    obtain ⟨⟨⟨⟨⟨⟨⟨⟨_, _⟩, hm⟩, hl⟩, _⟩, _⟩, _⟩, _⟩, _⟩ := h
    exact ⟨hm, hl⟩
  obtain ⟨hmask, hlocal⟩ := hm
  simp only [Config.masksOk, List.all_cons, List.all_nil, Bool.and_eq_true, beq_iff_eq] at hmask
  obtain ⟨⟨he, _⟩, hi, _⟩ := hmask
  simp only [Config.localIrqOk, Bool.and_eq_true, beq_iff_eq, decide_eq_true_eq] at hlocal
  obtain ⟨hlow, hfit⟩ := hlocal
  refine ⟨he, within_iff.mpr (fun i hbit => ?_)⟩
  have hin := within_iff.mp hi i hbit
  simp only [BitVec.getLsbD_or, Bool.or_eq_true] at hin ⊢
  refine hin.imp_right (fun hloc => ?_)
  have h12 := getLsbD_of_disjoint hlow hloc
  rw [low12_getLsbD] at h12
  have hx : i < c.xlen.bits := by
    have := hloc
    rw [← (fits_iff ..).mpr hfit, trunc_getLsbD] at this
    simpa using (Bool.and_eq_true_iff.mp this).1
  rw [localMask_getLsbD, hloc]
  simp at h12
  simp [h12, hx]

/-- A mask whose bits are XLEN-bit positions, written with ones, reads back. -/
theorem ones_and_mask {xl : XLen} {m : Word} (h : ∀ i, m.getLsbD i = true → i < xl.bits) : allOnes xl &&& m &&& allOnes xl = m := by
  apply BitVec.eq_of_getLsbD_eq
  intro i _
  rw [BitVec.getLsbD_and, BitVec.getLsbD_and, allOnes_getLsbD]
  cases hm : m.getLsbD i with
  | false => simp
  | true => simp [h i hm]

theorem lt_of_mask {c : Config} {i : Nat} (h : (0xFFF#64 ||| localMask c).getLsbD i = true) : i < c.xlen.bits := by
  rw [BitVec.getLsbD_or, low12_getLsbD, localMask_getLsbD, Bool.or_eq_true] at h
  rcases h with h | h
  · exact Nat.lt_of_lt_of_le (of_decide_eq_true h) (by cases c.xlen <;> decide)
  · exact (of_decide_eq_true (Bool.and_eq_true_iff.mp h).2).2

/-- M-mode reaches a delegation register of its own, where a mode below it handles traps. -/
theorem csrAccess_deleg {c : Config} (h : handlerBelow c .m = true) (writes : Bool) :
    csrAccess c .m 0x302#12 writes = some (.edeleg .m) ∧ csrAccess c .m 0x303#12 writes = some (.ideleg .m) := by
  have num : csrOfNum 0x302#12 = some (.edeleg .m) ∧ csrOfNum 0x303#12 = some (.ideleg .m) := by decide +kernel
  have free : ∀ a, a = 0x302#12 ∨ a = 0x303#12 → (debugCsr a || modeLt .m (csrMode a) || (writes && csrReadOnly a)) = false := by
    rintro a (rfl | rfl) <;> cases writes <;> decide
  constructor
  · rw [csrAccess, free _ (.inl rfl), num.1]; simp [csrExists, canHandle, h]
  · rw [csrAccess, free _ (.inr rfl), num.2]; simp [csrExists, canHandle, h]

/-- A write from a register and the read after it, where neither stands at the end of the address space. -/
theorem write_then_read {s : State} {rd src : BitVec 5} {a : BitVec 12} {r : Csr} (hw : csrAccess s.cfg s.hart.priv a true = some r)
    (hr : csrAccess s.cfg s.hart.priv a false = some r) (hok : csrRefusal s.cfg s.hart r (s.getX src) = none) (hrd : rd ≠ 0#5)
    (hpc : s.cfg.pcOverflow = .free ∨ s.hart.pc.toNat + 8 < 2 ^ s.cfg.xlen.bits)
    (hpriv : ∀ k, CsrWrote s.cfg s.hart k (s.getX src) r → k.priv = s.hart.priv) :
    ∃ t u k, exec (.csrrw 0#5 a src) s = .next t ∧ exec (.csrrs rd a 0#5) t = .next u ∧ u.getX rd = csrValue t r ∧
      CsrWrote s.cfg s.hart k (s.getX src) r ∧ t.hart = { k with x := t.hart.x, pc := t.hart.pc } := by
  obtain ⟨_, _, write⟩ := csrWriteResult s (.csrrw 0#5 a src) 0#5 src a r (s.getX src) (.inl ⟨rfl, rfl⟩) hw
  obtain ⟨t, ht, _, adv, out, k, wrote, hart⟩ := write hok (by rcases hpc with h | h; exacts [.inl h, .inr (by omega)])
  have hp : t.hart.priv = s.hart.priv := by rw [hart]; exact hpriv k wrote
  obtain ⟨_, read⟩ := csrReadResult t (.csrrs rd a 0#5) rd a r (.inl rfl) (by rw [out.cfg, hp]; exact hr)
  have hadv : CanAdvance t := by
    unfold CanAdvance
    rw [out.cfg]
    rcases hpc with h | h
    · exact .inl h
    · right; rw [adv (by omega)]; omega
  obtain ⟨u, hu, regs, _⟩ := read hadv
  exact ⟨t, u, k, ht, hu, (regs rd).trans (if_pos ⟨rfl, hrd⟩), wrote, hart⟩

/-- Settles O32: what is written is cut to the mask, and the mask lies within XLEN bits. -/
theorem delegationDiscovery : Obligations.DelegationDiscovery := by
  intro s rd src hwf hm hb hrd hsrc hpc
  obtain ⟨me, mi⟩ := masks_of_wf hwf
  have acc : ∀ w, csrAccess s.cfg s.hart.priv 0x302#12 w = some (.edeleg .m) ∧ csrAccess s.cfg s.hart.priv 0x303#12 w = some (.ideleg .m) :=
    fun w => by rw [hm]; exact csrAccess_deleg hb w
  constructor
  · obtain ⟨t, u, k, ht, hu, hx, wrote, hart⟩ := write_then_read (rd := rd) (src := src) (acc true).1 (acc false).1 rfl hrd hpc
      (fun k hk => by rw [show k = _ from hk]; rfl)
    refine ⟨t, u, ht, hu, ?_⟩
    have hk : k = s.hart.setEdeleg .m (s.getX src &&& edelegMask s.cfg .m &&& visMaskExc s.cfg s.hart .m) := wrote
    have hv : csrValue t (.edeleg .m) = s.getX src &&& edelegMask s.cfg .m &&& visMaskExc s.cfg s.hart .m := by
      show t.hart.medeleg = _
      rw [hart, hk]; rfl
    rw [hx, hv, hsrc, visMaskExc_m, edelegMask, me]
    refine ones_and_mask (fun i hi => ?_)
    have := within_iff.mp me i hi
    exact lt_of_mask (c := s.cfg) (by rw [BitVec.getLsbD_or, this]; rfl)
  · obtain ⟨t, u, k, ht, hu, hx, wrote, hart⟩ := write_then_read (rd := rd) (src := src) (acc true).2 (acc false).2 rfl hrd hpc
      (fun k hk => by rw [show k = _ from hk]; rfl)
    refine ⟨t, u, ht, hu, ?_⟩
    have hk : k = s.hart.setIdeleg .m (s.getX src &&& idelegMask s.cfg .m &&& visMask s.cfg s.hart .m) := wrote
    have hv : csrValue t (.ideleg .m) = s.getX src &&& idelegMask s.cfg .m &&& visMask s.cfg s.hart .m := by
      show t.hart.mideleg = _
      rw [hart, hk]; rfl
    rw [hx, hv, hsrc, visMask_m, idelegMask, mi]
    exact ones_and_mask (fun i hi => lt_of_mask (within_iff.mp mi i hi))

end Sys2Proof.CsrAccesses
end

section
/-! PROOFS. What CSR reads return, and which CSR accesses are illegal or refused (41_csr_access.md section 1; 10_state.md R27, R31, R43,
R48, R54, R55). -/

namespace Sys2Proof.CsrAccesses
open Sys2Proof.Machine Sys2Proof.Exceptions Sys2Proof.Instructions Sys2Proof.Invariants

/-! ### Read values -/

/-- The reserved bits of `mip` and `mie` are none below 12 and none of the platform's. -/
theorem irqReserved_getLsbD {c : Config} {i : Nat} (h : i < 12 ∨ (localMask c).getLsbD i = true) : (irqReserved c).getLsbD i = false := by
  rw [irqReserved, trunc_getLsbD, BitVec.getLsbD_not, BitVec.getLsbD_or, low12_getLsbD]
  rcases h with h | h <;> simp [h]

theorem irqMask_low (c : Config) {i : Nat} (h : i < 12) : (irqMask c).getLsbD i = (levelMask c).getLsbD i := by
  have : ¬ 12 ≤ i := by omega
  rw [irqMask_getLsbD, localMask_getLsbD]; simp [this]

theorem mstatusReserved_getLsbD (xl : XLen) {i : Nat} (h : i < 19 ∨ (24 ≤ i ∧ i ≤ 28) ∨ i = xl.bits - 1) :
    (mstatusReserved xl).getLsbD i = false := by
  have bits : ∀ j : Fin 64, (j.val < 19 ∨ (24 ≤ j.val ∧ j.val ≤ 28) ∨ j.val = xl.bits - 1) → (mstatusReserved xl).getLsbD j = false := by
    cases xl <;> decide
  have hb : xl.bits ≤ 64 := by cases xl <;> decide
  exact bits ⟨i, by omega⟩ h

/-- Along the chain of handler modes the bits that reach a mode are those that reach the one above it and are delegated there. -/
theorem visChain_next (d : Mode → Word) {x z : Mode} {post : List Mode} : ∀ (pre : List Mode) (cur : Mode) (acc : Word) (zs : List Mode),
    cur :: zs = pre ++ x :: z :: post → (cur :: zs).Nodup → visChain d z cur acc zs = visChain d x cur acc zs &&& d x := by
  intro pre
  induction pre with
  | nil =>
    intro cur acc zs he hn
    obtain ⟨rfl, rfl⟩ := List.cons.inj he
    have hne : cur ≠ z := fun h => (List.nodup_cons.mp hn).1 (h ▸ List.mem_cons_self)
    rw [visChain, if_neg hne, visChain, if_pos rfl]
    cases post <;> rw [visChain, if_pos rfl]
  | cons p pre ih =>
    intro cur acc zs he hn
    obtain ⟨_, hzs⟩ := List.cons.inj he
    replace hzs : zs = pre ++ x :: z :: post := hzs
    obtain ⟨hout, hn'⟩ := List.nodup_cons.mp hn
    have hx : cur ≠ x := fun h => hout (by rw [hzs, h]; simp)
    have hz : cur ≠ z := fun h => hout (by rw [hzs, h]; simp)
    cases zs with
    | nil => simp at hzs
    | cons w ws =>
      rw [visChain, visChain, if_neg hx, if_neg hz]
      exact ih w _ ws hzs hn'

theorem handlerModes_nodup (c : Config) : (handlerModes c).Nodup := by
  rw [handlerModes_eq]; cases c.modes <;> cases c.nExt <;> decide

/-- What is visible to the next handler mode is what is visible to the one above it and delegated there. -/
theorem visMask_next {c : Config} (h : Hart) {x z : Mode} {pre post : List Mode} (he : handlerModes c = pre ++ x :: z :: post) :
    visMask c h z = visMask c h x &&& h.ideleg x := by
  have top : handlerModes c = .m :: (handlerModes c).tail := by
    rw [handlerModes_eq]; cases c.modes <;> cases c.nExt <;> rfl
  exact visChain_next h.ideleg pre .m _ _ (top.symm.trans he) (top ▸ handlerModes_nodup c)

/-- Settles O31. -/
theorem csrReadValues : Obligations.CsrReadValues := by
  refine ⟨fun s x i => ⟨fun hi => ?_, fun hi => ?_, fun hx => ?_, fun hx => ?_, fun hl => ⟨?_, ?_⟩, fun hi => ?_, fun hx => ?_,
    trunc_toNat .., ?_, align4_toNat _, align4_toNat _, rfl, rfl, rfl, rfl, rfl, rfl, rfl, rfl, rfl⟩, fun c h => ⟨visMask_m c h,
    fun x z pre post he => visMask_next h he⟩⟩
  · simp only [csrValue, Hart.pending, BitVec.getLsbD_or, BitVec.getLsbD_and, irqReserved_getLsbD (.inl hi), irqMask_low _ hi,
      Bool.and_false, Bool.or_false]
  · simp only [csrValue, Hart.enabled, BitVec.getLsbD_or, BitVec.getLsbD_and, irqReserved_getLsbD (.inl hi), irqMask_low _ hi,
      Bool.and_false, Bool.or_false]
  · cases x with
    | m => exact absurd rfl hx
    | _ => simp only [csrValue, Hart.pending, BitVec.getLsbD_and]
  · cases x with
    | m => exact absurd rfl hx
    | _ => simp only [csrValue, Hart.enabled, BitVec.getLsbD_and]
  · simp only [csrValue, Hart.pending, BitVec.getLsbD_or, BitVec.getLsbD_and, irqReserved_getLsbD (.inr hl), irqMask_getLsbD, hl,
      Bool.and_false, Bool.or_false, Bool.or_true, Bool.and_true]
  · simp only [csrValue, Hart.enabled, BitVec.getLsbD_or, BitVec.getLsbD_and, irqReserved_getLsbD (.inr hl), irqMask_getLsbD, hl,
      Bool.and_false, Bool.or_false, Bool.or_true, Bool.and_true]
  · simp only [csrValue, BitVec.getLsbD_or, BitVec.getLsbD_and, mstatusReserved_getLsbD _ hi, Bool.and_false, Bool.or_false]
  · cases x with
    | m => exact absurd rfl hx
    | _ => simp only [csrValue, BitVec.getLsbD_and]
  · have := s.mtime.isLt
    simp only [csrValue, hiHalf, BitVec.toNat_setWidth, BitVec.extractLsb'_toNat, Nat.shiftRight_eq_div_pow]
    omega

/-! ### The checks -/

/-- When the checks fail. -/
theorem csrAccess_none (c : Config) (y : Mode) (a : BitVec 12) (w : Bool) :
    csrAccess c y a w = none ↔
      (0xFA0 ≤ a.toNat ∧ a.toNat ≤ 0xFBF) ∨ modeNum y < a.toNat / 256 % 4 ∨ (w = true ∧ a.toNat / 1024 = 3) ∨
        ∀ r, csrOfNum a = some r → csrExists c r = false := by
  have checks : (debugCsr a || modeLt y (csrMode a) || (w && csrReadOnly a)) = true ↔
      (0xFA0 ≤ a.toNat ∧ a.toNat ≤ 0xFBF) ∨ modeNum y < a.toNat / 256 % 4 ∨ (w = true ∧ a.toNat / 1024 = 3) := by
    rw [Bool.or_eq_true, Bool.or_eq_true, Bool.and_eq_true, csrReadOnly_iff, debugCsr, modeLt, modeNum_csrMode, decide_eq_true_eq,
      decide_eq_true_eq, or_assoc]
  unfold csrAccess
  split
  · next h => exact ⟨fun _ => by rcases checks.mp h with h | h | h; exacts [.inl h, .inr (.inl h), .inr (.inr (.inl h))], fun _ => rfl⟩
  · next h =>
    have hn := fun p => h (checks.mpr p)
    have drop : ∀ p : Prop, ((0xFA0 ≤ a.toNat ∧ a.toNat ≤ 0xFBF) ∨ modeNum y < a.toNat / 256 % 4 ∨ (w = true ∧ a.toNat / 1024 = 3) ∨ p) ↔ p :=
      fun p => by rw [← or_assoc, ← or_assoc, or_assoc (b := modeNum y < _)]; exact or_iff_right hn
    rw [drop]
    cases csrOfNum a with
    | none => simp
    | some r => simp

/-- Every CSR instruction is `csrInstr` on its number. -/
theorem exec_csr {i : Instr} {a : BitVec 12} {w : Bool} (h : i.csrUse = some (a, w)) (s : State) :
    ∃ rd reads f, exec i s = csrInstr rd a reads w f s := by
  cases i with
  | csrrw rd csr rs1 => cases h; exact ⟨rd, rd != 0#5, fun _ => s.getX rs1, rfl⟩
  | csrrs rd csr rs1 => cases h; exact ⟨rd, true, fun old => old ||| s.getX rs1, rfl⟩
  | csrrc rd csr rs1 => cases h; exact ⟨rd, true, fun old => old &&& ~~~s.getX rs1, rfl⟩
  | csrrwi rd csr z => cases h; exact ⟨rd, rd != 0#5, fun _ => zimmWord z, rfl⟩
  | csrrsi rd csr z => cases h; exact ⟨rd, true, fun old => old ||| zimmWord z, rfl⟩
  | csrrci rd csr z => cases h; exact ⟨rd, true, fun old => old &&& ~~~zimmWord z, rfl⟩
  | _ => cases h

/-! ### The numbers -/

/-- With distinct keys `lookup` finds exactly the entries of a list. -/
theorem lookup_iff_mem {β : Type} {l : List (Nat × β)} (hn : (l.map (fun p => p.1)).Nodup) (k : Nat) (b : β) :
    l.lookup k = some b ↔ (k, b) ∈ l := by
  refine ⟨mem_of_lookup, fun h => ?_⟩
  induction l with
  | nil => cases h
  | cons p l ih =>
    obtain ⟨hout, hn⟩ := List.nodup_cons.mp hn
    rcases List.mem_cons.mp h with rfl | hm
    · simp
    · have hk : k ∈ l.map (fun p => p.1) := List.mem_map_of_mem (f := fun p : Nat × β => p.1) hm
      have hne : k ≠ p.1 := by
        rintro rfl
        exact hout hk
      rw [List.lookup_cons, beq_false_of_ne hne]
      exact ih hn hm

theorem csrOfNum_iff (a : BitVec 12) (r : Csr) : csrOfNum a = some r ↔ (a.toNat, r) ∈ csrTable :=
  lookup_iff_mem (by decide +kernel) _ _

/-! ### Existence -/

theorem canHandle_iff (c : Config) (x : Mode) : canHandle c x = true ↔ HandlesTraps c x := by
  cases hm : c.modes <;> cases hn : c.nExt <;> cases x <;> simp [canHandle, HandlesTraps, hasN, hasMode, hm, hn]

theorem delegates_iff (c : Config) (x : Mode) : (canHandle c x && handlerBelow c x) = true ↔ DelegatesFurther c x := by
  rw [handlerBelow, handlerModes_eq]
  cases hm : c.modes <;> cases hn : c.nExt <;> cases x <;>
    simp [canHandle, DelegatesFurther, hasN, hasMode, hm, hn, modeLt, modeNum]

/-! ### The codes of `xcause` -/

theorem topBit_getLsbD (xl : XLen) (i : Nat) : (topBit xl).getLsbD i = decide (i = xl.bits - 1) := by
  rw [topBit, ← BitVec.twoPow_eq, BitVec.getLsbD_twoPow]
  have : xl.bits - 1 < 64 := by cases xl <;> decide
  by_cases h : i = xl.bits - 1
  · simp [h, this]
  · simp [h, Ne.symm h]

/-- The Interrupt bit and the code of a cause. -/
theorem cause_parts (xl : XLen) (intr : Bool) {code : Nat} (h : code < 2 ^ (xl.bits - 1)) :
    BitVec.ofNat 64 ((if intr then 2 ^ (xl.bits - 1) else 0) + code) &&& topBit xl = (if intr then topBit xl else 0#64) ∧
    (BitVec.ofNat 64 ((if intr then 2 ^ (xl.bits - 1) else 0) + code) &&& ~~~topBit xl).toNat = code := by
  have h64 : xl.bits - 1 < 64 := by cases xl <;> decide
  have low : ∀ i, (BitVec.ofNat 64 code).getLsbD i = true → (topBit xl).getLsbD i = false := by
    intro i hi
    rw [topBit_getLsbD, decide_eq_false_iff_not]
    rintro rfl
    rw [BitVec.getLsbD_ofNat, Nat.testBit_lt_two_pow h, Bool.and_false] at hi
    cases hi
  have split : BitVec.ofNat 64 ((if intr then 2 ^ (xl.bits - 1) else 0) + code) = (if intr then topBit xl else 0#64) ||| BitVec.ofNat 64 code := by
    cases intr with
    | false => simp
    | true =>
      apply BitVec.eq_of_getLsbD_eq
      intro i hi
      simp only [if_true, BitVec.getLsbD_or, BitVec.getLsbD_ofNat, topBit_getLsbD, hi, decide_true, Bool.true_and]
      have e := Nat.two_pow_add_eq_or_of_lt h 1
      rw [Nat.mul_one] at e
      rw [e, Nat.testBit_or, Nat.testBit_two_pow]
      simp only [eq_comm]
  have clear : BitVec.ofNat 64 code &&& topBit xl = 0#64 ∧ BitVec.ofNat 64 code &&& ~~~topBit xl = BitVec.ofNat 64 code := by
    constructor
    · apply BitVec.eq_of_getLsbD_eq
      intro i _
      rw [BitVec.getLsbD_and, BitVec.getLsbD_zero]
      cases hi : (BitVec.ofNat 64 code).getLsbD i with
      | false => rfl
      | true => rw [low i hi]; rfl
    · refine within_iff.mpr (fun i hi => ?_)
      rw [BitVec.getLsbD_not, low i hi]
      simp [BitVec.lt_of_getLsbD hi]
  have hcode : (BitVec.ofNat 64 code).toNat = code := by
    rw [BitVec.toNat_ofNat]
    exact Nat.mod_eq_of_lt (Nat.lt_of_lt_of_le h (Nat.pow_le_pow_right (by decide) (Nat.le_of_lt h64)))
  rw [split, BitVec.and_or_distrib_right, BitVec.and_or_distrib_right, clear.1, clear.2]
  cases intr with
  | false => exact ⟨by simp, by simpa using hcode⟩
  | true => exact ⟨by simp, by simpa using hcode⟩

/-- A bit of a level is the software, the timer or the external bit of a supported mode. -/
theorem levelMask_iff (c : Config) (i : Nat) :
    (levelMask c).getLsbD i = true ↔ ∃ y, hasMode c y = true ∧ (i = modeNum y ∨ i = 4 + modeNum y ∨ i = 8 + modeNum y) := by
  constructor
  · intro h
    have h12 := lt_of_levelMask h
    obtain ⟨y, hy⟩ : ∃ y : Mode, modeNum y = i % 4 := by
      have : i % 4 = 0 ∨ i % 4 = 1 ∨ i % 4 = 2 ∨ i % 4 = 3 := by omega
      rcases this with e | e | e | e
      exacts [⟨.u, e.symm⟩, ⟨.s, e.symm⟩, ⟨.h, e.symm⟩, ⟨.m, e.symm⟩]
    have place : i = modeNum y ∨ i = 4 + modeNum y ∨ i = 8 + modeNum y := by omega
    refine ⟨y, ?_, place⟩
    by_contra hn
    obtain ⟨h0, h4, h8⟩ := irqMask_no_level c y (Bool.eq_false_iff.mpr hn)
    rw [← irqMask_low c h12] at h
    rcases place with e | e | e <;> rw [e] at h
    · rw [h0] at h; cases h
    · rw [h4] at h; cases h
    · rw [h8] at h; cases h
  · rintro ⟨y, hy, h⟩
    obtain ⟨h0, h4, h8⟩ := irqMask_level c y hy
    have h12 : i < 12 := by cases y <;> simp only [modeNum] at h <;> omega
    rw [← irqMask_low c h12]
    rcases h with rfl | rfl | rfl
    exacts [h0, h4, h8]

/-- The codes of `xcause` that the implementation can produce. -/
theorem causeLegal_iff (c : Config) (intr : Bool) {code : Nat} (h : code < 2 ^ (c.xlen.bits - 1)) :
    causeLegal c (BitVec.ofNat 64 ((if intr then 2 ^ (c.xlen.bits - 1) else 0) + code)) = true ↔
      if intr then
        (localMask c).getLsbD code = true ∨ ∃ y, hasMode c y = true ∧ (code = modeNum y ∨ code = 4 + modeNum y ∨ code = 8 + modeNum y)
      else code < 8 ∨ ∃ y, hasMode c y = true ∧ code = 8 + modeNum y := by
  obtain ⟨htop, hcode⟩ := cause_parts c.xlen intr h
  have top : topBit c.xlen ≠ 0#64 := by cases c.xlen <;> decide
  unfold causeLegal
  simp only [htop, hcode]
  cases intr with
  | true => simp only [if_true, top, if_false, irqMask_getLsbD, Bool.or_eq_true, levelMask_iff, or_comm]
  | false =>
    simp only [Bool.false_eq_true, if_false, if_true, Bool.or_eq_true, Bool.and_eq_true, decide_eq_true_eq]
    refine or_congr_right' (fun h8 => ⟨fun ⟨h12, hm⟩ => ⟨_, hm, ?_⟩, fun ⟨y, hy, e⟩ => ?_⟩)
    · have num : ∀ b : BitVec 2, modeNum (modeOfBits b) = b.toNat := by decide
      rw [num, BitVec.toNat_ofNat]; omega
    · have back : modeOfBits (BitVec.ofNat 2 code) = y := by rw [e]; cases y <;> decide
      rw [back]
      exact ⟨by cases y <;> simp only [modeNum] at e <;> omega, hy⟩

/-! ### The refusals -/

/-- A bit that a write reaches and that is not hard-wired to one is the written one. -/
theorem written_bit {c : Config} {x : Mode} {old v : Word} {i : Nat} (hm : (statusWriteMask c x).getLsbD i = true)
    (h1 : (mstatusOnes c).getLsbD i = false) : (fixMstatus c (merge (statusWriteMask c x) old v)).getLsbD i = v.getLsbD i := by
  rw [fixMstatus_bit, merge_getLsbD, if_pos hm, within_iff.mp (statusWriteMask_impl c x) i hm, h1]; simp

/-- MPP after a write of `mstatus`, before it is settled. -/
theorem ppLegal_written_m (c : Config) (old v : Word) :
    ppLegal c (fixMstatus c (merge (statusWriteMask c .m) old v)) .m = false ↔
      c.modes ≠ .m ∧ hasMode c (modeOfBits (v.extractLsb' 11 2)) = false := by
  rw [Bool.eq_false_iff, Ne, ppLegal_iff]
  have le : ∀ y, modeLe y .m = true := by intro y; cases y <;> rfl
  have has : hasMode c .m = true := rfl
  simp only [has, le, and_true, forall_const, Bool.not_eq_true]
  by_cases hm : c.modes = .m
  · have one : ∀ i, i = 11 ∨ i = 12 → (fixMstatus c (merge (statusWriteMask c .m) old v)).getLsbD i = true := by
      intro i hi
      rw [fixMstatus_bit, mstatusOnes, if_pos hm]
      rcases hi with rfl | rfl <;> simp
    have pp : getPP (fixMstatus c (merge (statusWriteMask c .m) old v)) .m = .m := by
      rw [getPP, extract_two, one 11 (.inl rfl), one 12 (.inr rfl)]; rfl
    rw [pp]; simp [hm, has]
  · have bit : ∀ i, i = 11 ∨ i = 12 → (fixMstatus c (merge (statusWriteMask c .m) old v)).getLsbD i = v.getLsbD i := by
      intro i hi
      refine written_bit ?_ (by rw [mstatusOnes, if_neg hm]; exact BitVec.getLsbD_zero)
      have field : (fieldMask c .m).getLsbD i = true := by
        rw [fieldMask, if_neg hm]; rcases hi with rfl | rfl <;> rfl
      simp only [statusWriteMask, stackMask, BitVec.getLsbD_or, field, Bool.or_true, Bool.true_or]
    have pp : getPP (fixMstatus c (merge (statusWriteMask c .m) old v)) .m = modeOfBits (v.extractLsb' 11 2) := by
      rw [getPP, extract_two, extract_two, bit 11 (.inl rfl), bit 12 (.inr rfl)]
    rw [pp]; simp [hm]

/-- HPP after a write of `mstatus` or `hstatus`, before it is settled. -/
theorem ppLegal_written_h (c : Config) {x : Mode} (hx : x = .m ∨ x = .h) (old v : Word) :
    ppLegal c (fixMstatus c (merge (statusWriteMask c x) old v)) .h = false ↔ c.modes = .mhsu ∧ v.extractLsb' 9 2 = 3#2 := by
  rw [Bool.eq_false_iff, Ne, ppLegal_iff]
  by_cases hm : c.modes = .mhsu
  · have all : ∀ y, hasMode c y = true := by intro y; cases y <;> simp [hasMode, hm]
    have bit : ∀ i, i = 9 ∨ i = 10 → (fixMstatus c (merge (statusWriteMask c x) old v)).getLsbD i = v.getLsbD i := by
      intro i hi
      refine written_bit ?_ (mstatusOnes_bit c i (by omega) (by omega))
      have field : (fieldMask c .h).getLsbD i = true := by
        rw [fieldMask, if_pos (all .h)]; rcases hi with rfl | rfl <;> rfl
      rcases hx with rfl | rfl <;>
        simp only [statusWriteMask, stackMask, BitVec.getLsbD_or, field, Bool.or_true, Bool.true_or]
    have pp : getPP (fixMstatus c (merge (statusWriteMask c x) old v)) .h = modeOfBits (v.extractLsb' 9 2) := by
      rw [getPP, extract_two, extract_two, bit 9 (.inl rfl), bit 10 (.inr rfl)]
    have top : ∀ b : BitVec 2, (¬ modeLe (modeOfBits b) .h = true) ↔ b = 3#2 := by decide
    rw [pp]
    simp only [all, true_and, forall_const, hm]
    exact top _
  · have no : hasMode c .h = false := by simp [hasMode, hm]
    simp [no, hm]

/-- The writes that put an unsupported mode into an xPP field. -/
theorem unsupportedPP_iff (c : Config) (h : Hart) (x : Mode) (v : Word) :
    unsupportedPP c h x v = true ↔
      (x = .m ∧ c.modes ≠ .m ∧ hasMode c (modeOfBits (v.extractLsb' 11 2)) = false) ∨
        ((x = .m ∨ x = .h) ∧ c.modes = .mhsu ∧ v.extractLsb' 9 2 = 3#2) := by
  have hpart : (x = .m ∨ x = .h) → _ := fun hx => ppLegal_written_h c hx (h.status c) v
  simp only [unsupportedPP, List.any_cons, List.any_nil, Bool.or_false, Bool.or_eq_true, Bool.and_eq_true, Bool.not_eq_true']
  cases x with
  | m =>
    rw [ppLegal_written_m, hpart (.inl rfl)]
    simp [modeLe, modeNum]
  | h =>
    rw [hpart (.inr rfl)]
    simp [modeLe, modeNum]
  | s | u => simp [modeLe, modeNum]

theorem refusal_translation (c : Config) (h : Hart) (r : Csr) (v : Word) :
    csrRefusal c h r v = some .translationBits ↔ r = .status .m ∧ v &&& translationMask ≠ 0#64 := by
  constructor
  · intro he
    rcases csrRefusal_some he with ⟨hr, hv, _⟩ | ⟨_, hn, _⟩ | ⟨_, hn, _⟩
    · exact ⟨hr, hv⟩
    · cases hn
    · cases hn
  · rintro ⟨rfl, hv⟩
    exact if_pos ⟨rfl, hv⟩

theorem refusal_code (c : Config) (h : Hart) (r : Csr) (v : Word) :
    csrRefusal c h r v = some .unsupportedCode ↔ c.unsupportedWrite = .refuse ∧ (∃ x, r = .cause x) ∧ causeLegal c v = false := by
  constructor
  · intro he
    rcases csrRefusal_some he with ⟨_, _, hn⟩ | ⟨_, hn, _⟩ | ⟨hc, _, hv, hx⟩
    · cases hn
    · cases hn
    · exact ⟨hc, hx, hv⟩
  · rintro ⟨hc, ⟨x, rfl⟩, hv⟩
    exact if_pos ⟨hc, hv⟩

theorem refusal_mode (c : Config) (h : Hart) (r : Csr) (v : Word) :
    csrRefusal c h r v = some .unsupportedMode ↔
      c.unsupportedWrite = .refuse ∧ ¬ (r = .status .m ∧ v &&& translationMask ≠ 0#64) ∧
        ((r = .status .m ∧ c.modes ≠ .m ∧ hasMode c (modeOfBits (v.extractLsb' 11 2)) = false) ∨
          ((r = .status .m ∨ r = .status .h) ∧ c.modes = .mhsu ∧ v.extractLsb' 9 2 = 3#2)) := by
  have status : ∀ x y, (Csr.status x = .status y) = (x = y) := fun x y => by simp
  constructor
  · intro he
    have first : ¬ (r = .status .m ∧ v &&& translationMask ≠ 0#64) := fun ht => by
      rw [(refusal_translation c h r v).mpr ht] at he; cases he
    rcases csrRefusal_some he with ⟨_, _, hn⟩ | ⟨hc, _, x, rfl, hpp⟩ | ⟨_, hn, _⟩
    · cases hn
    · exact ⟨hc, first, by simpa only [status] using (unsupportedPP_iff c h x v).mp hpp⟩
    · cases hn
  · rintro ⟨hc, first, hr⟩
    have isStatus : ∃ x, r = .status x := by
      rcases hr with ⟨e, _⟩ | ⟨e | e, _⟩ <;> exact ⟨_, e⟩
    obtain ⟨x, rfl⟩ := isStatus
    simp only [status] at hr first
    have hpp := (unsupportedPP_iff c h x v).mpr hr
    unfold csrRefusal
    dsimp only
    rw [if_neg first, if_pos ⟨hc, hpp⟩]

/-- Settles O30. -/
theorem csrChecks : Obligations.CsrChecks := by
  refine ⟨fun s i a w hi => ⟨csrAccess_none .., fun hn hy => ?_⟩,
    fun c h r v => ⟨refusal_translation .., refusal_mode .., refusal_code .., fun e he => ?_⟩,
    fun c intr code h => causeLegal_iff c intr h, fun a x => ?_, fun c x r => ⟨fun hr => ?_, fun hr => ?_, fun hr => ?_, fun hr => ?_,
    fun hr => ?_⟩⟩
  · obtain ⟨rd, reads, f, hx⟩ := exec_csr hi s
    rw [hx, csrInstr, hn]
    exact raise_tookTrap .illegal none hy
  · rcases csrRefusal_some he with ⟨_, _, h⟩ | ⟨_, h, _⟩ | ⟨_, h, _⟩
    exacts [.inl h, .inr (.inl h), .inr (.inr h)]
  · simp only [csrOfNum_iff]
    cases x <;> simp [csrTable, modeNum]
  · simp only [List.mem_cons, List.not_mem_nil, or_false] at hr
    rcases hr with rfl | rfl | rfl | rfl | rfl | rfl | rfl | rfl <;> exact canHandle_iff c x
  · simp only [List.mem_cons, List.not_mem_nil, or_false] at hr
    rcases hr with rfl | rfl <;> exact delegates_iff c x
  · simp only [List.mem_cons, List.not_mem_nil, or_false] at hr
    rcases hr with rfl | rfl | rfl <;> rfl
  · simp only [List.mem_cons, List.not_mem_nil, or_false] at hr
    rcases hr with rfl | rfl | rfl <;> exact beq_iff_eq
  · simp only [List.mem_cons, List.not_mem_nil, or_false] at hr
    rcases hr with rfl | rfl | rfl <;> rfl

end Sys2Proof.CsrAccesses
end
